-- ==== Sys2Proof/Word.lean ====
section
/-! DEFINITION. The word types of the block (00_scope.md R8, R9): unsigned bytes, 16-bit and 32-bit words, bit strings,
and the sparse table by which every indexed store of the block is held. -/

namespace Sys2Proof

/-- `u8` of R8. -/
abbrev Byte := BitVec 8

/-- `u16` of R8. -/
abbrev Half := BitVec 16

/-- `u32` of R8. -/
abbrev Word := BitVec 32

/-- A bit string of R9, first bit written or read first. -/
abbrev Bits := List Bool

/-- An indexed store held sparsely: the occupied indices with their values. Its canonical form (`tableWf`) has the
indices strictly rising; an index that is not listed holds no value. -/
abbrev Table (α : Type) := List (Nat × α)

end Sys2Proof
end

