-- ==== Sys2Proof/Config.lean ====
section
/-! DEFINITION. What an implementation fixes (00_scope.md R7) and the values the spec leaves open. -/

namespace Sys2Proof

/-- The two parameters that R7 marks OPEN. They are "an argument of the model": a machine state carries them, no step
changes them, and every statement about all states is a statement about all of their values. -/
structure Config where
  /-- CACHE_CAPACITY, N (D5). -/
  cacheCapacity : Nat
  /-- TOKBUF_DEPTH (D13): `none` is "unbounded". -/
  tokbufDepth : Option Nat
  /-- R7: 1 <= N. -/
  capacity_pos : 1 ≤ cacheCapacity
  /-- R7: N <= 256. -/
  capacity_le : cacheCapacity ≤ 256
  /-- R7: TOKBUF_DEPTH is positive. -/
  depth_pos : tokbufDepth ≠ some 0
deriving DecidableEq, Repr

/-- The parameters of the test vectors (95_test_vectors.md, Conventions): N = 256, TOKBUF_DEPTH unbounded.
DESIGN CHOICE (notes/assumptions/1.md): the power-up state carries these; no statement rests on them. -/
def Config.vectors : Config where
  cacheCapacity := 256
  tokbufDepth := none
  capacity_pos := by decide
  capacity_le := by decide
  depth_pos := by decide

/-- FREE VALUE (notes/assumptions/2.md): the packed pixel that the `n`-th read of an entry of LINEBUF or OUT holding no
value delivers (10_state.md R57; 93_implementation_defined.md B2, B3 say "any value"). It has no body: nothing is
known of it. -/
opaque Config.freePixel : Nat → Word

/-- FREE VALUE (notes/assumptions/3.md): what the 32-bit TOKCOUNT holds once TOKBUF has 2^32 tokens or more, which
10_state.md R32 does not say. It is applied to the length of TOKBUF. No command's effect depends on it. -/
opaque Config.tokCountPast : Nat → Word

end Sys2Proof
end

