-- ==== Sys2Proof/Syntax.lean ====
section
/-! DEFINITION. The instructions: one constructor for each row of spec/opcode_table.json, which is 27 commands
(30_encoding.md R118) and 5 elements of the wire format that the decoder interprets (R90, R93, R103; 00_scope.md R1). -/

namespace Sys2Proof

/-- A pixel `(r, g, b, a)` (R3, R10). -/
structure Pixel where
  r : Byte
  g : Byte
  b : Byte
  a : Byte
deriving DecidableEq, Repr

/-- A prefix-code tree (10_state.md R35): a leaf holds a value, an internal node has the child of code bit 0 (left) and
the child of code bit 1 (right). -/
inductive CodeTree where
  | leaf (v : Byte)
  | internal (l r : CodeTree)
deriving DecidableEq, Repr

/-- The places of the stream at which the decoder looks for an element (30_encoding.md R90, R93): the header, the
class-id position of the codebook table, a node position of a tree. -/
inductive StreamPos where
  | header
  | table
  | tree
deriving DecidableEq, Repr

/-- The instructions of spec/opcode_table.json. -/
inductive Instr where
  /-- BW_WRITE_BIT (R131). -/
  | bwWriteBit (bit : Bool)
  /-- BW_WRITE_BITS (R132). -/
  | bwWriteBits (width : Byte) (value : Word)
  /-- BW_FLUSH (R133). -/
  | bwFlush
  /-- BR_READ_BIT (R141). -/
  | brReadBit
  /-- BR_READ_BITS (R142). -/
  | brReadBits (width : Byte)
  /-- MTF_CHECK_AND_INSERT (R160). -/
  | mtfCheckAndInsert (p : Pixel)
  /-- MTF_FETCH (R162). -/
  | mtfFetch (index : Byte)
  /-- MTF_CLEAR (R164). -/
  | mtfClear
  /-- HTB_COUNT (R180). -/
  | htbCount (k v : Byte)
  /-- HTB_BUILD (R182). -/
  | htbBuild (k : Byte)
  /-- HTB_DERIVE (R186). -/
  | htbDerive (k : Byte)
  /-- HE_PUT_TOKEN (R200). -/
  | hePutToken (k v : Byte)
  /-- HE_ENCODE_TOKEN (R202). -/
  | heEncodeToken (k v : Byte)
  /-- HE_WRITE_TABLE (R204). -/
  | heWriteTable
  /-- HE_WRITE_PAYLOAD (R206). -/
  | heWritePayload
  /-- HE_FINISH (R207). -/
  | heFinish
  /-- HD_READ_TABLE (R220). -/
  | hdReadTable
  /-- HD_READ (R224). -/
  | hdRead (k : Byte)
  /-- PX_SET_DIM (R239). -/
  | pxSetDim (w h : Half)
  /-- PX_ENC_PIXEL (R240). -/
  | pxEncPixel (p : Pixel)
  /-- PX_ENC_END (R252). -/
  | pxEncEnd
  /-- PX_DEC_PIXEL (R260). -/
  | pxDecPixel
  /-- ENCODE (R280). -/
  | encodeImage (w h : Half)
  /-- DECODE (R282). -/
  | decodeImage
  /-- DECODE_HEADER (R284). -/
  | decodeHeader
  /-- STATUS_READ (R286). -/
  | statusRead
  /-- RESET (R340). -/
  | reset
  /-- STREAM_HEADER, the container header (R90 to R92). -/
  | streamHeader (w h : Half)
  /-- TABLE_RECORD, one record of the codebook table (R93). -/
  | tableRecord (k : Byte) (t : CodeTree)
  /-- TREE_INTERNAL, an internal node with its two subtrees (R93, R94). -/
  | treeInternal (l r : CodeTree)
  /-- TREE_LEAF, a leaf (R93). -/
  | treeLeaf (v : Byte)
  /-- TABLE_SENTINEL, the end of the codebook table (R93, R103). -/
  | tableSentinel
deriving DecidableEq, Repr

end Sys2Proof
end

