-- ==== Sys2Proof/WellFormed.lean ====
section
/-! DEFINITION. The checks an instruction must pass to be one of the opcode table: a table record has a class id other than
the sentinel's, and a tree has at most MAX_TREE_NODES nodes. Every operand of a command is legal as an encoding
(a width above 32 or class 255 is an encoding whose command fails, R132, R180). -/

namespace Sys2Proof

/-- The number of nodes of a tree (10_state.md R35). -/
def CodeTree.size : CodeTree → Nat
  | .leaf _ => 1
  | .internal l r => 1 + l.size + r.size

/-- The number of leaves of a tree (30_encoding.md R95). -/
def CodeTree.leaves : CodeTree → Nat
  | .leaf _ => 1
  | .internal l r => l.leaves + r.leaves

/-- MAX_TREE_NODES (R7, D12). -/
abbrev maxTreeNodes : Nat := 511

/-- The class id that is never a class (30_encoding.md R103). -/
abbrev sentinelId : Byte := 255#8

/-- R103: a record's class id is not the sentinel. -/
abbrev classOk (k : Byte) : Prop := k ≠ sentinelId

/-- R35, R97: a tree fits the tree store. -/
abbrev treeOk (t : CodeTree) : Prop := t.size ≤ maxTreeNodes

/-- An instruction the encoding can carry. -/
def WellFormed : Instr → Bool
  | .bwWriteBit _ => true
  | .bwWriteBits _ _ => true
  | .bwFlush => true
  | .brReadBit => true
  | .brReadBits _ => true
  | .mtfCheckAndInsert _ => true
  | .mtfFetch _ => true
  | .mtfClear => true
  | .htbCount _ _ => true
  | .htbBuild _ => true
  | .htbDerive _ => true
  | .hePutToken _ _ => true
  | .heEncodeToken _ _ => true
  | .heWriteTable => true
  | .heWritePayload => true
  | .heFinish => true
  | .hdReadTable => true
  | .hdRead _ => true
  | .pxSetDim _ _ => true
  | .pxEncPixel _ => true
  | .pxEncEnd => true
  | .pxDecPixel => true
  | .encodeImage _ _ => true
  | .decodeImage => true
  | .decodeHeader => true
  | .statusRead => true
  | .reset => true
  | .streamHeader _ _ => true
  | .treeLeaf _ => true
  | .tableSentinel => true
  | .tableRecord k t => decide (classOk k ∧ treeOk t)
  | .treeInternal l r => decide (treeOk (.internal l r))

end Sys2Proof
end

