-- ==== Sys2Proof/Decode.lean ====
section
/-! DEFINITION. The decoder of command words (30_encoding.md R118, R119, R121) and of the elements of the wire format
(R90 to R97, R103), and after it the encoder, both from the same encoding tables. -/

namespace Sys2Proof

/-- Why bits are no instruction. The first two are the illegal commands of R121; the others are the failures that the
decoder meets in the stream (R97, 46_top_level.md R279, 20_memory.md R77). -/
inductive Reject where
  /-- An opcode not in R118. -/
  | unknownOpcode (op : Byte)
  /-- A field that must be 0 and is not (R119). -/
  | reservedField
  /-- The bits end inside the element. -/
  | truncated
  /-- A tree of more than MAX_TREE_NODES nodes (R97). -/
  | treeTooLarge
  /-- The header's first seven bytes are not the magic (R91). -/
  | badMagic
deriving DecidableEq, Repr

/-- What an instruction is encoded as: a 64-bit command word, or bits of the stream at a position. -/
inductive Code where
  | command (w : BitVec 64)
  | element (pos : StreamPos) (bits : Bits)
deriving DecidableEq, Repr

/-! ## Command words -/

/-- OP, bits 7:0 (R119). -/
def fieldOp (w : BitVec 64) : Byte := w.extractLsb' 0 8
/-- A, bits 15:8 (R119). -/
def fieldA (w : BitVec 64) : Byte := w.extractLsb' 8 8
/-- V, bits 23:16 (R119). -/
def fieldV (w : BitVec 64) : Byte := w.extractLsb' 16 8
/-- RSV, bits 31:24 (R119). -/
def fieldRsv (w : BitVec 64) : Byte := w.extractLsb' 24 8
/-- D, bits 63:32 (R119). -/
def fieldD (w : BitVec 64) : Word := w.extractLsb' 32 32

/-- The pixel packed in a D field: `r << 24 | g << 16 | b << 8 | a` (R119). -/
def unpackPixel (d : Word) : Pixel :=
  { r := d.extractLsb' 24 8, g := d.extractLsb' 16 8, b := d.extractLsb' 8 8, a := d.extractLsb' 0 8 }

/-- The packed form of a pixel (R10, R119). -/
def packPixel (p : Pixel) : Word := p.r ++ p.g ++ p.b ++ p.a

/-- W = D[31:16] (R239, R280). -/
def fieldW (d : Word) : Half := d.extractLsb' 16 16
/-- H = D[15:0] (R239, R280). -/
def fieldH (d : Word) : Half := d.extractLsb' 0 16
/-- `W << 16 | H` (R282). -/
def packDim (w h : Half) : Word := w ++ h

/-- The instruction if every must-be-0 field is 0, else an illegal command (R119, R121). -/
def whenZero (zero : Bool) (i : Instr) : Except Reject Instr :=
  if zero then .ok i else .error .reservedField

/-- The command of an opcode with its operand fields, RSV being 0 (R118). -/
def decodeFields (op a v : Byte) (d : Word) : Except Reject Instr :=
  match op.toNat with
  | 0x01 => whenZero (a == 0 && v.extractLsb' 1 7 == 0 && d == 0) (.bwWriteBit (v.getLsbD 0))
  | 0x02 => whenZero (v == 0) (.bwWriteBits a d)
  | 0x03 => whenZero (a == 0 && v == 0 && d == 0) .bwFlush
  | 0x08 => whenZero (a == 0 && v == 0 && d == 0) .brReadBit
  | 0x09 => whenZero (v == 0 && d == 0) (.brReadBits a)
  | 0x10 => whenZero (a == 0 && v == 0) (.mtfCheckAndInsert (unpackPixel d))
  | 0x11 => whenZero (v == 0 && d == 0) (.mtfFetch a)
  | 0x12 => whenZero (a == 0 && v == 0 && d == 0) .mtfClear
  | 0x18 => whenZero (d == 0) (.htbCount a v)
  | 0x19 => whenZero (v == 0 && d == 0) (.htbBuild a)
  | 0x1A => whenZero (v == 0 && d == 0) (.htbDerive a)
  | 0x20 => whenZero (d == 0) (.hePutToken a v)
  | 0x21 => whenZero (d == 0) (.heEncodeToken a v)
  | 0x22 => whenZero (a == 0 && v == 0 && d == 0) .heWriteTable
  | 0x23 => whenZero (a == 0 && v == 0 && d == 0) .heWritePayload
  | 0x24 => whenZero (a == 0 && v == 0 && d == 0) .heFinish
  | 0x28 => whenZero (a == 0 && v == 0 && d == 0) .hdReadTable
  | 0x29 => whenZero (v == 0 && d == 0) (.hdRead a)
  | 0x30 => whenZero (a == 0 && v == 0) (.pxSetDim (fieldW d) (fieldH d))
  | 0x31 => whenZero (a == 0 && v == 0) (.pxEncPixel (unpackPixel d))
  | 0x32 => whenZero (a == 0 && v == 0 && d == 0) .pxEncEnd
  | 0x33 => whenZero (a == 0 && v == 0 && d == 0) .pxDecPixel
  | 0x38 => whenZero (a == 0 && v == 0) (.encodeImage (fieldW d) (fieldH d))
  | 0x39 => whenZero (a == 0 && v == 0 && d == 0) .decodeImage
  | 0x3A => whenZero (a == 0 && v == 0 && d == 0) .decodeHeader
  | 0x3E => whenZero (a == 0 && v == 0 && d == 0) .statusRead
  | 0x3F => whenZero (a == 0 && v == 0 && d == 0) .reset
  | _ => .error (.unknownOpcode op)

/-- The command of a 64-bit word (R118, R119); an error is an illegal command (R121). -/
def decodeCommand (w : BitVec 64) : Except Reject Instr :=
  if fieldRsv w = 0 then decodeFields (fieldOp w) (fieldA w) (fieldV w) (fieldD w) else .error .reservedField

/-! ## Elements of the stream

Each is written once over an arbitrary way `rd` to read the next bit: the pure decoder reads a bit string, the machine
reads through its bitstream_reader (Machine/Bitstream.lean). -/

/-- `width` bits, most significant first, after the bits already in `v` (40_bitstream.md R142; 20_memory.md R64). -/
def parseBits {ε σ : Type} (rd : EStateM ε σ Bool) : Nat → Word → EStateM ε σ Word
  | 0, v => pure v
  | n + 1, v => do
    let b ← rd
    parseBits rd n ((v <<< 1) ||| (BitVec.ofBool b).setWidth 32)

/-- An 8-bit field. -/
def parseByte {ε σ : Type} (rd : EStateM ε σ Bool) : EStateM ε σ Byte := do
  let v ← parseBits rd 8 0
  pure (v.setWidth 8)

/-- A 16-bit field. -/
def parseHalf {ε σ : Type} (rd : EStateM ε σ Bool) : EStateM ε σ Half := do
  let v ← parseBits rd 16 0
  pure (v.setWidth 16)

/-- `Node()` of 44_huffman_decoder.md R221, with the count of the nodes met before it. The count is checked when the
node's first bit is about to be read. The first argument bounds the depth: it starts at MAX_TREE_NODES + 1, and a node
at that depth has that many nodes before it or is one of them, so the count has failed already. -/
def parseNode {ε σ : Type} (rd : EStateM ε σ Bool) (tooLarge : ε) : Nat → Nat → EStateM ε σ (CodeTree × Nat)
  | 0, _ => throw tooLarge
  | fuel + 1, count =>
    if count + 1 > maxTreeNodes then throw tooLarge
    else do
      let b ← rd
      if b then do
        let l ← parseNode rd tooLarge fuel (count + 1)
        let r ← parseNode rd tooLarge fuel l.2
        pure (.internal l.1 r.1, r.2)
      else do
        let v ← parseByte rd
        pure (.leaf v, count + 1)

/-- `ReadTree()` of R221. -/
def parseTree {ε σ : Type} (rd : EStateM ε σ Bool) (tooLarge : ε) : EStateM ε σ CodeTree := do
  let t ← parseNode rd tooLarge (maxTreeNodes + 1) 0
  pure t.1

/-- The next item of the codebook table (30_encoding.md R93, R103): a record, or `none` for the sentinel. -/
def parseItem {ε σ : Type} (rd : EStateM ε σ Bool) (tooLarge : ε) : EStateM ε σ (Option (Byte × CodeTree)) := do
  let k ← parseByte rd
  if k = sentinelId then pure none
  else do
    let t ← parseTree rd tooLarge
    pure (some (k, t))

/-- The seven bytes of the magic (R91). -/
def magic : List Byte := [0x70#8, 0x69#8, 0x63#8, 0x63#8, 0x6F#8, 0x6D#8, 0x70#8]

/-- `n` 8-bit fields. -/
def parseBytes {ε σ : Type} (rd : EStateM ε σ Bool) : Nat → EStateM ε σ (List Byte)
  | 0 => pure []
  | n + 1 => do
    let b ← parseByte rd
    let bs ← parseBytes rd n
    pure (b :: bs)

/-- The magic, compared after all seven bytes are read (46_top_level.md R279, D23). -/
def parseMagic {ε σ : Type} (rd : EStateM ε σ Bool) (badMagic : ε) : EStateM ε σ Unit := do
  let m ← parseBytes rd 7
  if m = magic then pure () else throw badMagic

/-- The element of the stream at a position (30_encoding.md R90, R93; spec/opcode_table.json's STREAM rows). -/
def parseElement {ε σ : Type} (rd : EStateM ε σ Bool) (tooLarge badMagic : ε) : StreamPos → EStateM ε σ Instr
  | .header => do
    parseMagic rd badMagic
    let w ← parseHalf rd
    let h ← parseHalf rd
    pure (.streamHeader w h)
  | .table => do
    let item ← parseItem rd tooLarge
    match item with
    | none => pure .tableSentinel
    | some (k, t) => pure (.tableRecord k t)
  | .tree => do
    let t ← parseTree rd tooLarge
    match t with
    | .leaf v => pure (.treeLeaf v)
    | .internal l r => pure (.treeInternal l r)

/-- The next bit of a bit string. -/
def nextBit : EStateM Reject Bits Bool
  | [] => .error .truncated []
  | b :: bs => .ok b bs

/-- The element at a position of a bit string, with the bits after it. -/
def decodeElement (pos : StreamPos) (bits : Bits) : Except Reject (Instr × Bits) :=
  match parseElement nextBit .treeTooLarge .badMagic pos bits with
  | .ok i rest => .ok (i, rest)
  | .error r _ => .error r

/-- The decoder: total, and it rejects by name. It answers the instruction and the stream bits that follow it. -/
def decode : Code → Except Reject (Instr × Bits)
  | .command w => (decodeCommand w).map fun i => (i, [])
  | .element pos bits => decodeElement pos bits

/-! ## The encoder -/

/-- A command word from its fields, RSV being 0 (R119). -/
def commandWord (op a v : Byte) (d : Word) : BitVec 64 := d ++ 0#8 ++ v ++ a ++ op

/-- `bin_w(v)` of R9: the low `w` bits of `v`, most significant first. -/
def bin : Nat → Word → Bits
  | 0, _ => []
  | n + 1, v => v.getLsbD n :: bin n v

/-- `bin_8(v)` of a byte. -/
def binByte (v : Byte) : Bits := bin 8 (v.setWidth 32)

/-- `bin_16(v)` of a dimension. -/
def binHalf (v : Half) : Bits := bin 16 (v.setWidth 32)

/-- The serialised tree of R93. -/
def binTree : CodeTree → Bits
  | .leaf v => false :: binByte v
  | .internal l r => true :: (binTree l ++ binTree r)

/-- The code of an instruction: the word of a command (R118, R119), the bits of a stream element (R90, R93). -/
def encode : Instr → Code
  | .bwWriteBit b => .command (commandWord 0x01 0 ((BitVec.ofBool b).setWidth 8) 0)
  | .bwWriteBits w v => .command (commandWord 0x02 w 0 v)
  | .bwFlush => .command (commandWord 0x03 0 0 0)
  | .brReadBit => .command (commandWord 0x08 0 0 0)
  | .brReadBits w => .command (commandWord 0x09 w 0 0)
  | .mtfCheckAndInsert p => .command (commandWord 0x10 0 0 (packPixel p))
  | .mtfFetch i => .command (commandWord 0x11 i 0 0)
  | .mtfClear => .command (commandWord 0x12 0 0 0)
  | .htbCount k v => .command (commandWord 0x18 k v 0)
  | .htbBuild k => .command (commandWord 0x19 k 0 0)
  | .htbDerive k => .command (commandWord 0x1A k 0 0)
  | .hePutToken k v => .command (commandWord 0x20 k v 0)
  | .heEncodeToken k v => .command (commandWord 0x21 k v 0)
  | .heWriteTable => .command (commandWord 0x22 0 0 0)
  | .heWritePayload => .command (commandWord 0x23 0 0 0)
  | .heFinish => .command (commandWord 0x24 0 0 0)
  | .hdReadTable => .command (commandWord 0x28 0 0 0)
  | .hdRead k => .command (commandWord 0x29 k 0 0)
  | .pxSetDim w h => .command (commandWord 0x30 0 0 (packDim w h))
  | .pxEncPixel p => .command (commandWord 0x31 0 0 (packPixel p))
  | .pxEncEnd => .command (commandWord 0x32 0 0 0)
  | .pxDecPixel => .command (commandWord 0x33 0 0 0)
  | .encodeImage w h => .command (commandWord 0x38 0 0 (packDim w h))
  | .decodeImage => .command (commandWord 0x39 0 0 0)
  | .decodeHeader => .command (commandWord 0x3A 0 0 0)
  | .statusRead => .command (commandWord 0x3E 0 0 0)
  | .reset => .command (commandWord 0x3F 0 0 0)
  | .streamHeader w h => .element .header (magic.flatMap binByte ++ binHalf w ++ binHalf h)
  | .tableRecord k t => .element .table (binByte k ++ binTree t)
  | .treeInternal l r => .element .tree (binTree (.internal l r))
  | .treeLeaf v => .element .tree (binTree (.leaf v))
  | .tableSentinel => .element .table (binByte sentinelId)

/-! ## The opcode table's numbering -/

/-- The bytes of the longest element: a record of 8 bits with a tree of 255 internal nodes and 256 leaves (R95). -/
abbrev longestElement : Nat := 321

/-- Whether a row of `nbits` bits is a command word; otherwise it is an element of the stream. DESIGN CHOICE
(notes/assumptions/5.md). -/
def rowIsCommand (nbits : Nat) : Bool := decide (24 < nbits) && decide (nbits ≤ 64)

/-- The stream position of a row of `nbits` bits, being `w`, that is no command word: one byte is TABLE_SENTINEL if it is
255, else the start of a TREE_INTERNAL; TREE_LEAF has 9 bits (two bytes), a TABLE_RECORD with one leaf 17 (three bytes),
STREAM_HEADER 88. DESIGN CHOICE (notes/assumptions/5.md). -/
def rowPos (nbits w : Nat) : StreamPos :=
  if nbits ≤ 8 then (if w = 255 then .table else .tree) else if nbits ≤ 16 then .tree else if nbits ≤ 24 then .table else .header

/-- `n` bytes of a number, bits 7:0 first. -/
def rowBytes : Nat → Nat → List Byte
  | 0, _ => []
  | n + 1, w => BitVec.ofNat 8 w :: rowBytes n (w / 256)

/-- The instruction the decoder reads from a row's bits, the bits above them being 0. -/
def decodeTableWord (nbits w : Nat) : Option Instr :=
  if rowIsCommand nbits then
    match decodeCommand (BitVec.ofNat 64 w) with
    | .ok i => some i
    | .error _ => none
  else
    match decodeElement (rowPos nbits w) ((rowBytes longestElement w).flatMap binByte) with
    | .ok (i, _) => some i
    | .error _ => none

end Sys2Proof
end

