-- ==== Sys2Proof/Machine/State.lean ====
section
/-! DEFINITION. The state of the block (10_state.md R20 to R58), the external agents and the command interface as plain data
(20_memory.md R60; 30_encoding.md R118, R120), the machine right after reset (70_reset_and_hazards.md R340, R342), and the
reasons a step can stop. -/

namespace Sys2Proof.Machine

/-! ## Failures and responses (60_exceptions.md R300, R301; 30_encoding.md R120) -/

/-- The error kinds of R300 (code 0, "none", is never in a response). -/
inductive Kind where
  | io
  | format
  | truncated
  | input
  | capacity
  | usage
deriving DecidableEq, Repr

/-- The error causes of R301. -/
inductive Cause where
  | sinkIo
  | sourceIo
  | pixelIo
  | badMagic
  | unknownTag
  | classNotFound
  | lookupRange
  | eos
  | pixelMissing
  | tokbufFull
  | countOverflow
  | treeTooLarge
  | illegalCommand
  | widthRange
  | classRange
  | noCode
  | fetchRange
  | imageComplete
  | cacheState
  | failedState
deriving DecidableEq, Repr

/-- The response that completes a command (R120). -/
inductive Response where
  | ok (result : Word)
  | err (kind : Kind) (cause : Cause)
deriving DecidableEq, Repr

/-! ## The external agents (20_memory.md R60) -/

/-- An answer of the byte sink to `SinkPut`. -/
inductive SinkAnswer where
  | ok
  | ioerr
deriving DecidableEq, Repr

/-- An answer of the byte source to `SourceGet`. -/
inductive SourceAnswer where
  | byte (b : Byte)
  | eos
  | ioerr
deriving DecidableEq, Repr

/-- An answer of the pixel source to `PixelGet`. -/
inductive PixelAnswer where
  | pixel (p : Pixel)
  | missing
  | ioerr
deriving DecidableEq, Repr

/-- The three agents. Their answers are inputs of the model, one for each access, in order, and the model assumes
nothing of them (R60): a statement about every state is a statement about all of their answers. When a list of answers
is used up, the sink answers `ok`, the byte source `eos` and the pixel source `missing`, as in the conventions of
95_test_vectors.md (notes/assumptions/4.md). -/
structure Agents where
  /-- The sink's next answers. -/
  sinkAnswers : List SinkAnswer
  /-- The bytes delivered to the sink, in order. -/
  sink : List Byte
  /-- The byte source's next answers. -/
  source : List SourceAnswer
  /-- The pixel source's next answers. -/
  pixels : List PixelAnswer
deriving DecidableEq, Repr

/-- What the host issues: a command word (R118), or one element of the stream to be interpreted by itself
(notes/assumptions/5.md). -/
inductive Issue where
  | command (w : BitVec 64)
  | element (pos : StreamPos)
deriving DecidableEq, Repr

/-- The command interface: what the host has still to issue, in order, and the responses given, in order (R118, R120;
70_reset_and_hazards.md R350). -/
structure HostPort where
  issues : List Issue
  responses : List Response
deriving DecidableEq, Repr

/-! ## The units -/

/-- bitstream_writer: BW_ACC (R22) and BW_N (R23). -/
structure BitWriter where
  acc : Byte
  n : Nat
deriving DecidableEq, Repr

/-- bitstream_reader: BR_CUR (R24) and BR_N (R25). -/
structure BitReader where
  cur : Byte
  n : Nat
deriving DecidableEq, Repr

/-- huffman_tree_builder: FREQ (R28) and CODE (R30), the entry of class k and value v at index 256·k + v, and ETREE
(R29) by class. An index of FREQ that is not listed counts 0; one of ETREE or CODE is absent. -/
structure TreeBuilder where
  freq : Table Word
  etree : Table CodeTree
  code : Table Bits
deriving DecidableEq, Repr

/-- A token `(k, v)` (R12, R31). -/
structure Token where
  k : Byte
  v : Byte
deriving DecidableEq, Repr

/-- huffman_decoder: DTREE by class (R33), an index not listed being absent, and DT_LOADED (R34). -/
structure HuffDecoder where
  dtree : Table CodeTree
  loaded : Bool
deriving DecidableEq, Repr

/-- The image being processed: W (R44), H (R45) and the index I of the next pixel (R46). -/
structure ImageState where
  w : Half
  h : Half
  i : Word
deriving DecidableEq, Repr

/-- A memory of pixels addressed by index (20_memory.md R61); an index not listed holds no value. -/
abbrev Memory := Table Pixel

/-- The pixel codec's encode side: PRIOR (R40), RUN (R41), LINEBUF (R47). -/
structure PxEncoder where
  prior : Pixel
  run : Word
  linebuf : Memory
deriving DecidableEq, Repr

/-- The pixel codec's decode side: C (R42), DRUN (R43), OUT (R50). -/
structure PxDecoder where
  c : Pixel
  drun : Word
  out : Memory
deriving DecidableEq, Repr

/-- The state of the machine. -/
structure State where
  /-- The parameters of R7; no step changes them (R20, R352). -/
  config : Config
  /-- BW_ACC, BW_N. -/
  writer : BitWriter
  /-- BR_CUR, BR_N. -/
  reader : BitReader
  /-- MTF_E, the occupied entries only, most recent first (R27). MTF_LEN (R26) is its length. -/
  mtf : List Pixel
  /-- FREQ, ETREE, CODE. -/
  builder : TreeBuilder
  /-- TOKBUF (R31). TOKCOUNT (R32) is `tokCount` of Machine/Operands.lean. -/
  tokbuf : List Token
  /-- DTREE, DT_LOADED. -/
  decoder : HuffDecoder
  /-- W, H, I. -/
  image : ImageState
  /-- PRIOR, RUN, LINEBUF. -/
  enc : PxEncoder
  /-- C, DRUN, OUT. -/
  dec : PxDecoder
  /-- STATUS (R51). -/
  status : Word
  /-- The model's own: the agents. -/
  agents : Agents
  /-- The model's own: the command interface. -/
  host : HostPort
  /-- The model's own: how many free values have been read (notes/assumptions/2.md). -/
  freeCount : Nat
  /-- The model's own: the tree that a tree element interpreted by itself delivers (notes/assumptions/5.md). -/
  treeOut : Option CodeTree
deriving DecidableEq, Repr

/-- `Z`, the zero color (R10). -/
def zeroPixel : Pixel := ⟨0, 0, 0, 0⟩

/-- The block at power-up, which is the state RESET gives (R57, R340, R342), with nothing attached or issued. -/
def State.reset : State where
  config := Config.vectors
  writer := ⟨0, 0⟩
  reader := ⟨0, 0⟩
  mtf := []
  builder := ⟨[], [], []⟩
  tokbuf := []
  decoder := ⟨[], false⟩
  image := ⟨0, 0, 0⟩
  enc := ⟨zeroPixel, 0, []⟩
  dec := ⟨zeroPixel, 0, []⟩
  status := 0
  agents := ⟨[], [], [], []⟩
  host := ⟨[], []⟩
  freeCount := 0
  treeOut := none

/-- The reasons the machine stops with a fault: there are none. Every failure of the spec completes the command with an
ERR response and leaves the block running (60_exceptions.md R310, R323), which is a next state. -/
inductive Fault where
deriving DecidableEq, Repr

/-- The reasons an instruction has no meaning. -/
inductive Refusal where
  /-- Raised by an arm of `exec` whose instruction is not modelled; safe, since the machine stops. No arm raises it. -/
  | notModelled (mnemonic : String)
deriving DecidableEq, Repr

/-! ## Updates of one part of the state -/

def State.setWriter (s : State) (x : BitWriter) : State := { s with writer := x }
def State.setReader (s : State) (x : BitReader) : State := { s with reader := x }
def State.setMtf (s : State) (x : List Pixel) : State := { s with mtf := x }
def State.setBuilder (s : State) (x : TreeBuilder) : State := { s with builder := x }
def State.setTokbuf (s : State) (x : List Token) : State := { s with tokbuf := x }
def State.setDecoder (s : State) (x : HuffDecoder) : State := { s with decoder := x }
def State.setImage (s : State) (x : ImageState) : State := { s with image := x }
def State.setEnc (s : State) (x : PxEncoder) : State := { s with enc := x }
def State.setDec (s : State) (x : PxDecoder) : State := { s with dec := x }
def State.setStatus (s : State) (x : Word) : State := { s with status := x }
def State.setAgents (s : State) (x : Agents) : State := { s with agents := x }
def State.setHost (s : State) (x : HostPort) : State := { s with host := x }
def State.setFreeCount (s : State) (x : Nat) : State := { s with freeCount := x }
def State.setTreeOut (s : State) (x : Option CodeTree) : State := { s with treeOut := x }

end Sys2Proof.Machine
end

