-- ==== Sys2Proof/Machine/Flags.lean ====
section
/-! DEFINITION. The codes of the failures (60_exceptions.md R300, R301) and the fields of the STATUS register (10_state.md R51).
The block has no other flag (R54). -/

namespace Sys2Proof.Machine

/-- ERR_KIND (R300). -/
def Kind.code : Kind → Byte
  | .io => 1
  | .format => 2
  | .truncated => 3
  | .input => 4
  | .capacity => 5
  | .usage => 6

/-- ERR_CAUSE (R301). -/
def Cause.code : Cause → Byte
  | .sinkIo => 1
  | .sourceIo => 2
  | .pixelIo => 3
  | .badMagic => 4
  | .unknownTag => 5
  | .classNotFound => 6
  | .lookupRange => 7
  | .eos => 8
  | .pixelMissing => 9
  | .tokbufFull => 10
  | .countOverflow => 11
  | .treeTooLarge => 12
  | .illegalCommand => 13
  | .widthRange => 14
  | .classRange => 15
  | .noCode => 16
  | .fetchRange => 17
  | .imageComplete => 18
  | .cacheState => 19
  | .failedState => 20

/-- The kind a cause belongs to (R301). -/
def Cause.kind : Cause → Kind
  | .sinkIo => .io
  | .sourceIo => .io
  | .pixelIo => .io
  | .badMagic => .format
  | .unknownTag => .format
  | .classNotFound => .format
  | .lookupRange => .format
  | .eos => .truncated
  | .pixelMissing => .input
  | .tokbufFull => .capacity
  | .countOverflow => .capacity
  | .treeTooLarge => .capacity
  | .illegalCommand => .usage
  | .widthRange => .usage
  | .classRange => .usage
  | .noCode => .usage
  | .fetchRange => .usage
  | .imageComplete => .usage
  | .cacheState => .usage
  | .failedState => .usage

/-- STATUS.FAILED, bit 0 (R51). -/
def State.failed (s : State) : Bool := s.status.getLsbD 0

/-- STATUS.ERR_KIND, bits 15:8 (R51). -/
def State.errKind (s : State) : Byte := s.status.extractLsb' 8 8

/-- STATUS.ERR_CAUSE, bits 23:16 (R51). -/
def State.errCause (s : State) : Byte := s.status.extractLsb' 16 8

/-- `cause << 16 | kind << 8 | 1` (60_exceptions.md R310). -/
def statusWord (c : Cause) : Word := 0#8 ++ c.code ++ c.kind.code ++ 1#8

end Sys2Proof.Machine
end

