-- ==== Sys2Proof/Machine/Table.lean ====
section
/-! DEFINITION. The operations over the sparse tables that hold the block's indexed stores (20_memory.md R61): one read, one
write, one removal, and what an unlisted index reads as is "no value". -/

namespace Sys2Proof.Machine

/-- The canonical form: the indices strictly rise. -/
abbrev tableWf {α : Type} (t : Table α) : Prop := t.Pairwise fun x y => x.1 < y.1

/-- The value at an index, or none. -/
def tableGet {α : Type} : Table α → Nat → Option α
  | [], _ => none
  | (j, a) :: t, k => if j = k then some a else tableGet t k

/-- The table with a value at an index, in its place of the order. -/
def tableSet {α : Type} : Table α → Nat → α → Table α
  | [], k, a => [(k, a)]
  | (j, b) :: t, k, a =>
    if k < j then (k, a) :: (j, b) :: t
    else if k = j then (k, a) :: t
    else (j, b) :: tableSet t k a

/-- The table with no value at an index. -/
def tableErase {α : Type} (t : Table α) (k : Nat) : Table α := t.filter fun e => decide (e.1 ≠ k)

/-! ## Tables indexed by a class and a value: FREQ and CODE (10_state.md R28, R30) -/

/-- The index of the entry of class `k` and value `v`. -/
def entryKey (k v : Byte) : Nat := k.toNat * 256 + v.toNat

/-- The entries of one class with their values, in the table's order (ascending value in the canonical form). -/
def tableRow {α : Type} (t : Table α) (k : Byte) : List (Byte × α) :=
  (t.filter fun e => decide (e.1 / 256 = k.toNat)).map fun e => (BitVec.ofNat 8 e.1, e.2)

/-- The table with every entry of one class absent. -/
def tableDropClass {α : Type} (t : Table α) (k : Byte) : Table α := t.filter fun e => decide (e.1 / 256 ≠ k.toNat)

/-! ## Memories of pixels: LINEBUF and OUT -/

/-- The canonical form of a memory of pixels. -/
abbrev Memory.wf (m : Memory) : Prop := tableWf m

/-- The pixel at an index, or none where it holds no value. -/
def Memory.read (m : Memory) (x : Nat) : Option Pixel := tableGet m x

/-- The memory with a pixel written at an index. -/
def Memory.write (m : Memory) (x : Nat) (p : Pixel) : Memory := tableSet m x p

end Sys2Proof.Machine
end

