-- ==== Sys2Proof/Machine/Operands.lean ====
section
/-! DEFINITION. The operand forms: class ids and tag values (30_encoding.md R104, R106), channel arithmetic (00_scope.md R8,
R10), the counts derived from the state (MTF_LEN, TOKCOUNT, FREQ and CODE entries) and the image's geometry. -/

namespace Sys2Proof.Machine

/-! ## Classes and tags -/

/-- The class names of R104. -/
inductive TokenClass where
  | tag
  | byteCount
  | runByte0
  | runByte1
  | runByte2
  | runByte3
  | lookup
  | deltaR
  | deltaG
  | deltaB
  | deltaA
deriving DecidableEq, Repr

/-- CLASS_ID (R104, D3). -/
def classId : TokenClass → Byte
  | .tag => 0
  | .byteCount => 1
  | .runByte0 => 2
  | .runByte1 => 3
  | .runByte2 => 4
  | .runByte3 => 5
  | .lookup => 6
  | .deltaR => 7
  | .deltaG => 8
  | .deltaB => 9
  | .deltaA => 10

/-- The run-byte class of the byte of significance `j` (R104, D6); `j` is 0 to 3 wherever it is used. -/
def runByteClass : Nat → TokenClass
  | 0 => .runByte0
  | 1 => .runByte1
  | 2 => .runByte2
  | _ => .runByte3

/-- The tags (R106). -/
inductive Tag where
  | run
  | lookup
  | delta
  | deltaUp
deriving DecidableEq, Repr

/-- TAG_VALUE (R106, D4). -/
def tagValue : Tag → Byte
  | .run => 0
  | .lookup => 1
  | .delta => 2
  | .deltaUp => 3

/-- The tag of a TAG token's value; the values 4 to 255 are illegal (R113). -/
def tagOf (v : Byte) : Option Tag :=
  if v = 0 then some .run
  else if v = 1 then some .lookup
  else if v = 2 then some .delta
  else if v = 3 then some .deltaUp
  else none

/-! ## Pixels -/

/-- The four channels in the fixed order R, G, B, A (R3). -/
inductive Channel where
  | r
  | g
  | b
  | a
deriving DecidableEq, Repr

/-- `P.ch` (R10). -/
def getChannel (p : Pixel) : Channel → Byte
  | .r => p.r
  | .g => p.g
  | .b => p.b
  | .a => p.a

/-- `P.ch <- x`. -/
def setChannel (p : Pixel) (ch : Channel) (x : Byte) : Pixel :=
  match ch with
  | .r => { p with r := x }
  | .g => { p with g := x }
  | .b => { p with b := x }
  | .a => { p with a := x }

/-- The delta class of a channel (R104). -/
def deltaClass : Channel → TokenClass
  | .r => .deltaR
  | .g => .deltaG
  | .b => .deltaB
  | .a => .deltaA

/-- The magnitude of a signed difference: `-s - 1` for a negative s, else s (45_pixel_codec.md R244). -/
def magnitude (d : Byte) : Nat := if d.toInt < 0 then (-d.toInt - 1).toNat else d.toInt.toNat

/-- One channel's part of `Stats`: the count so far and the maximum so far, with the channels' bytes (R244). -/
def statsStep (x : Nat × Nat) (p b : Byte) : Nat × Nat :=
  (if (p - b).toInt ≠ 0 then x.1 + 1 else x.1, max x.2 (magnitude (p - b)))

/-- `Stats(P, B)`: the differing channels and the largest magnitude (R244). -/
def stats (p b : Pixel) : Nat × Nat :=
  statsStep (statsStep (statsStep (statsStep (0, 0) p.r b.r) p.g b.g) p.b b.b) p.a b.a

/-- `Predict(P, prior, up)`: the base and the tag (R245). -/
def predict (p prior up : Pixel) : Pixel × Tag :=
  let sp := stats p prior
  let su := stats p up
  if su.1 < sp.1 ∨ (su.1 = sp.1 ∧ su.2 < sp.2) then (up, .deltaUp) else (prior, .delta)

/-! ## Counts of the state -/

/-- MTF_LEN (10_state.md R26). -/
def State.mtfLen (s : State) : Nat := s.mtf.length

/-- TOKCOUNT (10_state.md R32), a 32-bit register: the length of TOKBUF, and a free value where the length does not fit
(notes/assumptions/3.md). The commands that the rules give TOKCOUNT to read go by the length of TOKBUF itself. -/
def State.tokCount (s : State) : Word :=
  if s.tokbuf.length < 2 ^ 32 then BitVec.ofNat 32 s.tokbuf.length else Config.tokCountPast s.tokbuf.length

/-- `FREQ[k][v]` (10_state.md R28). -/
def freqGet (t : Table Word) (k v : Byte) : Word := (tableGet t (entryKey k v)).getD 0

/-- `Σ_{u=0..255} FREQ[k][u]`, an exact sum (42_huffman_tree_builder.md R180). -/
def classTotal (t : Table Word) (k : Byte) : Nat := ((tableRow t k).map fun e => e.2.toNat).sum

/-- `CODE[k][v]` (10_state.md R30). -/
def codeGet (t : Table Bits) (k v : Byte) : Option Bits := tableGet t (entryKey k v)

/-! ## Geometry (10_state.md R46) -/

/-- `W·H`. -/
def ImageState.pixels (m : ImageState) : Nat := m.w.toNat * m.h.toNat

/-- `x = I mod W`. -/
def ImageState.column (m : ImageState) : Nat := m.i.toNat % m.w.toNat

/-- `y = I div W`. -/
def ImageState.row (m : ImageState) : Nat := m.i.toNat / m.w.toNat

end Sys2Proof.Machine
end

