-- ==== Sys2Proof/Machine/Ops.lean ====
section
/-! DEFINITION. The shared operations: the steps of a command with its failures (00_scope.md R11), the three external agents,
failure entry (60_exceptions.md R310) with its way out (R312, R340), and what completes a command (30_encoding.md R120,
60_exceptions.md R311). -/

namespace Sys2Proof.Machine

/-- The steps of a command: from a state, either a value and the state after, or the cause that a step raised and the
state at that step, which keeps the effects of the steps before it (60_exceptions.md R310). -/
abbrev M := EStateM Cause State

/-- `raise Error(kind, cause)` (R11); the kind is the cause's own. -/
def raise {α : Type} (c : Cause) : M α := fun s => .error c s

/-! ## The external agents (20_memory.md R60) -/

/-- The sink took the byte. -/
def Agents.deliver (a : Agents) (rest : List SinkAnswer) (b : Byte) : Agents :=
  { a with sinkAnswers := rest, sink := a.sink ++ [b] }

/-- `SinkPut(byte)`; `ioerr` raises IO/SINK_IO and delivers nothing (40_bitstream.md R130). -/
def sinkPut (b : Byte) : M Unit := fun s =>
  match s.agents.sinkAnswers with
  | [] => .ok () (s.setAgents (s.agents.deliver [] b))
  | .ok :: rest => .ok () (s.setAgents (s.agents.deliver rest b))
  | .ioerr :: rest => .error .sinkIo (s.setAgents { s.agents with sinkAnswers := rest })

/-- `SourceGet()`; `eos` raises TRUNCATED/EOS, `ioerr` raises IO/SOURCE_IO (40_bitstream.md R140). -/
def sourceGet : M Byte := fun s =>
  match s.agents.source with
  | [] => .error .eos s
  | .byte b :: rest => .ok b (s.setAgents { s.agents with source := rest })
  | .eos :: rest => .error .eos (s.setAgents { s.agents with source := rest })
  | .ioerr :: rest => .error .sourceIo (s.setAgents { s.agents with source := rest })

/-- `PixelGet()`; `missing` raises INPUT/PIXEL_MISSING, `ioerr` raises IO/PIXEL_IO (46_top_level.md R280). -/
def pixelGet : M Pixel := fun s =>
  match s.agents.pixels with
  | [] => .error .pixelMissing s
  | .pixel p :: rest => .ok p (s.setAgents { s.agents with pixels := rest })
  | .missing :: rest => .error .pixelMissing (s.setAgents { s.agents with pixels := rest })
  | .ioerr :: rest => .error .pixelIo (s.setAgents { s.agents with pixels := rest })

/-- The pixel a memory holds at an index; where it holds no value, the next free value (notes/assumptions/2.md). -/
def memoryRead (m : State → Memory) (x : Nat) : M Pixel := fun s =>
  match (m s).read x with
  | some p => .ok p s
  | none => .ok (unpackPixel (Config.freePixel s.freeCount)) (s.setFreeCount (s.freeCount + 1))

/-! ## Failure entry and its way out -/

/-- The response of a command (30_encoding.md R120): exactly one for each command. -/
def respond (r : Response) (s : State) : State :=
  s.setHost { s.host with responses := s.host.responses ++ [r] }

/-- Failure entry (60_exceptions.md R310): STATUS records the first failure since it was cleared, and the command is
completed with the ERR response. -/
def failEntry (c : Cause) (s : State) : State :=
  respond (.err c.kind c) (if s.failed then s else s.setStatus (statusWord c))

/-- `Init()` (70_reset_and_hazards.md R340), the only way out of the failed state (60_exceptions.md R312): every element
of the block at its reset value. It makes no external access, and the parameters and the agents are not the block's. -/
def initState (s : State) : State :=
  { State.reset with config := s.config, agents := s.agents, host := s.host, freeCount := s.freeCount }

/-- `Init()` as a step of a command. -/
def initM : M Unit := fun s => .ok () (initState s)

/-! ## Completion of a command -/

/-- The state after a command whose steps have run: the OK response, or failure entry. -/
def complete : EStateM.Result Cause State Word → State
  | .ok r s => respond (.ok r) s
  | .error c s => failEntry c s

/-- A command with no result answers 0 (R120). -/
def noResult (body : M Unit) : M Word := do
  body
  pure 0

/-- A command that runs whatever STATUS is: STATUS_READ, RESET, ENCODE, DECODE, DECODE_HEADER (60_exceptions.md R311). -/
def runAlways (body : M Word) (s : State) : Host.Outcome State Fault Refusal := .next (complete (body s))

/-- A unit command: while STATUS.FAILED = 1 it completes with ERR(USAGE, FAILED_STATE), changes no state and makes no
external access (60_exceptions.md R311, R314). -/
def runUnit (body : M Word) (s : State) : Host.Outcome State Fault Refusal :=
  if s.failed then .next (failEntry .failedState s) else runAlways body s

/-- An element of the stream interpreted by itself (notes/assumptions/5.md): the effect the decoder gives it, with no
response, since it is no command; refused as the commands that read elements are while STATUS.FAILED = 1. -/
def runElement (effect : State → State) (s : State) : Host.Outcome State Fault Refusal :=
  if s.failed then .next (failEntry .failedState s) else .next (effect s)

end Sys2Proof.Machine
end

