-- ==== Sys2Proof/Machine/Bitstream.lean ====
section
/-! DEFINITION. bitstream_writer and bitstream_reader (40_bitstream.md). -/

namespace Sys2Proof.Machine

/-- `BW_ACC` and `BW_N` written. -/
def setWriter (acc : Byte) (n : Nat) : M Unit := modify fun s => s.setWriter ⟨acc, n⟩

/-- `PutBit(bit)` (R130). -/
def putBit (b : Bool) : M Unit := do
  let s ← get
  let acc := (s.writer.acc <<< 1) ||| (BitVec.ofBool b).setWidth 8
  let n := s.writer.n + 1
  setWriter acc n
  if n = 8 then do
    sinkPut acc
    setWriter 0 0
  else pure ()

/-- The bits of a bit string, first to last. -/
def putBits : Bits → M Unit
  | [] => pure ()
  | b :: bs => do
    putBit b
    putBits bs

/-- The steps of BW_WRITE_BITS after its width check (R132): bits `width - 1` down to 0. -/
def writeBits (v : Word) (width : Nat) : M Unit := putBits (bin width v)

/-- MAX_BITS_WIDTH (00_scope.md R7, D14). -/
abbrev maxBitsWidth : Nat := 32

/-- BW_WRITE_BITS's steps (R132). -/
def bwWriteBits (width : Byte) (v : Word) : M Unit :=
  if width.toNat > maxBitsWidth then raise .widthRange else writeBits v width.toNat

/-- BW_FLUSH's steps (R133). -/
def bwFlush : M Unit := do
  let s ← get
  if s.writer.n > 0 then do
    sinkPut (s.writer.acc <<< (8 - s.writer.n))
    setWriter 0 0
  else pure ()

/-- `BR_CUR` and `BR_N` written. -/
def setReader (cur : Byte) (n : Nat) : M Unit := modify fun s => s.setReader ⟨cur, n⟩

/-- The part of `GetBit` that takes a byte when no unconsumed bit remains (R140). -/
def refill : M Unit := do
  let s ← get
  if s.reader.n = 0 then do
    let b ← sourceGet
    setReader b 8
  else pure ()

/-- `GetBit()` (R140). -/
def getBit : M Bool := do
  refill
  let s ← get
  setReader s.reader.cur (s.reader.n - 1)
  pure (s.reader.cur.getLsbD (s.reader.n - 1))

/-- The steps of BR_READ_BITS after its width check (R142). -/
def readBits (width : Nat) : M Word := parseBits getBit width 0

/-- BR_READ_BITS's steps (R142). -/
def brReadBits (width : Byte) : M Word :=
  if width.toNat > maxBitsWidth then raise .widthRange else readBits width.toNat

/-- BW_WRITE_BIT (R131). -/
def execBwWriteBit (bit : Bool) (s : State) : Host.Outcome State Fault Refusal :=
  runUnit (noResult (putBit bit)) s

/-- BW_WRITE_BITS (R132). -/
def execBwWriteBits (width : Byte) (value : Word) (s : State) : Host.Outcome State Fault Refusal :=
  runUnit (noResult (bwWriteBits width value)) s

/-- BW_FLUSH (R133). -/
def execBwFlush (s : State) : Host.Outcome State Fault Refusal :=
  runUnit (noResult bwFlush) s

/-- BR_READ_BIT (R141). -/
def execBrReadBit (s : State) : Host.Outcome State Fault Refusal :=
  runUnit (do let b ← getBit; pure ((BitVec.ofBool b).setWidth 32)) s

/-- BR_READ_BITS (R142). -/
def execBrReadBits (width : Byte) (s : State) : Host.Outcome State Fault Refusal :=
  runUnit (brReadBits width) s

end Sys2Proof.Machine
end

