-- ==== Sys2Proof/Machine/Decoder.lean ====
section
/-! DEFINITION. huffman_decoder (44_huffman_decoder.md), and the elements of the codebook table that it interprets
(30_encoding.md R93, R97, R103). -/

namespace Sys2Proof.Machine

/-- `DTREE[k] <- t`, which replaces an earlier tree of the class (R220; 30_encoding.md R97). -/
def loadRecord (k : Byte) (t : CodeTree) (s : State) : State :=
  s.setDecoder { s.decoder with dtree := tableSet s.decoder.dtree k.toNat t }

/-- `DT_LOADED <- 1`: the sentinel ends the table (R220). -/
def endTable (s : State) : State := s.setDecoder { s.decoder with loaded := true }

/-- The loop of HD_READ_TABLE (R220). Each item takes 8 bits at least, so the items are bounded by the bits at hand; the
first argument is that bound and is never used up before the source ends. DESIGN CHOICE (notes/assumptions/15.md): a class
with no record keeps the tree that it had, as the pseudocode writes no other class's tree; R220's corner case, that every
HD_READ after a table of the sentinel alone fails, and R225's "absent for every other class" are of a decoder that held no
tree. -/
def readRecords : Nat → M Unit
  | 0 => raise .eos
  | fuel + 1 => do
    let item ← parseItem getBit .treeTooLarge
    match item with
    | none => modify endTable
    | some kt => do
      modify (loadRecord kt.1 kt.2)
      readRecords fuel

/-- The bits that can still be read: the unconsumed ones and those of the source's answers. -/
def bitsAtHand (s : State) : Nat := s.reader.n + 8 * s.agents.source.length

/-- The steps of HD_READ_TABLE (R220). -/
def readTable : M Unit := do
  let s ← get
  readRecords (bitsAtHand s + 1)

/-- The walk from a node to a leaf: 0 to the left, 1 to the right (R224; 30_encoding.md R94). -/
def walkTree : CodeTree → M Byte
  | .leaf v => pure v
  | .internal l r => do
    let b ← getBit
    if b then walkTree r else walkTree l

/-- The steps of HD_READ (R224). -/
def hdRead (k : Byte) : M Byte := do
  let s ← get
  if k = sentinelId then raise .classNotFound
  else
    match tableGet s.decoder.dtree k.toNat with
    | none => raise .classNotFound
    | some t => walkTree t

/-- HD_READ_TABLE (R220). -/
def execHdReadTable (s : State) : Host.Outcome State Fault Refusal :=
  runUnit (noResult readTable) s

/-- HD_READ (R224). -/
def execHdRead (k : Byte) (s : State) : Host.Outcome State Fault Refusal :=
  runUnit (do let v ← hdRead k; pure (v.setWidth 32)) s

/-! ## The elements of the table, interpreted by themselves (notes/assumptions/5.md) -/

/-- TABLE_RECORD (30_encoding.md R93): the decoder loads the tree of the class. -/
def execTableRecord (k : Byte) (t : CodeTree) (s : State) : Host.Outcome State Fault Refusal :=
  runElement (loadRecord k t) s

/-- TABLE_SENTINEL (30_encoding.md R93, R103): the table is complete. -/
def execTableSentinel (s : State) : Host.Outcome State Fault Refusal :=
  runElement endTable s

/-- TREE_INTERNAL (30_encoding.md R93; R221 "return Internal(l, r)"): the decoder delivers the node over its subtrees. -/
def execTreeInternal (l r : CodeTree) (s : State) : Host.Outcome State Fault Refusal :=
  runElement (fun s => s.setTreeOut (some (.internal l r))) s

/-- TREE_LEAF (30_encoding.md R93; R221 "return Leaf(v)"): the decoder delivers the leaf. -/
def execTreeLeaf (v : Byte) (s : State) : Host.Outcome State Fault Refusal :=
  runElement (fun s => s.setTreeOut (some (.leaf v))) s

end Sys2Proof.Machine
end

