-- ==== Sys2Proof/Machine/TreeBuilder.lean ====
section
/-! DEFINITION. huffman_tree_builder (42_huffman_tree_builder.md). -/

namespace Sys2Proof.Machine

/-- A command's check of its class operand (R180, R182, R186; 43_huffman_encoder.md R200, R202). -/
def checkClass (k : Byte) : M Unit := if k = sentinelId then raise .classRange else pure ()

/-- The builder's state written. -/
def setBuilder (x : TreeBuilder) : M Unit := modify fun s => s.setBuilder x

/-! ## Counting -/

/-- The steps of HTB_COUNT (R180). -/
def htbCount (k v : Byte) : M Unit := do
  checkClass k
  let s ← get
  if classTotal s.builder.freq k = 2 ^ 32 - 1 then raise .countOverflow
  else setBuilder { s.builder with
    freq := tableSet s.builder.freq (entryKey k v) (freqGet s.builder.freq k v + 1) }

/-! ## CodeTree construction (R181) -/

/-- An element of the list L of R181. -/
structure HuffNode where
  weight : Word
  seq : Nat
  node : CodeTree
deriving DecidableEq, Repr

/-- The order of removal: the least (weight, seq), lexicographically. -/
def HuffNode.before (x y : HuffNode) : Bool :=
  decide (x.weight < y.weight) || (decide (x.weight = y.weight) && decide (x.seq < y.seq))

/-- The least element of a list with the others in their order. -/
def removeLeast : HuffNode → List HuffNode → HuffNode × List HuffNode
  | x, [] => (x, [])
  | x, y :: ys =>
    if y.before x then
      let m := removeLeast y ys
      (m.1, x :: m.2)
    else
      let m := removeLeast x ys
      (m.1, y :: m.2)

/-- The leaves of R181, from sequence number `s` on: one for each value with a nonzero count, in ascending value order. -/
def huffLeaves : Nat → List (Byte × Word) → List HuffNode
  | _, [] => []
  | s, (v, f) :: row =>
    if f = 0 then huffLeaves s row else ⟨f, s, .leaf v⟩ :: huffLeaves (s + 1) row

/-- The merges of R181 with next sequence number `s`: the first element removed becomes the left child. The first
argument bounds the merges; a list of `m` elements takes `m - 1`. -/
def huffMerge : Nat → Nat → List HuffNode → Option CodeTree
  | _, _, [] => none
  | _, _, [x] => some x.node
  | 0, _, _ :: _ :: _ => none
  | fuel + 1, s, x :: y :: rest =>
    let a := removeLeast x (y :: rest)
    match a.2 with
    | [] => some a.1.node
    | z :: zs =>
      let b := removeLeast z zs
      huffMerge fuel (s + 1) (b.2 ++ [⟨a.1.weight + b.1.weight, s, .internal a.1.node b.1.node⟩])

/-- `BuildTree(f)` of R181, for the counts of one class in ascending value order. -/
def buildTree (row : List (Byte × Word)) : Option CodeTree :=
  let l := huffLeaves 0 row
  huffMerge l.length l.length l

/-- `ETREE[k] <- t`. -/
def setEtree (t : Table CodeTree) (k : Byte) : Option CodeTree → Table CodeTree
  | some x => tableSet t k.toNat x
  | none => tableErase t k.toNat

/-- The steps of HTB_BUILD (R182). -/
def htbBuild (k : Byte) : M Unit := do
  checkClass k
  let s ← get
  setBuilder { s.builder with
    etree := setEtree s.builder.etree k (buildTree (tableRow s.builder.freq k)),
    code := tableDropClass s.builder.code k }

/-! ## Codebook derivation -/

/-- `Derive(k, node, code)` of R185: the left subtree before the right. -/
def deriveCodes (k : Byte) : CodeTree → Bits → Table Bits → Table Bits
  | .leaf v, code, t => tableSet t (entryKey k v) code
  | .internal l r, code, t => deriveCodes k r (code ++ [true]) (deriveCodes k l (code ++ [false]) t)

/-- The CODE table after class `k` is derived from its tree (R186). -/
def derivedCode (b : TreeBuilder) (k : Byte) : Table Bits :=
  match tableGet b.etree k.toNat with
  | none => tableDropClass b.code k
  | some t => deriveCodes k t [] (tableDropClass b.code k)

/-- The steps of HTB_DERIVE (R186). -/
def htbDerive (k : Byte) : M Unit := do
  checkClass k
  let s ← get
  setBuilder { s.builder with code := derivedCode s.builder k }

/-- HTB_COUNT (R180). -/
def execHtbCount (k v : Byte) (s : State) : Host.Outcome State Fault Refusal :=
  runUnit (noResult (htbCount k v)) s

/-- HTB_BUILD (R182). -/
def execHtbBuild (k : Byte) (s : State) : Host.Outcome State Fault Refusal :=
  runUnit (noResult (htbBuild k)) s

/-- HTB_DERIVE (R186). -/
def execHtbDerive (k : Byte) (s : State) : Host.Outcome State Fault Refusal :=
  runUnit (noResult (htbDerive k)) s

end Sys2Proof.Machine
end

