-- ==== Sys2Proof/Machine/Encoder.lean ====
section
/-! DEFINITION. huffman_encoder (43_huffman_encoder.md). -/

namespace Sys2Proof.Machine

/-- TOKCOUNT == TOKBUF_DEPTH (R200): the length of TOKBUF (10_state.md R31, R32) is the depth. An unbounded buffer is never
full. -/
def tokbufFull (s : State) : Bool :=
  match s.config.tokbufDepth with
  | none => false
  | some d => decide (s.tokbuf.length = d)

/-- The steps of HE_PUT_TOKEN (R200), which is `emit` (00_scope.md R12). -/
def putToken (k v : Byte) : M Unit := do
  checkClass k
  let s ← get
  if tokbufFull s then raise .tokbufFull
  else do
    htbCount k v
    modify fun s => s.setTokbuf (s.tokbuf ++ [⟨k, v⟩])

/-- `emit(K, v)`: HE_PUT_TOKEN of a named class (R12). -/
def emit (c : TokenClass) (v : Byte) : M Unit := putToken (classId c) v

/-- The steps of HE_ENCODE_TOKEN (R202). -/
def encodeToken (k v : Byte) : M Unit := do
  checkClass k
  let s ← get
  match codeGet s.builder.code k v with
  | none => raise .noCode
  | some bits => putBits bits

/-- `WriteTree(node)` (R203). -/
def writeTree : CodeTree → M Unit
  | .leaf v => do
    putBit false
    writeBits (v.setWidth 32) 8
  | .internal l r => do
    putBit true
    writeTree l
    writeTree r

/-- The record of one class, if it has a counted token (R204). -/
def writeRecord (k : Byte) : M Unit := do
  let s ← get
  if classTotal s.builder.freq k > 0 then do
    htbBuild k
    htbDerive k
    writeBits (k.setWidth 32) 8
    let s ← get
    match tableGet s.builder.etree k.toNat with
    | some t => writeTree t
    | none => pure ()
  else pure ()

/-- The records of the `n` classes from `k` on, ascending (R204). -/
def writeRecords : Nat → Nat → M Unit
  | 0, _ => pure ()
  | n + 1, k => do
    writeRecord (BitVec.ofNat 8 k)
    writeRecords n (k + 1)

/-- The steps of HE_WRITE_TABLE (R204): the classes 0 to 254, then the sentinel. -/
def writeTable : M Unit := do
  writeRecords 255 0
  writeBits 255 8

/-- The codes of tokens in order. -/
def encodeTokens : List Token → M Unit
  | [] => pure ()
  | t :: ts => do
    encodeToken t.k t.v
    encodeTokens ts

/-- The steps of HE_WRITE_PAYLOAD (R206; 30_encoding.md R101): every token of TOKBUF, in order. -/
def writePayload : M Unit := do
  let s ← get
  encodeTokens s.tokbuf

/-- The steps of HE_FINISH (R207; 30_encoding.md R123). -/
def finish : M Unit := do
  writeTable
  writePayload
  bwFlush

/-- HE_PUT_TOKEN (R200). -/
def execHePutToken (k v : Byte) (s : State) : Host.Outcome State Fault Refusal :=
  runUnit (noResult (putToken k v)) s

/-- HE_ENCODE_TOKEN (R202). -/
def execHeEncodeToken (k v : Byte) (s : State) : Host.Outcome State Fault Refusal :=
  runUnit (noResult (encodeToken k v)) s

/-- HE_WRITE_TABLE (R204). -/
def execHeWriteTable (s : State) : Host.Outcome State Fault Refusal :=
  runUnit (noResult writeTable) s

/-- HE_WRITE_PAYLOAD (R206). -/
def execHeWritePayload (s : State) : Host.Outcome State Fault Refusal :=
  runUnit (noResult writePayload) s

/-- HE_FINISH (R207). -/
def execHeFinish (s : State) : Host.Outcome State Fault Refusal :=
  runUnit (noResult finish) s

end Sys2Proof.Machine
end

