-- ==== Sys2Proof/Machine/Mtf.lean ====
section
/-! DEFINITION. mtf_cache (41_mtf_cache.md). -/

namespace Sys2Proof.Machine

/-- The least position that holds a pixel, or none (R160). -/
def mtfFind (p : Pixel) : List Pixel → Option Nat
  | [] => none
  | e :: es => if e = p then some 0 else (mtfFind p es).map (· + 1)

/-- The entries after the one at position `j` has moved to position 0, being `p`: those before it shift down by one
slot (R160, R162). -/
def moveToFront (es : List Pixel) (j : Nat) (p : Pixel) : List Pixel := p :: es.eraseIdx j

/-- The entries after the insertion of a new one: all shift down by one slot, the last is dropped at capacity (R160). -/
def insertFront (n : Nat) (es : List Pixel) (p : Pixel) : List Pixel :=
  if es.length < n then p :: es else p :: es.dropLast

/-- The steps of MTF_CHECK_AND_INSERT (R160): the position, or none for NOT_FOUND. -/
def mtfCheckAndInsert (p : Pixel) : M (Option Nat) := do
  let s ← get
  match mtfFind p s.mtf with
  | some j => do
    modify fun s => s.setMtf (moveToFront s.mtf j p)
    pure (some j)
  | none => do
    modify fun s => s.setMtf (insertFront s.config.cacheCapacity s.mtf p)
    pure none

/-- The result of MTF_CHECK_AND_INSERT (30_encoding.md R120): NOT_FOUND is 0xFFFFFFFF. -/
def positionWord : Option Nat → Word
  | some j => BitVec.ofNat 32 j
  | none => 0xFFFFFFFF#32

/-- The steps of MTF_FETCH (R162). -/
def mtfFetch (index : Nat) : M Pixel := do
  let s ← get
  match s.mtf[index]? with
  | none => raise .fetchRange
  | some p => do
    modify fun s => s.setMtf (moveToFront s.mtf index p)
    pure p

/-- The steps of MTF_CLEAR (R164). -/
def mtfClear : M Unit := modify fun s => s.setMtf []

/-- MTF_CHECK_AND_INSERT (R160). -/
def execMtfCheckAndInsert (p : Pixel) (s : State) : Host.Outcome State Fault Refusal :=
  runUnit (do let j ← mtfCheckAndInsert p; pure (positionWord j)) s

/-- MTF_FETCH (R162). -/
def execMtfFetch (index : Byte) (s : State) : Host.Outcome State Fault Refusal :=
  runUnit (do let p ← mtfFetch index.toNat; pure (packPixel p)) s

/-- MTF_CLEAR (R164). -/
def execMtfClear (s : State) : Host.Outcome State Fault Refusal :=
  runUnit (noResult mtfClear) s

end Sys2Proof.Machine
end

