-- ==== Sys2Proof/Machine/PixelCodec.lean ====
section
/-! DEFINITION. pixel_predictor_tokenizer (45_pixel_codec.md). -/

namespace Sys2Proof.Machine

/-! ## Image set-up -/

/-- The state after PX_SET_DIM (R239): the cache is empty, and LINEBUF and OUT hold no value. -/
def startImage (w h : Half) (s : State) : State :=
  (((s.setImage ⟨w, h, 0⟩).setEnc ⟨zeroPixel, 0, []⟩).setDec ⟨zeroPixel, 0, []⟩).setMtf []

/-- The steps of PX_SET_DIM (R239). -/
def setDim (w h : Half) : M Unit := modify (startImage w h)

/-- The check that the image has a pixel left (R240, R260). -/
def checkImage : M Unit := do
  let s ← get
  if s.image.i.toNat ≥ s.image.pixels then raise .imageComplete else pure ()

/-- `I <- I + 1`. -/
def advance : M Unit := modify fun s => s.setImage { s.image with i := s.image.i + 1 }

/-! ## Encoding -/

/-- The number of bytes of the decremented run, 0 to 4 (R250). -/
def runByteCount (r : Word) : Nat :=
  if r.toNat = 0 then 0
  else if r.toNat < 256 then 1
  else if r.toNat < 256 ^ 2 then 2
  else if r.toNat < 256 ^ 3 then 3
  else 4

/-- Bytes `b - 1` down to 0 of the decremented run, each on the class of its significance (R250, D6). -/
def emitRunBytes (r : Word) : Nat → M Unit
  | 0 => pure ()
  | j + 1 => do
    emit (runByteClass j) (r.extractLsb' (8 * j) 8)
    emitRunBytes r j

/-- `RunFlush(run)` (R250). -/
def runFlush (run : Word) : M Unit := do
  let r := run - 1
  emit .tag (tagValue .run)
  emit .byteCount (BitVec.ofNat 8 (runByteCount r))
  emitRunBytes r (runByteCount r)

/-- The pending run flushed and RUN reset, if RUN > 0 (R240 step 2, R252). -/
def flushRun : M Unit := do
  let s ← get
  if s.enc.run.toNat > 0 then do
    runFlush s.enc.run
    modify fun s => s.setEnc { s.enc with run := 0 }
  else pure ()

/-- `PRIOR <- P`. -/
def setPrior (p : Pixel) : M Unit := modify fun s => s.setEnc { s.enc with prior := p }

/-- The deltas of the four channels in the order R, G, B, A (R246). -/
def emitDeltas (p base : Pixel) : M Unit := do
  emit .deltaR (p.r - base.r)
  emit .deltaG (p.g - base.g)
  emit .deltaB (p.b - base.b)
  emit .deltaA (p.a - base.a)

/-- The group of a pixel that is not equal to PRIOR (R240 steps 3 to 6). -/
def encodeGroup (p up : Pixel) : M Unit := do
  let pos ← mtfCheckAndInsert p
  match pos with
  | some 0 => raise .cacheState
  | some (j + 1) => do
    emit .tag (tagValue .lookup)
    emit .lookup (BitVec.ofNat 8 j)
    setPrior p
  | none => do
    let s ← get
    let choice := predict p s.enc.prior up
    emit .tag (tagValue choice.2)
    emitDeltas p choice.1
    setPrior p

/-- `up` on encode (R241): Z on the first row, else the entry of LINEBUF. -/
def encodeUp : M Pixel := do
  let s ← get
  if s.image.row = 0 then pure zeroPixel else memoryRead (fun s => s.enc.linebuf) s.image.column

/-- `LINEBUF[x] <- P`. -/
def storeLine (p : Pixel) : M Unit :=
  modify fun s => s.setEnc { s.enc with linebuf := s.enc.linebuf.write s.image.column p }

/-- The steps of PX_ENC_PIXEL (R240). -/
def encodePixel (p : Pixel) : M Unit := do
  checkImage
  let up ← encodeUp
  storeLine p
  advance
  let s ← get
  if p = s.enc.prior then modify fun s => s.setEnc { s.enc with run := s.enc.run + 1 }
  else do
    flushRun
    encodeGroup p up

/-! ## Decoding -/

/-- `HD_READ K` of a named class. -/
def readClass (c : TokenClass) : M Byte := hdRead (classId c)

/-- `C <- P`. -/
def setColour (p : Pixel) : M Unit := modify fun s => s.setDec { s.dec with c := p }

/-- One channel of a DELTA group, added as it is read (R260). -/
def readDelta (ch : Channel) : M Unit := do
  let d ← readClass (deltaClass ch)
  modify fun s => s.setDec { s.dec with c := setChannel s.dec.c ch (getChannel s.dec.c ch + d) }

/-- The four deltas and the cache insertion whose result is discarded (R260). -/
def decodeDeltas : M Unit := do
  readDelta .r
  readDelta .g
  readDelta .b
  readDelta .a
  let s ← get
  let _ ← mtfCheckAndInsert s.dec.c
  pure ()

/-- `up` on decode (R262): Z on the first row, else `OUT[I - W]`. -/
def decodeUp : M Pixel := do
  let s ← get
  if s.image.row = 0 then pure zeroPixel
  else memoryRead (fun s => s.dec.out) (s.image.i.toNat - s.image.w.toNat)

/-- The LOOKUP group after its tag (R260; 30_encoding.md R115). -/
def decodeLookup : M Unit := do
  let v ← readClass .lookup
  let s ← get
  if v.toNat + 1 ≥ s.mtfLen then raise .lookupRange
  else do
    let p ← mtfFetch (v.toNat + 1)
    setColour p

/-- The run value's bytes, most significant first (R260; 30_encoding.md R108). -/
def readRunBytes : Nat → Word → M Word
  | 0, r => pure r
  | j + 1, r => do
    let b ← readClass (runByteClass j)
    readRunBytes j (r * 256 + b.setWidth 32)

/-- NUM_RUNBYTE_CLASSES (00_scope.md R7). -/
abbrev numRunByteClasses : Nat := 4

/-- The RUN group after its tag (R260; 30_encoding.md R114). -/
def decodeRun : M Unit := do
  let b ← readClass .byteCount
  if b.toNat > numRunByteClasses then raise .classNotFound
  else do
    let r ← readRunBytes b.toNat 0
    modify fun s => s.setDec { s.dec with drun := r }

/-- The dispatch on a tag (R261). -/
def decodeGroup : M Unit := do
  let v ← readClass .tag
  match tagOf v with
  | some .deltaUp => do
    let up ← decodeUp
    setColour up
    decodeDeltas
  | some .delta => decodeDeltas
  | some .lookup => decodeLookup
  | some .run => decodeRun
  | none => raise .unknownTag

/-- `OUT[I] <- C`. -/
def storeOut : M Unit :=
  modify fun s => s.setDec { s.dec with out := s.dec.out.write s.image.i.toNat s.dec.c }

/-- The countdown, or the group of the pixel (R260). -/
def decodeColour : M Unit := do
  let s ← get
  if s.dec.drun.toNat > 0 then modify fun s => s.setDec { s.dec with drun := s.dec.drun - 1 }
  else decodeGroup

/-- The steps of PX_DEC_PIXEL (R260). -/
def decodePixel : M Pixel := do
  checkImage
  decodeColour
  storeOut
  advance
  let s ← get
  pure s.dec.c

/-- PX_SET_DIM (R239). -/
def execPxSetDim (w h : Half) (s : State) : Host.Outcome State Fault Refusal :=
  runUnit (noResult (setDim w h)) s

/-- PX_ENC_PIXEL (R240). -/
def execPxEncPixel (p : Pixel) (s : State) : Host.Outcome State Fault Refusal :=
  runUnit (noResult (encodePixel p)) s

/-- PX_ENC_END (R252). -/
def execPxEncEnd (s : State) : Host.Outcome State Fault Refusal :=
  runUnit (noResult flushRun) s

/-- PX_DEC_PIXEL (R260). -/
def execPxDecPixel (s : State) : Host.Outcome State Fault Refusal :=
  runUnit (do let p ← decodePixel; pure (packPixel p)) s

end Sys2Proof.Machine
end

