-- ==== Sys2Proof/Machine/TopLevel.lean ====
section
/-! DEFINITION. The top-level commands and the container framing (46_top_level.md), RESET (70_reset_and_hazards.md R340) and the
header as an element of the stream (30_encoding.md R90). -/

namespace Sys2Proof.Machine

/-- 8-bit fields written in order. -/
def writeBytes : List Byte → M Unit
  | [] => pure ()
  | b :: bs => do
    writeBits (b.setWidth 32) 8
    writeBytes bs

/-- `WriteHeader(W, H)` (R279). -/
def writeHeader (w h : Half) : M Unit := do
  writeBytes magic
  writeBits (w.setWidth 32) 16
  writeBits (h.setWidth 32) 16

/-- `W <- v`. -/
def loadWidth (w : Half) (s : State) : State := s.setImage { s.image with w := w }

/-- `H <- v`. -/
def loadHeight (h : Half) (s : State) : State := s.setImage { s.image with h := h }

/-- `ReadHeader()` (R279). -/
def readHeader : M Unit := do
  parseMagic getBit .badMagic
  let w ← parseHalf getBit
  modify (loadWidth w)
  let h ← parseHalf getBit
  modify (loadHeight h)

/-- `n` pixels taken from the pixel source and encoded (R280). -/
def encodePixels : Nat → M Unit
  | 0 => pure ()
  | n + 1 => do
    let p ← pixelGet
    encodePixel p
    encodePixels n

/-- The steps of ENCODE (R280). DESIGN CHOICE (notes/assumptions/14.md): R280's corner case has the sink of a failed ENCODE
hold the 11 header bytes or fewer, while a sink that fails in the table or the payload has taken bytes of them already,
which stay delivered by 40_bitstream.md R130 and 60_exceptions.md R310; the model follows R130 and R310. -/
def encodeImage (w h : Half) : M Unit := do
  initM
  modify (loadWidth w)
  modify (loadHeight h)
  writeHeader w h
  setDim w h
  encodePixels (w.toNat * h.toNat)
  flushRun
  finish

/-- `n` pixels decoded (R282). -/
def decodePixels : Nat → M Unit
  | 0 => pure ()
  | n + 1 => do
    let _ ← decodePixel
    decodePixels n

/-- `W << 16 | H`. -/
def dimResult : M Word := do
  let s ← get
  pure (packDim s.image.w s.image.h)

/-- The steps of DECODE (R282). -/
def decodeImage : M Word := do
  initM
  readHeader
  let s ← get
  setDim s.image.w s.image.h
  readTable
  decodePixels (s.image.w.toNat * s.image.h.toNat)
  dimResult

/-- The steps of DECODE_HEADER (R284). -/
def decodeHeaderSteps : M Word := do
  initM
  readHeader
  dimResult

/-- The steps of STATUS_READ (R286). -/
def statusRead : M Word := do
  let s ← get
  pure s.status

/-- ENCODE (R280). -/
def execEncode (w h : Half) (s : State) : Host.Outcome State Fault Refusal :=
  runAlways (noResult (encodeImage w h)) s

/-- DECODE (R282). -/
def execDecode (s : State) : Host.Outcome State Fault Refusal :=
  runAlways decodeImage s

/-- DECODE_HEADER (R284). -/
def execDecodeHeader (s : State) : Host.Outcome State Fault Refusal :=
  runAlways decodeHeaderSteps s

/-- STATUS_READ (R286). -/
def execStatusRead (s : State) : Host.Outcome State Fault Refusal :=
  runAlways statusRead s

/-- RESET (70_reset_and_hazards.md R340). -/
def execReset (s : State) : Host.Outcome State Fault Refusal :=
  runAlways (noResult initM) s

/-- STREAM_HEADER (30_encoding.md R90, R92; R279): the decoder takes the dimensions of the image. -/
def execStreamHeader (w h : Half) (s : State) : Host.Outcome State Fault Refusal :=
  runElement (fun s => loadHeight h (loadWidth w s)) s

end Sys2Proof.Machine
end

