-- ==== Sys2Proof/Machine/Dispatch.lean ====
section
/-! DEFINITION. The meaning of every instruction: one arm a constructor, one call a meaning. -/

namespace Sys2Proof.Machine

def exec (i : Instr) (s : State) : Host.Outcome State Fault Refusal :=
  match i with
  | .bwWriteBit bit => Sys2Proof.Machine.execBwWriteBit bit s
  | .bwWriteBits width value => Sys2Proof.Machine.execBwWriteBits width value s
  | .bwFlush => Sys2Proof.Machine.execBwFlush s
  | .brReadBit => Sys2Proof.Machine.execBrReadBit s
  | .brReadBits width => Sys2Proof.Machine.execBrReadBits width s
  | .mtfCheckAndInsert p => Sys2Proof.Machine.execMtfCheckAndInsert p s
  | .mtfFetch index => Sys2Proof.Machine.execMtfFetch index s
  | .mtfClear => Sys2Proof.Machine.execMtfClear s
  | .htbCount k v => Sys2Proof.Machine.execHtbCount k v s
  | .htbBuild k => Sys2Proof.Machine.execHtbBuild k s
  | .htbDerive k => Sys2Proof.Machine.execHtbDerive k s
  | .hePutToken k v => Sys2Proof.Machine.execHePutToken k v s
  | .heEncodeToken k v => Sys2Proof.Machine.execHeEncodeToken k v s
  | .heWriteTable => Sys2Proof.Machine.execHeWriteTable s
  | .heWritePayload => Sys2Proof.Machine.execHeWritePayload s
  | .heFinish => Sys2Proof.Machine.execHeFinish s
  | .hdReadTable => Sys2Proof.Machine.execHdReadTable s
  | .hdRead k => Sys2Proof.Machine.execHdRead k s
  | .pxSetDim w h => Sys2Proof.Machine.execPxSetDim w h s
  | .pxEncPixel p => Sys2Proof.Machine.execPxEncPixel p s
  | .pxEncEnd => Sys2Proof.Machine.execPxEncEnd s
  | .pxDecPixel => Sys2Proof.Machine.execPxDecPixel s
  | .encodeImage w h => Sys2Proof.Machine.execEncode w h s
  | .decodeImage => Sys2Proof.Machine.execDecode s
  | .decodeHeader => Sys2Proof.Machine.execDecodeHeader s
  | .statusRead => Sys2Proof.Machine.execStatusRead s
  | .reset => Sys2Proof.Machine.execReset s
  | .streamHeader w h => Sys2Proof.Machine.execStreamHeader w h s
  | .tableRecord k t => Sys2Proof.Machine.execTableRecord k t s
  | .treeInternal l r => Sys2Proof.Machine.execTreeInternal l r s
  | .treeLeaf v => Sys2Proof.Machine.execTreeLeaf v s
  | .tableSentinel => Sys2Proof.Machine.execTableSentinel s

end Sys2Proof.Machine
end

