-- ==== Sys2Proof/Machine/Fetch.lean ====
section
/-! DEFINITION. Where the next instruction comes from: the next thing the host issues, which is a command word (30_encoding.md
R118, R119, R121) or one element of the stream, read through the bitstream_reader (notes/assumptions/5.md). -/

namespace Sys2Proof.Machine

/-- What a fetch finds. -/
inductive Fetched where
  /-- Nothing is issued: the block is idle and keeps all its state (60_exceptions.md R327). -/
  | idle
  /-- An instruction, and the state it runs in. -/
  | instr (i : Instr) (s : State)
  /-- No instruction: the failure is taken, and this is the state after it. -/
  | failure (s : State)
deriving DecidableEq, Repr

/-- The state with the first issue taken. -/
def takeIssue (s : State) (rest : List Issue) : State := s.setHost { s.host with issues := rest }

/-- A command word: an illegal command is checked before FAILED_STATE (60_exceptions.md R314) and fails with
ERR(USAGE, ILLEGAL_COMMAND), changing STATUS only and making no external access (30_encoding.md R121). -/
def fetchCommand (w : BitVec 64) (s : State) : Fetched :=
  match decodeCommand w with
  | .ok i => .instr i s
  | .error _ => .failure (failEntry .illegalCommand s)

/-- An element of the stream: its bits are consumed; a failing read is taken as the failure of the command that reads
elements; while STATUS.FAILED = 1 nothing is read (60_exceptions.md R311). -/
def fetchElement (pos : StreamPos) (s : State) : Fetched :=
  if s.failed then .failure (failEntry .failedState s)
  else
    match parseElement getBit .treeTooLarge .badMagic pos s with
    | .ok i s' => .instr i s'
    | .error c s' => .failure (failEntry c s')

/-- The fetch of one step. -/
def fetch (s : State) : Fetched :=
  match s.host.issues with
  | [] => .idle
  | .command w :: rest => fetchCommand w (takeIssue s rest)
  | .element pos :: rest => fetchElement pos (takeIssue s rest)

/-- The state with an instruction's bits as the next thing issued: a command word, or a stream element whose bytes stand
first in the byte source, the reader holding no unconsumed bit. -/
def placeWord (s : State) (nbits w : Nat) : State :=
  if rowIsCommand nbits then
    s.setHost { s.host with issues := .command (BitVec.ofNat 64 w) :: s.host.issues }
  else
    ((s.setHost { s.host with issues := .element (rowPos nbits w) :: s.host.issues }).setReader
        { s.reader with n := 0 }).setAgents
      { s.agents with source := (rowBytes longestElement w).map .byte ++ s.agents.source }

end Sys2Proof.Machine
end

