-- ==== Sys2Proof/Machine/Step.lean ====
section
/-! DEFINITION. One step: the next thing issued is fetched and run to its completion (00_scope.md R6; 70_reset_and_hazards.md
R350); with nothing issued the block keeps its state. -/

namespace Sys2Proof.Machine

/-- One step of the machine. -/
def step (s : State) : Host.Outcome State Fault Refusal :=
  match fetch s with
  | .idle => .next s
  | .instr i s' => exec i s'
  | .failure s' => .next s'

/-- The state with an opcode-table row's bits where the next step fetches its instruction. -/
def State.withFetchWord (s : State) (nbits w : Nat) : State := placeWord s nbits w

end Sys2Proof.Machine
end

