-- ==== Sys2Proof/Safety.lean ====
section
/-! DEFINITION. The terms in which claims speak of the block: the stream as one bit sequence (20_memory.md R63), what a command
leaves unchanged, the tokens of a pixel, the codes of a tree, and the invariant of a run. -/

namespace Sys2Proof

/-- The values at the leaves, left to right. -/
def CodeTree.values : CodeTree → List Byte
  | .leaf v => [v]
  | .internal l r => CodeTree.values l ++ CodeTree.values r

/-- The value at the leaf that a bit string leads to exactly: 0 to the left, 1 to the right (30_encoding.md R94). -/
def CodeTree.follow : CodeTree → Bits → Option Byte
  | .leaf v, [] => some v
  | .leaf _, _ :: _ => none
  | .internal _ _, [] => none
  | .internal l r, b :: bs => if b then CodeTree.follow r bs else CodeTree.follow l bs

/-- The depth of the leaves of a value, if it has one (42_huffman_tree_builder.md R187). -/
def CodeTree.depthOf (v : Byte) : CodeTree → Option Nat
  | .leaf u => if u = v then some 0 else none
  | .internal l r => ((CodeTree.depthOf v l).or (CodeTree.depthOf v r)).map (· + 1)

/-- The depth of the deepest leaf (42_huffman_tree_builder.md R183). -/
def CodeTree.height : CodeTree → Nat
  | .leaf _ => 0
  | .internal l r => max (CodeTree.height l) (CodeTree.height r) + 1

end Sys2Proof

namespace Sys2Proof.Machine

/-! ## The stream as one bit sequence -/

/-- The pending bits of the writer, first written first (10_state.md R22). -/
def pendingBits (w : BitWriter) : Bits := bin w.n (w.acc.setWidth 32)

/-- The bits of bytes (20_memory.md R62). -/
def bitsOf (bs : List Byte) : Bits := bs.flatMap binByte

/-- The bits written so far: those of the bytes delivered and the pending ones (20_memory.md R63). -/
def streamOut (s : State) : Bits := bitsOf s.agents.sink ++ pendingBits s.writer

/-- The bytes that the source answers before anything else. -/
def sourceBytes : List SourceAnswer → List Byte
  | .byte b :: rest => b :: sourceBytes rest
  | .eos :: _ => []
  | .ioerr :: _ => []
  | [] => []

/-- The bits that can be read before the source answers something other than a byte: the unconsumed bits of BR_CUR
(10_state.md R25) and those of the source's bytes. -/
def streamIn (s : State) : Bits :=
  bin s.reader.n (s.reader.cur.setWidth 32) ++ bitsOf (sourceBytes s.agents.source)

/-- The failure of a read that needs a bit after those of `streamIn` (40_bitstream.md R140). -/
def endCause : List SourceAnswer → Cause
  | .byte _ :: rest => endCause rest
  | .eos :: _ => .eos
  | .ioerr :: _ => .sourceIo
  | [] => .eos

/-- The failure of the command that reads an element whose bits are rejected. -/
def rejectCause (s : State) : Reject → Cause
  | .treeTooLarge => .treeTooLarge
  | .badMagic => .badMagic
  | .truncated => endCause s.agents.source
  | .unknownOpcode _ => .illegalCommand
  | .reservedField => .illegalCommand

/-- The sink will answer `ok` to every access. -/
def SinkReady (s : State) : Prop := ∀ a ∈ s.agents.sinkAnswers, a = SinkAnswer.ok

/-- BW_N is at most 7 (10_state.md R23). -/
def WriterReady (s : State) : Prop := s.writer.n ≤ 7

/-- The zero bits up to the next byte boundary after `n` bits (20_memory.md R65). -/
def padding (n : Nat) : Bits := List.replicate ((8 - n % 8) % 8) false

/-! ## What a command leaves unchanged -/

/-- `t` is `s` but for the writer and what the sink took and answered. -/
def OnlyWrote (s t : State) : Prop :=
  t = (s.setWriter t.writer).setAgents
    { s.agents with sink := t.agents.sink, sinkAnswers := t.agents.sinkAnswers }

/-- `t` is `s` but for the reader and what the byte source answered. -/
def OnlyRead (s t : State) : Prop :=
  t = (s.setReader t.reader).setAgents { s.agents with source := t.agents.source }

/-! ## Trees and codes -/

/-- The values with a nonzero count, ascending (42_huffman_tree_builder.md R181). -/
def countedValues (f : Byte → Word) : List Byte := ((List.range 256).map (BitVec.ofNat 8)).filter fun v => f v ≠ 0

/-- The list L of R181 before the first merge: a leaf for each value with a nonzero count, in ascending value order,
numbered from 0. -/
def firstList (f : Byte → Word) : List HuffNode :=
  (countedValues f).zipIdx.map fun x => ⟨f x.1, x.2, .leaf x.1⟩

/-- The merges of R181: from the list L with next number `s`, the tree `t` can result. Each merge removes the least
element `a` by (weight, seq), then the least `b` of the others, and appends their node. -/
inductive Merges : Nat → List HuffNode → CodeTree → Prop where
  | root (s : Nat) (x : HuffNode) : Merges s [x] x.node
  | merge (s : Nat) (l rest : List HuffNode) (a b : HuffNode) (t : CodeTree) :
      l.Perm (a :: b :: rest) → (∀ x ∈ b :: rest, a.before x = true) → (∀ x ∈ rest, b.before x = true) →
      Merges (s + 1) (rest ++ [⟨a.weight + b.weight, s, .internal a.node b.node⟩]) t → Merges s l t

/-- `t` is what `BuildTree(f)` of R181 returns. -/
def IsBuiltTree (f : Byte → Word) (t : CodeTree) : Prop := Merges (firstList f).length (firstList f) t

/-- The record of one class in the codebook table, empty for a class with no counted token (30_encoding.md R93, R96). -/
def recordBits (freq : Table Word) (k : Byte) : Bits :=
  match buildTree (tableRow freq k) with
  | some t => binByte k ++ binTree t
  | none => []

/-- The codebook table: the records in ascending class order, then the sentinel (30_encoding.md R93, R96). -/
def tableBits (freq : Table Word) : Bits :=
  ((List.range 255).map (BitVec.ofNat 8)).flatMap (recordBits freq) ++ binByte sentinelId

/-- The codes of tokens, concatenated in order, if each has one (30_encoding.md R101). -/
def payloadBits (code : Table Bits) : List Token → Option Bits
  | [] => some []
  | t :: ts =>
    match codeGet code t.k t.v, payloadBits code ts with
    | some c, some cs => some (c ++ cs)
    | _, _ => none

/-! ## Tokens -/

/-- One token counted and buffered (43_huffman_encoder.md R200). -/
def putOne (s : State) (t : Token) : State :=
  (s.setBuilder { s.builder with
    freq := tableSet s.builder.freq (entryKey t.k t.v) (freqGet s.builder.freq t.k t.v + 1) }).setTokbuf
    (s.tokbuf ++ [t])

/-- Tokens counted and buffered in order. -/
def putAll (s : State) (ts : List Token) : State := ts.foldl putOne s

/-- There is room for `n` more tokens of any class: they fit TOKBUF_DEPTH, and no class total reaches 2^32 - 1 (43_huffman_encoder.md R200; 42_huffman_tree_builder.md R180). -/
def Room (s : State) (n : Nat) : Prop :=
  tableWf s.builder.freq ∧
  (∀ d, s.config.tokbufDepth = some d → s.tokbuf.length + n ≤ d) ∧
  ∀ k, classTotal s.builder.freq k + n < 2 ^ 32

/-- The token of a named class. -/
def token (c : TokenClass) (v : Byte) : Token := ⟨classId c, v⟩

/-- The tokens of a RUN group that carries the value `r` in `b` bytes, most significant first (30_encoding.md R107). -/
def runGroup (b : Nat) (r : Word) : List Token :=
  token .tag 0 :: token .byteCount (BitVec.ofNat 8 b) ::
    (List.range b).reverse.map fun j => token (runByteClass j) (BitVec.ofNat 8 (r.toNat / 256 ^ j))

/-- The tokens of the pending run, none if RUN = 0 (45_pixel_codec.md R240 step 2, R250). -/
def pendingRun (run : Word) : List Token := if run = 0 then [] else runGroup (runByteCount (run - 1)) (run - 1)

/-- The tokens of a LOOKUP group for a hit at position `j + 1` (45_pixel_codec.md R242). -/
def lookupTokens (j : Nat) : List Token := [token .tag 1, token .lookup (BitVec.ofNat 8 j)]

/-- The tokens of a DELTA or DELTA_UP group (45_pixel_codec.md R246). -/
def deltaTokens (p base : Pixel) (tag : Tag) : List Token :=
  [token .tag (tagValue tag), token .deltaR (p.r - base.r), token .deltaG (p.g - base.g),
    token .deltaB (p.b - base.b), token .deltaA (p.a - base.a)]

/-- `P +8 Q`, channel by channel (00_scope.md R10). -/
def addPixel (p q : Pixel) : Pixel := ⟨p.r + q.r, p.g + q.g, p.b + q.b, p.a + q.a⟩

/-- The pixel a memory holds where it is read, with the state after the read; a free value where it holds none
(notes/assumptions/2.md). -/
def pixelOr (s : State) : Option Pixel → Pixel × State
  | some p => (p, s)
  | none => (unpackPixel (Config.freePixel s.freeCount), s.setFreeCount (s.freeCount + 1))

/-- `up` on encode (45_pixel_codec.md R241), with the state after it is read. -/
def encodeUpRead (s : State) : Pixel × State :=
  pixelOr s (if s.image.row = 0 then some zeroPixel else s.enc.linebuf.read s.image.column)

/-- `up` on decode (45_pixel_codec.md R262), with the state after it is read. -/
def decodeUpRead (s : State) : Pixel × State :=
  pixelOr s (if s.image.row = 0 then some zeroPixel else s.dec.out.read (s.image.i.toNat - s.image.w.toNat))

/-- The cache of capacity `n` after a pixel is inserted or matched (41_mtf_cache.md R160, R162). -/
def cacheTouch (n : Nat) (es : List Pixel) (p : Pixel) : List Pixel :=
  if p ∈ es then p :: es.erase p else (p :: es).take n

/-- `bits` is the concatenation of codes of the tokens in the loaded trees, in order (30_encoding.md R101; 44_huffman_decoder.md
R224). -/
def Spells (dtree : Table CodeTree) : List Token → Bits → Prop
  | [], bits => bits = []
  | t :: ts, bits => ∃ c cs tree, bits = c ++ cs ∧ t.k ≠ sentinelId ∧ tableGet dtree t.k.toNat = some tree ∧
      tree.follow c = some t.v ∧ Spells dtree ts cs

/-- The state after the steps of PX_ENC_PIXEL before its case split: the pixel is in LINEBUF and I has advanced
(45_pixel_codec.md R240). -/
def pixelTaken (s : State) (p : Pixel) : State :=
  (s.setEnc { s.enc with linebuf := s.enc.linebuf.write s.image.column p }).setImage
    { s.image with i := s.image.i + 1 }

/-- The state after the last steps of PX_DEC_PIXEL: OUT[I] holds C and I has advanced (45_pixel_codec.md R260). -/
def pixelGiven (s : State) : State :=
  (s.setDec { s.dec with out := s.dec.out.write s.image.i.toNat s.dec.c }).setImage
    { s.image with i := s.image.i + 1 }

/-! ## The commands -/

/-- The instructions that are elements of the stream; the others are commands (30_encoding.md R118). -/
def isElement : Instr → Bool
  | .bwWriteBit _ => false
  | .bwWriteBits _ _ => false
  | .bwFlush => false
  | .brReadBit => false
  | .brReadBits _ => false
  | .mtfCheckAndInsert _ => false
  | .mtfFetch _ => false
  | .mtfClear => false
  | .htbCount _ _ => false
  | .htbBuild _ => false
  | .htbDerive _ => false
  | .hePutToken _ _ => false
  | .heEncodeToken _ _ => false
  | .heWriteTable => false
  | .heWritePayload => false
  | .heFinish => false
  | .hdReadTable => false
  | .hdRead _ => false
  | .pxSetDim _ _ => false
  | .pxEncPixel _ => false
  | .pxEncEnd => false
  | .pxDecPixel => false
  | .encodeImage _ _ => false
  | .decodeImage => false
  | .decodeHeader => false
  | .statusRead => false
  | .reset => false
  | .streamHeader _ _ => true
  | .tableRecord _ _ => true
  | .treeInternal _ _ => true
  | .treeLeaf _ => true
  | .tableSentinel => true

/-- The commands that run while STATUS.FAILED = 1 (60_exceptions.md R311). -/
def runsFailed : Instr → Bool
  | .bwWriteBit _ => false
  | .bwWriteBits _ _ => false
  | .bwFlush => false
  | .brReadBit => false
  | .brReadBits _ => false
  | .mtfCheckAndInsert _ => false
  | .mtfFetch _ => false
  | .mtfClear => false
  | .htbCount _ _ => false
  | .htbBuild _ => false
  | .htbDerive _ => false
  | .hePutToken _ _ => false
  | .heEncodeToken _ _ => false
  | .heWriteTable => false
  | .heWritePayload => false
  | .heFinish => false
  | .hdReadTable => false
  | .hdRead _ => false
  | .pxSetDim _ _ => false
  | .pxEncPixel _ => false
  | .pxEncEnd => false
  | .pxDecPixel => false
  | .encodeImage _ _ => true
  | .decodeImage => true
  | .decodeHeader => true
  | .statusRead => true
  | .reset => true
  | .streamHeader _ _ => false
  | .tableRecord _ _ => false
  | .treeInternal _ _ => false
  | .treeLeaf _ => false
  | .tableSentinel => false

/-- The causes a unit command or STATUS_READ or RESET can raise besides ILLEGAL_COMMAND and FAILED_STATE, and those of
DECODE and DECODE_HEADER, as the table of 60_exceptions.md R303 lists them; ENCODE's line is R303's. -/
def causesOf : Instr → List Cause
  | .bwWriteBit _ => [.sinkIo]
  | .bwWriteBits _ _ => [.widthRange, .sinkIo]
  | .bwFlush => [.sinkIo]
  | .brReadBit => [.eos, .sourceIo]
  | .brReadBits _ => [.widthRange, .eos, .sourceIo]
  | .mtfCheckAndInsert _ => []
  | .mtfFetch _ => [.fetchRange]
  | .mtfClear => []
  | .htbCount _ _ => [.classRange, .countOverflow]
  | .htbBuild _ => [.classRange]
  | .htbDerive _ => [.classRange]
  | .hePutToken _ _ => [.classRange, .tokbufFull, .countOverflow]
  | .heEncodeToken _ _ => [.classRange, .noCode, .sinkIo]
  | .heWriteTable => [.sinkIo]
  | .heWritePayload => [.noCode, .sinkIo]
  | .heFinish => [.noCode, .sinkIo]
  | .hdReadTable => [.eos, .sourceIo, .treeTooLarge]
  | .hdRead _ => [.classNotFound, .eos, .sourceIo]
  | .pxSetDim _ _ => []
  | .pxEncPixel _ => [.imageComplete, .tokbufFull, .countOverflow, .cacheState]
  | .pxEncEnd => [.tokbufFull, .countOverflow]
  | .pxDecPixel => [.imageComplete, .classNotFound, .unknownTag, .lookupRange, .eos, .sourceIo]
  | .encodeImage _ _ => [.sinkIo, .pixelIo, .pixelMissing, .tokbufFull]
  | .decodeImage => [.badMagic, .eos, .sourceIo, .treeTooLarge, .classNotFound, .unknownTag, .lookupRange]
  | .decodeHeader => [.badMagic, .eos, .sourceIo]
  | .statusRead => []
  | .reset => []
  | .streamHeader _ _ => []
  | .tableRecord _ _ => []
  | .treeInternal _ _ => []
  | .treeLeaf _ => []
  | .tableSentinel => []

/-- Instructions one after the other, if each answers a next state (70_reset_and_hazards.md R350). -/
def runAll : List Instr → State → Option State
  | [], s => some s
  | i :: is, s =>
    match exec i s with
    | .next t => runAll is t
    | .fault _ => none
    | .refused _ => none

/-- The bytes of the container header (30_encoding.md R90 to R92). -/
def headerBytes (w h : Half) : List Byte :=
  magic ++ [w.extractLsb' 8 8, w.extractLsb' 0 8, h.extractLsb' 8 8, h.extractLsb' 0 8]

/-- The unit commands of one encode before its pixels, in the order of 70_reset_and_hazards.md R353. -/
def encodeStart (w h : Half) : List Instr :=
  .reset :: magic.map (fun m => .bwWriteBits 8 (m.setWidth 32)) ++
    [.bwWriteBits 16 (w.setWidth 32), .bwWriteBits 16 (h.setWidth 32), .pxSetDim w h]

/-- The unit commands of one decode before its pixels, in the order of 70_reset_and_hazards.md R353. -/
def decodeStart (w h : Half) : List Instr :=
  .reset :: List.replicate 7 (.brReadBits 8) ++ [.brReadBits 16, .brReadBits 16, .pxSetDim w h, .hdReadTable]

/-- The answers of those commands: the reads of the header answer the magic and the dimensions (46_top_level.md R279). -/
def decodeStartAnswers (w h : Half) : List Response :=
  .ok 0 :: magic.map (fun m => .ok (m.setWidth 32)) ++ [.ok (w.setWidth 32), .ok (h.setWidth 32), .ok 0, .ok 0]

/-- The same state but for the responses and the pixel source's answers. -/
def SameBlock (s t : State) : Prop :=
  t.setAgents { t.agents with pixels := s.agents.pixels } = s.setHost { s.host with responses := t.host.responses }

/-- A field that is written by one command and read by its counterpart (40_bitstream.md R143). -/
inductive BitField where
  | bit (b : Bool)
  | bits (width : Byte) (v : Word)
deriving DecidableEq, Repr

/-- The command that writes a field. -/
def BitField.write : BitField → Instr
  | .bit b => .bwWriteBit b
  | .bits w v => .bwWriteBits w v

/-- The command that reads a field of the same width. -/
def BitField.read : BitField → Instr
  | .bit _ => .brReadBit
  | .bits w _ => .brReadBits w

/-- The width of a field. -/
def BitField.width : BitField → Nat
  | .bit _ => 1
  | .bits w _ => w.toNat

/-- The low `width` bits of the value written. -/
def BitField.value : BitField → Word
  | .bit b => (BitVec.ofBool b).setWidth 32
  | .bits w v => BitVec.ofNat 32 (v.toNat % 2 ^ w.toNat)

/-- Every element of the block has its reset value (10_state.md R57; 70_reset_and_hazards.md R340). -/
structure AtReset (s : State) : Prop where
  writer : s.writer = ⟨0, 0⟩
  reader : s.reader = ⟨0, 0⟩
  mtfLen : s.mtfLen = 0
  freq : ∀ k v, freqGet s.builder.freq k v = 0
  etree : ∀ k, tableGet s.builder.etree k = none
  code : ∀ k v, codeGet s.builder.code k v = none
  tokbuf : s.tokbuf = []
  tokCount : s.tokCount = 0
  dtree : ∀ k, tableGet s.decoder.dtree k = none
  loaded : s.decoder.loaded = false
  prior : s.enc.prior = zeroPixel
  run : s.enc.run = 0
  c : s.dec.c = zeroPixel
  drun : s.dec.drun = 0
  image : s.image = ⟨0, 0, 0⟩
  linebuf : ∀ x, s.enc.linebuf.read x = none
  out : ∀ x, s.dec.out.read x = none
  status : s.status = 0

/-- The commands that clear STATUS (60_exceptions.md R312). -/
def clearsStatus : Instr → Bool
  | .bwWriteBit _ => false
  | .bwWriteBits _ _ => false
  | .bwFlush => false
  | .brReadBit => false
  | .brReadBits _ => false
  | .mtfCheckAndInsert _ => false
  | .mtfFetch _ => false
  | .mtfClear => false
  | .htbCount _ _ => false
  | .htbBuild _ => false
  | .htbDerive _ => false
  | .hePutToken _ _ => false
  | .heEncodeToken _ _ => false
  | .heWriteTable => false
  | .heWritePayload => false
  | .heFinish => false
  | .hdReadTable => false
  | .hdRead _ => false
  | .pxSetDim _ _ => false
  | .pxEncPixel _ => false
  | .pxEncEnd => false
  | .pxDecPixel => false
  | .encodeImage _ _ => true
  | .decodeImage => true
  | .decodeHeader => true
  | .statusRead => false
  | .reset => true
  | .streamHeader _ _ => false
  | .tableRecord _ _ => false
  | .treeInternal _ _ => false
  | .treeLeaf _ => false
  | .tableSentinel => false

/-! ## The invariant -/

/-- What STATUS can hold: 0, or the record of one failure; FAILED_STATE is never recorded, since it is raised only
where a failure is recorded already (10_state.md R51; 60_exceptions.md R310, R311). -/
def StatusLegal (s : State) : Prop := s.status = 0 ∨ ∃ c, c ≠ Cause.failedState ∧ s.status = statusWord c

/-- The invariants of the units (10_state.md R22 to R50), which hold while the block is ready. -/
structure UnitInv (s : State) : Prop where
  /-- R23: BW_N is 0 to 7. -/
  writer_n : s.writer.n ≤ 7
  /-- R22: the bits of BW_ACC at and above BW_N are zero. -/
  writer_acc : s.writer.acc.toNat < 2 ^ s.writer.n
  /-- R25: BR_N is 0 to 8. -/
  reader_n : s.reader.n ≤ 8
  /-- R26: MTF_LEN is at most CACHE_CAPACITY. -/
  mtf_len : s.mtf.length ≤ s.config.cacheCapacity
  /-- R27: no duplicates. -/
  mtf_nodup : s.mtf.Nodup
  /-- FREQ is in its canonical form: the indices rise and a count of 0 is not listed. -/
  freq_wf : tableWf s.builder.freq
  freq_pos : ∀ e ∈ s.builder.freq, e.2 ≠ 0
  /-- R28: a class of FREQ is 0 to 254. -/
  freq_class : ∀ e ∈ s.builder.freq, e.1 / 256 ≤ 254
  /-- R180: every class total is below 2^32. -/
  freq_total : ∀ k, classTotal s.builder.freq k < 2 ^ 32
  /-- R29, R35: ETREE holds trees of classes 0 to 254 that fit the tree store. -/
  etree_wf : tableWf s.builder.etree
  etree_ok : ∀ e ∈ s.builder.etree, e.1 ≤ 254 ∧ e.2.size ≤ maxTreeNodes
  /-- R30: CODE holds codes of classes 0 to 254 of length 0 to 255. -/
  code_wf : tableWf s.builder.code
  code_ok : ∀ e ∈ s.builder.code, e.1 / 256 ≤ 254 ∧ e.2.length ≤ 255
  /-- R31, R208: every buffered token is counted and is of a class 0 to 254. -/
  tokbuf_ok : ∀ t ∈ s.tokbuf, t.k ≠ sentinelId ∧ freqGet s.builder.freq t.k t.v ≠ 0
  /-- R31: TOKBUF is no longer than TOKBUF_DEPTH. -/
  tokbuf_depth : ∀ d, s.config.tokbufDepth = some d → s.tokbuf.length ≤ d
  /-- R33, R35: DTREE holds trees of classes 0 to 254 that fit the tree store. -/
  dtree_wf : tableWf s.decoder.dtree
  dtree_ok : ∀ e ∈ s.decoder.dtree, e.1 ≤ 254 ∧ e.2.size ≤ maxTreeNodes
  /-- R46: I is at most W·H. -/
  image_i : s.image.i.toNat ≤ s.image.pixels
  /-- R41: RUN counts pixels of this image. -/
  run_le : s.enc.run.toNat ≤ s.image.i.toNat
  /-- R47: LINEBUF has the columns 0 to W - 1. -/
  linebuf_wf : Memory.wf s.enc.linebuf
  linebuf_ok : ∀ e ∈ s.enc.linebuf, e.1 < s.image.w.toNat
  /-- R50, R68: OUT has been written below I only. -/
  out_wf : Memory.wf s.dec.out
  out_ok : ∀ e ∈ s.dec.out, e.1 < s.image.i.toNat

/-- The invariant of a run: the host issues commands, STATUS is legal, and while the block is ready its units are as the
spec has them. In the failed state no rule reads the units before the next initialisation (60_exceptions.md R311, R313). -/
structure Inv (s : State) : Prop where
  commands : ∀ x ∈ s.host.issues, ∃ w, x = Issue.command w
  status : StatusLegal s
  units : s.failed = false → UnitInv s

end Sys2Proof.Machine
end

