-- ==== Sys2Proof/Certificates/Slice0/Obligations.lean ====
section
/-! DEFINITION. The statements for the provers. An equation `exec i s = .next t` whose `t` is written with the updates of
`s` says the whole of the next state: every part of the state that no update names is that of `s`. -/

open Sys2Proof Sys2Proof.Machine

/-! ## Reset, decoding, the step -/

/-- R342, R57: at power-up every element has its reset value, and the block is in the state RESET gives. -/
def Obligations.PowerUpState : Prop :=
  AtReset State.reset ∧ exec .reset State.reset = .next (respond (.ok 0) State.reset)

/-- R340: RESET completes whatever STATUS is, sets every element to its reset value and acts on no agent; a second RESET
leaves the same state but for its response. -/
def Obligations.ResetResult : Prop :=
  ∀ s : State, ∃ t, exec .reset s = .next (respond (.ok 0) t) ∧ AtReset t ∧ t.config = s.config ∧
    t.agents = s.agents ∧ t.host = s.host ∧ t.freeCount = s.freeCount ∧
    exec .reset (respond (.ok 0) t) = .next (respond (.ok 0) (respond (.ok 0) t))

/-- R118, R119, R93: words and bits written out from the spec's encodings. -/
def Obligations.SampleWordsDecode : Prop :=
  decodeCommand 0x0000000500000302#64 = .ok (.bwWriteBits 3 5) ∧
  decodeCommand 0x0000000000000309#64 = .ok (.brReadBits 3) ∧
  decodeCommand 0x0A00000000000010#64 = .ok (.mtfCheckAndInsert ⟨10, 0, 0, 0⟩) ∧
  decodeCommand 0x0000000000020018#64 = .ok (.htbCount 0 2) ∧
  decodeCommand 0x0000000000070720#64 = .ok (.hePutToken 7 7) ∧
  decodeCommand 0x0000000000000729#64 = .ok (.hdRead 7) ∧
  decodeCommand 0x0003000200000030#64 = .ok (.pxSetDim 3 2) ∧
  decodeCommand 0x1400000100000031#64 = .ok (.pxEncPixel ⟨20, 0, 0, 1⟩) ∧
  decodeCommand 0x0003000200000038#64 = .ok (.encodeImage 3 2) ∧
  decodeCommand 0x000000000000003F#64 = .ok .reset ∧
  decodeElement .table (binByte 0xFF) = .ok (.tableSentinel, []) ∧
  decodeElement .table (binByte 0 ++ [true, false] ++ binByte 0 ++ [false] ++ binByte 2) =
    .ok (.tableRecord 0 (.internal (.leaf 0) (.leaf 2)), []) ∧
  decodeElement .tree (false :: binByte 7) = .ok (.treeLeaf 7, []) ∧
  decodeElement .header (([0x70, 0x69, 0x63, 0x63, 0x6F, 0x6D, 0x70, 0x00, 0x02, 0x00, 0x03] : List Byte).flatMap binByte) =
    .ok (.streamHeader 2 3, [])

/-- R118, R119, R90, R93: decoding the encoding of a well-formed instruction gives it back, a stream element with the bits
that follow it left over. -/
def Obligations.DecodeOfEncode : Prop :=
  ∀ i : Instr, WellFormed i = true → decode (encode i) = .ok (i, []) ∧
    ∀ pos bits rest, encode i = .element pos bits → decodeElement pos (bits ++ rest) = .ok (i, rest)

/-- R118, R119, R90, R93, R97: what decodes is well-formed and is exactly the encoding of the instruction it decodes to: each
instruction has one code, and no bit of it is left out. -/
def Obligations.EncodeOfDecoded : Prop :=
  (∀ w i, decodeCommand w = .ok i → encode i = .command w ∧ isElement i = false ∧ WellFormed i = true) ∧
  ∀ pos bits i rest, decodeElement pos bits = .ok (i, rest) →
    WellFormed i = true ∧ isElement i = true ∧ ∃ c, encode i = .element pos c ∧ bits = c ++ rest

/-- R121: a word that is no command's (an opcode not in R118, or a nonzero field that must be 0) completes with ERR(USAGE,
ILLEGAL_COMMAND), changes STATUS only, and makes no external access. -/
def Obligations.IllegalCommand : Prop :=
  ∀ (s : State) (w : BitVec 64) (rest : List Issue), s.host.issues = .command w :: rest →
    (∀ i, encode i ≠ .command w) →
    step s = .next ((s.setStatus (if s.failed then s.status else 0x000D0601#32)).setHost
      { s.host with issues := rest, responses := s.host.responses ++ [.err .usage .illegalCommand] })

/-- R350, R327: a step takes the next command word issued and runs the command it decodes to, whose bits are in the word
and nowhere else; with nothing issued the block keeps all its state. -/
def Obligations.StepRunsDecodedCommand : Prop :=
  (∀ (s : State) (w : BitVec 64) (rest : List Issue) (i : Instr),
    s.host.issues = .command w :: rest → decodeCommand w = .ok i →
      step s = exec i (s.setHost { s.host with issues := rest })) ∧
  ∀ s : State, s.host.issues = [] → step s = .next s

/-- The model's choice (notes/assumptions/5.md): a step with an element of the stream issued reads its bits through the
bitstream_reader and runs the element they decode to; bits that are no element end in the failure of the command that
reads them, and in the failed state nothing is read. -/
def Obligations.StepRunsDecodedElement : Prop :=
  ∀ (s : State) (pos : StreamPos) (rest : List Issue), s.host.issues = .element pos :: rest →
    (s.failed = true → step s = .next (respond (.err .usage .failedState) (s.setHost { s.host with issues := rest }))) ∧
    (s.failed = false → ∀ i bits, decodeElement pos (streamIn s) = .ok (i, bits) →
      ∃ t, step s = exec i t ∧ OnlyRead (s.setHost { s.host with issues := rest }) t ∧ streamIn t = bits) ∧
    (s.failed = false → ∀ r, decodeElement pos (streamIn s) = .error r →
      ∃ t, step s = .next (failEntry (rejectCause s r) t) ∧ OnlyRead (s.setHost { s.host with issues := rest }) t)

/-! ## Failures, responses, what a run keeps -/

/-- R311: while STATUS.FAILED = 1 every command but the five completes with ERR(USAGE, FAILED_STATE), changes no state and
makes no external access. -/
def Obligations.FailedStateRefusesUnitCommands : Prop :=
  ∀ (i : Instr) (s : State), isElement i = false → runsFailed i = false → s.failed = true →
    exec i s = .next (respond (.err .usage .failedState) s)

/-- R286: STATUS_READ answers STATUS, also in the failed state, and changes no state. -/
def Obligations.StatusReadResult : Prop :=
  ∀ s : State, exec .statusRead s = .next (respond (.ok s.status) s)

/-- R120, R310, R312: every command completes with exactly one response; a success leaves STATUS as it was, a failure records
its kind and cause unless a failure is recorded already, and only RESET, ENCODE, DECODE and DECODE_HEADER clear STATUS,
before anything else. -/
def Obligations.ResponseAndStatus : Prop :=
  ∀ (i : Instr) (s t : State), isElement i = false → exec i s = .next t →
    ∃ r, t.host = { s.host with responses := s.host.responses ++ [r] } ∧
      match r with
      | .ok _ => t.status = if clearsStatus i then 0 else s.status
      | .err k c => k = c.kind ∧
          t.status = if clearsStatus i = false ∧ s.failed = true then s.status else statusWord c

/-- R303: the causes each command can raise besides ILLEGAL_COMMAND and FAILED_STATE, for a token buffer that holds no
token of class 255 (no command puts one there, R200). ENCODE's line is a statement of its own. -/
def Obligations.CausesOfCommands : Prop :=
  ∀ (i : Instr) (s t : State) (k : Kind) (c : Cause), isElement i = false → (∀ w h, i ≠ .encodeImage w h) →
    (∀ x ∈ s.tokbuf, x.k ≠ sentinelId) → exec i s = .next t →
    t.host.responses = s.host.responses ++ [.err k c] →
    c ∈ causesOf i ∨ (c = .failedState ∧ s.failed = true ∧ runsFailed i = false)

/-- R20, R352: no step changes the parameters. -/
def Obligations.ConfigurationIsFixed : Prop :=
  ∀ s t : State, step s = .next t → t.config = s.config

/-- The invariant holds after reset. -/
def Obligations.InvariantAtReset : Prop := Inv State.reset

/-- R22 to R50, R161, R180, R208: every step from a state with the invariant ends in one. -/
def Obligations.StepKeepsInvariant : Prop :=
  ∀ s t : State, Inv s → step s = .next t → Inv t

/-! ## bitstream_writer and bitstream_reader -/

/-- R131, R132: with a sink that takes its bytes, BW_WRITE_BIT appends its bit to the stream and BW_WRITE_BITS the low
`width` bits of its value, most significant first; BW_N counts the bits past the last whole byte, and the bits of BW_ACC
above it stay zero. -/
def Obligations.WriteBitsResult : Prop :=
  ∀ s : State, s.failed = false → WriterReady s → SinkReady s → s.writer.acc.toNat < 2 ^ s.writer.n →
    (∀ b, ∃ t, exec (.bwWriteBit b) s = .next (respond (.ok 0) t) ∧ OnlyWrote s t ∧ SinkReady t ∧
      streamOut t = streamOut s ++ [b] ∧ t.writer.n = (s.writer.n + 1) % 8 ∧ t.writer.acc.toNat < 2 ^ t.writer.n) ∧
    ∀ (width : Byte) (v : Word), width.toNat ≤ 32 →
      ∃ t, exec (.bwWriteBits width v) s = .next (respond (.ok 0) t) ∧ OnlyWrote s t ∧ SinkReady t ∧
        streamOut t = streamOut s ++ bin width.toNat v ∧ t.writer.n = (s.writer.n + width.toNat) % 8 ∧
        t.writer.acc.toNat < 2 ^ t.writer.n

/-- R130, R132: a sink that fails after `j` more bytes ends BW_WRITE_BITS with IO/SINK_IO at the byte it refuses; the bytes
delivered earlier in the command stay delivered. -/
def Obligations.WriteBitsSinkFailure : Prop :=
  ∀ (s : State) (width : Byte) (v : Word) (j : Nat) (rest : List SinkAnswer), s.failed = false → WriterReady s →
    width.toNat ≤ 32 → s.agents.sinkAnswers = List.replicate j .ok ++ .ioerr :: rest →
    8 * (j + 1) ≤ s.writer.n + width.toNat →
    ∃ t, exec (.bwWriteBits width v) s = .next (failEntry .sinkIo t) ∧ OnlyWrote s t ∧ t.agents.sinkAnswers = rest ∧
      bitsOf t.agents.sink = (streamOut s ++ bin width.toNat v).take (8 * (s.agents.sink.length + j))

/-- R133: BW_FLUSH pads the pending bits with zero bits up to the byte and delivers it; with no pending bit it makes no
access, so a second flush does nothing; a sink that fails ends it with IO/SINK_IO. -/
def Obligations.FlushResult : Prop :=
  ∀ s : State, s.failed = false → WriterReady s →
    (s.writer.n = 0 → exec .bwFlush s = .next (respond (.ok 0) s)) ∧
    (SinkReady s → ∃ t, exec .bwFlush s = .next (respond (.ok 0) t) ∧ OnlyWrote s t ∧ SinkReady t ∧
      streamOut t = streamOut s ++ padding s.writer.n ∧ t.writer.n = 0 ∧
      exec .bwFlush (respond (.ok 0) t) = .next (respond (.ok 0) (respond (.ok 0) t))) ∧
    (0 < s.writer.n → ∀ rest, s.agents.sinkAnswers = .ioerr :: rest →
      exec .bwFlush s = .next (failEntry .sinkIo (s.setAgents { s.agents with sinkAnswers := rest })))

/-- R141, R142: BR_READ_BIT answers the next bit of the stream and BR_READ_BITS the next `width` bits as a number, most
significant first; they consume exactly those bits and take no byte ahead of them; a width of 0 reads nothing. -/
def Obligations.ReadBitsResult : Prop :=
  ∀ s : State, s.failed = false → s.reader.n ≤ 8 →
    (∀ b rest, streamIn s = b :: rest → ∃ t, exec .brReadBit s = .next (respond (.ok ((BitVec.ofBool b).setWidth 32)) t) ∧
      OnlyRead s t ∧ streamIn t = rest ∧ t.reader.n ≤ 7) ∧
    ∀ (width : Byte) (bs rest : Bits), width.toNat ≤ 32 → bs.length = width.toNat → streamIn s = bs ++ rest →
      ∃ v t, exec (.brReadBits width) s = .next (respond (.ok v) t) ∧ bin 32 v = List.replicate (32 - width.toNat) false ++ bs ∧
        OnlyRead s t ∧ streamIn t = rest ∧ (width = 0 → t = s) ∧ (width ≠ 0 → t.reader.n ≤ 7)

/-- R140 to R142, R77, R321, R322: a read that needs a bit the source does not give ends with TRUNCATED/EOS where the
source answers `eos`, and with IO/SOURCE_IO where it answers `ioerr`. -/
def Obligations.ReadPastTheEnd : Prop :=
  ∀ s : State, s.failed = false →
    (streamIn s = [] → ∃ t, exec .brReadBit s = .next (failEntry (endCause s.agents.source) t) ∧ OnlyRead s t) ∧
    ∀ width : Byte, width.toNat ≤ 32 → (streamIn s).length < width.toNat →
      ∃ t, exec (.brReadBits width) s = .next (failEntry (endCause s.agents.source) t) ∧ OnlyRead s t

/-- R143: what a sequence of writes and a flush delivers, a reader of the same widths reads back, and only the padding is
left. A sink whose scripted answers are used up answers ok, which is the model's choice (notes/assumptions/4.md). -/
def Obligations.BitRoundTrip : Prop :=
  ∀ (fs : List BitField) (s : State), (∀ f ∈ fs, f.width ≤ 32) → s.failed = false → SinkReady s → s.writer.n = 0 →
    ∃ t bytes, runAll (fs.map BitField.write ++ [.bwFlush]) s = some t ∧ t.agents.sink = s.agents.sink ++ bytes ∧
      ∀ u : State, u.failed = false → u.reader.n = 0 → u.agents.source = bytes.map .byte →
        ∃ u', runAll (fs.map BitField.read) u = some u' ∧
          u'.host.responses = u.host.responses ++ fs.map (fun f => .ok f.value) ∧
          streamIn u' = padding (fs.map BitField.width).sum

/-! ## mtf_cache -/

/-- R160: a pixel the cache holds is found at its least position and moved to position 0, the entries before it shifting
down by one slot; a pixel it does not hold is inserted at position 0, the last entry dropped at capacity. -/
def Obligations.CheckAndInsertResult : Prop :=
  ∀ (s : State) (p : Pixel), s.failed = false →
    (∀ pre post, s.mtf = pre ++ p :: post → p ∉ pre →
      exec (.mtfCheckAndInsert p) s =
        .next (respond (.ok (BitVec.ofNat 32 pre.length)) (s.setMtf (p :: (pre ++ post))))) ∧
    (p ∉ s.mtf → s.mtfLen ≤ s.config.cacheCapacity →
      exec (.mtfCheckAndInsert p) s =
        .next (respond (.ok 0xFFFFFFFF#32) (s.setMtf ((p :: s.mtf).take s.config.cacheCapacity))))

/-- R162, R164: MTF_FETCH of an occupied position answers the packed pixel there and moves it to position 0; MTF_CLEAR
empties the cache. -/
def Obligations.FetchAndClearResult : Prop :=
  ∀ s : State, s.failed = false →
    (∀ (index : Byte) (p : Pixel) (pre post : List Pixel), s.mtf = pre ++ p :: post → pre.length = index.toNat →
      exec (.mtfFetch index) s = .next (respond (.ok (p.r ++ p.g ++ p.b ++ p.a)) (s.setMtf (p :: (pre ++ post))))) ∧
    ∃ t, exec .mtfClear s = .next (respond (.ok 0) (s.setMtf t)) ∧ t.length = 0

/-- R163: the encoder's check of a held value and the decoder's fetch of its position leave the same cache, and so do two
checks of a value that is not held. -/
def Obligations.CachesAgree : Prop :=
  (∀ (s : State) (x : Pixel) (p : Byte), s.failed = false → s.mtf.Nodup → s.mtf[p.toNat]? = some x →
    ∃ c r r', exec (.mtfCheckAndInsert x) s = .next (respond r (s.setMtf c)) ∧
      exec (.mtfFetch p) s = .next (respond r' (s.setMtf c))) ∧
  ∀ (s s' : State) (x : Pixel), s.failed = false → s'.failed = false → s.config = s'.config → s.mtf = s'.mtf →
    x ∉ s.mtf → ∃ c r r', exec (.mtfCheckAndInsert x) s = .next (respond r (s.setMtf c)) ∧
      exec (.mtfCheckAndInsert x) s' = .next (respond r' (s'.setMtf c))

/-- R165: a value followed by N further distinct values, each inserted by a miss, has been evicted; after exactly N - 1 it
is still held, at position N - 1. -/
def Obligations.CacheEviction : Prop :=
  ∀ (s t : State) (x : Pixel) (ys : List Pixel), s.failed = false → s.mtf.Nodup → s.mtfLen ≤ s.config.cacheCapacity →
    ys.Nodup → x ∉ ys → runAll ((x :: ys).map .mtfCheckAndInsert) s = some t →
    (∃ r, t.host.responses = s.host.responses ++ r :: List.replicate ys.length (.ok 0xFFFFFFFF#32)) →
    (ys.length = s.config.cacheCapacity →
      ∃ u, exec (.mtfCheckAndInsert x) t = .next (respond (.ok 0xFFFFFFFF#32) u)) ∧
    (ys.length + 1 = s.config.cacheCapacity →
      ∃ u, exec (.mtfCheckAndInsert x) t = .next (respond (.ok (BitVec.ofNat 32 ys.length)) u))

/-! ## huffman_tree_builder -/

/-- R180: HTB_COUNT adds 1 to the count of its token and changes nothing else. -/
def Obligations.CountResult : Prop :=
  ∀ (s : State) (k v : Byte), s.failed = false → classOk k → classTotal s.builder.freq k < 2 ^ 32 - 1 →
    ∃ f, exec (.htbCount k v) s = .next (respond (.ok 0) (s.setBuilder { s.builder with freq := f })) ∧
      ∀ k' v', freqGet f k' v' = freqGet s.builder.freq k' v' + (if k' = k ∧ v' = v then 1 else 0)

/-- R181, R182: HTB_BUILD sets the class's tree to the one the merges of R181 give for its counts, absent if all are 0, makes
every code of the class absent, and changes nothing else. -/
def Obligations.BuildResult : Prop :=
  ∀ (s : State) (k : Byte), s.failed = false → classOk k → tableWf s.builder.freq →
    ∃ e c, exec (.htbBuild k) s = .next (respond (.ok 0) (s.setBuilder { s.builder with etree := e, code := c })) ∧
      (∀ j : Byte, j ≠ k → tableGet e j.toNat = tableGet s.builder.etree j.toNat) ∧
      (∀ t, tableGet e k.toNat = some t → IsBuiltTree (freqGet s.builder.freq k) t) ∧
      (tableGet e k.toNat = none ↔ ∀ v, freqGet s.builder.freq k v = 0) ∧
      ∀ j v, codeGet c j v = if j = k then none else codeGet s.builder.code j v

/-- R183: a tree that R181 builds has one leaf for each counted value, 2m - 1 nodes for m values, at most 511, and depth at
most m - 1. -/
def Obligations.BuiltTreeShape : Prop :=
  ∀ (f : Byte → Word) (t : CodeTree), IsBuiltTree f t →
    t.values.Perm (countedValues f) ∧ t.values.Nodup ∧ t.leaves = (countedValues f).length ∧
    t.size = 2 * t.leaves - 1 ∧ t.size ≤ maxTreeNodes ∧ t.height ≤ t.leaves - 1

/-- R185, R186: HTB_DERIVE gives each value of the class's tree the path to its leaf, 0 to the left and 1 to the right, and
every other value of the class no code; it changes nothing else. -/
def Obligations.DeriveResult : Prop :=
  ∀ (s : State) (k : Byte), s.failed = false → classOk k →
    (∀ t, tableGet s.builder.etree k.toNat = some t → t.values.Nodup) →
    ∃ c, exec (.htbDerive k) s = .next (respond (.ok 0) (s.setBuilder { s.builder with code := c })) ∧
      (∀ j v, j ≠ k → codeGet c j v = codeGet s.builder.code j v) ∧
      ∀ v bits, codeGet c k v = some bits ↔
        ∃ t, tableGet s.builder.etree k.toNat = some t ∧ t.follow bits = some v

/-- R187: the codes derived for a class are prefix-free, the code of a value is as long as its leaf is deep, and for a
tree of two leaves or more the sum of 2^(-length) over the values with a code is 1. -/
def Obligations.DerivedCodesArePrefixFree : Prop :=
  ∀ (s u : State) (k : Byte) (t : CodeTree), s.failed = false → classOk k → tableGet s.builder.etree k.toNat = some t →
    t.values.Nodup → exec (.htbDerive k) s = .next u →
    (∀ v v' c c', codeGet u.builder.code k v = some c → codeGet u.builder.code k v' = some c' → c <+: c' → v = v') ∧
    (∀ v c, codeGet u.builder.code k v = some c → t.depthOf v = some c.length) ∧
    (2 ≤ t.leaves → ((((List.range 256).map (BitVec.ofNat 8)).filterMap fun v => codeGet u.builder.code k v).map
      fun c => (1 / 2 : ℚ) ^ c.length).sum = 1)

/-! ## huffman_encoder -/

/-- R200, R32: HE_PUT_TOKEN counts its token and appends it to the buffer, TOKCOUNT rising by 1. -/
def Obligations.PutTokenResult : Prop :=
  ∀ (s : State) (k v : Byte), s.failed = false → classOk k → s.config.tokbufDepth ≠ some s.tokbuf.length →
    classTotal s.builder.freq k < 2 ^ 32 - 1 →
    ∃ f, exec (.hePutToken k v) s =
        .next (respond (.ok 0) ((s.setBuilder { s.builder with freq := f }).setTokbuf (s.tokbuf ++ [⟨k, v⟩]))) ∧
      (∀ k' v', freqGet f k' v' = freqGet s.builder.freq k' v' + (if k' = k ∧ v' = v then 1 else 0)) ∧
      (s.tokbuf.length + 1 < 2 ^ 32 → (s.setTokbuf (s.tokbuf ++ [⟨k, v⟩])).tokCount = s.tokCount + 1)

/-- R132, R142, R162, R180, R182, R186, R200, R202, R224, R240, R260, R315: the checks that a command makes before any
effect. Each answers the ERR response of its cause, in the order the rules write them, and changes STATUS only. -/
def Obligations.ChecksChangeOnlyStatus : Prop :=
  ∀ s : State, s.failed = false →
    (∀ (w : Byte) (v : Word), 32 < w.toNat → exec (.bwWriteBits w v) s = .next (failEntry .widthRange s)) ∧
    (∀ w : Byte, 32 < w.toNat → exec (.brReadBits w) s = .next (failEntry .widthRange s)) ∧
    (∀ index : Byte, s.mtfLen ≤ index.toNat → exec (.mtfFetch index) s = .next (failEntry .fetchRange s)) ∧
    (∀ v, exec (.htbCount 255 v) s = .next (failEntry .classRange s)) ∧
    exec (.htbBuild 255) s = .next (failEntry .classRange s) ∧
    exec (.htbDerive 255) s = .next (failEntry .classRange s) ∧
    (∀ v, exec (.hePutToken 255 v) s = .next (failEntry .classRange s)) ∧
    (∀ v, exec (.heEncodeToken 255 v) s = .next (failEntry .classRange s)) ∧
    (∀ k v, classOk k → classTotal s.builder.freq k = 2 ^ 32 - 1 →
      exec (.htbCount k v) s = .next (failEntry .countOverflow s)) ∧
    (∀ k v, classOk k → s.config.tokbufDepth = some s.tokbuf.length →
      exec (.hePutToken k v) s = .next (failEntry .tokbufFull s)) ∧
    (∀ k v, classOk k → s.config.tokbufDepth ≠ some s.tokbuf.length → classTotal s.builder.freq k = 2 ^ 32 - 1 →
      exec (.hePutToken k v) s = .next (failEntry .countOverflow s)) ∧
    (∀ k v, classOk k → codeGet s.builder.code k v = none → exec (.heEncodeToken k v) s = .next (failEntry .noCode s)) ∧
    exec (.hdRead 255) s = .next (failEntry .classNotFound s) ∧
    (∀ k : Byte, tableGet s.decoder.dtree k.toNat = none → exec (.hdRead k) s = .next (failEntry .classNotFound s)) ∧
    (s.image.w.toNat * s.image.h.toNat ≤ s.image.i.toNat →
      (∀ p, exec (.pxEncPixel p) s = .next (failEntry .imageComplete s)) ∧
      exec .pxDecPixel s = .next (failEntry .imageComplete s))

/-- R202: HE_ENCODE_TOKEN writes the code of its token, first bit first; an empty code makes no access. -/
def Obligations.EncodeTokenResult : Prop :=
  ∀ (s : State) (k v : Byte) (c : Bits), s.failed = false → classOk k → codeGet s.builder.code k v = some c →
    (c = [] → exec (.heEncodeToken k v) s = .next (respond (.ok 0) s)) ∧
    (WriterReady s → SinkReady s → ∃ t, exec (.heEncodeToken k v) s = .next (respond (.ok 0) t) ∧ OnlyWrote s t ∧
      SinkReady t ∧ streamOut t = streamOut s ++ c ∧ t.writer.n = (s.writer.n + c.length) % 8)

/-- R204, R203, R96, R208: HE_WRITE_TABLE writes a record for each class with a counted token in ascending order and the
sentinel, leaves the class's tree and codes as HTB_BUILD and HTB_DERIVE make them and the other classes' as they were,
and every counted token then has a code. -/
def Obligations.WriteTableResult : Prop :=
  ∀ s : State, s.failed = false → WriterReady s → SinkReady s → tableWf s.builder.freq →
    ∃ t, exec .heWriteTable s = .next (respond (.ok 0) t) ∧ OnlyWrote (s.setBuilder t.builder) t ∧ SinkReady t ∧
      t.builder.freq = s.builder.freq ∧ streamOut t = streamOut s ++ tableBits s.builder.freq ∧
      t.writer.n = (s.writer.n + (tableBits s.builder.freq).length) % 8 ∧
      ∀ k : Byte, (k = 255 ∨ classTotal s.builder.freq k = 0 →
          tableGet t.builder.etree k.toNat = tableGet s.builder.etree k.toNat ∧
          ∀ v, codeGet t.builder.code k v = codeGet s.builder.code k v) ∧
        (k ≠ 255 → 0 < classTotal s.builder.freq k → ∃ x, tableGet t.builder.etree k.toNat = some x ∧
          IsBuiltTree (freqGet s.builder.freq k) x ∧ recordBits s.builder.freq k = binByte k ++ binTree x ∧
          (∀ v c, codeGet t.builder.code k v = some c ↔ x.follow c = some v) ∧
          ∀ v, freqGet s.builder.freq k v ≠ 0 → codeGet t.builder.code k v ≠ none)

/-- R206: HE_WRITE_PAYLOAD writes the codes of the buffered tokens in order and keeps the buffer; it ends with NO_CODE at
the first token that has none, the codes before it written. -/
def Obligations.WritePayloadResult : Prop :=
  ∀ s : State, s.failed = false → WriterReady s → SinkReady s → (∀ x ∈ s.tokbuf, x.k ≠ sentinelId) →
    (∀ bits, payloadBits s.builder.code s.tokbuf = some bits →
      ∃ t, exec .heWritePayload s = .next (respond (.ok 0) t) ∧ OnlyWrote s t ∧ SinkReady t ∧
        streamOut t = streamOut s ++ bits ∧ t.writer.n = (s.writer.n + bits.length) % 8) ∧
    ∀ ts x us bits, s.tokbuf = ts ++ x :: us → payloadBits s.builder.code ts = some bits →
      codeGet s.builder.code x.k x.v = none →
      ∃ t, exec .heWritePayload s = .next (failEntry .noCode t) ∧ OnlyWrote s t ∧ streamOut t = streamOut s ++ bits

/-- R207, R208, R101: where every buffered token is counted, HE_FINISH writes the table, the payload and the padding, with
no padding byte where the bits end on a byte boundary. -/
def Obligations.FinishResult : Prop :=
  ∀ s : State, s.failed = false → WriterReady s → SinkReady s → tableWf s.builder.freq →
    (∀ x ∈ s.tokbuf, x.k ≠ sentinelId ∧ freqGet s.builder.freq x.k x.v ≠ 0) →
    ∃ t bits, exec .heFinish s = .next (respond (.ok 0) t) ∧ OnlyWrote (s.setBuilder t.builder) t ∧ SinkReady t ∧
      payloadBits t.builder.code s.tokbuf = some bits ∧ t.builder.freq = s.builder.freq ∧ t.writer.n = 0 ∧
      streamOut t = streamOut s ++ tableBits s.builder.freq ++ bits ++
        padding (s.writer.n + (tableBits s.builder.freq).length + bits.length)

/-! ## huffman_decoder -/

/-- R220, R221, R97: HD_READ_TABLE loads the tree of each record, a later record of a class replacing an earlier one, up to
the sentinel, and reads exactly the table's bits. That a class with no record keeps the tree it had is the model's choice
(notes/assumptions/15.md). -/
def Obligations.ReadTableResult : Prop :=
  ∀ (s : State) (records : List (Byte × CodeTree)) (rest : Bits), s.failed = false →
    (∀ x ∈ records, classOk x.1 ∧ treeOk x.2) →
    streamIn s = records.flatMap (fun x => binByte x.1 ++ binTree x.2) ++ binByte 255 ++ rest →
    ∃ t, exec .hdReadTable s = .next (respond (.ok 0) t) ∧ OnlyRead (s.setDecoder t.decoder) t ∧ streamIn t = rest ∧
      t.decoder.loaded = true ∧
      ∀ k : Byte, tableGet t.decoder.dtree k.toNat =
        ((records.reverse.find? fun x => x.1 = k).map (·.2)).or (tableGet s.decoder.dtree k.toNat)

/-- R221, R97: a record whose tree has more than 511 nodes ends HD_READ_TABLE with CAPACITY/TREE_TOO_LARGE. -/
def Obligations.TreeTooLarge : Prop :=
  ∀ (s : State) (k : Byte) (t : CodeTree) (rest : Bits), s.failed = false → classOk k → ¬ treeOk t →
    streamIn s = binByte k ++ (binTree t ++ rest) →
    ∃ u, exec .hdReadTable s = .next (failEntry .treeTooLarge u) ∧ OnlyRead s u

/-- R224, R102: HD_READ walks the class's tree along the next bits to a leaf, answers its value and consumes exactly those
bits; a tree of one leaf reads nothing. -/
def Obligations.ReadTokenResult : Prop :=
  ∀ (s : State) (k v : Byte) (t : CodeTree) (c rest : Bits), s.failed = false → classOk k →
    tableGet s.decoder.dtree k.toNat = some t → t.follow c = some v → streamIn s = c ++ rest →
    ∃ u, exec (.hdRead k) s = .next (respond (.ok (v.setWidth 32)) u) ∧ OnlyRead s u ∧ streamIn u = rest ∧
      (c = [] → u = s)

/-- R225: with the encoder's tree of the class, HD_READ reads the codes HTB_DERIVE gives it, and a decoder with no tree that
reads the table HE_WRITE_TABLE wrote has the encoder's tree of every class written and no other. A sink whose scripted
answers are used up answers ok, which is the model's choice (notes/assumptions/4.md). -/
def Obligations.DecoderAgreesWithEncoder : Prop :=
  (∀ (e e' s : State) (k v : Byte) (t : CodeTree) (c rest : Bits), e.failed = false → classOk k →
    tableGet e.builder.etree k.toNat = some t → t.values.Nodup → exec (.htbDerive k) e = .next e' →
    codeGet e'.builder.code k v = some c → s.failed = false → tableGet s.decoder.dtree k.toNat = some t →
    streamIn s = c ++ rest →
    ∃ u, exec (.hdRead k) s = .next (respond (.ok (v.setWidth 32)) u) ∧ streamIn u = rest) ∧
  ∀ (e e' s : State) (bits rest : Bits), e.failed = false → WriterReady e → SinkReady e → tableWf e.builder.freq →
    exec .heWriteTable e = .next e' → streamOut e' = streamOut e ++ bits → s.failed = false →
    (∀ k : Byte, tableGet s.decoder.dtree k.toNat = none) → streamIn s = bits ++ rest →
    ∃ u, exec .hdReadTable s = .next (respond (.ok 0) u) ∧ streamIn u = rest ∧
      ∀ k : Byte, tableGet u.decoder.dtree k.toNat =
        if k ≠ 255 ∧ 0 < classTotal e.builder.freq k then tableGet e'.builder.etree k.toNat else none

/-! ## pixel_predictor_tokenizer -/

/-- R239: PX_SET_DIM sets the dimensions and starts the image: I, RUN and DRUN are 0, PRIOR and C are the zero color, the
cache is empty, and LINEBUF and OUT hold no value. -/
def Obligations.SetDimResult : Prop :=
  ∀ (s : State) (w h : Half), s.failed = false → ∃ (e : PxEncoder) (d : PxDecoder) (m : List Pixel),
    exec (.pxSetDim w h) s = .next (respond (.ok 0) ((((s.setImage ⟨w, h, 0⟩).setEnc e).setDec d).setMtf m)) ∧
      e.prior = ⟨0, 0, 0, 0⟩ ∧ e.run = 0 ∧ (∀ x, e.linebuf.read x = none) ∧
      d.c = ⟨0, 0, 0, 0⟩ ∧ d.drun = 0 ∧ (∀ x, d.out.read x = none) ∧ m.length = 0

/-- R240 case 1: a pixel equal to PRIOR is counted in RUN and stored in LINEBUF, I advances, and nothing else changes. -/
def Obligations.EncodeRunPixel : Prop :=
  ∀ s : State, s.failed = false → s.image.i.toNat < s.image.w.toNat * s.image.h.toNat →
    exec (.pxEncPixel s.enc.prior) s = .next (respond (.ok 0)
      (((encodeUpRead s).2.setEnc { s.enc with
          run := s.enc.run + 1, linebuf := s.enc.linebuf.write (s.image.i.toNat % s.image.w.toNat) s.enc.prior }).setImage
        { s.image with i := s.image.i + 1 }))

/-- R240 cases 2 and 3, R242, R250: a pixel that differs from PRIOR and is held at position j + 1 flushes the pending run and
emits the LOOKUP group of j; it becomes PRIOR and moves to the front of the cache. -/
def Obligations.EncodeLookupPixel : Prop :=
  ∀ (s : State) (p : Pixel) (pre post : List Pixel) (j : Nat), s.failed = false →
    s.image.i.toNat < s.image.w.toNat * s.image.h.toNat → p ≠ s.enc.prior →
    s.mtf = pre ++ p :: post → p ∉ pre → pre.length = j + 1 →
    Room s (pendingRun s.enc.run ++ lookupTokens j).length →
    exec (.pxEncPixel p) s = .next (respond (.ok 0)
      (putAll (((pixelTaken (encodeUpRead s).2 p).setMtf (p :: (pre ++ post))).setEnc
          { prior := p, run := 0,
            linebuf := s.enc.linebuf.write (s.image.i.toNat % s.image.w.toNat) p })
        (pendingRun s.enc.run ++ lookupTokens j)))

/-- R240 cases 4 to 6, R245, R246, R250: a pixel that differs from PRIOR and is not held flushes the pending run, is inserted
in the cache, and emits the DELTA or DELTA_UP group against the base the predictor chooses. -/
def Obligations.EncodeDeltaPixel : Prop :=
  ∀ (s : State) (p : Pixel), s.failed = false →
    s.image.i.toNat < s.image.w.toNat * s.image.h.toNat → p ≠ s.enc.prior → p ∉ s.mtf →
    s.mtfLen ≤ s.config.cacheCapacity → Room s ((pendingRun s.enc.run).length + 5) →
    ∃ base tag, (base, tag) = predict p s.enc.prior (encodeUpRead s).1 ∧
      exec (.pxEncPixel p) s = .next (respond (.ok 0)
        (putAll (((pixelTaken (encodeUpRead s).2 p).setMtf ((p :: s.mtf).take s.config.cacheCapacity)).setEnc
            { prior := p, run := 0,
              linebuf := s.enc.linebuf.write (s.image.i.toNat % s.image.w.toNat) p })
          (pendingRun s.enc.run ++ deltaTokens p base tag)))

/-- R252: PX_ENC_END flushes the pending run, if there is one, and sets RUN to 0. -/
def Obligations.EncodeEndResult : Prop :=
  ∀ s : State, s.failed = false → Room s (pendingRun s.enc.run).length →
    exec .pxEncEnd s = .next (respond (.ok 0)
      (putAll (s.setEnc { s.enc with run := 0 }) (pendingRun s.enc.run))) ∧
    (s.enc.run = 0 → exec .pxEncEnd s = .next (respond (.ok 0) s))

/-- R243: from a cache that is empty, as PX_SET_DIM leaves it, or has PRIOR at position 0, PX_ENC_PIXEL and PX_ENC_END
that complete leave such a cache, and PX_ENC_PIXEL does not fail with CACHE_STATE. A hit at position 0 of any other cache
fails with CACHE_STATE after the pending run is flushed; where LINEBUF holds no value, its read there takes a free value,
which is the model's choice (notes/assumptions/2.md). -/
def Obligations.CacheHeadIsPrior : Prop :=
  (∀ (s t : State) (p : Pixel), s.failed = false → (s.mtf = [] ∨ s.mtf.head? = some s.enc.prior) →
    (exec (.pxEncPixel p) s = .next t ∨ exec .pxEncEnd s = .next t) →
    (∃ r, t.host.responses = s.host.responses ++ [.ok r] ∧ (t.mtf = [] ∨ t.mtf.head? = some t.enc.prior)) ∨
    ∃ k c, t.host.responses = s.host.responses ++ [.err k c] ∧ c ≠ .cacheState) ∧
  ∀ (s : State) (p : Pixel), s.failed = false → s.image.i.toNat < s.image.w.toNat * s.image.h.toNat →
    p ≠ s.enc.prior → s.mtf.head? = some p → Room s (pendingRun s.enc.run).length →
    exec (.pxEncPixel p) s = .next (failEntry .cacheState
      (putAll ((pixelTaken (encodeUpRead s).2 p).setEnc { s.enc with
          run := 0, linebuf := s.enc.linebuf.write (s.image.i.toNat % s.image.w.toNat) p })
        (pendingRun s.enc.run)))

/-- R247, R251: the choices of the predictor in its worked cases, and the tokens of the worked run flushes. -/
def Obligations.WorkedCases : Prop :=
  predict ⟨10, 10, 10, 255⟩ ⟨0, 0, 0, 255⟩ ⟨0, 0, 0, 255⟩ = (⟨0, 0, 0, 255⟩, .delta) ∧
  predict ⟨5, 5, 5, 5⟩ ⟨0, 0, 0, 0⟩ ⟨5, 5, 5, 5⟩ = (⟨5, 5, 5, 5⟩, .deltaUp) ∧
  predict ⟨10, 0, 0, 0⟩ ⟨0, 0, 0, 0⟩ ⟨0, 20, 0, 0⟩ = (⟨0, 0, 0, 0⟩, .delta) ∧
  predict ⟨0, 0, 0, 0⟩ ⟨255, 0, 0, 0⟩ ⟨2, 0, 0, 0⟩ = (⟨255, 0, 0, 0⟩, .delta) ∧
  predict ⟨0, 0, 0, 0⟩ ⟨1, 0, 0, 0⟩ ⟨3, 0, 0, 0⟩ = (⟨1, 0, 0, 0⟩, .delta) ∧
  predict ⟨0, 0, 0, 0⟩ ⟨3, 0, 0, 0⟩ ⟨1, 0, 0, 0⟩ = (⟨1, 0, 0, 0⟩, .deltaUp) ∧
  predict ⟨128, 0, 0, 0⟩ ⟨0, 0, 0, 0⟩ ⟨1, 0, 0, 0⟩ = (⟨0, 0, 0, 0⟩, .delta) ∧
  pendingRun 1 = [⟨0, 0⟩, ⟨1, 0⟩] ∧ pendingRun 2 = [⟨0, 0⟩, ⟨1, 1⟩, ⟨2, 1⟩] ∧
  pendingRun 256 = [⟨0, 0⟩, ⟨1, 1⟩, ⟨2, 255⟩] ∧ pendingRun 257 = [⟨0, 0⟩, ⟨1, 2⟩, ⟨3, 1⟩, ⟨2, 0⟩] ∧
  pendingRun 65536 = [⟨0, 0⟩, ⟨1, 2⟩, ⟨3, 255⟩, ⟨2, 255⟩] ∧
  pendingRun 65537 = [⟨0, 0⟩, ⟨1, 3⟩, ⟨4, 1⟩, ⟨3, 0⟩, ⟨2, 0⟩] ∧
  pendingRun 16777217 = [⟨0, 0⟩, ⟨1, 4⟩, ⟨5, 1⟩, ⟨4, 0⟩, ⟨3, 0⟩, ⟨2, 0⟩]

/-- R260, R261, R108: in a countdown PX_DEC_PIXEL repeats C and reads nothing; a RUN group of `b` bytes, 0 to 4, sets the
countdown to its value and leaves C; both write C to OUT and advance I. -/
def Obligations.DecodeRunPixel : Prop :=
  ∀ s : State, s.failed = false → s.image.i.toNat < s.image.w.toNat * s.image.h.toNat →
    (s.dec.drun ≠ 0 → exec .pxDecPixel s = .next (respond (.ok (packPixel s.dec.c))
      (pixelGiven (s.setDec { s.dec with drun := s.dec.drun - 1 })))) ∧
    (s.dec.drun = 0 → ∀ (b : Nat) (r : Word) (bits rest : Bits), b ≤ 4 → r.toNat < 256 ^ b →
      Spells s.decoder.dtree (runGroup b r) bits → streamIn s = bits ++ rest →
      ∃ t, exec .pxDecPixel s = .next (respond (.ok (packPixel s.dec.c)) (pixelGiven t)) ∧
        OnlyRead (s.setDec { s.dec with drun := r }) t ∧ streamIn t = rest)

/-- R260, R261: a LOOKUP group of the value v makes the cache entry at v + 1 the pixel and moves it to position 0. -/
def Obligations.DecodeLookupPixel : Prop :=
  ∀ (s : State) (p : Pixel) (pre post : List Pixel) (v : Byte) (bits rest : Bits), s.failed = false →
    s.image.i.toNat < s.image.w.toNat * s.image.h.toNat → s.dec.drun = 0 →
    Spells s.decoder.dtree [token .tag 1, token .lookup v] bits → streamIn s = bits ++ rest →
    s.mtf = pre ++ p :: post → pre.length = v.toNat + 1 →
    ∃ t, exec .pxDecPixel s = .next (respond (.ok (packPixel p)) (pixelGiven t)) ∧
      OnlyRead ((s.setMtf (p :: (pre ++ post))).setDec { s.dec with c := p }) t ∧ streamIn t = rest

/-- R260, R261, R262: a DELTA group adds its deltas to C, a DELTA_UP group to the pixel above, channel by channel and modulo
256; the pixel that results is C and is inserted in the cache. -/
def Obligations.DecodeDeltaPixel : Prop :=
  ∀ (s : State) (d : Pixel) (tag : Tag) (bits rest : Bits), s.failed = false →
    s.image.i.toNat < s.image.w.toNat * s.image.h.toNat → s.dec.drun = 0 → s.mtfLen ≤ s.config.cacheCapacity →
    tag = .delta ∨ tag = .deltaUp →
    Spells s.decoder.dtree (deltaTokens d zeroPixel tag) bits → streamIn s = bits ++ rest →
    ∃ base s' t, (base, s') = (if tag = .deltaUp then decodeUpRead s else (s.dec.c, s)) ∧
      exec .pxDecPixel s = .next (respond (.ok (packPixel (addPixel base d))) (pixelGiven t)) ∧
      OnlyRead ((s'.setMtf (cacheTouch s.config.cacheCapacity s.mtf (addPixel base d))).setDec
        { s.dec with c := addPixel base d }) t ∧ streamIn t = rest

/-- R113, R114, R115, R260, R315: a tag above 3 fails with UNKNOWN_TAG, a byte count above 4 with CLASS_NOT_FOUND before any
run byte, a LOOKUP value v with v + 1 at or above MTF_LEN with LOOKUP_RANGE; OUT, C and I are unchanged. -/
def Obligations.DecodeIllegalTokens : Prop :=
  ∀ (s : State) (bits rest : Bits), s.failed = false → s.image.i.toNat < s.image.w.toNat * s.image.h.toNat →
    s.dec.drun = 0 → streamIn s = bits ++ rest →
    (∀ v : Byte, 4 ≤ v.toNat → Spells s.decoder.dtree [token .tag v] bits →
      ∃ t, exec .pxDecPixel s = .next (failEntry .unknownTag t) ∧ OnlyRead s t ∧ streamIn t = rest) ∧
    (∀ b : Byte, 5 ≤ b.toNat → Spells s.decoder.dtree [token .tag 0, token .byteCount b] bits →
      ∃ t, exec .pxDecPixel s = .next (failEntry .classNotFound t) ∧ OnlyRead s t ∧ streamIn t = rest) ∧
    (∀ v : Byte, s.mtfLen ≤ v.toNat + 1 → Spells s.decoder.dtree [token .tag 1, token .lookup v] bits →
      ∃ t, exec .pxDecPixel s = .next (failEntry .lookupRange t) ∧ OnlyRead s t ∧ streamIn t = rest)

/-! ## The top-level commands -/

/-- R123, R207, R280, R353: HE_FINISH is HE_WRITE_TABLE, HE_WRITE_PAYLOAD and BW_FLUSH in order, and an ENCODE that completes
leaves the block as the unit commands of R353 do, the pixels being the source's next W·H. -/
def Obligations.EncodeIsItsUnitCommands : Prop :=
  (∀ (s t : State) (r : Word), exec .heFinish s = .next t → t.host.responses = s.host.responses ++ [.ok r] →
    ∃ u, runAll [.heWriteTable, .heWritePayload, .bwFlush] s = some u ∧ SameBlock t u) ∧
  ∀ (s t : State) (w h : Half) (ps : List Pixel) (rest : List PixelAnswer) (r : Word),
    s.agents.pixels = ps.map .pixel ++ rest → ps.length = w.toNat * h.toNat →
    exec (.encodeImage w h) s = .next t → t.host.responses = s.host.responses ++ [.ok r] →
    t.agents.pixels = rest ∧
    ∃ u, runAll (encodeStart w h ++ ps.map .pxEncPixel ++ [.pxEncEnd, .heFinish]) s = some u ∧ SameBlock t u

/-- R123, R282, R353, R279: a DECODE that completes leaves the block as the unit commands of R353 do, and answers the
dimensions in the header: of those commands the reads of the header answer the magic, W and H in that order. -/
def Obligations.DecodeIsItsUnitCommands : Prop :=
  ∀ (s t : State) (r : Word), exec .decodeImage s = .next t → t.host.responses = s.host.responses ++ [.ok r] →
    r = t.image.w ++ t.image.h ∧ t.image.i.toNat = t.image.w.toNat * t.image.h.toNat ∧
    ∃ u rs, runAll (decodeStart t.image.w t.image.h ++
      List.replicate (t.image.w.toNat * t.image.h.toNat) .pxDecPixel) s = some u ∧ SameBlock t u ∧
      u.host.responses = s.host.responses ++ (decodeStartAnswers t.image.w t.image.h ++ rs)

/-- R280, R281, R67: with a sink that takes its bytes and W·H pixels to take, an ENCODE whose token buffer is unbounded or
holds 6·W·H tokens completes: it takes those pixels and no more, and delivers the header, the table, the payload and the
padding. -/
def Obligations.EncodeCompletes : Prop :=
  ∀ (s : State) (w h : Half) (ps : List Pixel) (rest : List PixelAnswer), SinkReady s →
    s.agents.pixels = ps.map .pixel ++ rest → ps.length = w.toNat * h.toNat →
    (∀ d, s.config.tokbufDepth = some d → 6 * (w.toNat * h.toNat) ≤ d) →
    ∃ t bytes, exec (.encodeImage w h) s = .next (respond (.ok 0) t) ∧ t.agents.pixels = rest ∧
      t.agents.source = s.agents.source ∧ t.agents.sink = s.agents.sink ++ headerBytes w h ++ bytes ∧
      t.config = s.config ∧ t.host = s.host ∧ t.status = 0 ∧ t.writer.n = 0 ∧ t.reader = ⟨0, 0⟩ ∧
      t.image.w = w ∧ t.image.h = h ∧ t.image.i.toNat = w.toNat * h.toNat ∧ t.enc.run = 0 ∧
      t.decoder = ⟨[], false⟩ ∧ t.dec = ⟨zeroPixel, 0, []⟩ ∧ t.tokbuf.length ≤ 6 * (w.toNat * h.toNat) ∧
      ∃ bits, payloadBits t.builder.code t.tokbuf = some bits ∧
        bitsOf bytes = tableBits t.builder.freq ++ bits ++ padding ((tableBits t.builder.freq).length + bits.length)

/-- R303, R280: ENCODE fails with SINK_IO, PIXEL_IO, PIXEL_MISSING or TOKBUF_FULL only, and unless the sink fails the bytes
delivered before a failure are exactly the header's. What a sink that fails leaves delivered is not stated here; the
model's reading of it is notes/assumptions/14.md. -/
def Obligations.EncodeFailures : Prop :=
  ∀ (s t : State) (w h : Half) (k : Kind) (c : Cause), exec (.encodeImage w h) s = .next t →
    t.host.responses = s.host.responses ++ [.err k c] →
    c ∈ causesOf (.encodeImage w h) ∧
    (c ≠ .sinkIo → t.agents.sink = s.agents.sink ++ headerBytes w h)

/-- R284, R279, R367: DECODE_HEADER answers the dimensions of a header, taking exactly its 11 bytes; seven bytes that are not
the magic fail with BAD_MAGIC, fewer than seven with the source's ending, in DECODE as well. -/
def Obligations.DecodeHeaderResult : Prop :=
  ∀ s : State,
    (∀ (w h : Half) (rest : List SourceAnswer), s.agents.source = (headerBytes w h).map .byte ++ rest →
      ∃ cur, exec .decodeHeader s = .next (respond (.ok (w ++ h))
        ((((initState s).setImage ⟨w, h, 0⟩).setReader ⟨cur, 0⟩).setAgents { s.agents with source := rest }))) ∧
    (∀ (bytes : List Byte) (rest : List SourceAnswer), bytes.length = 7 → bytes ≠ magic →
      s.agents.source = bytes.map .byte ++ rest →
      ∃ t, exec .decodeHeader s = .next (failEntry .badMagic t) ∧ exec .decodeImage s = .next (failEntry .badMagic t) ∧
        OnlyRead (initState s) t ∧ t.agents.source = rest) ∧
    ((sourceBytes s.agents.source).length < 7 →
      ∃ t, exec .decodeHeader s = .next (failEntry (endCause s.agents.source) t) ∧
        exec .decodeImage s = .next (failEntry (endCause s.agents.source) t) ∧ OnlyRead (initState s) t)

/-- R282: DECODE of an image of no pixels reads the header and the table and completes. -/
def Obligations.DecodeEmptyImage : Prop :=
  ∀ (s : State) (w h : Half) (records : List (Byte × CodeTree)) (rest : Bits), w.toNat * h.toNat = 0 →
    (∀ x ∈ records, classOk x.1 ∧ treeOk x.2) →
    bitsOf (sourceBytes s.agents.source) = bitsOf (headerBytes w h) ++
      (records.flatMap (fun x => binByte x.1 ++ binTree x.2) ++ binByte 255 ++ rest) →
    ∃ t, exec .decodeImage s = .next (respond (.ok (w ++ h)) t) ∧ streamIn t = rest ∧
      OnlyRead (((initState s).setImage ⟨w, h, 0⟩).setDecoder t.decoder) t ∧ t.decoder.loaded = true

/-- R288, R264: what an ENCODE that completes delivers, a DECODE with the same cache capacity reads back, whatever bytes
follow: it completes with the dimensions, and OUT holds the pixels. -/
def Obligations.ImageRoundTrip : Prop :=
  ∀ (s t u : State) (w h : Half) (ps : List Pixel) (more : List PixelAnswer) (bytes : List Byte)
    (rest : List SourceAnswer) (r : Word), ps.length = w.toNat * h.toNat →
    s.agents.pixels = ps.map .pixel ++ more → exec (.encodeImage w h) s = .next t →
    t.host.responses = s.host.responses ++ [.ok r] →
    t.agents.sink = s.agents.sink ++ bytes → u.config.cacheCapacity = s.config.cacheCapacity →
    u.agents.source = bytes.map .byte ++ rest →
    ∃ u', exec .decodeImage u = .next (respond (.ok (w ++ h)) u') ∧ u'.agents.source = rest ∧
      ∀ i, u'.dec.out.read i = ps[i]?

/-- R343, R289: RESET, ENCODE, DECODE and DECODE_HEADER depend on nothing that the block held before: where the parameters,
the agents, the interface and the model's count of free values are the same, so is the outcome. -/
def Obligations.TopLevelStartsFresh : Prop :=
  ∀ (i : Instr) (s s' : State), clearsStatus i = true → s.config = s'.config → s.agents = s'.agents →
    s.host = s'.host → s.freeCount = s'.freeCount → exec i s = exec i s'

/-- The model's choice (notes/assumptions/5.md), after R93 and R90: what each element of the stream does when it is
interpreted by itself: the header sets the dimensions, a record replaces the tree of its class, the sentinel ends the
table, and a node is delivered over its subtrees. -/
def Obligations.ElementsComplete : Prop :=
  ∀ s : State, s.failed = false →
    (∀ w h : Half, exec (.streamHeader w h) s = .next (s.setImage { s.image with w := w, h := h })) ∧
    (∀ (k : Byte) (t : CodeTree), ∃ d, exec (.tableRecord k t) s = .next (s.setDecoder { s.decoder with dtree := d }) ∧
      tableGet d k.toNat = some t ∧ ∀ j : Byte, j ≠ k → tableGet d j.toNat = tableGet s.decoder.dtree j.toNat) ∧
    exec .tableSentinel s = .next (s.setDecoder { s.decoder with loaded := true }) ∧
    (∀ l r : CodeTree, exec (.treeInternal l r) s = .next (s.setTreeOut (some (.internal l r)))) ∧
    ∀ v : Byte, exec (.treeLeaf v) s = .next (s.setTreeOut (some (.leaf v)))
end

