-- ==== Sys2Proof/Laws/State.lean ====
section
/-! SUPPORT. What each update of the state leaves in each part of it: one lemma for a part and an update. -/

namespace Sys2Proof.Machine

variable (s : State)

section
variable (x : BitWriter)
@[simp] theorem State.setWriter_config : (s.setWriter x).config = s.config := rfl
@[simp] theorem State.setWriter_writer : (s.setWriter x).writer = x := rfl
@[simp] theorem State.setWriter_reader : (s.setWriter x).reader = s.reader := rfl
@[simp] theorem State.setWriter_mtf : (s.setWriter x).mtf = s.mtf := rfl
@[simp] theorem State.setWriter_builder : (s.setWriter x).builder = s.builder := rfl
@[simp] theorem State.setWriter_tokbuf : (s.setWriter x).tokbuf = s.tokbuf := rfl
@[simp] theorem State.setWriter_decoder : (s.setWriter x).decoder = s.decoder := rfl
@[simp] theorem State.setWriter_image : (s.setWriter x).image = s.image := rfl
@[simp] theorem State.setWriter_enc : (s.setWriter x).enc = s.enc := rfl
@[simp] theorem State.setWriter_dec : (s.setWriter x).dec = s.dec := rfl
@[simp] theorem State.setWriter_status : (s.setWriter x).status = s.status := rfl
@[simp] theorem State.setWriter_agents : (s.setWriter x).agents = s.agents := rfl
@[simp] theorem State.setWriter_host : (s.setWriter x).host = s.host := rfl
@[simp] theorem State.setWriter_freeCount : (s.setWriter x).freeCount = s.freeCount := rfl
@[simp] theorem State.setWriter_treeOut : (s.setWriter x).treeOut = s.treeOut := rfl
end

section
variable (x : BitReader)
@[simp] theorem State.setReader_config : (s.setReader x).config = s.config := rfl
@[simp] theorem State.setReader_writer : (s.setReader x).writer = s.writer := rfl
@[simp] theorem State.setReader_reader : (s.setReader x).reader = x := rfl
@[simp] theorem State.setReader_mtf : (s.setReader x).mtf = s.mtf := rfl
@[simp] theorem State.setReader_builder : (s.setReader x).builder = s.builder := rfl
@[simp] theorem State.setReader_tokbuf : (s.setReader x).tokbuf = s.tokbuf := rfl
@[simp] theorem State.setReader_decoder : (s.setReader x).decoder = s.decoder := rfl
@[simp] theorem State.setReader_image : (s.setReader x).image = s.image := rfl
@[simp] theorem State.setReader_enc : (s.setReader x).enc = s.enc := rfl
@[simp] theorem State.setReader_dec : (s.setReader x).dec = s.dec := rfl
@[simp] theorem State.setReader_status : (s.setReader x).status = s.status := rfl
@[simp] theorem State.setReader_agents : (s.setReader x).agents = s.agents := rfl
@[simp] theorem State.setReader_host : (s.setReader x).host = s.host := rfl
@[simp] theorem State.setReader_freeCount : (s.setReader x).freeCount = s.freeCount := rfl
@[simp] theorem State.setReader_treeOut : (s.setReader x).treeOut = s.treeOut := rfl
end

section
variable (x : List Pixel)
@[simp] theorem State.setMtf_config : (s.setMtf x).config = s.config := rfl
@[simp] theorem State.setMtf_writer : (s.setMtf x).writer = s.writer := rfl
@[simp] theorem State.setMtf_reader : (s.setMtf x).reader = s.reader := rfl
@[simp] theorem State.setMtf_mtf : (s.setMtf x).mtf = x := rfl
@[simp] theorem State.setMtf_builder : (s.setMtf x).builder = s.builder := rfl
@[simp] theorem State.setMtf_tokbuf : (s.setMtf x).tokbuf = s.tokbuf := rfl
@[simp] theorem State.setMtf_decoder : (s.setMtf x).decoder = s.decoder := rfl
@[simp] theorem State.setMtf_image : (s.setMtf x).image = s.image := rfl
@[simp] theorem State.setMtf_enc : (s.setMtf x).enc = s.enc := rfl
@[simp] theorem State.setMtf_dec : (s.setMtf x).dec = s.dec := rfl
@[simp] theorem State.setMtf_status : (s.setMtf x).status = s.status := rfl
@[simp] theorem State.setMtf_agents : (s.setMtf x).agents = s.agents := rfl
@[simp] theorem State.setMtf_host : (s.setMtf x).host = s.host := rfl
@[simp] theorem State.setMtf_freeCount : (s.setMtf x).freeCount = s.freeCount := rfl
@[simp] theorem State.setMtf_treeOut : (s.setMtf x).treeOut = s.treeOut := rfl
end

section
variable (x : TreeBuilder)
@[simp] theorem State.setBuilder_config : (s.setBuilder x).config = s.config := rfl
@[simp] theorem State.setBuilder_writer : (s.setBuilder x).writer = s.writer := rfl
@[simp] theorem State.setBuilder_reader : (s.setBuilder x).reader = s.reader := rfl
@[simp] theorem State.setBuilder_mtf : (s.setBuilder x).mtf = s.mtf := rfl
@[simp] theorem State.setBuilder_builder : (s.setBuilder x).builder = x := rfl
@[simp] theorem State.setBuilder_tokbuf : (s.setBuilder x).tokbuf = s.tokbuf := rfl
@[simp] theorem State.setBuilder_decoder : (s.setBuilder x).decoder = s.decoder := rfl
@[simp] theorem State.setBuilder_image : (s.setBuilder x).image = s.image := rfl
@[simp] theorem State.setBuilder_enc : (s.setBuilder x).enc = s.enc := rfl
@[simp] theorem State.setBuilder_dec : (s.setBuilder x).dec = s.dec := rfl
@[simp] theorem State.setBuilder_status : (s.setBuilder x).status = s.status := rfl
@[simp] theorem State.setBuilder_agents : (s.setBuilder x).agents = s.agents := rfl
@[simp] theorem State.setBuilder_host : (s.setBuilder x).host = s.host := rfl
@[simp] theorem State.setBuilder_freeCount : (s.setBuilder x).freeCount = s.freeCount := rfl
@[simp] theorem State.setBuilder_treeOut : (s.setBuilder x).treeOut = s.treeOut := rfl
end

section
variable (x : List Token)
@[simp] theorem State.setTokbuf_config : (s.setTokbuf x).config = s.config := rfl
@[simp] theorem State.setTokbuf_writer : (s.setTokbuf x).writer = s.writer := rfl
@[simp] theorem State.setTokbuf_reader : (s.setTokbuf x).reader = s.reader := rfl
@[simp] theorem State.setTokbuf_mtf : (s.setTokbuf x).mtf = s.mtf := rfl
@[simp] theorem State.setTokbuf_builder : (s.setTokbuf x).builder = s.builder := rfl
@[simp] theorem State.setTokbuf_tokbuf : (s.setTokbuf x).tokbuf = x := rfl
@[simp] theorem State.setTokbuf_decoder : (s.setTokbuf x).decoder = s.decoder := rfl
@[simp] theorem State.setTokbuf_image : (s.setTokbuf x).image = s.image := rfl
@[simp] theorem State.setTokbuf_enc : (s.setTokbuf x).enc = s.enc := rfl
@[simp] theorem State.setTokbuf_dec : (s.setTokbuf x).dec = s.dec := rfl
@[simp] theorem State.setTokbuf_status : (s.setTokbuf x).status = s.status := rfl
@[simp] theorem State.setTokbuf_agents : (s.setTokbuf x).agents = s.agents := rfl
@[simp] theorem State.setTokbuf_host : (s.setTokbuf x).host = s.host := rfl
@[simp] theorem State.setTokbuf_freeCount : (s.setTokbuf x).freeCount = s.freeCount := rfl
@[simp] theorem State.setTokbuf_treeOut : (s.setTokbuf x).treeOut = s.treeOut := rfl
end

section
variable (x : HuffDecoder)
@[simp] theorem State.setDecoder_config : (s.setDecoder x).config = s.config := rfl
@[simp] theorem State.setDecoder_writer : (s.setDecoder x).writer = s.writer := rfl
@[simp] theorem State.setDecoder_reader : (s.setDecoder x).reader = s.reader := rfl
@[simp] theorem State.setDecoder_mtf : (s.setDecoder x).mtf = s.mtf := rfl
@[simp] theorem State.setDecoder_builder : (s.setDecoder x).builder = s.builder := rfl
@[simp] theorem State.setDecoder_tokbuf : (s.setDecoder x).tokbuf = s.tokbuf := rfl
@[simp] theorem State.setDecoder_decoder : (s.setDecoder x).decoder = x := rfl
@[simp] theorem State.setDecoder_image : (s.setDecoder x).image = s.image := rfl
@[simp] theorem State.setDecoder_enc : (s.setDecoder x).enc = s.enc := rfl
@[simp] theorem State.setDecoder_dec : (s.setDecoder x).dec = s.dec := rfl
@[simp] theorem State.setDecoder_status : (s.setDecoder x).status = s.status := rfl
@[simp] theorem State.setDecoder_agents : (s.setDecoder x).agents = s.agents := rfl
@[simp] theorem State.setDecoder_host : (s.setDecoder x).host = s.host := rfl
@[simp] theorem State.setDecoder_freeCount : (s.setDecoder x).freeCount = s.freeCount := rfl
@[simp] theorem State.setDecoder_treeOut : (s.setDecoder x).treeOut = s.treeOut := rfl
end

section
variable (x : ImageState)
@[simp] theorem State.setImage_config : (s.setImage x).config = s.config := rfl
@[simp] theorem State.setImage_writer : (s.setImage x).writer = s.writer := rfl
@[simp] theorem State.setImage_reader : (s.setImage x).reader = s.reader := rfl
@[simp] theorem State.setImage_mtf : (s.setImage x).mtf = s.mtf := rfl
@[simp] theorem State.setImage_builder : (s.setImage x).builder = s.builder := rfl
@[simp] theorem State.setImage_tokbuf : (s.setImage x).tokbuf = s.tokbuf := rfl
@[simp] theorem State.setImage_decoder : (s.setImage x).decoder = s.decoder := rfl
@[simp] theorem State.setImage_image : (s.setImage x).image = x := rfl
@[simp] theorem State.setImage_enc : (s.setImage x).enc = s.enc := rfl
@[simp] theorem State.setImage_dec : (s.setImage x).dec = s.dec := rfl
@[simp] theorem State.setImage_status : (s.setImage x).status = s.status := rfl
@[simp] theorem State.setImage_agents : (s.setImage x).agents = s.agents := rfl
@[simp] theorem State.setImage_host : (s.setImage x).host = s.host := rfl
@[simp] theorem State.setImage_freeCount : (s.setImage x).freeCount = s.freeCount := rfl
@[simp] theorem State.setImage_treeOut : (s.setImage x).treeOut = s.treeOut := rfl
end

section
variable (x : PxEncoder)
@[simp] theorem State.setEnc_config : (s.setEnc x).config = s.config := rfl
@[simp] theorem State.setEnc_writer : (s.setEnc x).writer = s.writer := rfl
@[simp] theorem State.setEnc_reader : (s.setEnc x).reader = s.reader := rfl
@[simp] theorem State.setEnc_mtf : (s.setEnc x).mtf = s.mtf := rfl
@[simp] theorem State.setEnc_builder : (s.setEnc x).builder = s.builder := rfl
@[simp] theorem State.setEnc_tokbuf : (s.setEnc x).tokbuf = s.tokbuf := rfl
@[simp] theorem State.setEnc_decoder : (s.setEnc x).decoder = s.decoder := rfl
@[simp] theorem State.setEnc_image : (s.setEnc x).image = s.image := rfl
@[simp] theorem State.setEnc_enc : (s.setEnc x).enc = x := rfl
@[simp] theorem State.setEnc_dec : (s.setEnc x).dec = s.dec := rfl
@[simp] theorem State.setEnc_status : (s.setEnc x).status = s.status := rfl
@[simp] theorem State.setEnc_agents : (s.setEnc x).agents = s.agents := rfl
@[simp] theorem State.setEnc_host : (s.setEnc x).host = s.host := rfl
@[simp] theorem State.setEnc_freeCount : (s.setEnc x).freeCount = s.freeCount := rfl
@[simp] theorem State.setEnc_treeOut : (s.setEnc x).treeOut = s.treeOut := rfl
end

section
variable (x : PxDecoder)
@[simp] theorem State.setDec_config : (s.setDec x).config = s.config := rfl
@[simp] theorem State.setDec_writer : (s.setDec x).writer = s.writer := rfl
@[simp] theorem State.setDec_reader : (s.setDec x).reader = s.reader := rfl
@[simp] theorem State.setDec_mtf : (s.setDec x).mtf = s.mtf := rfl
@[simp] theorem State.setDec_builder : (s.setDec x).builder = s.builder := rfl
@[simp] theorem State.setDec_tokbuf : (s.setDec x).tokbuf = s.tokbuf := rfl
@[simp] theorem State.setDec_decoder : (s.setDec x).decoder = s.decoder := rfl
@[simp] theorem State.setDec_image : (s.setDec x).image = s.image := rfl
@[simp] theorem State.setDec_enc : (s.setDec x).enc = s.enc := rfl
@[simp] theorem State.setDec_dec : (s.setDec x).dec = x := rfl
@[simp] theorem State.setDec_status : (s.setDec x).status = s.status := rfl
@[simp] theorem State.setDec_agents : (s.setDec x).agents = s.agents := rfl
@[simp] theorem State.setDec_host : (s.setDec x).host = s.host := rfl
@[simp] theorem State.setDec_freeCount : (s.setDec x).freeCount = s.freeCount := rfl
@[simp] theorem State.setDec_treeOut : (s.setDec x).treeOut = s.treeOut := rfl
end

section
variable (x : Word)
@[simp] theorem State.setStatus_config : (s.setStatus x).config = s.config := rfl
@[simp] theorem State.setStatus_writer : (s.setStatus x).writer = s.writer := rfl
@[simp] theorem State.setStatus_reader : (s.setStatus x).reader = s.reader := rfl
@[simp] theorem State.setStatus_mtf : (s.setStatus x).mtf = s.mtf := rfl
@[simp] theorem State.setStatus_builder : (s.setStatus x).builder = s.builder := rfl
@[simp] theorem State.setStatus_tokbuf : (s.setStatus x).tokbuf = s.tokbuf := rfl
@[simp] theorem State.setStatus_decoder : (s.setStatus x).decoder = s.decoder := rfl
@[simp] theorem State.setStatus_image : (s.setStatus x).image = s.image := rfl
@[simp] theorem State.setStatus_enc : (s.setStatus x).enc = s.enc := rfl
@[simp] theorem State.setStatus_dec : (s.setStatus x).dec = s.dec := rfl
@[simp] theorem State.setStatus_status : (s.setStatus x).status = x := rfl
@[simp] theorem State.setStatus_agents : (s.setStatus x).agents = s.agents := rfl
@[simp] theorem State.setStatus_host : (s.setStatus x).host = s.host := rfl
@[simp] theorem State.setStatus_freeCount : (s.setStatus x).freeCount = s.freeCount := rfl
@[simp] theorem State.setStatus_treeOut : (s.setStatus x).treeOut = s.treeOut := rfl
end

section
variable (x : Agents)
@[simp] theorem State.setAgents_config : (s.setAgents x).config = s.config := rfl
@[simp] theorem State.setAgents_writer : (s.setAgents x).writer = s.writer := rfl
@[simp] theorem State.setAgents_reader : (s.setAgents x).reader = s.reader := rfl
@[simp] theorem State.setAgents_mtf : (s.setAgents x).mtf = s.mtf := rfl
@[simp] theorem State.setAgents_builder : (s.setAgents x).builder = s.builder := rfl
@[simp] theorem State.setAgents_tokbuf : (s.setAgents x).tokbuf = s.tokbuf := rfl
@[simp] theorem State.setAgents_decoder : (s.setAgents x).decoder = s.decoder := rfl
@[simp] theorem State.setAgents_image : (s.setAgents x).image = s.image := rfl
@[simp] theorem State.setAgents_enc : (s.setAgents x).enc = s.enc := rfl
@[simp] theorem State.setAgents_dec : (s.setAgents x).dec = s.dec := rfl
@[simp] theorem State.setAgents_status : (s.setAgents x).status = s.status := rfl
@[simp] theorem State.setAgents_agents : (s.setAgents x).agents = x := rfl
@[simp] theorem State.setAgents_host : (s.setAgents x).host = s.host := rfl
@[simp] theorem State.setAgents_freeCount : (s.setAgents x).freeCount = s.freeCount := rfl
@[simp] theorem State.setAgents_treeOut : (s.setAgents x).treeOut = s.treeOut := rfl
end

section
variable (x : HostPort)
@[simp] theorem State.setHost_config : (s.setHost x).config = s.config := rfl
@[simp] theorem State.setHost_writer : (s.setHost x).writer = s.writer := rfl
@[simp] theorem State.setHost_reader : (s.setHost x).reader = s.reader := rfl
@[simp] theorem State.setHost_mtf : (s.setHost x).mtf = s.mtf := rfl
@[simp] theorem State.setHost_builder : (s.setHost x).builder = s.builder := rfl
@[simp] theorem State.setHost_tokbuf : (s.setHost x).tokbuf = s.tokbuf := rfl
@[simp] theorem State.setHost_decoder : (s.setHost x).decoder = s.decoder := rfl
@[simp] theorem State.setHost_image : (s.setHost x).image = s.image := rfl
@[simp] theorem State.setHost_enc : (s.setHost x).enc = s.enc := rfl
@[simp] theorem State.setHost_dec : (s.setHost x).dec = s.dec := rfl
@[simp] theorem State.setHost_status : (s.setHost x).status = s.status := rfl
@[simp] theorem State.setHost_agents : (s.setHost x).agents = s.agents := rfl
@[simp] theorem State.setHost_host : (s.setHost x).host = x := rfl
@[simp] theorem State.setHost_freeCount : (s.setHost x).freeCount = s.freeCount := rfl
@[simp] theorem State.setHost_treeOut : (s.setHost x).treeOut = s.treeOut := rfl
end

section
variable (x : Nat)
@[simp] theorem State.setFreeCount_config : (s.setFreeCount x).config = s.config := rfl
@[simp] theorem State.setFreeCount_writer : (s.setFreeCount x).writer = s.writer := rfl
@[simp] theorem State.setFreeCount_reader : (s.setFreeCount x).reader = s.reader := rfl
@[simp] theorem State.setFreeCount_mtf : (s.setFreeCount x).mtf = s.mtf := rfl
@[simp] theorem State.setFreeCount_builder : (s.setFreeCount x).builder = s.builder := rfl
@[simp] theorem State.setFreeCount_tokbuf : (s.setFreeCount x).tokbuf = s.tokbuf := rfl
@[simp] theorem State.setFreeCount_decoder : (s.setFreeCount x).decoder = s.decoder := rfl
@[simp] theorem State.setFreeCount_image : (s.setFreeCount x).image = s.image := rfl
@[simp] theorem State.setFreeCount_enc : (s.setFreeCount x).enc = s.enc := rfl
@[simp] theorem State.setFreeCount_dec : (s.setFreeCount x).dec = s.dec := rfl
@[simp] theorem State.setFreeCount_status : (s.setFreeCount x).status = s.status := rfl
@[simp] theorem State.setFreeCount_agents : (s.setFreeCount x).agents = s.agents := rfl
@[simp] theorem State.setFreeCount_host : (s.setFreeCount x).host = s.host := rfl
@[simp] theorem State.setFreeCount_freeCount : (s.setFreeCount x).freeCount = x := rfl
@[simp] theorem State.setFreeCount_treeOut : (s.setFreeCount x).treeOut = s.treeOut := rfl
end

section
variable (x : Option CodeTree)
@[simp] theorem State.setTreeOut_config : (s.setTreeOut x).config = s.config := rfl
@[simp] theorem State.setTreeOut_writer : (s.setTreeOut x).writer = s.writer := rfl
@[simp] theorem State.setTreeOut_reader : (s.setTreeOut x).reader = s.reader := rfl
@[simp] theorem State.setTreeOut_mtf : (s.setTreeOut x).mtf = s.mtf := rfl
@[simp] theorem State.setTreeOut_builder : (s.setTreeOut x).builder = s.builder := rfl
@[simp] theorem State.setTreeOut_tokbuf : (s.setTreeOut x).tokbuf = s.tokbuf := rfl
@[simp] theorem State.setTreeOut_decoder : (s.setTreeOut x).decoder = s.decoder := rfl
@[simp] theorem State.setTreeOut_image : (s.setTreeOut x).image = s.image := rfl
@[simp] theorem State.setTreeOut_enc : (s.setTreeOut x).enc = s.enc := rfl
@[simp] theorem State.setTreeOut_dec : (s.setTreeOut x).dec = s.dec := rfl
@[simp] theorem State.setTreeOut_status : (s.setTreeOut x).status = s.status := rfl
@[simp] theorem State.setTreeOut_agents : (s.setTreeOut x).agents = s.agents := rfl
@[simp] theorem State.setTreeOut_host : (s.setTreeOut x).host = s.host := rfl
@[simp] theorem State.setTreeOut_freeCount : (s.setTreeOut x).freeCount = s.freeCount := rfl
@[simp] theorem State.setTreeOut_treeOut : (s.setTreeOut x).treeOut = x := rfl
end

/-! ## Responses, failure entry, initialisation -/

section
variable (r : Response)
@[simp] theorem respond_config : (respond r s).config = s.config := rfl
@[simp] theorem respond_writer : (respond r s).writer = s.writer := rfl
@[simp] theorem respond_reader : (respond r s).reader = s.reader := rfl
@[simp] theorem respond_mtf : (respond r s).mtf = s.mtf := rfl
@[simp] theorem respond_builder : (respond r s).builder = s.builder := rfl
@[simp] theorem respond_tokbuf : (respond r s).tokbuf = s.tokbuf := rfl
@[simp] theorem respond_decoder : (respond r s).decoder = s.decoder := rfl
@[simp] theorem respond_image : (respond r s).image = s.image := rfl
@[simp] theorem respond_enc : (respond r s).enc = s.enc := rfl
@[simp] theorem respond_dec : (respond r s).dec = s.dec := rfl
@[simp] theorem respond_status : (respond r s).status = s.status := rfl
@[simp] theorem respond_agents : (respond r s).agents = s.agents := rfl
@[simp] theorem respond_host : (respond r s).host = { s.host with responses := s.host.responses ++ [r] } := rfl
@[simp] theorem respond_freeCount : (respond r s).freeCount = s.freeCount := rfl
@[simp] theorem respond_treeOut : (respond r s).treeOut = s.treeOut := rfl
end

@[simp] theorem initState_config : (initState s).config = s.config := rfl
@[simp] theorem initState_writer : (initState s).writer = State.reset.writer := rfl
@[simp] theorem initState_reader : (initState s).reader = State.reset.reader := rfl
@[simp] theorem initState_mtf : (initState s).mtf = State.reset.mtf := rfl
@[simp] theorem initState_builder : (initState s).builder = State.reset.builder := rfl
@[simp] theorem initState_tokbuf : (initState s).tokbuf = State.reset.tokbuf := rfl
@[simp] theorem initState_decoder : (initState s).decoder = State.reset.decoder := rfl
@[simp] theorem initState_image : (initState s).image = State.reset.image := rfl
@[simp] theorem initState_enc : (initState s).enc = State.reset.enc := rfl
@[simp] theorem initState_dec : (initState s).dec = State.reset.dec := rfl
@[simp] theorem initState_status : (initState s).status = State.reset.status := rfl
@[simp] theorem initState_agents : (initState s).agents = s.agents := rfl
@[simp] theorem initState_host : (initState s).host = s.host := rfl
@[simp] theorem initState_freeCount : (initState s).freeCount = s.freeCount := rfl
@[simp] theorem initState_treeOut : (initState s).treeOut = State.reset.treeOut := rfl

/-- What failure entry can do (60_exceptions.md R310): STATUS is written if no failure is recorded, and the response is given. -/
theorem failEntry_eq (c : Cause) :
    failEntry c s = respond (.err c.kind c) (if s.failed then s else s.setStatus (statusWord c)) := rfl

theorem failEntry_of_failed (c : Cause) (h : s.failed = true) : failEntry c s = respond (.err c.kind c) s := by
  simp [failEntry, h]

theorem failEntry_of_ready (c : Cause) (h : s.failed = false) :
    failEntry c s = respond (.err c.kind c) (s.setStatus (statusWord c)) := by
  simp [failEntry, h]

/-- Every recorded failure has FAILED = 1 (10_state.md R51). -/
theorem statusWord_failed (c : Cause) : (statusWord c).getLsbD 0 = true := by
  cases c <;> decide

/-- After failure entry the block is in the failed state. -/
theorem failEntry_failed (c : Cause) : (failEntry c s).failed = true := by
  by_cases h : s.failed = true
  · rw [failEntry_of_failed s c h]; exact h
  · rw [failEntry_of_ready s c (by simpa using h)]; exact statusWord_failed c

theorem initState_failed : (initState s).failed = false := by
  simp [State.failed, State.reset]

end Sys2Proof.Machine
end

