-- ==== Sys2Proof/Laws/Steps.lean ====
section
/-! SUPPORT. The steps of a command: what a sequence of steps can do, and the inversion of a sequence that completes. -/

namespace Sys2Proof.Machine

section Generic
variable {ε σ α β : Type}

@[simp] theorem steps_pure (a : α) (s : σ) : (pure a : EStateM ε σ α) s = .ok a s := rfl

@[simp] theorem steps_throw (e : ε) (s : σ) : (throw e : EStateM ε σ α) s = .error e s := rfl

@[simp] theorem steps_get (s : σ) : (get : EStateM ε σ σ) s = .ok s s := rfl

@[simp] theorem steps_modify (f : σ → σ) (s : σ) : (modify f : EStateM ε σ PUnit) s = .ok ⟨⟩ (f s) := rfl

/-- A sequence runs its first part and then, if that completes, its second. -/
theorem steps_bind (x : EStateM ε σ α) (f : α → EStateM ε σ β) (s : σ) :
    (x >>= f) s = match x s with
      | .ok a t => f a t
      | .error e t => .error e t := rfl

theorem steps_bind_ok {x : EStateM ε σ α} {f : α → EStateM ε σ β} {s t : σ} {a : α} (h : x s = .ok a t) :
    (x >>= f) s = f a t := by
  rw [steps_bind, h]

theorem steps_bind_error {x : EStateM ε σ α} {f : α → EStateM ε σ β} {s t : σ} {e : ε} (h : x s = .error e t) :
    (x >>= f) s = .error e t := by
  rw [steps_bind, h]

/-- A sequence that completes: its first part completes and then its second does. -/
theorem steps_bind_inv {x : EStateM ε σ α} {f : α → EStateM ε σ β} {s u : σ} {b : β} (h : (x >>= f) s = .ok b u) :
    ∃ a t, x s = .ok a t ∧ f a t = .ok b u := by
  rw [steps_bind] at h
  cases hx : x s with
  | ok a t => rw [hx] at h; exact ⟨a, t, rfl, h⟩
  | error e t => rw [hx] at h; cases h

/-- A sequence that fails: its first part fails, or it completes and the second fails. -/
theorem steps_bind_error_inv {x : EStateM ε σ α} {f : α → EStateM ε σ β} {s u : σ} {e : ε}
    (h : (x >>= f) s = .error e u) :
    x s = .error e u ∨ ∃ a t, x s = .ok a t ∧ f a t = .error e u := by
  rw [steps_bind] at h
  cases hx : x s with
  | ok a t => rw [hx] at h; exact .inr ⟨a, t, rfl, h⟩
  | error e' t => rw [hx] at h; cases h; exact .inl rfl

end Generic

@[simp] theorem raise_eq {α : Type} (c : Cause) (s : State) : (raise c : M α) s = .error c s := rfl

@[simp] theorem initM_eq (s : State) : initM s = .ok () (initState s) := rfl

theorem noResult_ok {body : M Unit} {s t : State} (h : body s = .ok () t) : noResult body s = .ok 0 t := by
  rw [noResult, steps_bind_ok h]; rfl

theorem noResult_error {body : M Unit} {s t : State} {c : Cause} (h : body s = .error c t) :
    noResult body s = .error c t := by
  rw [noResult, steps_bind_error h]

/-! ## Relations that every step of a command keeps, whether it completes or fails -/

/-- The state after the steps, completed or failed, is related to the one before. -/
def Within {α : Type} (R : State → State → Prop) (m : M α) : Prop :=
  ∀ s, (∀ a t, m s = .ok a t → R s t) ∧ ∀ c t, m s = .error c t → R s t

section Within
variable {α β : Type} {R : State → State → Prop}

theorem Within.pure (hr : ∀ s, R s s) (a : α) : Within R (pure a : M α) := by
  intro s
  constructor
  · intro b t ht; cases ht; exact hr s
  · intro c t ht; cases ht

theorem Within.raise (hr : ∀ s, R s s) (c : Cause) : Within R (raise c : M α) := by
  intro s
  constructor
  · intro b t ht; cases ht
  · intro c t ht; cases ht; exact hr s

theorem Within.modify {f : State → State} (hf : ∀ s, R s (f s)) : Within R (modify f : M Unit) := by
  intro s
  constructor
  · intro b t ht; cases ht; exact hf s
  · intro c t ht; cases ht

theorem Within.bind (ht : ∀ s t u, R s t → R t u → R s u) {x : M α} {f : α → M β} (hx : Within R x)
    (hf : ∀ a, Within R (f a)) : Within R (x >>= f) := by
  intro s
  constructor
  · intro b u hu
    obtain ⟨a, t, hat, hbu⟩ := steps_bind_inv hu
    exact ht s t u ((hx s).1 a t hat) ((hf a t).1 b u hbu)
  · intro c u hu
    rcases steps_bind_error_inv hu with he | ⟨a, t, hat, hbu⟩
    · exact (hx s).2 c u he
    · exact ht s t u ((hx s).1 a t hat) ((hf a t).2 c u hbu)

theorem Within.get_bind {f : State → M β} (hf : ∀ s, Within R (f s)) : Within R (do let s ← MonadState.get; f s) := by
  intro s
  constructor
  · intro b u hu
    obtain ⟨a, t, hat, hbu⟩ := steps_bind_inv hu
    cases hat
    exact (hf s s).1 b u hbu
  · intro c u hu
    rcases steps_bind_error_inv hu with he | ⟨a, t, hat, hbu⟩
    · cases he
    · cases hat
      exact (hf s s).2 c u hbu

theorem Within.ite {p : Prop} [Decidable p] {x y : M α} (hx : Within R x) (hy : Within R y) :
    Within R (if p then x else y) := by
  split
  · exact hx
  · exact hy

theorem Within.mono {R' : State → State → Prop} {m : M α} (h : Within R m) (hi : ∀ s t, R s t → R' s t) :
    Within R' m := fun s => ⟨fun a t ht => hi s t ((h s).1 a t ht), fun c t ht => hi s t ((h s).2 c t ht)⟩

end Within

/-! ## The causes that steps can raise -/

/-- From every state with `P`, the steps raise no cause but those listed. -/
def Raises {α : Type} (P : State → Prop) (cs : List Cause) (m : M α) : Prop :=
  ∀ s c t, P s → m s = .error c t → c ∈ cs

section Raises
variable {α β : Type} {P : State → Prop} {cs : List Cause}

theorem Raises.pure (a : α) : Raises P cs (pure a : M α) := by intro s c t _ h; cases h

theorem Raises.modify (f : State → State) : Raises P cs (modify f : M Unit) := by intro s c t _ h; cases h

theorem Raises.raise {c : Cause} (h : c ∈ cs) : Raises P cs (raise c : M α) := by intro s c' t _ h'; cases h'; exact h

theorem Raises.mono {P' : State → Prop} {cs' : List Cause} {m : M α} (h : Raises P cs m) (hp : ∀ s, P' s → P s)
    (hc : ∀ c ∈ cs, c ∈ cs') : Raises P' cs' m := fun s c t hs ht => hc c (h s c t (hp s hs) ht)

theorem Raises.ite {p : Prop} [Decidable p] {x y : M α} (hx : p → Raises P cs x) (hy : ¬p → Raises P cs y) :
    Raises P cs (if p then x else y) := by
  split
  · exact hx ‹_›
  · exact hy ‹_›

end Raises

/-! ## Properties that completing steps keep -/

/-- Steps that complete from a state with `P` end in one with `P`. -/
def Keeps {α : Type} (P : State → Prop) (m : M α) : Prop := ∀ s a t, P s → m s = .ok a t → P t

section Keeps
variable {α β : Type} {P : State → Prop}

theorem Keeps.pure (a : α) : Keeps P (pure a : M α) := by intro s b t hs ht; cases ht; exact hs

theorem Keeps.raise (c : Cause) : Keeps P (raise c : M α) := by intro s b t hs ht; cases ht

theorem Keeps.modify {f : State → State} (hf : ∀ s, P s → P (f s)) : Keeps P (modify f : M Unit) := by
  intro s b t hs ht; cases ht; exact hf s hs

theorem Keeps.bind {x : M α} {f : α → M β} (hx : Keeps P x) (hf : ∀ a, Keeps P (f a)) : Keeps P (x >>= f) := by
  intro s b u h hu
  obtain ⟨a, t, hat, hbu⟩ := steps_bind_inv hu
  exact hf a t b u (hx s a t h hat) hbu

/-- A sequence that reads the state first: the rest may use what is known of it. -/
theorem Keeps.get_bind {f : State → M β} (hf : ∀ s b u, P s → f s s = .ok b u → P u) :
    Keeps P (do let s ← MonadState.get; f s) := by
  intro s b u h hu
  obtain ⟨a, t, hat, hbu⟩ := steps_bind_inv hu
  cases hat
  exact hf s b u h hbu

theorem Keeps.ite {p : Prop} [Decidable p] {x y : M α} (hx : p → Keeps P x) (hy : ¬p → Keeps P y) :
    Keeps P (if p then x else y) := by
  split
  · exact hx ‹_›
  · exact hy ‹_›

theorem Raises.bind {cs : List Cause} {x : M α} {f : α → M β} (hx : Raises P cs x) (hk : Keeps P x)
    (hf : ∀ a, Raises P cs (f a)) : Raises P cs (x >>= f) := by
  intro s c u h hu
  rcases steps_bind_error_inv hu with he | ⟨a, t, hat, hbu⟩
  · exact hx s c u h he
  · exact hf a t c u (hk s a t h hat) hbu

theorem Raises.get_bind {cs : List Cause} {f : State → M β} (hf : ∀ s c u, P s → f s s = .error c u → c ∈ cs) :
    Raises P cs (do let s ← MonadState.get; f s) := by
  intro s c u h hu
  rcases steps_bind_error_inv hu with he | ⟨a, t, hat, hbu⟩
  · cases he
  · cases hat
    exact hf s c u h hbu

end Keeps

/-! ## Completion -/

/-- What a unit command can do (60_exceptions.md R310, R311). -/
theorem runUnit_eq (body : M Word) (s : State) :
    runUnit body s = .next (if s.failed then failEntry .failedState s else complete (body s)) := by
  unfold runUnit runAlways
  split <;> rfl

theorem runUnit_failed (body : M Word) {s : State} (h : s.failed = true) :
    runUnit body s = .next (respond (.err .usage .failedState) s) := by
  rw [runUnit_eq, if_pos h, failEntry_of_failed s _ h]; rfl

theorem runUnit_ok {body : M Word} {s t : State} {r : Word} (hs : s.failed = false) (h : body s = .ok r t) :
    runUnit body s = .next (respond (.ok r) t) := by
  rw [runUnit_eq, h]; simp [hs, complete]

theorem runUnit_error {body : M Word} {s t : State} {c : Cause} (hs : s.failed = false) (h : body s = .error c t) :
    runUnit body s = .next (failEntry c t) := by
  rw [runUnit_eq, h]; simp [hs, complete]

theorem runAlways_ok {body : M Word} {s t : State} {r : Word} (h : body s = .ok r t) :
    runAlways body s = .next (respond (.ok r) t) := by
  rw [runAlways, h]; rfl

theorem runAlways_error {body : M Word} {s t : State} {c : Cause} (h : body s = .error c t) :
    runAlways body s = .next (failEntry c t) := by
  rw [runAlways, h]; rfl

/-- What an element of the stream can do when it is interpreted by itself. -/
theorem runElement_eq (effect : State → State) (s : State) :
    runElement effect s = .next (if s.failed then failEntry .failedState s else effect s) := by
  unfold runElement
  split <;> rfl

end Sys2Proof.Machine
end

