-- ==== Sys2Proof/Laws/Bits.lean ====
section
/-! SUPPORT. Bit strings: what `bin` writes, `parseBits` reads back; the elements of the stream are read back from their
serialised forms. -/

namespace Sys2Proof

open Sys2Proof.Machine (steps_bind steps_bind_ok steps_bind_inv steps_pure steps_throw)

@[simp] theorem bin_length (n : Nat) (v : Word) : (bin n v).length = n := by
  induction n with
  | zero => rfl
  | succ n ih => simp [bin, ih]

@[simp] theorem bin_zero (v : Word) : bin 0 v = [] := rfl

@[simp] theorem binByte_length (v : Byte) : (binByte v).length = 8 := bin_length _ _

/-- Two words with the same low `n` bits have the same bit string. -/
theorem bin_congr {n : Nat} {v w : Word} (h : ∀ i < n, v.getLsbD i = w.getLsbD i) : bin n v = bin n w := by
  induction n with
  | zero => rfl
  | succ n ih => simp [bin, h n (by omega), ih fun i hi => h i (by omega)]

/-- One more bit at the low end. -/
theorem bin_snoc {n : Nat} {v w : Word} {b : Bool} (h0 : w.getLsbD 0 = b)
    (h : ∀ i < n, w.getLsbD (i + 1) = v.getLsbD i) : bin (n + 1) w = bin n v ++ [b] := by
  induction n with
  | zero => simp only [bin, h0, List.nil_append]
  | succ n ih =>
    have := ih fun i hi => h i (by omega)
    show w.getLsbD (n + 1) :: bin (n + 1) w = _
    rw [this, h n (by omega)]
    simp [bin]

/-- The number that a bit string reads as, after the bits already in `v`. -/
def readWord (v : Word) (bs : Bits) : Word :=
  bs.foldl (fun v b => (v <<< 1) ||| (BitVec.ofBool b).setWidth 32) v

theorem shiftIn_toNat (v : Word) (b : Bool) :
    ((v <<< 1) ||| (BitVec.ofBool b).setWidth 32).toNat = (2 * v.toNat + b.toNat) % 2 ^ 32 := by
  have hb : b.toNat < 2 := by cases b <;> decide
  have h1 : (v <<< 1).toNat = 2 * (v.toNat % 2 ^ 31) := by
    rw [BitVec.toNat_shiftLeft, Nat.shiftLeft_eq]
    omega
  have h2 : ((BitVec.ofBool b).setWidth 32).toNat = b.toNat := by cases b <;> rfl
  have h3 : 2 * (v.toNat % 2 ^ 31) ||| b.toNat = 2 * (v.toNat % 2 ^ 31) + b.toNat := by
    have := Nat.shiftLeft_add_eq_or_of_lt (i := 1) (b := b.toNat) (by omega) (v.toNat % 2 ^ 31)
    rw [Nat.shiftLeft_eq] at this
    rw [← (show (v.toNat % 2 ^ 31) * 2 ^ 1 = 2 * (v.toNat % 2 ^ 31) by omega)]
    exact this.symm
  rw [BitVec.toNat_or, h1, h2, h3]
  omega

theorem mod_two_pow_succ (x n : Nat) : x % 2 ^ (n + 1) = (x.testBit n).toNat * 2 ^ n + x % 2 ^ n := by
  rw [Nat.testBit_eq_decide_div_mod_eq, Nat.pow_succ, Nat.mod_mul]
  rcases Nat.mod_two_eq_zero_or_one (x / 2 ^ n) with h | h <;> simp [h, Nat.add_comm]

theorem readWord_bin_toNat (n : Nat) (v x : Word) :
    (readWord v (bin n x)).toNat = (v.toNat * 2 ^ n + x.toNat % 2 ^ n) % 2 ^ 32 := by
  induction n generalizing v with
  | zero =>
    have := v.isLt
    simp only [bin, readWord, List.foldl_nil]
    omega
  | succ n ih =>
    show (readWord ((v <<< 1) ||| (BitVec.ofBool (x.getLsbD n)).setWidth 32) (bin n x)).toNat = _
    rw [ih, shiftIn_toNat, mod_two_pow_succ x.toNat n]
    have : x.toNat.testBit n = x.getLsbD n := rfl
    rw [this, Nat.add_mod, Nat.mod_mul_mod, ← Nat.add_mod]
    congr 1
    ring

/-- A field of `n` bits reads back as the low `n` bits of the value written. -/
theorem readWord_bin {n : Nat} (hn : n ≤ 32) (x : Word) : (readWord 0 (bin n x)).toNat = x.toNat % 2 ^ n := by
  rw [readWord_bin_toNat]
  have h1 : x.toNat % 2 ^ n < 2 ^ n := Nat.mod_lt _ (Nat.two_pow_pos n)
  have h2 : 2 ^ n ≤ 2 ^ 32 := Nat.pow_le_pow_right (by decide) hn
  have h3 : (0 : Word).toNat = 0 := rfl
  rw [h3, Nat.zero_mul, Nat.zero_add, Nat.mod_eq_of_lt (by omega)]

theorem nextBit_cons (b : Bool) (bs : Bits) : nextBit (b :: bs) = .ok b bs := rfl

/-- The pure reader takes `bs.length` bits. -/
theorem parseBits_append (bs rest : Bits) (v : Word) :
    parseBits nextBit bs.length v (bs ++ rest) = .ok (readWord v bs) rest := by
  induction bs generalizing v with
  | nil => rfl
  | cons b bs ih =>
    show parseBits nextBit bs.length ((v <<< 1) ||| (BitVec.ofBool b).setWidth 32) (bs ++ rest) = _
    rw [ih]
    rfl

theorem parseBits_bin {n : Nat} (x v : Word) (rest : Bits) :
    parseBits nextBit n v (bin n x ++ rest) = .ok (readWord v (bin n x)) rest := by
  have := parseBits_append (bin n x) rest v
  rwa [bin_length] at this

theorem readWord_byte (b : Byte) : readWord 0 (binByte b) = b.setWidth 32 := by
  apply BitVec.eq_of_toNat_eq
  have := b.isLt
  rw [binByte, readWord_bin (by decide), BitVec.toNat_setWidth]
  omega

theorem readWord_half (w : Half) : readWord 0 (binHalf w) = w.setWidth 32 := by
  apply BitVec.eq_of_toNat_eq
  have := w.isLt
  rw [binHalf, readWord_bin (by decide), BitVec.toNat_setWidth]
  omega

theorem parseByte_bin (b : Byte) (rest : Bits) : parseByte nextBit (binByte b ++ rest) = .ok b rest := by
  have h := readWord_byte b
  rw [binByte] at h
  rw [parseByte, binByte, steps_bind_ok (parseBits_bin _ _ _), steps_pure, h,
    BitVec.setWidth_setWidth_of_le b (by decide), BitVec.setWidth_eq]

theorem parseHalf_bin (w : Half) (rest : Bits) : parseHalf nextBit (binHalf w ++ rest) = .ok w rest := by
  have h := readWord_half w
  rw [binHalf] at h
  rw [parseHalf, binHalf, steps_bind_ok (parseBits_bin _ _ _), steps_pure, h,
    BitVec.setWidth_setWidth_of_le w (by decide), BitVec.setWidth_eq]

theorem parseBytes_bin (bs : List Byte) (rest : Bits) :
    parseBytes nextBit bs.length (bs.flatMap binByte ++ rest) = .ok bs rest := by
  induction bs with
  | nil => rfl
  | cons b bs ih =>
    rw [List.flatMap_cons, List.append_assoc]
    show (do let b ← parseByte nextBit; let bs ← parseBytes nextBit bs.length; pure (b :: bs)) _ = _
    rw [steps_bind_ok (parseByte_bin b _), steps_bind_ok ih]
    rfl

theorem parseMagic_bin (e : Reject) (rest : Bits) :
    parseMagic nextBit e (magic.flatMap binByte ++ rest) = .ok () rest := by
  have h := parseBytes_bin magic rest
  have h7 : parseBytes nextBit 7 (magic.flatMap binByte ++ rest) = .ok magic rest := h
  rw [parseMagic, steps_bind_ok h7, if_pos rfl]
  rfl

theorem CodeTree.size_pos (t : CodeTree) : 1 ≤ t.size := by
  cases t <;> simp only [CodeTree.size] <;> omega

/-- A serialised tree is read back, with the count of its nodes, if it fits. -/
theorem parseNode_bin (e : Reject) (t : CodeTree) : ∀ (fuel count : Nat) (rest : Bits),
    t.size ≤ fuel → count + t.size ≤ maxTreeNodes →
    parseNode nextBit e fuel count (binTree t ++ rest) = .ok (t, count + t.size) rest := by
  induction t with
  | leaf v =>
    intro fuel count rest hf hc
    cases fuel with
    | zero => simp [CodeTree.size] at hf
    | succ fuel =>
      have hn : ¬ count + 1 > maxTreeNodes := by simp only [CodeTree.size] at hc; omega
      simp only [parseNode, if_neg hn, binTree, List.cons_append]
      rw [steps_bind_ok (nextBit_cons _ _)]
      simp only [Bool.false_eq_true, if_false]
      rw [steps_bind_ok (parseByte_bin v rest)]
      rfl
  | internal l r ihl ihr =>
    intro fuel count rest hf hc
    cases fuel with
    | zero => simp [CodeTree.size] at hf
    | succ fuel =>
      simp only [CodeTree.size] at hf hc
      have hn : ¬ count + 1 > maxTreeNodes := by omega
      simp only [parseNode, if_neg hn, binTree, List.cons_append, List.append_assoc]
      rw [steps_bind_ok (nextBit_cons _ _)]
      simp only [if_true]
      rw [steps_bind_ok (ihl fuel (count + 1) _ (by omega) (by omega)),
        steps_bind_ok (ihr fuel (count + 1 + l.size) _ (by omega) (by omega))]
      simp only [steps_pure, CodeTree.size]
      congr 2
      omega

theorem parseTree_bin (e : Reject) {t : CodeTree} (ht : treeOk t) (rest : Bits) :
    parseTree nextBit e (binTree t ++ rest) = .ok t rest := by
  have h := parseNode_bin e t (maxTreeNodes + 1) 0 rest (by simp only [treeOk] at ht; omega)
    (by simp only [treeOk] at ht; omega)
  rw [parseTree, steps_bind_ok h]
  rfl

theorem parseItem_record (e : Reject) {k : Byte} {t : CodeTree} (hk : classOk k) (ht : treeOk t) (rest : Bits) :
    parseItem nextBit e (binByte k ++ (binTree t ++ rest)) = .ok (some (k, t)) rest := by
  rw [parseItem, steps_bind_ok (parseByte_bin k _), if_neg hk, steps_bind_ok (parseTree_bin e ht rest)]
  rfl

theorem parseItem_sentinel (e : Reject) (rest : Bits) :
    parseItem nextBit e (binByte sentinelId ++ rest) = .ok none rest := by
  rw [parseItem, steps_bind_ok (parseByte_bin sentinelId rest), if_pos rfl]
  rfl

/-- A node has as many serialised bits as R95 says: 9 for each leaf, 1 for each internal node. -/
theorem binTree_length (t : CodeTree) : (binTree t).length + 1 = 10 * t.leaves := by
  induction t with
  | leaf v => simp [binTree, CodeTree.leaves]
  | internal l r ihl ihr =>
    simp only [binTree, CodeTree.leaves, List.length_cons, List.length_append]
    omega

/-- A full tree of `m` leaves has `2m - 1` nodes (10_state.md R35). -/
theorem CodeTree.size_leaves (t : CodeTree) : t.size + 1 = 2 * t.leaves := by
  induction t with
  | leaf v => rfl
  | internal l r ihl ihr =>
    simp only [CodeTree.size, CodeTree.leaves]
    omega

/-! ## The bound on the depth of a node is never reached -/

/-- A node read with any depth bound above MAX_TREE_NODES + 1 less the count is read the same. -/
theorem parseNode_fuel {ε σ : Type} (rd : EStateM ε σ Bool) (e : ε) : ∀ (fuel fuel' count : Nat),
    maxTreeNodes + 1 ≤ fuel + count → maxTreeNodes + 1 ≤ fuel' + count →
    (∀ s a t, parseNode rd e fuel count s = .ok a t → count + 1 ≤ a.2) ∧
      parseNode rd e fuel count = parseNode rd e fuel' count := by
  intro fuel
  induction fuel with
  | zero =>
    intro fuel' count h h'
    refine ⟨fun s a t ht => (by cases ht), ?_⟩
    cases fuel' with
    | zero => rfl
    | succ n =>
      have : count + 1 > maxTreeNodes := by omega
      simp [parseNode, this]
  | succ fuel ih =>
    intro fuel' count h h'
    have grows : ∀ s a t, parseNode rd e (fuel + 1) count s = .ok a t → count + 1 ≤ a.2 := by
      intro s a t ht
      by_cases hc : count + 1 > maxTreeNodes
      · simp only [parseNode, if_pos hc] at ht; cases ht
      · simp only [parseNode, if_neg hc] at ht
        obtain ⟨b, s1, -, ht⟩ := Machine.steps_bind_inv ht
        split at ht
        · obtain ⟨l, s2, hl, ht⟩ := Machine.steps_bind_inv ht
          obtain ⟨r, s3, hr, ht⟩ := Machine.steps_bind_inv ht
          have h1 := (ih fuel (count + 1) (by omega) (by omega)).1 _ _ _ hl
          have h2 := (ih fuel l.2 (by omega) (by omega)).1 _ _ _ hr
          cases ht
          show count + 1 ≤ r.2
          omega
        · obtain ⟨v, s2, -, ht⟩ := Machine.steps_bind_inv ht
          cases ht
          exact le_refl _
    refine ⟨grows, ?_⟩
    by_cases hc : count + 1 > maxTreeNodes
    · cases fuel' with
      | zero => simp [parseNode, hc]
      | succ n => simp [parseNode, hc]
    · cases fuel' with
      | zero => omega
      | succ n =>
        have e1 := (ih n (count + 1) (by omega) (by omega)).2
        funext s
        simp only [parseNode, if_neg hc]
        rw [steps_bind, steps_bind]
        cases rd s with
        | error x y => rfl
        | ok b s1 =>
          cases b with
          | false => rfl
          | true =>
            simp only [if_true]
            rw [steps_bind, steps_bind, e1]
            cases hl : parseNode rd e n (count + 1) s1 with
            | error x y => rfl
            | ok l s2 =>
              have hg := (ih fuel (count + 1) (by omega) (by omega)).1 s1 l s2 (by rw [e1, hl])
              show (parseNode rd e fuel l.2 >>= _) s2 = (parseNode rd e n l.2 >>= _) s2
              rw [(ih n l.2 (by omega) (by omega)).2]

/-- A word made of bits read is those bits, with zeros above. -/
theorem bin_readWord (bs : Bits) : ∀ (m : Nat) (v : Word), m + bs.length = 32 → v.toNat < 2 ^ (32 - bs.length) →
    bin 32 (readWord v bs) = bin m v ++ bs := by
  induction bs with
  | nil => intro m v h _; simp at h; subst h; simp [readWord]
  | cons b bs ih =>
    intro m v h hv
    simp only [List.length_cons] at h hv
    have e := shiftIn_toNat v b
    have h2 : 2 ^ (32 - bs.length) = 2 * 2 ^ (32 - (bs.length+1)) := by
      rw [← Nat.pow_succ']; congr 1; omega
    have h3 : 2 ^ (32 - bs.length) ≤ 2 ^ 32 := Nat.pow_le_pow_right (by decide) (by omega)
    have hb : b.toNat < 2 := by cases b <;> decide
    show bin 32 (readWord ((v <<< 1) ||| (BitVec.ofBool b).setWidth 32) bs) = _
    rw [ih (m+1) _ (by omega) (by rw [e, Nat.mod_eq_of_lt] <;> omega)]
    rw [bin_snoc (v := v) (b := b) (by cases b <;> simp) (by
      intro i hi
      have h1 : i + 1 < 32 := by omega
      have h4 : (BitVec.setWidth 32 (BitVec.ofBool b)).getLsbD (i + 1) = false := by
        cases b <;> simp
      simp only [BitVec.getLsbD_or, BitVec.getLsbD_shiftLeft, h4, h1]; simp)]
    simp

theorem bin_zero_word (m : Nat) : bin m 0 = List.replicate m false := by
  induction m with
  | zero => rfl
  | succ m ih => rw [bin, ih]; simp [List.replicate_succ]

theorem parseBits_short (n : Nat) : ∀ (v : Word) (bs : Bits), bs.length < n → parseBits nextBit n v bs = .error .truncated [] := by
  induction n with
  | zero => intro v bs h; simp at h
  | succ n ih =>
    intro v bs h
    cases bs with
    | nil => rfl
    | cons b bs => exact ih _ _ (by simpa using h)

/-! ## Inversions: what was read is what is written -/

theorem parseBits_inv (n : Nat) : ∀ (v : Word) {bs rest : Bits} {x : Word}, parseBits nextBit n v bs = .ok x rest → ∃ c, bs = c ++ rest ∧ c.length = n ∧ x = readWord v c := by
  induction n with
  | zero => intro v bs rest x h; cases h; exact ⟨[], rfl, rfl, rfl⟩
  | succ n ih =>
    intro v bs rest x h
    cases bs with
    | nil => cases h
    | cons b bs =>
      obtain ⟨c, rfl, h1, h2⟩ := ih _ h
      exact ⟨b :: c, rfl, by simp [h1], h2⟩

theorem bin_readWord_low (n : Nat) (v : Word) (c : Bits) (hl : c.length = n) (hn : n ≤ 32) : bin n (readWord v c) = c := by
  induction c using List.reverseRecOn generalizing n with
  | nil => subst hl; rfl
  | append_singleton c b ih =>
    simp only [List.length_append, List.length_singleton] at hl
    subst hl
    have h1 := ih c.length rfl (by omega)
    rw [readWord, List.foldl_append]
    simp only [List.foldl_cons, List.foldl_nil]
    rw [bin_snoc (v := readWord v c) (b := b) (by cases b <;> simp) (by
      intro i hi
      have h1 : i + 1 < 32 := by omega
      have h4 : (BitVec.setWidth 32 (BitVec.ofBool b)).getLsbD (i + 1) = false := by cases b <;> simp
      simp only [BitVec.getLsbD_or, BitVec.getLsbD_shiftLeft, h4, h1, readWord]
      simp), h1]

theorem parseByte_inv {bs rest : Bits} {b : Byte} (h : parseByte nextBit bs = .ok b rest) : bs = binByte b ++ rest := by
  obtain ⟨v, t, h1, h2⟩ := steps_bind_inv h
  obtain ⟨c, rfl, hl, rfl⟩ := parseBits_inv 8 0 h1
  cases h2
  congr 1
  refine (bin_readWord_low 8 0 c hl (by decide)).symm.trans (bin_congr fun i hi => ?_)
  have : i < 32 := by omega
  simp [hi, this]

theorem parseHalf_inv {bs rest : Bits} {w : Half} (h : parseHalf nextBit bs = .ok w rest) : bs = binHalf w ++ rest := by
  obtain ⟨v, t, h1, h2⟩ := steps_bind_inv h
  obtain ⟨c, rfl, hl, rfl⟩ := parseBits_inv 16 0 h1
  cases h2
  congr 1
  refine (bin_readWord_low 16 0 c hl (by decide)).symm.trans (bin_congr fun i hi => ?_)
  have : i < 32 := by omega
  simp [hi, this]

theorem parseNode_inv {e : Reject} : ∀ (fuel count : Nat) {bs rest : Bits} {a : CodeTree × Nat},
    parseNode nextBit e fuel count bs = .ok a rest →
    bs = binTree a.1 ++ rest ∧ a.2 = count + a.1.size ∧ a.2 ≤ maxTreeNodes := by
  intro fuel
  induction fuel with
  | zero => intro count bs rest a h; cases h
  | succ fuel ih =>
    intro count bs rest a h
    rw [parseNode] at h
    split at h
    · cases h
    · obtain ⟨b, cs, h1, h2⟩ := steps_bind_inv h
      cases bs with
      | nil => cases h1
      | cons b' bs =>
        cases h1
        cases b with
        | true =>
          simp only [if_true] at h2
          obtain ⟨l, t1, h3, h4⟩ := steps_bind_inv h2
          obtain ⟨r, t2, h5, h6⟩ := steps_bind_inv h4
          cases h6
          obtain ⟨rfl, e1, -⟩ := ih _ h3
          obtain ⟨rfl, e2, e3⟩ := ih _ h5
          refine ⟨by simp [binTree], ?_, e3⟩
          simp only [CodeTree.size]; omega
        | false =>
          simp only [Bool.false_eq_true, if_false] at h2
          obtain ⟨v, t1, h3, h4⟩ := steps_bind_inv h2
          cases h4
          rw [parseByte_inv h3]
          refine ⟨by simp [binTree], rfl, by simp only; omega⟩

theorem parseTree_inv {e : Reject} {bs rest : Bits} {t : CodeTree} (h : parseTree nextBit e bs = .ok t rest) :
    bs = binTree t ++ rest ∧ treeOk t := by
  obtain ⟨a, u, h1, h2⟩ := steps_bind_inv h
  cases h2
  obtain ⟨e1, e2, e3⟩ := parseNode_inv _ _ h1
  exact ⟨e1, by simp only [treeOk]; omega⟩

/-- An item of the codebook table that reads is a sentinel or a well-formed record. -/
theorem parseItem_inv {e : Reject} {bs rest : Bits} {x : Option (Byte × CodeTree)} (h : parseItem nextBit e bs = .ok x rest) :
    match x with
    | none => bs = binByte sentinelId ++ rest
    | some (k, t) => bs = binByte k ++ (binTree t ++ rest) ∧ classOk k ∧ treeOk t := by
  obtain ⟨k, u, h1, h2⟩ := steps_bind_inv h
  have h0 := parseByte_inv h1
  subst h0
  split at h2
  · cases h2
    rename_i hk
    simp [hk]
  · obtain ⟨t, u2, h3, h4⟩ := steps_bind_inv h2
    cases h4
    obtain ⟨rfl, h5⟩ := parseTree_inv h3
    exact ⟨rfl, ‹_›, h5⟩

theorem parseBytes_inv (n : Nat) : ∀ {bs rest : Bits} {l : List Byte}, parseBytes nextBit n bs = .ok l rest → bs = l.flatMap binByte ++ rest := by
  induction n with
  | zero => intro bs rest l h; cases h; rfl
  | succ n ih =>
    intro bs rest l h
    obtain ⟨b, u, h1, h2⟩ := steps_bind_inv h
    obtain ⟨m, u2, h3, h4⟩ := steps_bind_inv h2
    cases h4
    rw [parseByte_inv h1, ih h3]; simp

theorem parseMagic_inv {e : Reject} {bs rest : Bits} {x : Unit} (h : parseMagic nextBit e bs = .ok x rest) : bs = magic.flatMap binByte ++ rest := by
  obtain ⟨m, u, h1, h2⟩ := steps_bind_inv h
  split at h2
  · cases h2; rename_i hm; rw [parseBytes_inv 7 h1, hm]
  · cases h2

end Sys2Proof
end

