-- ==== Sys2Proof/Laws/Frames.lean ====
section
/-! SUPPORT. The frames of Safety.lean as equations of the unchanged parts, and their composition. -/

namespace Sys2Proof.Machine

theorem onlyWrote_iff {s t : State} : OnlyWrote s t ↔
    t.config = s.config ∧ t.reader = s.reader ∧ t.mtf = s.mtf ∧ t.builder = s.builder ∧ t.tokbuf = s.tokbuf ∧
    t.decoder = s.decoder ∧ t.image = s.image ∧ t.enc = s.enc ∧ t.dec = s.dec ∧ t.status = s.status ∧
    t.agents.source = s.agents.source ∧ t.agents.pixels = s.agents.pixels ∧ t.host = s.host ∧
    t.freeCount = s.freeCount ∧ t.treeOut = s.treeOut := by
  obtain ⟨c, w, r, m, b, tb, d, i, e, de, st, ⟨a1, a2, a3, a4⟩, h, f, o⟩ := s
  obtain ⟨c', w', r', m', b', tb', d', i', e', de', st', ⟨a1', a2', a3', a4'⟩, h', f', o'⟩ := t
  simp [OnlyWrote, State.setWriter, State.setAgents]
  tauto

theorem onlyRead_iff {s t : State} : OnlyRead s t ↔
    t.config = s.config ∧ t.writer = s.writer ∧ t.mtf = s.mtf ∧ t.builder = s.builder ∧ t.tokbuf = s.tokbuf ∧
    t.decoder = s.decoder ∧ t.image = s.image ∧ t.enc = s.enc ∧ t.dec = s.dec ∧ t.status = s.status ∧
    t.agents.sink = s.agents.sink ∧ t.agents.sinkAnswers = s.agents.sinkAnswers ∧
    t.agents.pixels = s.agents.pixels ∧ t.host = s.host ∧ t.freeCount = s.freeCount ∧ t.treeOut = s.treeOut := by
  obtain ⟨c, w, r, m, b, tb, d, i, e, de, st, ⟨a1, a2, a3, a4⟩, h, f, o⟩ := s
  obtain ⟨c', w', r', m', b', tb', d', i', e', de', st', ⟨a1', a2', a3', a4'⟩, h', f', o'⟩ := t
  simp [OnlyRead, State.setReader, State.setAgents]
  tauto

theorem OnlyWrote.refl (s : State) : OnlyWrote s s := by simp [onlyWrote_iff]

theorem OnlyWrote.trans {s t u : State} (h : OnlyWrote s t) (h' : OnlyWrote t u) : OnlyWrote s u := by
  rw [onlyWrote_iff] at *
  simp_all

theorem OnlyRead.refl (s : State) : OnlyRead s s := by simp [onlyRead_iff]

theorem OnlyRead.trans {s t u : State} (h : OnlyRead s t) (h' : OnlyRead t u) : OnlyRead s u := by
  rw [onlyRead_iff] at *
  simp_all

theorem OnlyWrote.failed {s t : State} (h : OnlyWrote s t) : t.failed = s.failed := by
  rw [onlyWrote_iff] at h; simp [State.failed, h]

theorem OnlyRead.failed {s t : State} (h : OnlyRead s t) : t.failed = s.failed := by
  rw [onlyRead_iff] at h; simp [State.failed, h]

theorem bitsOf_cons (b : Byte) (bs : List Byte) : bitsOf (b :: bs) = binByte b ++ bitsOf bs := by
  simp [bitsOf]

end Sys2Proof.Machine
end

