-- ==== Sys2Proof/Laws/Reader.lean ====
section
/-! SUPPORT. What the bitstream_reader's steps do: reading through the machine is reading the pure bit string `streamIn`
(20_memory.md R63; 40_bitstream.md R140), with the same failures. -/

namespace Sys2Proof.Machine

/-- From `s` to `t` only bits were read, the source gave bytes only, and less than a byte is left unconsumed. -/
structure Took (s t : State) : Prop where
  frame : OnlyRead s t
  bytes : ∃ bs : List Byte, s.agents.source = bs.map .byte ++ t.agents.source
  pending : s.reader.n ≤ 7 → t.reader.n ≤ 7

theorem Took.refl (s : State) : Took s s := ⟨OnlyRead.refl s, ⟨[], rfl⟩, id⟩

theorem Took.trans {s t u : State} (h : Took s t) (h' : Took t u) : Took s u := by
  refine ⟨h.frame.trans h'.frame, ?_, fun hn => h'.pending (h.pending hn)⟩
  obtain ⟨a, ha⟩ := h.bytes
  obtain ⟨b, hb⟩ := h'.bytes
  exact ⟨a ++ b, by rw [ha, hb]; simp⟩

theorem endCause_bytes (bs : List Byte) (rest : List SourceAnswer) : endCause (bs.map .byte ++ rest) = endCause rest := by
  induction bs with
  | nil => rfl
  | cons b bs ih => exact ih

theorem Took.ending {s t : State} (h : Took s t) : endCause t.agents.source = endCause s.agents.source := by
  obtain ⟨bs, hb⟩ := h.bytes
  rw [hb, endCause_bytes]

theorem Took.rejectCause {s t : State} (h : Took s t) (e : Reject) : rejectCause t e = rejectCause s e := by
  cases e <;> simp [Machine.rejectCause, h.ending]

/-- The machine's steps `y` do to the stream what the pure reader `x` does to its bits. -/
def Tracks {α : Type} (x : EStateM Reject Bits α) (y : M α) : Prop :=
  ∀ s, match x (streamIn s) with
    | .ok a bs => ∃ t, y s = .ok a t ∧ streamIn t = bs ∧ Took s t
    | .error e _ => ∃ t, y s = .error (rejectCause s e) t ∧ OnlyRead s t

section Tracks
variable {α β : Type}

theorem Tracks.ok {x : EStateM Reject Bits α} {y : M α} (h : Tracks x y) {s : State} {a : α} {bs : Bits}
    (hx : x (streamIn s) = .ok a bs) : ∃ t, y s = .ok a t ∧ streamIn t = bs ∧ Took s t := by
  have := h s
  rwa [hx] at this

theorem Tracks.error {x : EStateM Reject Bits α} {y : M α} (h : Tracks x y) {s : State} {e : Reject} {bs : Bits}
    (hx : x (streamIn s) = .error e bs) : ∃ t, y s = .error (rejectCause s e) t ∧ OnlyRead s t := by
  have := h s
  rwa [hx] at this

/-- A completing machine read is a completing pure read. -/
theorem Tracks.inv {x : EStateM Reject Bits α} {y : M α} (h : Tracks x y) {s t : State} {a : α}
    (hy : y s = .ok a t) : x (streamIn s) = .ok a (streamIn t) ∧ Took s t := by
  cases hx : x (streamIn s) with
  | ok b bs =>
    obtain ⟨u, h1, h2, h3⟩ := h.ok hx
    rw [hy] at h1
    cases h1
    exact ⟨by rw [h2], h3⟩
  | error e bs =>
    obtain ⟨u, h1, -⟩ := h.error hx
    rw [hy] at h1
    cases h1

theorem Tracks.pure (a : α) : Tracks (pure a) (pure a) := fun s => ⟨s, rfl, rfl, Took.refl s⟩

theorem Tracks.bind {x : EStateM Reject Bits α} {y : M α} {f : α → EStateM Reject Bits β} {g : α → M β}
    (h : Tracks x y) (hf : ∀ a, Tracks (f a) (g a)) : Tracks (x >>= f) (y >>= g) := by
  intro s
  cases hx : x (streamIn s) with
  | ok a bs =>
    obtain ⟨t, h1, h2, h3⟩ := h.ok hx
    rw [steps_bind_ok hx, steps_bind_ok h1]
    cases hfx : f a bs with
    | ok b cs =>
      rw [← h2] at hfx
      obtain ⟨u, h4, h5, h6⟩ := (hf a).ok hfx
      exact ⟨u, h4, h5, h3.trans h6⟩
    | error e cs =>
      rw [← h2] at hfx
      obtain ⟨u, h4, h5⟩ := (hf a).error hfx
      exact ⟨u, by rw [h4, h3.rejectCause], h3.frame.trans h5⟩
  | error e bs =>
    obtain ⟨t, h1, h2⟩ := h.error hx
    rw [steps_bind_error hx, steps_bind_error h1]
    exact ⟨t, rfl, h2⟩

theorem Tracks.throw (e : Reject) (c : Cause) (h : ∀ s, rejectCause s e = c) :
    Tracks (throw e : EStateM Reject Bits α) (throw c : M α) := by
  intro s
  exact ⟨s, by rw [h]; rfl, OnlyRead.refl s⟩

theorem Tracks.ite {p : Prop} [Decidable p] {x x' : EStateM Reject Bits α} {y y' : M α}
    (h : Tracks x y) (h' : Tracks x' y') : Tracks (if p then x else x') (if p then y else y') := by
  split
  · exact h
  · exact h'

end Tracks

theorem getLsbD_zext (cur : Byte) (i : Nat) : (cur.setWidth 32).getLsbD i = cur.getLsbD i := by
  rw [BitVec.getLsbD_setWidth]
  by_cases h : i < 32
  · simp [h]
  · rw [BitVec.getLsbD_of_ge cur i (by omega)]; simp

theorem refill_ready {s : State} (h : s.reader.n ≠ 0) : refill s = .ok () s := by
  rw [refill, steps_bind_ok (steps_get s), if_neg h, steps_pure]

theorem refill_empty {s : State} (h : s.reader.n = 0) : refill s = (sourceGet >>= fun b => setReader b 8) s := by
  rw [refill, steps_bind_ok (steps_get s), if_pos h]

/-- `GetBit` reads the next bit of the stream (R140). -/
theorem getBit_tracks : Tracks nextBit getBit := by
  intro s
  unfold getBit
  cases hn : s.reader.n with
  | succ k =>
    have hs : streamIn s = s.reader.cur.getLsbD k :: (bin k (s.reader.cur.setWidth 32) ++
        bitsOf (sourceBytes s.agents.source)) := by
      simp only [streamIn, hn, bin, getLsbD_zext, List.cons_append]
    rw [hs, nextBit_cons]
    have hr : refill s = .ok () s := refill_ready (by omega)
    refine ⟨s.setReader ⟨s.reader.cur, k⟩, ?_, ?_, ?_, ⟨[], rfl⟩, ?_⟩
    · rw [steps_bind_ok hr, steps_bind_ok (steps_get s)]
      simp only [setReader, hn, Nat.add_sub_cancel]
      rw [steps_bind_ok (steps_modify _ s)]
      rfl
    · simp [streamIn]
    · simp [onlyRead_iff]
    · simp; omega
  | zero =>
    cases hsrc : s.agents.source with
    | nil =>
      have hs : streamIn s = [] := by simp [streamIn, hn, hsrc, sourceBytes, bitsOf]
      have he : sourceGet s = .error .eos s := by simp [sourceGet, hsrc]
      rw [hs]
      refine ⟨s, ?_, OnlyRead.refl s⟩
      rw [steps_bind_error ((refill_empty hn).trans (steps_bind_error he))]
      simp [rejectCause, hsrc, endCause]
    | cons a rest =>
      cases a with
      | eos =>
        have hs : streamIn s = [] := by simp [streamIn, hn, hsrc, sourceBytes, bitsOf]
        have he : sourceGet s = .error .eos (s.setAgents { s.agents with source := rest }) := by
          simp [sourceGet, hsrc]
        rw [hs]
        refine ⟨s.setAgents { s.agents with source := rest }, ?_, ?_⟩
        · rw [steps_bind_error ((refill_empty hn).trans (steps_bind_error he))]
          simp [rejectCause, hsrc, endCause]
        · simp [onlyRead_iff]
      | ioerr =>
        have hs : streamIn s = [] := by simp [streamIn, hn, hsrc, sourceBytes, bitsOf]
        have he : sourceGet s = .error .sourceIo (s.setAgents { s.agents with source := rest }) := by
          simp [sourceGet, hsrc]
        rw [hs]
        refine ⟨s.setAgents { s.agents with source := rest }, ?_, ?_⟩
        · rw [steps_bind_error ((refill_empty hn).trans (steps_bind_error he))]
          simp [rejectCause, hsrc, endCause]
        · simp [onlyRead_iff]
      | byte b =>
        have hs : streamIn s = b.getLsbD 7 :: (bin 7 (b.setWidth 32) ++ bitsOf (sourceBytes rest)) := by
          simp only [streamIn, hn, hsrc, sourceBytes, bitsOf_cons, binByte, bin_zero, List.nil_append]
          rw [show bin 8 (b.setWidth 32) = (b.setWidth 32).getLsbD 7 :: bin 7 (b.setWidth 32) from rfl, getLsbD_zext]
          rfl
        have he : sourceGet s = .ok b (s.setAgents { s.agents with source := rest }) := by
          simp [sourceGet, hsrc]
        rw [hs, nextBit_cons]
        have hr : refill s = .ok () ((s.setAgents { s.agents with source := rest }).setReader ⟨b, 8⟩) := by
          rw [refill_empty hn, steps_bind_ok he]; rfl
        refine ⟨(s.setAgents { s.agents with source := rest }).setReader ⟨b, 7⟩, ?_, ?_, ?_, ⟨[b], by simp [hsrc]⟩, ?_⟩
        · rw [steps_bind_ok hr, steps_bind_ok (steps_get _)]
          simp only [setReader, State.setReader_reader]
          rw [steps_bind_ok (steps_modify _ _)]
          rfl
        · simp [streamIn]
        · simp [onlyRead_iff]
        · simp

theorem parseBits_tracks (n : Nat) (v : Word) : Tracks (parseBits nextBit n v) (parseBits getBit n v) := by
  induction n generalizing v with
  | zero => exact Tracks.pure v
  | succ n ih => exact Tracks.bind getBit_tracks fun b => ih _

theorem parseByte_tracks : Tracks (parseByte nextBit) (parseByte getBit) :=
  Tracks.bind (parseBits_tracks 8 0) fun _ => Tracks.pure _

theorem parseHalf_tracks : Tracks (parseHalf nextBit) (parseHalf getBit) :=
  Tracks.bind (parseBits_tracks 16 0) fun _ => Tracks.pure _

theorem parseBytes_tracks (n : Nat) : Tracks (parseBytes nextBit n) (parseBytes getBit n) := by
  induction n with
  | zero => exact Tracks.pure _
  | succ n ih => exact Tracks.bind parseByte_tracks fun _ => Tracks.bind ih fun _ => Tracks.pure _

theorem parseMagic_tracks : Tracks (parseMagic nextBit .badMagic) (parseMagic getBit .badMagic) :=
  Tracks.bind (parseBytes_tracks 7) fun _ => Tracks.ite (Tracks.pure _) (Tracks.throw _ _ fun _ => rfl)

theorem parseNode_tracks (fuel count : Nat) :
    Tracks (parseNode nextBit .treeTooLarge fuel count) (parseNode getBit .treeTooLarge fuel count) := by
  induction fuel generalizing count with
  | zero => exact Tracks.throw _ _ fun _ => rfl
  | succ fuel ih =>
    refine Tracks.ite (Tracks.throw _ _ fun _ => rfl) (Tracks.bind getBit_tracks fun b => ?_)
    exact Tracks.ite (Tracks.bind (ih _) fun l => Tracks.bind (ih _) fun r => Tracks.pure _)
      (Tracks.bind parseByte_tracks fun v => Tracks.pure _)

theorem parseTree_tracks : Tracks (parseTree nextBit .treeTooLarge) (parseTree getBit .treeTooLarge) :=
  Tracks.bind (parseNode_tracks _ _) fun _ => Tracks.pure _

theorem parseItem_tracks : Tracks (parseItem nextBit .treeTooLarge) (parseItem getBit .treeTooLarge) :=
  Tracks.bind parseByte_tracks fun _ =>
    Tracks.ite (Tracks.pure _) (Tracks.bind parseTree_tracks fun _ => Tracks.pure _)

/-- The machine reads an element of the stream as the pure decoder does. -/
theorem parseElement_tracks (pos : StreamPos) :
    Tracks (parseElement nextBit .treeTooLarge .badMagic pos) (parseElement getBit .treeTooLarge .badMagic pos) := by
  cases pos with
  | header =>
    exact Tracks.bind parseMagic_tracks fun _ => Tracks.bind parseHalf_tracks fun _ =>
      Tracks.bind parseHalf_tracks fun _ => Tracks.pure _
  | table =>
    refine Tracks.bind parseItem_tracks fun item => ?_
    cases item <;> exact Tracks.pure _
  | tree =>
    refine Tracks.bind parseTree_tracks fun t => ?_
    cases t <;> exact Tracks.pure _

/-! ## No byte is taken ahead (R140) -/

theorem getBit_n {s t : State} {b : Bool} (h8 : s.reader.n ≤ 8) (h : getBit s = .ok b t) : t.reader.n ≤ 7 := by
  unfold getBit at h
  obtain ⟨_, u, h1, h2⟩ := steps_bind_inv h
  rw [steps_bind_ok (steps_get u)] at h2
  cases h2
  have : u.reader.n ≤ 8 := by
    by_cases hn : s.reader.n = 0
    · rw [refill_empty hn] at h1
      obtain ⟨_, v, -, h4⟩ := steps_bind_inv h1
      cases h4
      simp
    · rw [refill_ready hn] at h1; cases h1; exact h8
  simp; omega

theorem parseBits_n : ∀ (n : Nat) (v : Word) {s t : State} {x : Word}, s.reader.n ≤ 8 → parseBits getBit n v s = .ok x t →
   (n = 0 → t = s) ∧ (n ≠ 0 → t.reader.n ≤ 7) := by
  intro n
  induction n with
  | zero => intro v s t x _ h; cases h; simp
  | succ n ih =>
    intro v s t x h8 h
    obtain ⟨b, u, h1, h2⟩ := steps_bind_inv h
    have h3 := getBit_n h8 h1
    have := ih _ (by omega) h2
    constructor
    · simp
    · intro _
      by_cases hn : n = 0
      · rw [this.1 hn]; exact h3
      · exact this.2 hn

theorem sourceBytes_map (bs : List Byte) (rest : List SourceAnswer) :
    sourceBytes (bs.map .byte ++ rest) = bs ++ sourceBytes rest := by
  induction bs with
  | nil => rfl
  | cons b bs ih => simp [sourceBytes, ih]

end Sys2Proof.Machine
end

