-- ==== Sys2Proof/Laws/Table.lean ====
section
/-! SUPPORT. The laws of the sparse tables: a read after a write, the canonical form, and the totals of a class. -/

namespace Sys2Proof.Machine

section Table
variable {α : Type}

/-- A read after a write to the same index gives the value written. -/
@[simp] theorem tableGet_set_same (t : Table α) (k : Nat) (a : α) : tableGet (tableSet t k a) k = some a := by
  induction t with
  | nil => simp [tableSet, tableGet]
  | cons e t ih =>
    obtain ⟨j, b⟩ := e
    simp only [tableSet]
    split_ifs with h1 h2
    · simp [tableGet]
    · simp [tableGet]
    · simp [tableGet, Ne.symm h2, ih]

/-- A write leaves every other index as it was. -/
theorem tableGet_set_other (t : Table α) {k m : Nat} (a : α) (h : m ≠ k) :
    tableGet (tableSet t k a) m = tableGet t m := by
  induction t with
  | nil => simp [tableSet, tableGet, Ne.symm h]
  | cons e t ih =>
    obtain ⟨j, b⟩ := e
    simp only [tableSet]
    split_ifs with h1 h2
    · simp [tableGet, Ne.symm h]
    · subst h2; simp [tableGet, Ne.symm h]
    · simp [tableGet, ih]

/-- The entries after a write are the one written and earlier ones at other indices. -/
theorem mem_tableSet {t : Table α} {k : Nat} {a : α} {e : Nat × α} (h : e ∈ tableSet t k a) :
    e = (k, a) ∨ e ∈ t := by
  induction t with
  | nil => simpa [tableSet] using h
  | cons x t ih =>
    obtain ⟨j, b⟩ := x
    simp only [tableSet] at h
    split_ifs at h with h1 h2
    · simpa using h
    · rcases List.mem_cons.mp h with h | h
      · exact .inl h
      · exact .inr (List.mem_cons_of_mem _ h)
    · rcases List.mem_cons.mp h with h | h
      · exact .inr (by simp [h])
      · rcases ih h with h | h
        · exact .inl h
        · exact .inr (List.mem_cons_of_mem _ h)

/-- A write keeps the canonical form. -/
theorem tableWf_set {t : Table α} (h : tableWf t) (k : Nat) (a : α) : tableWf (tableSet t k a) := by
  induction t with
  | nil => simp [tableWf, tableSet]
  | cons e t ih =>
    obtain ⟨j, b⟩ := e
    obtain ⟨hj, ht⟩ := List.pairwise_cons.mp h
    simp only [tableSet]
    split_ifs with h1 h2
    · refine List.pairwise_cons.mpr ⟨?_, h⟩
      intro x hx
      rcases List.mem_cons.mp hx with rfl | hx
      · exact h1
      · exact lt_trans h1 (hj x hx)
    · subst h2
      exact List.pairwise_cons.mpr ⟨hj, ht⟩
    · refine List.pairwise_cons.mpr ⟨?_, ih ht⟩
      intro x hx
      rcases mem_tableSet hx with rfl | hx
      · show j < k
        omega
      · exact hj x hx

theorem tableWf_erase {t : Table α} (h : tableWf t) (k : Nat) : tableWf (tableErase t k) := h.filter _

theorem tableWf_dropClass {t : Table α} (h : tableWf t) (k : Byte) : tableWf (tableDropClass t k) := h.filter _

theorem mem_of_tableGet {t : Table α} {k : Nat} {a : α} (h : tableGet t k = some a) : (k, a) ∈ t := by
  induction t with
  | nil => simp [tableGet] at h
  | cons e t ih =>
    obtain ⟨j, b⟩ := e
    simp only [tableGet] at h
    split_ifs at h with hj
    · simp only [Option.some.injEq] at h; simp [hj, h]
    · exact List.mem_cons_of_mem _ (ih h)

theorem tableGet_of_mem {t : Table α} (hw : tableWf t) {k : Nat} {a : α} (h : (k, a) ∈ t) : tableGet t k = some a := by
  induction t with
  | nil => simp at h
  | cons e t ih =>
    obtain ⟨j, b⟩ := e
    obtain ⟨hj, ht⟩ := List.pairwise_cons.mp hw
    rcases List.mem_cons.mp h with h | h
    · cases h; simp [tableGet]
    · have : j < k := hj _ h
      simp [tableGet, Nat.ne_of_lt this, ih ht h]

/-- A read after a removal: nothing at the index, every other index as it was. -/
theorem tableGet_filter (t : Table α) (p : Nat → Bool) (m : Nat) :
    tableGet (t.filter fun e => p e.1) m = if p m then tableGet t m else none := by
  induction t with
  | nil => simp [tableGet]
  | cons e t ih =>
    obtain ⟨j, b⟩ := e
    by_cases hp : p j = true
    · rw [List.filter_cons_of_pos (by simpa using hp)]
      simp only [tableGet, ih]
      by_cases hj : j = m
      · subst hj; simp [hp]
      · simp [hj]
    · rw [List.filter_cons_of_neg (by simpa using hp), ih]
      simp only [tableGet]
      by_cases hj : j = m
      · subst hj; simp [hp]
      · simp [hj]

theorem tableGet_erase_same (t : Table α) (k : Nat) : tableGet (tableErase t k) k = none := by
  have := tableGet_filter t (fun j => decide (j ≠ k)) k
  simpa [tableErase] using this

theorem tableGet_erase_other (t : Table α) {k m : Nat} (h : m ≠ k) : tableGet (tableErase t k) m = tableGet t m := by
  have := tableGet_filter t (fun j => decide (j ≠ k)) m
  simpa [tableErase, h] using this

/-- The reads after a class is made absent. -/
theorem tableGet_dropClass (t : Table α) (k : Byte) (m : Nat) :
    tableGet (tableDropClass t k) m = if m / 256 = k.toNat then none else tableGet t m := by
  have := tableGet_filter t (fun j => decide (j / 256 ≠ k.toNat)) m
  simp only [tableDropClass, this]
  by_cases h : m / 256 = k.toNat <;> simp [h]

end Table

/-! ## Indices of a class and a value -/

@[simp] theorem entryKey_div (k v : Byte) : entryKey k v / 256 = k.toNat := by
  have := v.isLt
  simp only [entryKey]
  omega

theorem entryKey_inj {k v k' v' : Byte} (h : entryKey k v = entryKey k' v') : k = k' ∧ v = v' := by
  have h1 := v.isLt
  have h2 := v'.isLt
  simp only [entryKey] at h
  constructor
  · exact BitVec.eq_of_toNat_eq (by omega)
  · exact BitVec.eq_of_toNat_eq (by omega)

/-- The count of a class and value after a write of another, or of itself. -/
theorem freqGet_set (t : Table Word) (k v k' v' : Byte) (x : Word) :
    freqGet (tableSet t (entryKey k v) x) k' v' = if k' = k ∧ v' = v then x else freqGet t k' v' := by
  by_cases h : k' = k ∧ v' = v
  · obtain ⟨rfl, rfl⟩ := h
    simp [freqGet]
  · have hne : entryKey k' v' ≠ entryKey k v := fun he => h (entryKey_inj he)
    simp [freqGet, tableGet_set_other t x hne, h]

/-! ## Memories -/

/-- A read after a write to the same index gives the pixel written. -/
@[simp] theorem Memory.read_write_same (m : Memory) (x : Nat) (p : Pixel) : (m.write x p).read x = some p :=
  tableGet_set_same m x p

/-- A write leaves every other index as it was. -/
theorem Memory.read_write_other (m : Memory) {x y : Nat} (p : Pixel) (h : y ≠ x) :
    (m.write x p).read y = m.read y := tableGet_set_other m p h

/-- Every write keeps the canonical form. -/
theorem Memory.wf_write {m : Memory} (h : m.wf) (x : Nat) (p : Pixel) : (m.write x p).wf := tableWf_set h x p

/-! ## Totals -/

/-- The total of a class as a sum over the table. -/
def totalOf (t : Table Word) (k : Nat) : Nat := ((t.filter fun e => decide (e.1 / 256 = k)).map fun e => e.2.toNat).sum

theorem classTotal_eq (t : Table Word) (k : Byte) : classTotal t k = totalOf t k.toNat := by
  simp [classTotal, totalOf, tableRow, List.map_map, Function.comp_def]

theorem totalOf_cons (j : Nat) (b : Word) (t : Table Word) (k : Nat) :
    totalOf ((j, b) :: t) k = (if j / 256 = k then b.toNat else 0) + totalOf t k := by
  by_cases hk : j / 256 = k <;> simp [totalOf, hk]

theorem tableGet_none_of_lt {j i : Nat} {b : Word} {t : Table Word} (h : tableWf ((j, b) :: t)) (hi : i < j) :
    tableGet ((j, b) :: t) i = none := by
  cases hg : tableGet ((j, b) :: t) i with
  | none => rfl
  | some a =>
    exfalso
    rcases List.mem_cons.mp (mem_of_tableGet hg) with he | he
    · cases he; omega
    · have : j < i := (List.pairwise_cons.mp h).1 _ he
      omega

theorem totalOf_set {t : Table Word} (h : tableWf t) (i : Nat) (x : Word) (k : Nat) :
    totalOf (tableSet t i x) k + (if i / 256 = k then ((tableGet t i).getD 0).toNat else 0)
      = totalOf t k + (if i / 256 = k then x.toNat else 0) := by
  induction t with
  | nil => by_cases hk : i / 256 = k <;> simp [tableSet, tableGet, totalOf, hk]
  | cons e t ih =>
    obtain ⟨j, b⟩ := e
    have ih := ih (List.pairwise_cons.mp h).2
    rcases Nat.lt_trichotomy i j with hi | hi | hi
    · rw [tableGet_none_of_lt h hi]
      simp [tableSet, hi, totalOf_cons, Nat.add_comm]
    · subst hi
      simp only [tableSet, Nat.lt_irrefl, if_false, if_true, totalOf_cons, tableGet, Option.getD_some]
      omega
    · have h1 : ¬ i < j := by omega
      have h2 : ¬ i = j := by omega
      have h3 : ¬ j = i := by omega
      simp only [tableSet, if_neg h1, if_neg h2, totalOf_cons, tableGet, if_neg h3]
      omega

/-- One entry is at most the total of its class. -/
theorem freqGet_le_total (t : Table Word) (k v : Byte) : (freqGet t k v).toNat ≤ classTotal t k := by
  rw [classTotal_eq]
  cases hg : tableGet t (entryKey k v) with
  | none => simp [freqGet, hg]
  | some a =>
    simp only [freqGet, hg, Option.getD_some, totalOf]
    apply List.single_le_sum (by simp)
    refine List.mem_map.mpr ⟨(entryKey k v, a), ?_, rfl⟩
    simp [List.mem_filter, mem_of_tableGet hg]

/-- Counting one token adds 1 to the total of its class and nothing to the others. -/
theorem classTotal_count {t : Table Word} (h : tableWf t) (k v k' : Byte) (hlt : classTotal t k < 2 ^ 32 - 1) :
    classTotal (tableSet t (entryKey k v) (freqGet t k v + 1)) k' = classTotal t k' + if k' = k then 1 else 0 := by
  have h1 := totalOf_set h (entryKey k v) (freqGet t k v + 1) k'.toNat
  have h2 := freqGet_le_total t k v
  have h3 : (freqGet t k v + 1).toNat = (freqGet t k v).toNat + 1 := by
    rw [BitVec.toNat_add]
    have : (1 : Word).toNat = 1 := rfl
    omega
  rw [classTotal_eq, classTotal_eq]
  rw [entryKey_div, h3] at h1
  have h4 : ((tableGet t (entryKey k v)).getD 0).toNat = (freqGet t k v).toNat := rfl
  rw [h4] at h1
  by_cases hk : k' = k
  · subst hk
    simp only [if_true] at h1 ⊢
    omega
  · have hk' : ¬ k.toNat = k'.toNat := fun he => hk (BitVec.eq_of_toNat_eq he.symm)
    simp only [if_neg hk', if_neg hk] at h1 ⊢
    omega

end Sys2Proof.Machine
end

