-- ==== Sys2Proof/Laws/Trees.lean ====
section
/-! SUPPORT. Prefix-code trees: their sizes, the paths to their leaves (30_encoding.md R94, R95; 42_huffman_tree_builder.md R183,
R187). -/

namespace Sys2Proof

theorem CodeTree.leaves_pos (t : CodeTree) : 1 ≤ t.leaves := by
  cases t with
  | leaf v => exact le_refl 1
  | internal l r => simp only [CodeTree.leaves]; have := l.leaves_pos; omega

theorem CodeTree.values_length (t : CodeTree) : t.values.length = t.leaves := by
  induction t with
  | leaf v => rfl
  | internal l r ihl ihr => simp [CodeTree.values, CodeTree.leaves, ihl, ihr]

theorem CodeTree.size_eq (t : CodeTree) : t.size = 2 * t.leaves - 1 := by
  have h : t.size + 1 = 2 * t.leaves := by
    induction t with
    | leaf v => rfl
    | internal l r ihl ihr => simp only [CodeTree.size, CodeTree.leaves]; omega
  omega

/-- A tree in which every internal node has two children is no deeper than its leaves less 1 (R183). -/
theorem CodeTree.height_lt (t : CodeTree) : t.height + 1 ≤ t.leaves := by
  induction t with
  | leaf v => exact le_refl 1
  | internal l r ihl ihr =>
    have h1 := l.leaves_pos
    have h2 := r.leaves_pos
    simp only [CodeTree.height, CodeTree.leaves]
    omega

/-- A tree that fits the tree store has codes of at most 255 bits (10_state.md R30). -/
theorem CodeTree.height_le {t : CodeTree} (h : treeOk t) : t.height ≤ 255 := by
  have h1 := t.height_lt
  have h2 := t.size_eq
  simp only [treeOk, maxTreeNodes] at h
  omega

/-- The values at the leaves with the paths to them, left to right. -/
def CodeTree.paths : CodeTree → List (Byte × Bits)
  | .leaf v => [(v, [])]
  | .internal l r => (l.paths.map fun x => (x.1, false :: x.2)) ++ r.paths.map fun x => (x.1, true :: x.2)

theorem CodeTree.paths_values (t : CodeTree) : t.paths.map (·.1) = t.values := by
  induction t with
  | leaf v => rfl
  | internal l r ihl ihr => simp [CodeTree.paths, CodeTree.values, ← ihl, ← ihr, Function.comp_def]

/-- A bit string leads to a leaf when it is the path to it. -/
theorem CodeTree.follow_iff {t : CodeTree} {c : Bits} {v : Byte} : t.follow c = some v ↔ (v, c) ∈ t.paths := by
  induction t generalizing c with
  | leaf u => cases c <;> simp [CodeTree.follow, CodeTree.paths, eq_comm]
  | internal l r ihl ihr =>
    cases c with
    | nil => simp [CodeTree.follow, CodeTree.paths]
    | cons b c => cases b <;> simp [CodeTree.follow, CodeTree.paths, ihl, ihr]

theorem CodeTree.mem_values_of_follow {t : CodeTree} {c : Bits} {v : Byte} (h : t.follow c = some v) : v ∈ t.values := by
  rw [← t.paths_values]
  exact List.mem_map.mpr ⟨(v, c), CodeTree.follow_iff.mp h, rfl⟩

theorem CodeTree.exists_follow {t : CodeTree} {v : Byte} (h : v ∈ t.values) : ∃ c, t.follow c = some v := by
  rw [← t.paths_values] at h
  obtain ⟨⟨u, c⟩, h1, h2⟩ := List.mem_map.mp h
  cases h2
  exact ⟨c, CodeTree.follow_iff.mpr h1⟩

/-- Two paths to one value are the same where the values are distinct. -/
theorem CodeTree.follow_unique {t : CodeTree} (hn : t.values.Nodup) {c d : Bits} {v : Byte} (h1 : t.follow c = some v)
    (h2 : t.follow d = some v) : c = d := by
  rw [← t.paths_values] at hn
  have := List.inj_on_of_nodup_map hn (CodeTree.follow_iff.mp h1) (CodeTree.follow_iff.mp h2) rfl
  exact congrArg Prod.snd this

/-- No path goes on past a leaf (30_encoding.md R117). -/
theorem CodeTree.follow_stops {t : CodeTree} {c d : Bits} {v w : Byte} (h1 : t.follow c = some v)
    (h2 : t.follow (c ++ d) = some w) : d = [] ∧ v = w := by
  induction t generalizing c with
  | leaf u =>
    cases c with
    | nil => cases d with
      | nil => rw [List.append_nil, h1] at h2; exact ⟨rfl, by simpa using h2⟩
      | cons b d => cases h2
    | cons b c => cases h1
  | internal l r ihl ihr =>
    cases c with
    | nil => cases h1
    | cons b c => cases b <;> simp [CodeTree.follow] at h1 h2 <;> first | exact ihl h1 h2 | exact ihr h1 h2

theorem CodeTree.follow_length {t : CodeTree} {c : Bits} {v : Byte} (h : t.follow c = some v) : c.length ≤ t.height := by
  induction t generalizing c with
  | leaf u => cases c with
    | nil => simp
    | cons b c => cases h
  | internal l r ihl ihr =>
    cases c with
    | nil => cases h
    | cons b c =>
      simp only [List.length_cons, CodeTree.height]
      cases b <;> simp [CodeTree.follow] at h
      · have := ihl h; omega
      · have := ihr h; omega

theorem CodeTree.depthOf_none {t : CodeTree} {v : Byte} (h : v ∉ t.values) : t.depthOf v = none := by
  induction t with
  | leaf u => simp only [CodeTree.values, List.mem_singleton] at h; simp [CodeTree.depthOf, Ne.symm h]
  | internal l r ihl ihr =>
    simp only [CodeTree.values, List.mem_append, not_or] at h
    simp [CodeTree.depthOf, ihl h.1, ihr h.2]

/-- The path to a value is as long as its leaf is deep (42_huffman_tree_builder.md R187). -/
theorem CodeTree.depthOf_follow {t : CodeTree} (hn : t.values.Nodup) {c : Bits} {v : Byte} (h : t.follow c = some v) :
    t.depthOf v = some c.length := by
  induction t generalizing c with
  | leaf u => cases c with
    | nil => simp [CodeTree.follow] at h; simp [CodeTree.depthOf, h]
    | cons b c => cases h
  | internal l r ihl ihr =>
    simp only [CodeTree.values] at hn
    obtain ⟨h1, h2, h3⟩ := List.nodup_append.mp hn
    cases c with
    | nil => cases h
    | cons b c =>
      cases b <;> simp [CodeTree.follow] at h
      · simp [CodeTree.depthOf, ihl h1 h]
      · have hv : v ∉ l.values := fun hm => h3 v hm v (CodeTree.mem_values_of_follow h) rfl
        simp [CodeTree.depthOf, ihr h2 h, CodeTree.depthOf_none hv]

/-- The Kraft sum of a tree is 1 (42_huffman_tree_builder.md R187). -/
theorem CodeTree.kraft (t : CodeTree) : (t.paths.map fun x => (1 / 2 : ℚ) ^ x.2.length).sum = 1 := by
  induction t with
  | leaf v => simp [CodeTree.paths]
  | internal l r ihl ihr =>
    have h : ∀ ps : List (Byte × Bits), (ps.map fun x => (1 / 2 : ℚ) ^ (x.2.length + 1)).sum
        = 1 / 2 * (ps.map fun x => (1 / 2 : ℚ) ^ x.2.length).sum := by
      intro ps
      induction ps with
      | nil => simp
      | cons p ps ih => rw [List.map_cons, List.sum_cons, ih, List.map_cons, List.sum_cons, pow_succ]; ring
    simp only [CodeTree.paths, List.map_append, List.map_map, Function.comp_def, List.length_cons, List.sum_append, h,
      ihl, ihr]
    norm_num

end Sys2Proof
end

