-- ==== Sys2Proof/Laws/Writer.lean ====
section
/-! SUPPORT. What the bitstream_writer's steps do: they append bits to the stream (20_memory.md R63; 40_bitstream.md R130). -/

namespace Sys2Proof.Machine

/-- From `s` to `t`, exactly the bits `bs` were written and the sink is still ready. -/
structure Wrote (s t : State) (bs : Bits) : Prop where
  stream : streamOut t = streamOut s ++ bs
  pending : t.writer.n = (s.writer.n + bs.length) % 8
  ready : SinkReady t
  frame : OnlyWrote s t

theorem Wrote.writerReady {s t : State} {bs : Bits} (h : Wrote s t bs) : WriterReady t := by
  have := h.pending
  simp only [WriterReady]
  omega

theorem Wrote.nil {s : State} (hw : WriterReady s) (hr : SinkReady s) : Wrote s s [] where
  stream := by simp
  pending := by
    simp only [WriterReady] at hw
    simp only [List.length_nil]
    omega
  ready := hr
  frame := OnlyWrote.refl s

theorem Wrote.trans {s t u : State} {bs cs : Bits} (h : Wrote s t bs) (h' : Wrote t u cs) : Wrote s u (bs ++ cs) where
  stream := by rw [h'.stream, h.stream, List.append_assoc]
  pending := by
    have h1 := h.pending
    have h2 := h'.pending
    rw [List.length_append]
    omega
  ready := h'.ready
  frame := h.frame.trans h'.frame

/-- What `SinkPut` can do: deliver the byte, or raise IO/SINK_IO and deliver nothing. -/
theorem sinkPut_cases (b : Byte) (s : State) :
    (∃ rest, sinkPut b s = .ok () (s.setAgents (s.agents.deliver rest b)) ∧
      (SinkReady s → ∀ a ∈ rest, a = SinkAnswer.ok)) ∨
    (∃ rest, sinkPut b s = .error .sinkIo (s.setAgents { s.agents with sinkAnswers := rest }) ∧
      s.agents.sinkAnswers = .ioerr :: rest) := by
  unfold sinkPut
  cases h : s.agents.sinkAnswers with
  | nil => exact .inl ⟨[], rfl, fun _ => by simp⟩
  | cons x rest =>
    cases x with
    | ok => exact .inl ⟨rest, rfl, fun hr a ha => hr a (by rw [h]; exact List.mem_cons_of_mem _ ha)⟩
    | ioerr => exact .inr ⟨rest, rfl, rfl⟩

theorem sinkPut_ready {s : State} (hr : SinkReady s) (b : Byte) :
    ∃ rest, sinkPut b s = .ok () (s.setAgents (s.agents.deliver rest b)) ∧ ∀ a ∈ rest, a = SinkAnswer.ok := by
  rcases sinkPut_cases b s with ⟨rest, h, hr'⟩ | ⟨rest, -, h⟩
  · exact ⟨rest, h, hr' hr⟩
  · have := hr .ioerr (by rw [h]; exact List.mem_cons_self)
    cases this

theorem bitsOf_snoc (bs : List Byte) (b : Byte) : bitsOf (bs ++ [b]) = bitsOf bs ++ binByte b := by
  simp [bitsOf]

/-- One more bit in the accumulator. -/
theorem bin_shiftIn {n : Nat} (hn : n ≤ 7) (acc : Byte) (b : Bool) :
    bin (n + 1) (((acc <<< 1) ||| (BitVec.ofBool b).setWidth 8).setWidth 32) = bin n (acc.setWidth 32) ++ [b] := by
  apply bin_snoc
  · cases b <;> simp
  · intro i hi
    have h1 : i + 1 < 32 := by omega
    have h2 : i + 1 < 8 := by omega
    have h3 : i < 32 := by omega
    have h4 : (BitVec.setWidth 8 (BitVec.ofBool b)).getLsbD (i + 1) = false := by
      cases b <;> simp
    simp only [BitVec.getLsbD_setWidth, BitVec.getLsbD_or, BitVec.getLsbD_shiftLeft, h1, h2, h3, h4,
      decide_true, Bool.true_and, Bool.or_false]
    simp

/-- Zero bits at the low end. -/
theorem bin_pad : ∀ m n : Nat, n + m ≤ 8 → ∀ acc : Byte,
    bin (n + m) ((acc <<< m).setWidth 32) = bin n (acc.setWidth 32) ++ List.replicate m false := by
  intro m
  induction m with
  | zero => intro n hn acc; simp
  | succ m ih =>
    intro n hn acc
    have h1 : bin (n + m + 1) ((acc <<< (m + 1)).setWidth 32) = bin (n + m) ((acc <<< m).setWidth 32) ++ [false] := by
      apply bin_snoc
      · simp
      · intro i hi
        have h1 : i + 1 < 32 := by omega
        have h2 : i + 1 < 8 := by omega
        have h3 : i < 32 := by omega
        have h4 : i < 8 := by omega
        have h5 : (i + 1 < m + 1) ↔ i < m := by omega
        simp only [BitVec.getLsbD_setWidth, BitVec.getLsbD_shiftLeft, h1, h2, h3, h4, h5, decide_true,
          Bool.true_and, Nat.add_sub_add_right]
    rw [← Nat.add_assoc, h1, ih n (by omega) acc, List.append_assoc, ← List.replicate_succ']

/-- `PutBit` with a ready sink appends its bit (R130). -/
theorem putBit_wrote {s : State} (hw : WriterReady s) (hr : SinkReady s) (b : Bool) :
    ∃ t, putBit b s = .ok () t ∧ Wrote s t [b] := by
  have hw' : s.writer.n ≤ 7 := hw
  unfold putBit
  rw [steps_bind_ok (steps_get s)]
  simp only [setWriter]
  rw [steps_bind_ok (steps_modify _ s)]
  by_cases h8 : s.writer.n + 1 = 8
  · rw [if_pos h8]
    obtain ⟨rest, hp, hok⟩ := sinkPut_ready (s := s.setWriter
      ⟨(s.writer.acc <<< 1) ||| (BitVec.ofBool b).setWidth 8, s.writer.n + 1⟩) hr
      ((s.writer.acc <<< 1) ||| (BitVec.ofBool b).setWidth 8)
    rw [steps_bind_ok hp, steps_modify]
    refine ⟨_, rfl, ⟨?_, ?_, ?_, ?_⟩⟩
    · have hb := bin_shiftIn hw' s.writer.acc b
      rw [h8] at hb
      simp only [streamOut, State.setWriter_agents, State.setAgents_agents, State.setWriter_writer, Agents.deliver,
        bitsOf_snoc, pendingBits, bin_zero, binByte, hb, List.append_nil, List.append_assoc]
    · show 0 = _
      simp only [List.length_singleton]
      omega
    · exact hok
    · simp [onlyWrote_iff, Agents.deliver]
  · rw [if_neg h8, steps_pure]
    refine ⟨_, rfl, ⟨?_, ?_, ?_, ?_⟩⟩
    · simp only [streamOut, State.setWriter_agents, State.setWriter_writer, pendingBits,
        bin_shiftIn hw', List.append_assoc]
    · show s.writer.n + 1 = _
      simp only [List.length_singleton]
      omega
    · exact hr
    · simp [onlyWrote_iff]

/-- Bits with a ready sink are appended in order. -/
theorem putBits_wrote (bs : Bits) : ∀ {s : State}, WriterReady s → SinkReady s →
    ∃ t, putBits bs s = .ok () t ∧ Wrote s t bs := by
  induction bs with
  | nil => intro s hw hr; exact ⟨s, rfl, Wrote.nil hw hr⟩
  | cons b bs ih =>
    intro s hw hr
    obtain ⟨t, h1, h2⟩ := putBit_wrote hw hr b
    obtain ⟨u, h3, h4⟩ := ih h2.writerReady h2.ready
    refine ⟨u, ?_, h2.trans h4⟩
    rw [putBits, steps_bind_ok h1, h3]

theorem writeBits_wrote (v : Word) (n : Nat) {s : State} (hw : WriterReady s) (hr : SinkReady s) :
    ∃ t, writeBits v n s = .ok () t ∧ Wrote s t (bin n v) := putBits_wrote _ hw hr

/-- BW_FLUSH with a ready sink pads the last byte with zero bits (R133). -/
theorem bwFlush_wrote {s : State} (hw : WriterReady s) (hr : SinkReady s) :
    ∃ t, bwFlush s = .ok () t ∧ Wrote s t (padding s.writer.n) ∧ t.writer.n = 0 := by
  have hw' : s.writer.n ≤ 7 := hw
  unfold bwFlush
  rw [steps_bind_ok (steps_get s)]
  by_cases h0 : s.writer.n > 0
  · rw [if_pos h0]
    obtain ⟨rest, hp, hok⟩ := sinkPut_ready hr (s.writer.acc <<< (8 - s.writer.n))
    rw [steps_bind_ok hp]
    simp only [setWriter, steps_modify]
    have hb := bin_pad (8 - s.writer.n) s.writer.n (by omega) s.writer.acc
    have h8 : s.writer.n + (8 - s.writer.n) = 8 := by omega
    rw [h8] at hb
    have hm : (8 - s.writer.n % 8) % 8 = 8 - s.writer.n := by omega
    refine ⟨_, rfl, ⟨?_, ?_, ?_, ?_⟩, rfl⟩
    · simp only [streamOut, State.setWriter_agents, State.setAgents_agents, State.setWriter_writer, Agents.deliver,
        bitsOf_snoc, pendingBits, bin_zero, binByte, hb, padding, hm, List.append_nil, List.append_assoc]
    · show 0 = _
      simp only [padding, List.length_replicate]
      omega
    · exact hok
    · simp [onlyWrote_iff, Agents.deliver]
  · rw [if_neg h0]
    have h : s.writer.n = 0 := by omega
    have hp : padding s.writer.n = [] := by simp [h, padding]
    rw [hp]
    exact ⟨s, rfl, Wrote.nil hw hr, h⟩

/-! ## The accumulator -/

/-- BW_N is 0 to 7 and the bits of BW_ACC at and above it are zero (10_state.md R22, R23). -/
def WriterTidy (s : State) : Prop := s.writer.n ≤ 7 ∧ s.writer.acc.toNat < 2 ^ s.writer.n

theorem shiftIn8_toNat {acc : Byte} (h : acc.toNat < 2 ^ 7) (b : Bool) :
    ((acc <<< 1) ||| (BitVec.ofBool b).setWidth 8).toNat = 2 * acc.toNat + b.toNat := by
  revert h
  cases b <;> revert acc <;> decide

theorem sinkPut_writer {b : Byte} {s t : State} (h : sinkPut b s = .ok () t) : t.writer = s.writer := by
  rcases sinkPut_cases b s with ⟨rest, h', -⟩ | ⟨rest, h', -⟩
  · rw [h'] at h; cases h; rfl
  · rw [h'] at h; cases h

theorem putBit_tidy (b : Bool) : Keeps WriterTidy (putBit b) := by
  intro s x u hs hu
  unfold putBit at hu
  rw [steps_bind_ok (steps_get s)] at hu
  simp only [setWriter] at hu
  rw [steps_bind_ok (steps_modify _ s)] at hu
  by_cases h8 : s.writer.n + 1 = 8
  · rw [if_pos h8] at hu
    obtain ⟨_, t, -, h2⟩ := steps_bind_inv hu
    cases h2
    exact ⟨by simp, by simp⟩
  · rw [if_neg h8] at hu
    cases hu
    have hlt : s.writer.n + 1 ≤ 7 := by have := hs.1; omega
    have h7 : s.writer.acc.toNat < 2 ^ 7 :=
      lt_of_lt_of_le hs.2 (Nat.pow_le_pow_right (by decide) (by omega))
    refine ⟨hlt, ?_⟩
    simp only [State.setWriter_writer]
    rw [shiftIn8_toNat h7, Nat.pow_succ]
    have := hs.2
    cases b <;> simp <;> omega

theorem putBits_tidy (bs : Bits) : Keeps WriterTidy (putBits bs) := by
  induction bs with
  | nil => exact Keeps.pure _
  | cons b bs ih => exact Keeps.bind (putBit_tidy b) fun _ => ih

theorem bwFlush_tidy : Keeps WriterTidy bwFlush := by
  refine Keeps.get_bind fun s x u hs hu => ?_
  split at hu
  · obtain ⟨_, t, -, h2⟩ := steps_bind_inv hu
    cases h2
    exact ⟨by simp, by simp⟩
  · cases hu
    exact hs

/-! ## A sink that fails -/

/-- The sink takes `j` more bytes and refuses the next. -/
def SinkFails (s : State) (j : Nat) (rest : List SinkAnswer) : Prop :=
  s.agents.sinkAnswers = List.replicate j .ok ++ .ioerr :: rest

theorem bitsOf_length (bs : List Byte) : (bitsOf bs).length = 8 * bs.length := by
  induction bs with
  | nil => rfl
  | cons b bs ih => simp [bitsOf] at ih ⊢; omega

theorem pendingBits_length (w : BitWriter) : (pendingBits w).length = w.n := bin_length _ _

/-- Bits written to a sink that refuses a byte they complete (R130): the bytes before it are delivered. -/
theorem putBits_sinkFails (rest : List SinkAnswer) (bs : Bits) : ∀ (j : Nat) {s : State}, WriterReady s →
    SinkFails s j rest → 8 * (j + 1) ≤ s.writer.n + bs.length →
    ∃ t, putBits bs s = .error .sinkIo t ∧ OnlyWrote s t ∧ t.agents.sinkAnswers = rest ∧
      bitsOf t.agents.sink = (streamOut s ++ bs).take (8 * (s.agents.sink.length + j)) := by
  induction bs with
  | nil =>
    intro j s hw _ hle
    have hw' : s.writer.n ≤ 7 := hw
    simp only [List.length_nil] at hle
    omega
  | cons b bs ih =>
    intro j s hw hf hle
    have hw' : s.writer.n ≤ 7 := hw
    have hf' : s.agents.sinkAnswers = List.replicate j .ok ++ .ioerr :: rest := hf
    simp only [List.length_cons] at hle
    by_cases h8 : s.writer.n + 1 = 8
    · cases j with
      | zero =>
        have hput : putBit b s = .error .sinkIo ((s.setWriter
            ⟨(s.writer.acc <<< 1) ||| (BitVec.ofBool b).setWidth 8, s.writer.n + 1⟩).setAgents
              { s.agents with sinkAnswers := rest }) := by
          unfold putBit
          rw [steps_bind_ok (steps_get s)]
          simp only [setWriter]
          rw [steps_bind_ok (steps_modify _ s), if_pos h8]
          apply steps_bind_error
          simp [sinkPut, hf']
        refine ⟨_, by rw [putBits, steps_bind_error hput], by simp [onlyWrote_iff], rfl, ?_⟩
        simp only [State.setAgents_agents, Nat.add_zero, streamOut, List.append_assoc]
        rw [List.take_append_of_le_length (by rw [bitsOf_length]), List.take_of_length_le (by rw [bitsOf_length])]
      | succ j =>
        have hput : ∃ t, putBit b s = .ok () t ∧ t.writer.n = 0 ∧ OnlyWrote s t ∧ SinkFails t j rest ∧
            t.agents.sink.length = s.agents.sink.length + 1 ∧ streamOut t = streamOut s ++ [b] := by
          have hb := bin_shiftIn hw' s.writer.acc b
          rw [h8] at hb
          have hput : putBit b s = .ok () (((s.setWriter
              ⟨(s.writer.acc <<< 1) ||| (BitVec.ofBool b).setWidth 8, s.writer.n + 1⟩).setAgents
              (s.agents.deliver (List.replicate j .ok ++ .ioerr :: rest)
                ((s.writer.acc <<< 1) ||| (BitVec.ofBool b).setWidth 8))).setWriter ⟨0, 0⟩) := by
            unfold putBit
            rw [steps_bind_ok (steps_get s)]
            simp only [setWriter]
            rw [steps_bind_ok (steps_modify _ s), if_pos h8]
            apply steps_bind_ok (a := ())
            simp [sinkPut, hf', List.replicate_succ]
          refine ⟨_, hput, rfl, by simp [onlyWrote_iff, Agents.deliver], rfl, by simp [Agents.deliver], ?_⟩
          simp only [streamOut, State.setWriter_agents, State.setAgents_agents, State.setWriter_writer, Agents.deliver,
            bitsOf_snoc, pendingBits, bin_zero, binByte, hb, List.append_nil, List.append_assoc]
        obtain ⟨t, h1, h2, h3, h4, h5, h6⟩ := hput
        obtain ⟨u, h7, h9, h10, h11⟩ := ih j (s := t) (by rw [WriterReady]; omega) h4 (by omega)
        refine ⟨u, by rw [putBits, steps_bind_ok h1, h7], h3.trans h9, h10, ?_⟩
        rw [h11, h6, h5, List.append_assoc]
        congr 1
        omega
    · have hput : putBit b s = .ok () (s.setWriter
          ⟨(s.writer.acc <<< 1) ||| (BitVec.ofBool b).setWidth 8, s.writer.n + 1⟩) := by
        unfold putBit
        rw [steps_bind_ok (steps_get s)]
        simp only [setWriter]
        rw [steps_bind_ok (steps_modify _ s), if_neg h8]
        rfl
      obtain ⟨u, h7, h9, h10, h11⟩ := ih j (s := s.setWriter
          ⟨(s.writer.acc <<< 1) ||| (BitVec.ofBool b).setWidth 8, s.writer.n + 1⟩)
        (by simp only [WriterReady, State.setWriter_writer]; omega) hf (by simp only [State.setWriter_writer]; omega)
      refine ⟨u, by rw [putBits, steps_bind_ok hput, h7], OnlyWrote.trans (by simp [onlyWrote_iff]) h9, h10, ?_⟩
      rw [h11]
      simp only [streamOut, State.setWriter_agents, State.setWriter_writer, pendingBits, bin_shiftIn hw',
        List.append_assoc, List.singleton_append]

/-- With no pending bit BW_FLUSH makes no access (R133). -/
theorem bwFlush_idle {s : State} (h : s.writer.n = 0) : bwFlush s = .ok () s := by
  rw [bwFlush, steps_bind_ok (steps_get s), if_neg (by omega)]; rfl

/-! ## Whole bytes -/

theorem binByte_inj {a b : Byte} (h : binByte a = binByte b) : a = b := by
  have h1 := parseByte_bin a []
  rw [h, parseByte_bin b []] at h1
  cases h1; rfl

/-- Bytes whose bits begin with those of other bytes begin with those bytes. -/
theorem bitsOf_split (a : List Byte) : ∀ {x : List Byte} {r : Bits}, bitsOf x = bitsOf a ++ r → ∃ b, x = a ++ b ∧ bitsOf b = r := by
  induction a with
  | nil => intro x r h; exact ⟨x, rfl, h⟩
  | cons c a ih =>
    intro x r h
    rw [bitsOf_cons, List.append_assoc] at h
    cases x with
    | nil => have := congrArg List.length h; simp [bitsOf] at this; omega
    | cons d x =>
      rw [bitsOf_cons] at h
      obtain ⟨h1, h2⟩ := List.append_inj h (by simp)
      obtain ⟨b, rfl, h3⟩ := ih h2
      exact ⟨b, by rw [binByte_inj h1]; rfl, h3⟩

/-- What the sink took since, where both ends are at a byte boundary. -/
theorem sink_of_stream {s t : State} {r : Bits} (h : streamOut t = streamOut s ++ r) (hs : s.writer.n = 0)
    (ht : t.writer.n = 0) : ∃ bytes, t.agents.sink = s.agents.sink ++ bytes ∧ bitsOf bytes = r := by
  simp only [streamOut, pendingBits, hs, ht, bin_zero, List.append_nil] at h
  exact bitsOf_split _ h

end Sys2Proof.Machine
end

