-- ==== Sys2Proof/Laws/Decoder.lean ====
section
/-! SUPPORT. What the huffman_decoder's steps do: a walk reads the path to a leaf (44_huffman_decoder.md R224), and
HD_READ_TABLE loads the records of the table (R220). -/

namespace Sys2Proof.Machine

/-- The walk of a tree along a bit string. -/
def walkBits : CodeTree → EStateM Reject Bits Byte
  | .leaf v => pure v
  | .internal l r => do
    let b ← nextBit
    if b then walkBits r else walkBits l

theorem walkTree_tracks (t : CodeTree) : Tracks (walkBits t) (walkTree t) := by
  induction t with
  | leaf v => exact Tracks.pure v
  | internal l r hl hr => exact getBit_tracks.bind fun b => Tracks.ite hr hl

theorem walkBits_follow {t : CodeTree} {c rest : Bits} {v : Byte} (h : t.follow c = some v) :
    walkBits t (c ++ rest) = .ok v rest := by
  induction t generalizing c with
  | leaf u =>
    cases c with
    | nil => cases h; rfl
    | cons b bs => cases h
  | internal l r hl hr =>
    cases c with
    | nil => cases h
    | cons b bs =>
      rw [walkBits, List.cons_append, steps_bind_ok (nextBit_cons b _)]
      cases b with
      | true => exact hr h
      | false => exact hl h

/-- A walk reads the path to a leaf and no further. -/
theorem walkTree_took {t : CodeTree} {c rest : Bits} {v : Byte} (h : t.follow c = some v) {s : State}
    (hs : streamIn s = c ++ rest) : ∃ u, walkTree t s = .ok v u ∧ streamIn u = rest ∧ Took s u :=
  (walkTree_tracks t).ok (by rw [hs]; exact walkBits_follow h)

theorem walkBits_inv {t : CodeTree} {bs rest : Bits} {v : Byte} (h : walkBits t bs = .ok v rest) :
    ∃ c, t.follow c = some v ∧ bs = c ++ rest := by
  induction t generalizing bs with
  | leaf u => cases h; exact ⟨[], rfl, rfl⟩
  | internal l r hl hr =>
    obtain ⟨b, bs', h1, h2⟩ := steps_bind_inv h
    cases bs with
    | nil => cases h1
    | cons b' tl =>
      cases h1
      cases b with
      | true =>
        obtain ⟨c, hc, rfl⟩ := hr h2
        exact ⟨true :: c, hc, rfl⟩
      | false =>
        obtain ⟨c, hc, rfl⟩ := hl h2
        exact ⟨false :: c, hc, rfl⟩

theorem hdRead_eq {s : State} {k : Byte} {t : CodeTree} (hk : classOk k) (ht : tableGet s.decoder.dtree k.toNat = some t) :
    hdRead k s = walkTree t s := by
  rw [hdRead, steps_bind_ok (steps_get s), if_neg hk, ht]

/-- HD_READ along the code of a value (R224). -/
theorem hdRead_took {s : State} {k v : Byte} {t : CodeTree} {c rest : Bits} (hk : classOk k)
    (ht : tableGet s.decoder.dtree k.toNat = some t) (h : t.follow c = some v) (hs : streamIn s = c ++ rest) :
    ∃ u, hdRead k s = .ok v u ∧ streamIn u = rest ∧ Took s u := by
  rw [hdRead_eq hk ht]
  exact walkTree_took h hs

/-- HD_READ completes only along the path to a leaf of the class's tree. -/
theorem hdRead_inv {s u : State} {k v : Byte} (h : hdRead k s = .ok v u) :
    classOk k ∧ ∃ t c, tableGet s.decoder.dtree k.toNat = some t ∧ t.follow c = some v ∧ streamIn s = c ++ streamIn u ∧
      Took s u := by
  rw [hdRead, steps_bind_ok (steps_get s)] at h
  by_cases hk : k = sentinelId
  · rw [if_pos hk] at h; cases h
  · rw [if_neg hk] at h
    cases ht : tableGet s.decoder.dtree k.toNat with
    | none => rw [ht] at h; cases h
    | some t =>
      rw [ht] at h
      obtain ⟨h1, h2⟩ := (walkTree_tracks t).inv h
      obtain ⟨c, hc, hb⟩ := walkBits_inv h1
      exact ⟨hk, t, c, rfl, hc, hb, h2⟩

/-! ## The codebook table -/

/-- The bits of a table's records. -/
def recordStream (records : List (Byte × CodeTree)) : Bits := records.flatMap fun x => binByte x.1 ++ binTree x.2

/-- DTREE after records are loaded in order. -/
def loadAll (records : List (Byte × CodeTree)) (d : Table CodeTree) : Table CodeTree :=
  records.foldl (fun d x => tableSet d x.1.toNat x.2) d

theorem recordStream_length (records : List (Byte × CodeTree)) : 8 * records.length ≤ (recordStream records).length := by
  induction records with
  | nil => simp
  | cons x xs ih => simp [recordStream] at *; omega

/-- The trees after records are loaded: a later record of a class replaces an earlier one (30_encoding.md R97). -/
theorem loadAll_get (records : List (Byte × CodeTree)) (d : Table CodeTree) (k : Byte) :
    tableGet (loadAll records d) k.toNat =
      ((records.reverse.find? fun x => x.1 = k).map (·.2)).or (tableGet d k.toNat) := by
  induction records generalizing d with
  | nil => rfl
  | cons x xs ih =>
    rw [loadAll, List.foldl_cons, ← loadAll, ih, List.reverse_cons, List.find?_append]
    cases xs.reverse.find? fun x => x.1 = k with
    | some y => simp
    | none =>
      by_cases hx : x.1 = k
      · subst hx; simp [List.find?]
      · have : k.toNat ≠ x.1.toNat := fun h => hx (BitVec.eq_of_toNat_eq h.symm)
        simp [List.find?, hx, tableGet_set_other _ _ this]

theorem sourceBytes_length (l : List SourceAnswer) : (sourceBytes l).length ≤ l.length := by
  induction l with
  | nil => simp [sourceBytes]
  | cons a l ih => cases a <;> simp [sourceBytes]; exact ih

theorem streamIn_length_le (s : State) : (streamIn s).length ≤ bitsAtHand s := by
  have := sourceBytes_length s.agents.source
  simp only [streamIn, bitsAtHand, List.length_append, bin_length, bitsOf_length]
  omega

theorem Took.setDecoder {s t : State} (h : Took s t) (d : HuffDecoder) : Took (s.setDecoder d) (t.setDecoder d) := by
  refine ⟨?_, h.bytes, h.pending⟩
  have := onlyRead_iff.mp h.frame
  rw [onlyRead_iff]
  simp only [State.setDecoder]
  tauto

@[simp] theorem streamIn_setDecoder (s : State) (d : HuffDecoder) : streamIn (s.setDecoder d) = streamIn s := rfl

theorem readRecords_ok : ∀ (records : List (Byte × CodeTree)) (fuel : Nat) {s : State} {rest : Bits},
    records.length < fuel → (∀ x ∈ records, classOk x.1 ∧ treeOk x.2) →
    streamIn s = recordStream records ++ (binByte sentinelId ++ rest) →
    ∃ t, readRecords fuel s = .ok () t ∧ streamIn t = rest ∧
      Took (s.setDecoder ⟨loadAll records s.decoder.dtree, true⟩) t := by
  intro records
  induction records with
  | nil =>
    intro fuel s rest hf _ hs
    obtain ⟨n, rfl⟩ : ∃ n, fuel = n + 1 := ⟨fuel - 1, by simp at hf; omega⟩
    obtain ⟨t, h1, h2, h3⟩ := parseItem_tracks.ok (s := s) (a := none) (bs := rest)
      (by rw [hs]; exact parseItem_sentinel _ rest)
    refine ⟨t.setDecoder ⟨s.decoder.dtree, true⟩, ?_, h2, h3.setDecoder _⟩
    rw [readRecords, steps_bind_ok h1]
    have : t.decoder = s.decoder := (onlyRead_iff.mp h3.frame).2.2.2.2.2.1
    simp only [steps_modify, endTable, this]
  | cons x xs ih =>
    intro fuel s rest hf hok hs
    obtain ⟨n, rfl⟩ : ∃ n, fuel = n + 1 := ⟨fuel - 1, by simp at hf; omega⟩
    have hx := hok x (by simp)
    obtain ⟨t, h1, h2, h3⟩ := parseItem_tracks.ok (s := s) (a := some (x.1, x.2))
      (bs := recordStream xs ++ (binByte sentinelId ++ rest))
      (by rw [hs]
          simp only [recordStream, List.flatMap_cons, List.append_assoc]
          exact parseItem_record _ hx.1 hx.2 _)
    have hd : t.decoder = s.decoder := (onlyRead_iff.mp h3.frame).2.2.2.2.2.1
    obtain ⟨u, h4, h5, h6⟩ := ih n (s := loadRecord x.1 x.2 t) (rest := rest) (by simp at hf; omega)
      (fun y hy => hok y (by simp [hy])) h2
    refine ⟨u, ?_, h5, ?_⟩
    · rw [readRecords, steps_bind_ok h1]
      simp only
      rw [steps_bind_ok (steps_modify _ _), h4]
    · have e : (loadRecord x.1 x.2 t).setDecoder ⟨loadAll xs (loadRecord x.1 x.2 t).decoder.dtree, true⟩ =
        t.setDecoder ⟨loadAll (x :: xs) s.decoder.dtree, true⟩ := by
        simp [loadRecord, hd, loadAll, State.setDecoder]
      rw [e] at h6
      exact (h3.setDecoder _).trans h6

/-- HD_READ_TABLE loads a table's records (R220). -/
theorem readTable_ok {records : List (Byte × CodeTree)} {s : State} {rest : Bits}
    (hok : ∀ x ∈ records, classOk x.1 ∧ treeOk x.2)
    (hs : streamIn s = recordStream records ++ (binByte sentinelId ++ rest)) :
    ∃ t, readTable s = .ok () t ∧ streamIn t = rest ∧
      Took (s.setDecoder ⟨loadAll records s.decoder.dtree, true⟩) t := by
  rw [readTable, steps_bind_ok (steps_get s)]
  refine readRecords_ok records _ ?_ hok hs
  have h1 := streamIn_length_le s
  have h2 := recordStream_length records
  rw [hs, List.length_append] at h1
  omega

/-! ## A tree that is too large -/

/-- A tree whose nodes do not fit fails at the node that is one too many, whatever follows (R221). -/
theorem parseNode_large {e : Reject} : ∀ (t : CodeTree) (fuel count : Nat) (rest : Bits),
    maxTreeNodes + 1 ≤ fuel + count → count ≤ maxTreeNodes → maxTreeNodes < count + t.size →
    ∃ bs, parseNode nextBit e fuel count (binTree t ++ rest) = .error e bs := by
  intro t
  induction t with
  | leaf v =>
    intro fuel count rest hf hc h
    cases fuel with
    | zero => omega
    | succ n =>
      simp only [CodeTree.size] at h
      exact ⟨_, by rw [parseNode, if_pos (by omega)]; rfl⟩
  | internal l r hl hr =>
    intro fuel count rest hf hc h
    cases fuel with
    | zero => omega
    | succ n =>
      by_cases h1 : count + 1 > maxTreeNodes
      · exact ⟨_, by rw [parseNode, if_pos h1]; rfl⟩
      · rw [parseNode, if_neg h1, binTree, List.cons_append, List.append_assoc, steps_bind_ok (nextBit_cons true _),
          if_pos rfl]
        by_cases h2 : maxTreeNodes < count + 1 + l.size
        · obtain ⟨bs, h3⟩ := hl n (count + 1) (binTree r ++ rest) (by omega) (by omega) h2
          exact ⟨bs, steps_bind_error h3⟩
        · have h3 : parseNode nextBit e n (count + 1) (binTree l ++ (binTree r ++ rest)) =
              .ok (l, count + 1 + l.size) (binTree r ++ rest) := by
            have hl' := l.size_pos
            by_cases hle : l.size ≤ n
            · exact parseNode_bin e l n (count + 1) _ hle (by omega)
            · rw [(parseNode_fuel nextBit e n (maxTreeNodes + 1) (count + 1) (by omega) (by omega)).2]
              exact parseNode_bin e l _ (count + 1) _ (by omega) (by omega)
          simp only [CodeTree.size] at h
          obtain ⟨bs, h4⟩ := hr n (count + 1 + l.size) rest (by omega) (by omega) (by omega)
          exact ⟨bs, by rw [steps_bind_ok h3, steps_bind_error h4]⟩

theorem parseItem_large (e : Reject) {k : Byte} {t : CodeTree} (hk : classOk k) (ht : ¬ treeOk t) (rest : Bits) :
    ∃ bs, parseItem nextBit e (binByte k ++ (binTree t ++ rest)) = .error e bs := by
  obtain ⟨bs, h⟩ := parseNode_large (e := e) t (maxTreeNodes + 1) 0 rest (by omega) (by omega)
    (by unfold treeOk at ht; omega)
  refine ⟨bs, ?_⟩
  rw [parseItem, steps_bind_ok (parseByte_bin k _), if_neg hk]
  exact steps_bind_error (steps_bind_error h)

end Sys2Proof.Machine
end

