-- ==== Sys2Proof/Laws/Mtf.lean ====
section
/-! SUPPORT. The move-to-front cache (41_mtf_cache.md): what a hit, a miss and a fetch do, and the invariants of R161. -/

namespace Sys2Proof.Machine

theorem mtfFind_hit {p : Pixel} {pre : List Pixel} (post : List Pixel) (h : p ∉ pre) :
    mtfFind p (pre ++ p :: post) = some pre.length := by
  induction pre with
  | nil => simp [mtfFind]
  | cons e pre ih =>
    simp only [List.mem_cons, not_or] at h
    simp [mtfFind, Ne.symm h.1, ih h.2]

theorem mtfFind_miss {p : Pixel} {es : List Pixel} (h : p ∉ es) : mtfFind p es = none := by
  induction es with
  | nil => rfl
  | cons e es ih =>
    simp only [List.mem_cons, not_or] at h
    simp [mtfFind, Ne.symm h.1, ih h.2]

/-- A list with a pixel in it, split at its first occurrence. -/
theorem exists_split {p : Pixel} {es : List Pixel} (h : p ∈ es) : ∃ pre post, es = pre ++ p :: post ∧ p ∉ pre := by
  induction es with
  | nil => cases h
  | cons e es ih =>
    by_cases he : p = e
    · exact ⟨[], es, by simp [he], by simp⟩
    · obtain ⟨pre, post, rfl, hn⟩ := ih ((List.mem_cons.mp h).resolve_left he)
      exact ⟨e :: pre, post, rfl, by simp [he, hn]⟩

theorem moveToFront_split (pre post : List Pixel) (p q : Pixel) :
    moveToFront (pre ++ q :: post) pre.length p = p :: (pre ++ post) := by
  simp [moveToFront, List.eraseIdx_append_of_length_le]

theorem insertFront_eq {n : Nat} {es : List Pixel} (hn : 1 ≤ n) (h : es.length ≤ n) (p : Pixel) :
    insertFront n es p = (p :: es).take n := by
  unfold insertFront
  split
  · rw [List.take_of_length_le (by simp; omega)]
  · have : es.length = n := by omega
    subst this
    obtain ⟨m, hm⟩ : ∃ m, es.length = m + 1 := ⟨es.length - 1, by omega⟩
    rw [List.dropLast_eq_take, hm]
    simp

/-- MTF_CHECK_AND_INSERT of a held pixel (R160). -/
theorem mtfCheckAndInsert_hit {s : State} {p : Pixel} {pre post : List Pixel} (h : s.mtf = pre ++ p :: post)
    (hp : p ∉ pre) : mtfCheckAndInsert p s = .ok (some pre.length) (s.setMtf (p :: (pre ++ post))) := by
  rw [mtfCheckAndInsert, steps_bind_ok (steps_get s), h, mtfFind_hit post hp]
  simp only
  rw [steps_bind_ok (steps_modify _ s), h, moveToFront_split]
  rfl

/-- MTF_CHECK_AND_INSERT of a pixel that is not held (R160). -/
theorem mtfCheckAndInsert_miss {s : State} {p : Pixel} (h : p ∉ s.mtf) (hl : s.mtf.length ≤ s.config.cacheCapacity) :
    mtfCheckAndInsert p s = .ok none (s.setMtf ((p :: s.mtf).take s.config.cacheCapacity)) := by
  rw [mtfCheckAndInsert, steps_bind_ok (steps_get s), mtfFind_miss h]
  simp only
  rw [steps_bind_ok (steps_modify _ s), insertFront_eq s.config.capacity_pos hl]
  rfl

/-- MTF_CHECK_AND_INSERT always completes, and its effect is `cacheTouch` (R160). -/
theorem mtfCheckAndInsert_touch {s : State} (p : Pixel) (hl : s.mtf.length ≤ s.config.cacheCapacity) :
    ∃ r, mtfCheckAndInsert p s = .ok r (s.setMtf (cacheTouch s.config.cacheCapacity s.mtf p)) ∧
      (r = none ↔ p ∉ s.mtf) := by
  by_cases h : p ∈ s.mtf
  · obtain ⟨pre, post, he, hn⟩ := exists_split h
    refine ⟨some pre.length, ?_, ?_⟩
    · rw [mtfCheckAndInsert_hit he hn]
      rw [cacheTouch, if_pos h, he, List.erase_append_right _ hn]
      simp
    · simp [h]
  · exact ⟨_, by rw [mtfCheckAndInsert_miss h hl, cacheTouch, if_neg h], by simp [h]⟩

/-- MTF_FETCH of an occupied position (R162). -/
theorem mtfFetch_ok {s : State} {p : Pixel} {pre post : List Pixel} (h : s.mtf = pre ++ p :: post) :
    mtfFetch pre.length s = .ok p (s.setMtf (p :: (pre ++ post))) := by
  rw [mtfFetch, steps_bind_ok (steps_get s), h]
  simp only [List.getElem?_append_right (le_refl _), Nat.sub_self, List.getElem?_cons_zero]
  rw [steps_bind_ok (steps_modify _ s), h, moveToFront_split]
  rfl

/-- MTF_FETCH of a position that is not occupied (R162). -/
theorem mtfFetch_range {s : State} {j : Nat} (h : s.mtf.length ≤ j) : mtfFetch j s = .error .fetchRange s := by
  rw [mtfFetch, steps_bind_ok (steps_get s), List.getElem?_eq_none h]
  rfl

/-- A position below MTF_LEN splits the entries. -/
theorem split_at {es : List Pixel} {j : Nat} (h : j < es.length) :
    ∃ p pre post, es = pre ++ p :: post ∧ pre.length = j :=
  ⟨es[j], es.take j, es.drop (j + 1), by simp, by simp; omega⟩

/-! ## Invariants (R161) -/

theorem cacheTouch_nodup {n : Nat} {es : List Pixel} (h : es.Nodup) (p : Pixel) : (cacheTouch n es p).Nodup := by
  unfold cacheTouch
  split
  · exact List.nodup_cons.mpr ⟨fun hm => (h.mem_erase_iff.mp hm).1 rfl, h.erase p⟩
  · exact (List.nodup_cons.mpr ⟨‹_›, h⟩).sublist (List.take_sublist _ _)

theorem cacheTouch_length {n : Nat} {es : List Pixel} (h : es.length ≤ n) (p : Pixel) : (cacheTouch n es p).length ≤ n := by
  unfold cacheTouch
  split
  · rename_i hm
    have := List.length_erase_of_mem hm
    have := List.length_pos_of_mem hm
    simp only [List.length_cons]
    omega
  · exact List.length_take_le _ _

theorem cacheTouch_head {n : Nat} (hn : 1 ≤ n) (es : List Pixel) (p : Pixel) : (cacheTouch n es p).head? = some p := by
  unfold cacheTouch
  split
  · rfl
  · cases n with
    | zero => omega
    | succ n => rfl

/-- An entry moved to the front: the same entries (R162). -/
theorem moved_perm (pre post : List Pixel) (p : Pixel) : (p :: (pre ++ post)).Perm (pre ++ p :: post) :=
  List.perm_middle.symm

theorem cacheTouch_split {n : Nat} {pre post : List Pixel} {p : Pixel} (hp : p ∉ pre) :
    cacheTouch n (pre ++ p :: post) p = p :: (pre ++ post) := by
  rw [cacheTouch, if_pos (by simp), List.erase_append_right _ hp]
  simp

end Sys2Proof.Machine
end

