-- ==== Sys2Proof/Laws/TreeBuilder.lean ====
section
/-! SUPPORT. The tree builder (42_huffman_tree_builder.md): BuildTree does the merges of R181, and the codes derived are the paths
of the tree (R185). -/

namespace Sys2Proof.Machine

/-! ## The counts of one class -/

theorem tableRow_mem {α : Type} {t : Table α} (hw : tableWf t) {k v : Byte} {a : α} :
    (v, a) ∈ tableRow t k ↔ tableGet t (entryKey k v) = some a := by
  constructor
  · intro h
    obtain ⟨⟨j, b⟩, h1, h2⟩ := List.mem_map.mp h
    obtain ⟨h3, h4⟩ := List.mem_filter.mp h1
    simp only [decide_eq_true_eq] at h4
    simp only [Prod.mk.injEq] at h2
    obtain ⟨rfl, rfl⟩ := h2
    have hj : entryKey k (BitVec.ofNat 8 j) = j := by
      simp only [entryKey, BitVec.toNat_ofNat]
      omega
    rw [hj]
    exact tableGet_of_mem hw h3
  · intro h
    refine List.mem_map.mpr ⟨(entryKey k v, a), List.mem_filter.mpr ⟨mem_of_tableGet h, by simp⟩, ?_⟩
    have hv := v.isLt
    simp only [Prod.mk.injEq, and_true]
    apply BitVec.eq_of_toNat_eq
    simp only [BitVec.toNat_ofNat, entryKey]
    omega

/-- The order of values. -/
def byteBefore (v w : Byte) : Prop := v.toNat < w.toNat

theorem byteBefore.ne {v w : Byte} (h : byteBefore v w) : v ≠ w := fun he => lt_irrefl _ (he ▸ h : byteBefore w w)

/-- The entries of a class are in ascending value order. -/
theorem tableRow_sorted {α : Type} {t : Table α} (hw : tableWf t) (k : Byte) :
    ((tableRow t k).map (·.1)).Pairwise byteBefore := by
  simp only [tableRow, List.map_map, List.pairwise_map]
  have h1 := hw.filter fun e => decide (e.1 / 256 = k.toNat)
  refine h1.imp_of_mem ?_
  intro x y hx hy hxy
  have hx' := (List.mem_filter.mp hx).2
  have hy' := (List.mem_filter.mp hy).2
  simp only [decide_eq_true_eq] at hx' hy'
  simp only [Function.comp_apply, byteBefore, BitVec.toNat_ofNat]
  omega

theorem countedValues_sorted (f : Byte → Word) : (countedValues f).Pairwise byteBefore := by
  refine List.Pairwise.filter _ ?_
  rw [List.pairwise_map]
  refine List.pairwise_lt_range.imp_of_mem ?_
  intro x y hx hy hxy
  simp only [List.mem_range] at hx hy
  simp only [byteBefore, BitVec.toNat_ofNat]
  omega

theorem mem_countedValues {f : Byte → Word} {v : Byte} : v ∈ countedValues f ↔ f v ≠ 0 := by
  simp only [countedValues, List.mem_filter, List.mem_map, List.mem_range, decide_eq_true_eq, and_iff_right_iff_imp]
  intro _
  exact ⟨v.toNat, v.isLt, by simp⟩

theorem countedValues_nodup (f : Byte → Word) : (countedValues f).Nodup :=
  (countedValues_sorted f).imp fun h => byteBefore.ne h

theorem countedValues_length (f : Byte → Word) : (countedValues f).length ≤ 256 :=
  le_trans (List.length_filter_le _ _) (by simp)

/-- Two strictly ascending lists with the same elements are the same. -/
theorem sorted_ext {l m : List Byte} (hl : l.Pairwise byteBefore) (hm : m.Pairwise byteBefore) (h : ∀ v, v ∈ l ↔ v ∈ m) :
    l = m := by
  have hp : l.Perm m := (List.perm_ext_iff_of_nodup (hl.imp fun h => byteBefore.ne h) (hm.imp fun h => byteBefore.ne h)).mpr h
  exact hp.eq_of_pairwise (fun a b _ _ h1 h2 => absurd h1 (not_lt_of_gt (show byteBefore b a from h2))) hl hm

/-- The entries with a nonzero count are the counted values with their counts. -/
theorem tableRow_counted {t : Table Word} (hw : tableWf t) (k : Byte) :
    (tableRow t k).filter (fun x => x.2 ≠ 0) = (countedValues (freqGet t k)).map fun v => (v, freqGet t k v) := by
  have hval : ∀ x ∈ tableRow t k, x.2 = freqGet t k x.1 := by
    intro x hx
    have := (tableRow_mem hw).mp (show (x.1, x.2) ∈ tableRow t k from hx)
    simp [freqGet, this]
  have hfst : ((tableRow t k).filter (fun x => x.2 ≠ 0)).map (·.1) = countedValues (freqGet t k) := by
    apply sorted_ext
    · exact (tableRow_sorted hw k).sublist (List.filter_sublist.map _)
    · exact countedValues_sorted _
    · intro v
      rw [mem_countedValues]
      constructor
      · intro h
        obtain ⟨x, hx, rfl⟩ := List.mem_map.mp h
        obtain ⟨h1, h2⟩ := List.mem_filter.mp hx
        rw [← hval x h1]
        simpa using h2
      · intro h
        cases hg : tableGet t (entryKey k v) with
        | none => simp [freqGet, hg] at h
        | some a =>
          refine List.mem_map.mpr ⟨(v, a), List.mem_filter.mpr ⟨(tableRow_mem hw).mpr hg, ?_⟩, rfl⟩
          simpa [freqGet, hg] using h
  rw [← hfst, List.map_map]
  refine (List.map_id _).symm.trans (List.map_congr_left ?_)
  intro x hx
  have := hval x (List.mem_filter.mp hx).1
  exact Prod.ext rfl this

theorem huffLeaves_eq (s : Nat) (row : List (Byte × Word)) :
    huffLeaves s row = ((row.filter (fun x => x.2 ≠ 0)).zipIdx s).map fun x => ⟨x.1.2, x.2, .leaf x.1.1⟩ := by
  induction row generalizing s with
  | nil => rfl
  | cons x row ih =>
    obtain ⟨v, f⟩ := x
    by_cases h : f = 0
    · rw [huffLeaves, if_pos h, List.filter_cons_of_neg (by simp [h]), ih]
    · rw [huffLeaves, if_neg h, List.filter_cons_of_pos (by simpa using h), ih, List.zipIdx_cons, List.map_cons]

/-- The first list of BuildTree for the counts held in a table (R181). -/
theorem huffLeaves_firstList {t : Table Word} (hw : tableWf t) (k : Byte) :
    huffLeaves 0 (tableRow t k) = firstList (freqGet t k) := by
  rw [huffLeaves_eq, tableRow_counted hw, List.zipIdx_map, List.map_map, firstList]
  rfl

/-! ## The merges -/

theorem removeLeast_perm (x : HuffNode) (l : List HuffNode) :
    (x :: l).Perm ((removeLeast x l).1 :: (removeLeast x l).2) := by
  induction l generalizing x with
  | nil => exact List.Perm.refl _
  | cons y l ih =>
    simp only [removeLeast]
    split
    · exact ((ih y).cons x).trans (List.Perm.swap _ _ _)
    · exact ((List.Perm.swap _ _ _).trans ((ih x).cons y)).trans (List.Perm.swap _ _ _)

theorem HuffNode.before_iff {x y : HuffNode} :
    x.before y = true ↔ x.weight.toNat < y.weight.toNat ∨ (x.weight.toNat = y.weight.toNat ∧ x.seq < y.seq) := by
  simp only [HuffNode.before, Bool.or_eq_true, Bool.and_eq_true, decide_eq_true_eq, BitVec.lt_def, ← BitVec.toNat_inj]

theorem removeLeast_least (x : HuffNode) (l : List HuffNode) :
    ∀ y ∈ (removeLeast x l).2, ¬ y.before (removeLeast x l).1 = true := by
  induction l generalizing x with
  | nil => intro y hy; cases hy
  | cons z l ih =>
    simp only [removeLeast]
    have key : ∀ w : HuffNode, ¬ w.before (removeLeast w l).1 = true := by
      intro w hw
      have hp := (removeLeast_perm w l).mem_iff.mp (show w ∈ w :: l by simp)
      rcases List.mem_cons.mp hp with h | h
      · rw [← h, HuffNode.before_iff] at hw; omega
      · exact ih w w h hw
    split
    · rename_i hzx
      intro y hy
      simp only at hy ⊢
      rcases List.mem_cons.mp hy with rfl | hy
      · intro hc
        have := key z
        rw [HuffNode.before_iff] at *
        omega
      · exact ih z y hy
    · rename_i hzx
      intro y hy
      simp only at hy ⊢
      rcases List.mem_cons.mp hy with rfl | hy
      · intro hc
        have := key x
        rw [HuffNode.before_iff] at *
        omega
      · exact ih x y hy

/-- Distinct sequence numbers order any two elements. -/
theorem HuffNode.before_of_not {x y : HuffNode} (h : ¬ y.before x = true) (hs : x.seq ≠ y.seq) : x.before y = true := by
  rw [HuffNode.before_iff] at *
  omega

/-- What BuildTree's loop can do (R181): from a list of distinct sequence numbers it does the merges. -/
theorem huffMerge_merges : ∀ (fuel s : Nat) (l : List HuffNode) (t : CodeTree), (l.map HuffNode.seq).Nodup →
    (∀ x ∈ l, x.seq < s) → huffMerge fuel s l = some t → Merges s l t := by
  intro fuel
  induction fuel with
  | zero =>
    intro s l t _ _ h
    match l with
    | [] => cases h
    | [x] => cases h; exact Merges.root s x
    | _ :: _ :: _ => cases h
  | succ fuel ih =>
    intro s l t hn hs h
    match l, h with
    | [], h => cases h
    | [x], h => cases h; exact Merges.root s x
    | x :: y :: rest, h =>
      have hp1 := removeLeast_perm x (y :: rest)
      have hl1 := removeLeast_least x (y :: rest)
      generalize ha : removeLeast x (y :: rest) = a at hp1 hl1
      obtain ⟨a1, a2⟩ := a
      cases a2 with
      | nil => have := hp1.length_eq; simp at this
      | cons z zs =>
        simp only [huffMerge, ha] at h
        have hp2 := removeLeast_perm z zs
        have hl2 := removeLeast_least z zs
        generalize hb : removeLeast z zs = b at hp2 hl2 h
        obtain ⟨b1, b2⟩ := b
        have hp : (x :: y :: rest).Perm (a1 :: b1 :: b2) := hp1.trans (hp2.cons a1)
        have hn' : ((a1 :: b1 :: b2).map HuffNode.seq).Nodup := (hp.map _).nodup_iff.mp hn
        have hs' : ∀ w ∈ a1 :: b1 :: b2, w.seq < s := fun w hw => hs w (hp.mem_iff.mpr hw)
        simp only [List.map_cons, List.nodup_cons, List.mem_cons, List.mem_map, not_or, not_exists, not_and] at hn'
        refine Merges.merge s _ b2 a1 b1 t hp ?_ ?_ (ih (s + 1) _ t ?_ ?_ h)
        · intro w hw
          refine HuffNode.before_of_not (hl1 w (hp2.mem_iff.mpr hw)) ?_
          rcases List.mem_cons.mp hw with rfl | hw
          · exact hn'.1.1
          · exact fun he => hn'.1.2 w hw he.symm
        · intro w hw
          exact HuffNode.before_of_not (hl2 w hw) (fun he => hn'.2.1 w hw he.symm)
        · simp only [List.map_append, List.map_cons, List.map_nil]
          refine List.nodup_append.mpr ⟨hn'.2.2, by simp, ?_⟩
          intro i hi j hj
          simp only [List.mem_singleton] at hj
          obtain ⟨w, hw, rfl⟩ := List.mem_map.mp hi
          have := hs' w (by simp [hw])
          omega
        · intro w hw
          rcases List.mem_append.mp hw with hw | hw
          · have := hs' w (by simp [hw]); omega
          · simp only [List.mem_singleton] at hw
            subst hw
            exact Nat.lt_succ_self s

/-- The loop ends with a tree: a list of `m` elements takes `m - 1` merges. -/
theorem huffMerge_some : ∀ (fuel s : Nat) (l : List HuffNode), l ≠ [] → l.length ≤ fuel + 1 →
    ∃ t, huffMerge fuel s l = some t := by
  intro fuel
  induction fuel with
  | zero =>
    intro s l hl hf
    match l with
    | [] => exact absurd rfl hl
    | [x] => exact ⟨_, rfl⟩
    | _ :: _ :: _ => simp at hf
  | succ fuel ih =>
    intro s l hl hf
    match l with
    | [] => exact absurd rfl hl
    | [x] => exact ⟨_, rfl⟩
    | x :: y :: rest =>
      have hp1 := removeLeast_perm x (y :: rest)
      generalize ha : removeLeast x (y :: rest) = a at hp1
      obtain ⟨a1, a2⟩ := a
      cases a2 with
      | nil => exact ⟨a1.node, by simp only [huffMerge, ha]⟩
      | cons z zs =>
        simp only [huffMerge, ha]
        apply ih
        · simp
        · have h1 := hp1.length_eq
          have h2 := (removeLeast_perm z zs).length_eq
          simp only [List.length_cons, List.length_append, List.length_nil] at *
          omega

theorem firstList_seq (f : Byte → Word) : ((firstList f).map HuffNode.seq).Nodup ∧
    ∀ x ∈ firstList f, x.seq < (firstList f).length := by
  constructor
  · have : (firstList f).map HuffNode.seq = List.range' 0 (countedValues f).length := by
      simp [firstList, Function.comp_def]
    rw [this]
    exact List.nodup_range'
  · intro x hx
    obtain ⟨⟨v, i⟩, h1, rfl⟩ := List.mem_map.mp hx
    have := List.snd_lt_of_mem_zipIdx h1
    simpa [firstList] using this

theorem firstList_ne_nil {f : Byte → Word} {v : Byte} (h : f v ≠ 0) : firstList f ≠ [] := by
  have := mem_countedValues.mpr h
  intro hc
  simp only [firstList, List.map_eq_nil_iff, List.zipIdx_eq_nil_iff] at hc
  rw [hc] at this
  cases this

/-- What BuildTree can do (R181): it answers the tree of the merges, and absent where every count is 0. -/
theorem buildTree_row {t : Table Word} (hw : tableWf t) (k : Byte) :
    (∀ x, buildTree (tableRow t k) = some x → IsBuiltTree (freqGet t k) x) ∧
      (buildTree (tableRow t k) = none ↔ ∀ v, freqGet t k v = 0) := by
  have he : buildTree (tableRow t k) = huffMerge (firstList (freqGet t k)).length (firstList (freqGet t k)).length
      (firstList (freqGet t k)) := by
    rw [buildTree, huffLeaves_firstList hw]
  rw [he]
  constructor
  · intro x hx
    obtain ⟨h1, h2⟩ := firstList_seq (freqGet t k)
    exact huffMerge_merges _ _ _ x h1 h2 hx
  · constructor
    · intro h v
      by_contra hv
      obtain ⟨x, hx⟩ := huffMerge_some (firstList (freqGet t k)).length (firstList (freqGet t k)).length _
        (firstList_ne_nil hv) (by omega)
      rw [h] at hx
      cases hx
    · intro h
      have : countedValues (freqGet t k) = [] := by
        rw [List.eq_nil_iff_forall_not_mem]
        intro v hv
        exact mem_countedValues.mp hv (h v)
      rw [firstList, this]
      rfl

/-- The merges keep the values: the leaves of the tree are those of the list (R183). -/
theorem Merges.values {s : Nat} {l : List HuffNode} {t : CodeTree} (h : Merges s l t) :
    t.values.Perm (l.flatMap fun x => x.node.values) := by
  induction h with
  | root s x => simp
  | merge s l rest a b t hp _ _ _ ih =>
    refine ih.trans (List.Perm.trans ?_ (hp.flatMap_right _).symm)
    simp only [List.flatMap_append, List.flatMap_cons, List.flatMap_nil, List.append_nil, CodeTree.values]
    exact List.perm_append_comm.trans (by rw [List.append_assoc])

theorem firstList_values (f : Byte → Word) : ((firstList f).flatMap fun x => x.node.values) = countedValues f := by
  rw [firstList, List.flatMap_map]
  simp only [CodeTree.values]
  generalize countedValues f = l
  generalize 0 = n
  induction l generalizing n with
  | nil => rfl
  | cons v l ih => simp [List.zipIdx_cons, ih]

/-- A tree that BuildTree answers has each counted value at exactly one leaf (R183). -/
theorem IsBuiltTree.values {f : Byte → Word} {t : CodeTree} (h : IsBuiltTree f t) :
    t.values.Perm (countedValues f) := by
  have := Merges.values h
  rwa [firstList_values] at this

theorem IsBuiltTree.nodup {f : Byte → Word} {t : CodeTree} (h : IsBuiltTree f t) : t.values.Nodup :=
  h.values.nodup_iff.mpr (countedValues_nodup f)

theorem IsBuiltTree.mem {f : Byte → Word} {t : CodeTree} (h : IsBuiltTree f t) (v : Byte) : v ∈ t.values ↔ f v ≠ 0 := by
  rw [h.values.mem_iff, mem_countedValues]

theorem IsBuiltTree.ok {f : Byte → Word} {t : CodeTree} (h : IsBuiltTree f t) : treeOk t := by
  have h1 := t.size_eq
  have h2 := t.values_length
  have h3 := h.values.length_eq
  have h4 := countedValues_length f
  simp only [treeOk, maxTreeNodes]
  omega

/-- A class has a counted token when its total is not 0 (R182; 43_huffman_encoder.md R204). -/
theorem classTotal_zero {t : Table Word} (hw : tableWf t) (k : Byte) : classTotal t k = 0 ↔ ∀ v, freqGet t k v = 0 := by
  constructor
  · intro h v
    have := freqGet_le_total t k v
    exact BitVec.eq_of_toNat_eq (by simp; omega)
  · intro h
    rw [classTotal, List.sum_eq_zero_iff]
    intro x hx
    obtain ⟨⟨v, a⟩, h1, rfl⟩ := List.mem_map.mp hx
    have h2 := (tableRow_mem hw).mp h1
    have h3 := h v
    simp only [freqGet, h2, Option.getD_some] at h3
    simp [h3]

/-! ## The codes -/

theorem entryKey_ne {k v k' v' : Byte} (h : k' ≠ k ∨ v' ≠ v) : entryKey k' v' ≠ entryKey k v := by
  intro he
  obtain ⟨h1, h2⟩ := entryKey_inj he
  rcases h with h | h
  · exact h h1
  · exact h h2

theorem codeGet_set (t : Table Bits) (k v k' v' : Byte) (c : Bits) :
    codeGet (tableSet t (entryKey k v) c) k' v' = if k' = k ∧ v' = v then some c else codeGet t k' v' := by
  by_cases h : k' = k ∧ v' = v
  · obtain ⟨rfl, rfl⟩ := h
    simp [codeGet]
  · rw [if_neg h, codeGet, tableGet_set_other]
    · rfl
    · exact entryKey_ne (by tauto)

theorem codeGet_dropClass (t : Table Bits) (k k' v : Byte) :
    codeGet (tableDropClass t k) k' v = if k' = k then none else codeGet t k' v := by
  rw [codeGet, tableGet_dropClass, entryKey_div]
  by_cases h : k' = k
  · simp [h]
  · have : ¬ k'.toNat = k.toNat := fun he => h (BitVec.eq_of_toNat_eq he)
    simp [h, this, codeGet]

/-- What `Derive` does to the codes of other classes and of values without a leaf: nothing (R185). -/
theorem deriveCodes_other (k : Byte) (t : CodeTree) : ∀ (pre : Bits) (c : Table Bits) (k' v : Byte),
    k' ≠ k ∨ v ∉ t.values → codeGet (deriveCodes k t pre c) k' v = codeGet c k' v := by
  induction t with
  | leaf u =>
    intro pre c k' v h
    rw [deriveCodes, codeGet_set, if_neg]
    simp only [CodeTree.values, List.mem_singleton] at h
    tauto
  | internal l r ihl ihr =>
    intro pre c k' v h
    simp only [CodeTree.values, List.mem_append, not_or] at h
    rw [deriveCodes, ihr _ _ _ _ (by tauto), ihl _ _ _ _ (by tauto)]

/-- What `Derive` gives each value of a tree of distinct values: the path to its leaf (R185). -/
theorem deriveCodes_follow (k : Byte) (t : CodeTree) : ∀ (pre : Bits) (c : Table Bits), t.values.Nodup →
    ∀ (bits : Bits) (v : Byte), t.follow bits = some v → codeGet (deriveCodes k t pre c) k v = some (pre ++ bits) := by
  induction t with
  | leaf u =>
    intro pre c _ bits v h
    cases bits with
    | nil =>
      simp only [CodeTree.follow, Option.some.injEq] at h
      subst h
      simp [deriveCodes, codeGet_set]
    | cons b bits => cases h
  | internal l r ihl ihr =>
    intro pre c hn bits v h
    simp only [CodeTree.values] at hn
    obtain ⟨h1, h2, h3⟩ := List.nodup_append.mp hn
    cases bits with
    | nil => cases h
    | cons b bits =>
      rw [deriveCodes]
      cases b <;> simp [CodeTree.follow] at h
      · have hv : v ∉ r.values := fun hm => h3 v (CodeTree.mem_values_of_follow h) v hm rfl
        rw [deriveCodes_other k r _ _ k v (.inr hv), ihl _ _ h1 bits v h, List.append_assoc]
        rfl
      · rw [ihr _ _ h2 bits v h, List.append_assoc]
        rfl

/-- What HTB_DERIVE leaves in CODE (R186). -/
theorem derivedCode_spec {b : TreeBuilder} {k : Byte}
    (hn : ∀ t, tableGet b.etree k.toNat = some t → t.values.Nodup) :
    (∀ j v, j ≠ k → codeGet (derivedCode b k) j v = codeGet b.code j v) ∧
      ∀ v bits, codeGet (derivedCode b k) k v = some bits ↔
        ∃ t, tableGet b.etree k.toNat = some t ∧ t.follow bits = some v := by
  unfold derivedCode
  cases hg : tableGet b.etree k.toNat with
  | none =>
    refine ⟨fun j v hj => by rw [codeGet_dropClass, if_neg hj], fun v bits => ?_⟩
    rw [codeGet_dropClass, if_pos rfl]
    simp
  | some t =>
    have hn' := hn t hg
    refine ⟨fun j v hj => by rw [deriveCodes_other k t _ _ j v (.inl hj), codeGet_dropClass, if_neg hj],
      fun v bits => ?_⟩
    simp only [Option.some.injEq, exists_eq_left']
    constructor
    · intro h
      by_cases hv : v ∈ t.values
      · obtain ⟨c, hc⟩ := CodeTree.exists_follow hv
        rw [deriveCodes_follow k t [] _ hn' c v hc] at h
        simp only [List.nil_append, Option.some.injEq] at h
        rwa [← h]
      · rw [deriveCodes_other k t _ _ k v (.inr hv), codeGet_dropClass, if_pos rfl] at h
        cases h
    · intro h
      exact deriveCodes_follow k t [] _ hn' bits v h

/-! ## The steps -/

theorem checkClass_ok {k : Byte} (h : classOk k) (s : State) : checkClass k s = .ok () s := by
  rw [checkClass, if_neg h]
  rfl

theorem checkClass_range {k : Byte} (h : k = sentinelId) (s : State) : checkClass k s = .error .classRange s := by
  rw [checkClass, if_pos h]
  rfl

/-- What HTB_COUNT does (R180). -/
theorem htbCount_ok {s : State} {k : Byte} (v : Byte) (hk : classOk k) (ht : classTotal s.builder.freq k ≠ 2 ^ 32 - 1) :
    htbCount k v s = .ok () (s.setBuilder { s.builder with
      freq := tableSet s.builder.freq (entryKey k v) (freqGet s.builder.freq k v + 1) }) := by
  rw [htbCount, steps_bind_ok (checkClass_ok hk s), steps_bind_ok (steps_get s), if_neg ht]
  rfl

theorem htbCount_overflow {s : State} {k : Byte} (v : Byte) (hk : classOk k)
    (ht : classTotal s.builder.freq k = 2 ^ 32 - 1) : htbCount k v s = .error .countOverflow s := by
  rw [htbCount, steps_bind_ok (checkClass_ok hk s), steps_bind_ok (steps_get s), if_pos ht]
  rfl

/-- What HTB_BUILD does (R182). -/
theorem htbBuild_ok {s : State} {k : Byte} (hk : classOk k) :
    htbBuild k s = .ok () (s.setBuilder { s.builder with
      etree := setEtree s.builder.etree k (buildTree (tableRow s.builder.freq k)),
      code := tableDropClass s.builder.code k }) := by
  rw [htbBuild, steps_bind_ok (checkClass_ok hk s), steps_bind_ok (steps_get s)]
  rfl

/-- What HTB_DERIVE does (R186). -/
theorem htbDerive_ok {s : State} {k : Byte} (hk : classOk k) :
    htbDerive k s = .ok () (s.setBuilder { s.builder with code := derivedCode s.builder k }) := by
  rw [htbDerive, steps_bind_ok (checkClass_ok hk s), steps_bind_ok (steps_get s)]
  rfl

theorem setEtree_same (t : Table CodeTree) (k : Byte) (x : Option CodeTree) : tableGet (setEtree t k x) k.toNat = x := by
  cases x with
  | none => exact tableGet_erase_same t _
  | some x => exact tableGet_set_same t _ x

theorem setEtree_other (t : Table CodeTree) {j k : Byte} (h : j ≠ k) (x : Option CodeTree) :
    tableGet (setEtree t k x) j.toNat = tableGet t j.toNat := by
  have hj : j.toNat ≠ k.toNat := fun he => h (BitVec.eq_of_toNat_eq he)
  cases x with
  | none => exact tableGet_erase_other t hj
  | some x => exact tableGet_set_other t x hj

end Sys2Proof.Machine
end

