-- ==== Sys2Proof/Laws/Encoder.lean ====
section
/-! SUPPORT. The Huffman encoder (43_huffman_encoder.md): tokens are counted and buffered, the table is the bits of `tableBits`, the
payload those of `payloadBits`. -/

namespace Sys2Proof.Machine

/-! ## What the writer's steps leave alone, whatever the sink answers -/

theorem sinkPut_frame (b : Byte) : Within OnlyWrote (sinkPut b) := by
  intro s
  rcases sinkPut_cases b s with ⟨rest, h, -⟩ | ⟨rest, h, -⟩
  · rw [h]
    exact ⟨fun a t ht => by cases ht; simp [onlyWrote_iff, Agents.deliver], fun c t ht => by cases ht⟩
  · rw [h]
    exact ⟨fun a t ht => (by cases ht), fun c t ht => by cases ht; simp [onlyWrote_iff]⟩

theorem setWriter_frame (acc : Byte) (n : Nat) : Within OnlyWrote (setWriter acc n) :=
  Within.modify (by intro s; simp [onlyWrote_iff])

theorem onlyWrote_trans (s t u : State) (h : OnlyWrote s t) (h' : OnlyWrote t u) : OnlyWrote s u := h.trans h'

theorem putBit_frame (b : Bool) : Within OnlyWrote (putBit b) :=
  Within.get_bind fun _ => Within.bind onlyWrote_trans (setWriter_frame _ _) fun _ =>
    Within.ite (Within.bind onlyWrote_trans (sinkPut_frame _) fun _ => setWriter_frame _ _) (Within.pure OnlyWrote.refl _)

theorem putBits_frame (bs : Bits) : Within OnlyWrote (putBits bs) := by
  induction bs with
  | nil => exact Within.pure OnlyWrote.refl _
  | cons b bs ih => exact Within.bind onlyWrote_trans (putBit_frame b) fun _ => ih

theorem bwFlush_frame : Within OnlyWrote bwFlush :=
  Within.get_bind fun _ => Within.ite (Within.bind onlyWrote_trans (sinkPut_frame _) fun _ => setWriter_frame _ _)
    (Within.pure OnlyWrote.refl _)

theorem putBits_append (a b : Bits) : putBits (a ++ b) = putBits a >>= fun _ => putBits b := by
  induction a with
  | nil => rfl
  | cons x a ih =>
    funext s
    rw [List.cons_append, putBits, ih, putBits, steps_bind, steps_bind, steps_bind]
    cases putBit x s <;> rfl

/-- A tree is written as its serialised form (R203; 30_encoding.md R93). -/
theorem writeTree_eq (t : CodeTree) : writeTree t = putBits (binTree t) := by
  induction t with
  | leaf v => rfl
  | internal l r ihl ihr => rw [writeTree, ihl, ihr, binTree, putBits, putBits_append]

/-! ## Token intake -/

theorem tokbufFull_iff (s : State) : tokbufFull s = true ↔ s.config.tokbufDepth = some s.tokbuf.length := by
  unfold tokbufFull
  cases s.config.tokbufDepth with
  | none => simp
  | some d => simp [eq_comm]

/-- What HE_PUT_TOKEN does (R200). -/
theorem putToken_ok {s : State} {k : Byte} (v : Byte) (hk : classOk k)
    (hd : s.config.tokbufDepth ≠ some s.tokbuf.length) (ht : classTotal s.builder.freq k ≠ 2 ^ 32 - 1) :
    putToken k v s = .ok () (putOne s ⟨k, v⟩) := by
  rw [putToken, steps_bind_ok (checkClass_ok hk s), steps_bind_ok (steps_get s),
    if_neg (by rw [tokbufFull_iff]; exact hd), steps_bind_ok (htbCount_ok v hk ht)]
  rfl

theorem putToken_full {s : State} {k : Byte} (v : Byte) (hk : classOk k)
    (hd : s.config.tokbufDepth = some s.tokbuf.length) : putToken k v s = .error .tokbufFull s := by
  rw [putToken, steps_bind_ok (checkClass_ok hk s), steps_bind_ok (steps_get s),
    if_pos (by rw [tokbufFull_iff]; exact hd)]
  rfl

theorem putToken_overflow {s : State} {k : Byte} (v : Byte) (hk : classOk k)
    (hd : s.config.tokbufDepth ≠ some s.tokbuf.length) (ht : classTotal s.builder.freq k = 2 ^ 32 - 1) :
    putToken k v s = .error .countOverflow s := by
  rw [putToken, steps_bind_ok (checkClass_ok hk s), steps_bind_ok (steps_get s),
    if_neg (by rw [tokbufFull_iff]; exact hd), steps_bind_error (htbCount_overflow v hk ht)]

/-- TOKCOUNT is the length of TOKBUF where it fits 32 bits (10_state.md R32). -/
theorem tokCount_toNat {s : State} (h : s.tokbuf.length < 2 ^ 32) : s.tokCount.toNat = s.tokbuf.length := by
  rw [State.tokCount, if_pos h, BitVec.toNat_ofNat, Nat.mod_eq_of_lt h]

/-- With room for one more token, the buffer is not full. -/
theorem Room.notFull {s : State} {n : Nat} (h : Room s (n + 1)) : s.config.tokbufDepth ≠ some s.tokbuf.length := by
  intro hd
  have := h.2.1 _ hd
  omega

theorem Room.total {s : State} {n : Nat} (h : Room s (n + 1)) (k : Byte) : classTotal s.builder.freq k < 2 ^ 32 - 1 := by
  have := h.2.2 k
  omega

theorem Room.putOne {s : State} {n : Nat} (h : Room s (n + 1)) (t : Token) : Room (putOne s t) n := by
  refine ⟨tableWf_set h.1 _ _, ?_, ?_⟩
  · intro d hd
    have := h.2.1 d hd
    simp only [Machine.putOne, State.setTokbuf_tokbuf, List.length_append, List.length_singleton]
    omega
  · intro k
    have h1 := classTotal_count h.1 t.k t.v k (h.total t.k)
    have h2 := h.2.2 k
    simp only [Machine.putOne, State.setTokbuf_builder, State.setBuilder_builder, h1]
    split <;> omega

theorem Room.mono {s : State} {m n : Nat} (h : Room s n) (hm : m ≤ n) : Room s m := by
  refine ⟨h.1, fun d hd => ?_, fun k => ?_⟩
  · have := h.2.1 d hd; omega
  · have := h.2.2 k; omega

theorem classId_ok (c : TokenClass) : classOk (classId c) := by cases c <;> decide

/-- An emission with room (R12, R200). -/
theorem emit_room {s : State} {n : Nat} (h : Room s (n + 1)) (c : TokenClass) (v : Byte) :
    emit c v s = .ok () (putOne s (token c v)) ∧ Room (putOne s (token c v)) n :=
  ⟨putToken_ok v (classId_ok c) h.notFull (by have := h.total (classId c); omega), h.putOne _⟩

theorem putAll_cons (s : State) (t : Token) (ts : List Token) : putAll s (t :: ts) = putAll (putOne s t) ts := rfl

theorem putAll_append (s : State) (ts us : List Token) : putAll s (ts ++ us) = putAll (putAll s ts) us := by
  simp [putAll]

theorem Room.putAll {s : State} {n : Nat} {ts : List Token} (h : Room s (ts.length + n)) : Room (putAll s ts) n := by
  induction ts generalizing s with
  | nil => simpa [Machine.putAll] using h
  | cons t ts ih =>
    rw [putAll_cons]
    refine ih (Room.putOne (n := ts.length + n) ?_ t)
    rw [List.length_cons] at h
    exact h.mono (by omega)

/-! ## Token encoding -/

theorem encodeToken_ok {s : State} {k v : Byte} {c : Bits} (hk : classOk k) (h : codeGet s.builder.code k v = some c) :
    encodeToken k v s = putBits c s := by
  rw [encodeToken, steps_bind_ok (checkClass_ok hk s), steps_bind_ok (steps_get s), h]

theorem encodeToken_noCode {s : State} {k v : Byte} (hk : classOk k) (h : codeGet s.builder.code k v = none) :
    encodeToken k v s = .error .noCode s := by
  rw [encodeToken, steps_bind_ok (checkClass_ok hk s), steps_bind_ok (steps_get s), h]
  rfl

theorem OnlyWrote.builder {s t : State} (h : OnlyWrote s t) : t.builder = s.builder := (onlyWrote_iff.mp h).2.2.2.1

theorem OnlyWrote.tokbuf {s t : State} (h : OnlyWrote s t) : t.tokbuf = s.tokbuf := (onlyWrote_iff.mp h).2.2.2.2.1

/-- The codes of tokens that all have one (R206). -/
theorem encodeTokens_wrote (ts : List Token) : ∀ {s : State} {bits : Bits}, WriterReady s → SinkReady s →
    (∀ x ∈ ts, classOk x.k) → payloadBits s.builder.code ts = some bits →
    ∃ t, encodeTokens ts s = .ok () t ∧ Wrote s t bits := by
  induction ts with
  | nil => intro s bits hw hr _ h; cases h; exact ⟨s, rfl, Wrote.nil hw hr⟩
  | cons x ts ih =>
    intro s bits hw hr hk h
    simp only [payloadBits] at h
    cases hc : codeGet s.builder.code x.k x.v with
    | none => rw [hc] at h; cases h
    | some c =>
      rw [hc] at h
      cases hcs : payloadBits s.builder.code ts with
      | none => rw [hcs] at h; cases h
      | some cs =>
        rw [hcs] at h
        cases h
        obtain ⟨t, h1, h2⟩ := putBits_wrote c hw hr
        obtain ⟨u, h3, h4⟩ := ih (s := t) (bits := cs) h2.writerReady h2.ready (fun y hy => hk y (by simp [hy]))
          (by rw [h2.frame.builder]; exact hcs)
        refine ⟨u, ?_, h2.trans h4⟩
        rw [encodeTokens, steps_bind_ok ((encodeToken_ok (hk x (by simp)) hc).trans h1), h3]

theorem encodeTokens_append (ts us : List Token) :
    encodeTokens (ts ++ us) = encodeTokens ts >>= fun _ => encodeTokens us := by
  induction ts with
  | nil => rfl
  | cons x ts ih =>
    funext s
    rw [List.cons_append, encodeTokens, ih, encodeTokens, steps_bind, steps_bind, steps_bind]
    cases encodeToken x.k x.v s <;> rfl

/-! ## The codebook table -/

/-- What HTB_BUILD and HTB_DERIVE leave of one class (R204). -/
structure ClassBuilt (freq : Table Word) (k : Byte) (b : TreeBuilder) (x : CodeTree) : Prop where
  tree : tableGet b.etree k.toNat = some x
  built : IsBuiltTree (freqGet freq k) x
  record : recordBits freq k = binByte k ++ binTree x
  codes : ∀ v c, codeGet b.code k v = some c ↔ x.follow c = some v

/-- Every counted value of a built class has a code (R208). -/
theorem ClassBuilt.complete {freq : Table Word} {k : Byte} {b : TreeBuilder} {x : CodeTree} (h : ClassBuilt freq k b x)
    {v : Byte} (hv : freqGet freq k v ≠ 0) : codeGet b.code k v ≠ none := by
  obtain ⟨c, hc⟩ := CodeTree.exists_follow ((h.built.mem v).mpr hv)
  rw [(h.codes v c).mpr hc]
  simp

/-- The same trees and codes for a class. -/
def SameClass (k : Byte) (b b' : TreeBuilder) : Prop :=
  tableGet b'.etree k.toNat = tableGet b.etree k.toNat ∧ ∀ v, codeGet b'.code k v = codeGet b.code k v

theorem SameClass.trans {k : Byte} {a b c : TreeBuilder} (h : SameClass k a b) (h' : SameClass k b c) : SameClass k a c :=
  ⟨h'.1.trans h.1, fun v => (h'.2 v).trans (h.2 v)⟩

theorem ClassBuilt.of_same {freq : Table Word} {k : Byte} {b b' : TreeBuilder} {x : CodeTree}
    (h : ClassBuilt freq k b x) (hs : SameClass k b b') : ClassBuilt freq k b' x :=
  ⟨hs.1.trans h.tree, h.built, h.record, fun v c => by rw [hs.2 v]; exact h.codes v c⟩

/-- The builder after HTB_BUILD and HTB_DERIVE of a class (R204). -/
def builtClass (b : TreeBuilder) (k : Byte) : TreeBuilder :=
  let b1 : TreeBuilder := { b with
    etree := setEtree b.etree k (buildTree (tableRow b.freq k)), code := tableDropClass b.code k }
  { b1 with code := derivedCode b1 k }

theorem builtClass_other (b : TreeBuilder) {j k : Byte} (hj : j ≠ k)
    (hn : ∀ t, buildTree (tableRow b.freq k) = some t → t.values.Nodup) : SameClass j b (builtClass b k) := by
  refine ⟨setEtree_other _ hj _, fun v => ?_⟩
  have := (derivedCode_spec (b := { b with
    etree := setEtree b.etree k (buildTree (tableRow b.freq k)), code := tableDropClass b.code k }) (k := k)
    (fun t ht => hn t (by rwa [setEtree_same] at ht))).1 j v hj
  exact this.trans (by rw [codeGet_dropClass, if_neg hj])

theorem builtClass_same {b : TreeBuilder} (hw : tableWf b.freq) {k : Byte} (h0 : classTotal b.freq k > 0) :
    ∃ x, ClassBuilt b.freq k (builtClass b k) x := by
  obtain ⟨h1, h2⟩ := buildTree_row hw k
  cases hb : buildTree (tableRow b.freq k) with
  | none =>
    have := (classTotal_zero hw k).mpr (h2.mp hb)
    omega
  | some x =>
    have hx := h1 x hb
    refine ⟨x, ?_, hx, ?_, ?_⟩
    · exact (setEtree_same _ _ _).trans hb
    · simp [recordBits, hb]
    · intro v c
      have hn := hx.nodup
      have := (derivedCode_spec (b := { b with
        etree := setEtree b.etree k (buildTree (tableRow b.freq k)), code := tableDropClass b.code k }) (k := k)
        (fun t ht => by
          rw [setEtree_same, hb] at ht
          cases ht
          exact hn)).2 v c
      refine this.trans ?_
      rw [setEtree_same, hb]
      simp

theorem buildTree_nodup {t : Table Word} (hw : tableWf t) (k : Byte) :
    ∀ x, buildTree (tableRow t k) = some x → x.values.Nodup := fun x hx => ((buildTree_row hw k).1 x hx).nodup

/-- A class with no counted token has no record (R204). -/
theorem writeRecord_empty {s : State} {k : Byte} (h : classTotal s.builder.freq k = 0) : writeRecord k s = .ok () s := by
  rw [writeRecord, steps_bind_ok (steps_get s), if_neg (by omega)]
  rfl

/-- The record of a class with a counted token: its tree and codes are built and its record is written (R204). -/
theorem writeRecord_eq {s : State} {k : Byte} (hk : classOk k) (hw : tableWf s.builder.freq)
    (h : classTotal s.builder.freq k > 0) :
    writeRecord k s = putBits (recordBits s.builder.freq k) (s.setBuilder (builtClass s.builder k)) := by
  obtain ⟨x, hx⟩ := builtClass_same hw h
  rw [writeRecord, steps_bind_ok (steps_get s), if_pos h, steps_bind_ok (htbBuild_ok hk),
    steps_bind_ok (htbDerive_ok hk), hx.record, putBits_append]
  refine Eq.trans (b := (putBits (binByte k) >>= fun _ => (do
    let s ← get
    match tableGet s.builder.etree k.toNat with
    | some t => writeTree t
    | none => pure ())) (s.setBuilder (builtClass s.builder k))) rfl ?_
  rw [steps_bind, steps_bind]
  cases hp : putBits (binByte k) (s.setBuilder (builtClass s.builder k)) with
  | error e t => rfl
  | ok a t =>
    have hf := ((putBits_frame (binByte k) _).1 a t hp).builder
    simp only
    rw [steps_bind_ok (steps_get t), hf, State.setBuilder_builder, hx.tree]
    simp only
    rw [writeTree_eq]

theorem recordBits_empty {freq : Table Word} (hw : tableWf freq) {k : Byte} (h : classTotal freq k = 0) :
    recordBits freq k = [] := by
  have := (buildTree_row hw k).2.mpr ((classTotal_zero hw k).mp h)
  simp [recordBits, this]

/-- What the records of the classes `k` to `k + n - 1` leave of each class (R204). -/
structure TableBuilt (lo n : Nat) (b b' : TreeBuilder) : Prop where
  freq : b'.freq = b.freq
  others : ∀ j : Byte, (j.toNat < lo ∨ lo + n ≤ j.toNat ∨ classTotal b.freq j = 0) → SameClass j b b'
  built : ∀ j : Byte, lo ≤ j.toNat → j.toNat < lo + n → classTotal b.freq j > 0 → ∃ x, ClassBuilt b.freq j b' x

theorem TableBuilt.cons {lo n : Nat} (hlo : lo < 255) {b b' : TreeBuilder} (hw : tableWf b.freq)
    (h : TableBuilt (lo + 1) n (if classTotal b.freq (BitVec.ofNat 8 lo) > 0 then builtClass b (BitVec.ofNat 8 lo) else b) b') :
    TableBuilt lo (n + 1) b b' := by
  have hk : (BitVec.ofNat 8 lo).toNat = lo := by rw [BitVec.toNat_ofNat]; omega
  by_cases h0 : classTotal b.freq (BitVec.ofNat 8 lo) > 0
  · rw [if_pos h0] at h
    obtain ⟨x, hx⟩ := builtClass_same hw h0
    have hf : (builtClass b (BitVec.ofNat 8 lo)).freq = b.freq := rfl
    have hne : ∀ j : Byte, j.toNat ≠ lo → SameClass j b (builtClass b (BitVec.ofNat 8 lo)) := fun j hj =>
      builtClass_other b (fun he => hj (by rw [he, hk])) (buildTree_nodup hw _)
    refine ⟨h.freq, fun j hj => ?_, fun j h1 h2 h3 => ?_⟩
    · by_cases hjl : j.toNat = lo
      · have : j = BitVec.ofNat 8 lo := BitVec.eq_of_toNat_eq (by rw [hk, hjl])
        rw [this] at hj
        omega
      · refine (hne j hjl).trans (h.others j ?_)
        rw [hf]
        omega
    · by_cases hjl : j.toNat = lo
      · have : j = BitVec.ofNat 8 lo := BitVec.eq_of_toNat_eq (by rw [hk, hjl])
        rw [this]
        exact ⟨x, hx.of_same (h.others _ (.inl (by omega)))⟩
      · exact h.built j (by omega) (by omega) h3
  · rw [if_neg h0] at h
    refine ⟨h.freq, fun j hj => ?_, fun j h1 h2 h3 => ?_⟩
    · by_cases hjl : j.toNat = lo
      · exact h.others j (.inl (by omega))
      · exact h.others j (by omega)
    · by_cases hjl : j.toNat = lo
      · have : j = BitVec.ofNat 8 lo := BitVec.eq_of_toNat_eq (by rw [hk, hjl])
        rw [this] at h3
        omega
      · exact h.built j (by omega) (by omega) h3

/-- The bits of the records of the classes `lo` to `lo + n - 1`. -/
def recordsBits (freq : Table Word) (lo n : Nat) : Bits :=
  ((List.range' lo n).map (BitVec.ofNat 8)).flatMap (recordBits freq)

theorem Wrote.rebase {s t : State} {b : TreeBuilder} {bs : Bits} (h : Wrote (s.setBuilder b) t bs) :
    Wrote (s.setBuilder t.builder) t bs := by
  have := h.frame.builder
  simp only [State.setBuilder_builder] at this
  rw [this]
  exact h

theorem writeRecords_wrote (n : Nat) : ∀ (lo : Nat) {s : State}, lo + n ≤ 255 → WriterReady s → SinkReady s →
    tableWf s.builder.freq →
    ∃ t, writeRecords n lo s = .ok () t ∧ Wrote (s.setBuilder t.builder) t (recordsBits s.builder.freq lo n) ∧
      TableBuilt lo n s.builder t.builder := by
  induction n with
  | zero =>
    intro lo s _ hw hr _
    exact ⟨s, rfl, Wrote.nil hw hr, rfl, fun j _ => ⟨rfl, fun v => rfl⟩, fun j h1 h2 _ => by omega⟩
  | succ n ih =>
    intro lo s hle hw hr hf
    have hk : (BitVec.ofNat 8 lo).toNat = lo := by rw [BitVec.toNat_ofNat]; omega
    have hok : classOk (BitVec.ofNat 8 lo) := by
      intro he
      have := congrArg BitVec.toNat he
      rw [hk] at this
      simp at this
      omega
    have hcons : recordsBits s.builder.freq lo (n + 1) =
        recordBits s.builder.freq (BitVec.ofNat 8 lo) ++ recordsBits s.builder.freq (lo + 1) n := by
      simp [recordsBits, List.range'_succ]
    by_cases h0 : classTotal s.builder.freq (BitVec.ofNat 8 lo) > 0
    · obtain ⟨t, h1, h2⟩ := putBits_wrote (recordBits s.builder.freq (BitVec.ofNat 8 lo))
        (s := s.setBuilder (builtClass s.builder (BitVec.ofNat 8 lo))) hw hr
      have hb : t.builder = builtClass s.builder (BitVec.ofNat 8 lo) := h2.frame.builder
      obtain ⟨u, h3, h4, h5⟩ := ih (lo + 1) (s := t) (by omega) h2.writerReady h2.ready (by rw [hb]; exact hf)
      refine ⟨u, ?_, ?_, TableBuilt.cons (by omega) hf (by rw [if_pos h0, ← hb]; exact h5)⟩
      · rw [writeRecords, steps_bind_ok ((writeRecord_eq hok hf h0).trans h1), h3]
      · rw [hcons]
        have hfr : t.builder.freq = s.builder.freq := by rw [hb]; rfl
        rw [hfr] at h4
        have h6 : Wrote (s.setBuilder u.builder) (t.setBuilder u.builder) (recordBits s.builder.freq (BitVec.ofNat 8 lo)) := by
          refine ⟨h2.stream, h2.pending, h2.ready, ?_⟩
          have h7 := h2.frame
          rw [onlyWrote_iff] at h7 ⊢
          simp only [State.setBuilder_config, State.setBuilder_reader, State.setBuilder_mtf, State.setBuilder_builder,
            State.setBuilder_tokbuf, State.setBuilder_decoder, State.setBuilder_image, State.setBuilder_enc,
            State.setBuilder_dec, State.setBuilder_status, State.setBuilder_agents, State.setBuilder_host,
            State.setBuilder_freeCount, State.setBuilder_treeOut] at h7 ⊢
          tauto
        exact h6.trans h4
    · obtain ⟨u, h3, h4, h5⟩ := ih (lo + 1) (s := s) (by omega) hw hr hf
      refine ⟨u, ?_, ?_, TableBuilt.cons (by omega) hf (by rw [if_neg h0]; exact h5)⟩
      · rw [writeRecords, steps_bind_ok (writeRecord_empty (by omega)), h3]
      · rw [hcons, recordBits_empty hf (by omega)]
        exact h4

/-- What HE_WRITE_TABLE does with a ready sink (R204). -/
theorem writeTable_wrote {s : State} (hw : WriterReady s) (hr : SinkReady s) (hf : tableWf s.builder.freq) :
    ∃ t, writeTable s = .ok () t ∧ Wrote (s.setBuilder t.builder) t (tableBits s.builder.freq) ∧
      TableBuilt 0 255 s.builder t.builder := by
  obtain ⟨t, h1, h2, h3⟩ := writeRecords_wrote 255 0 (by omega) hw hr hf
  obtain ⟨u, h4, h5⟩ := putBits_wrote (binByte sentinelId) h2.writerReady h2.ready
  have hb := h5.frame.builder
  refine ⟨u, by rw [writeTable, steps_bind_ok h1]; exact h4, ?_, by rw [hb]; exact h3⟩
  rw [hb]
  have : tableBits s.builder.freq = recordsBits s.builder.freq 0 255 ++ binByte sentinelId := by
    rw [tableBits, recordsBits, List.range_eq_range']
  rw [this]
  exact h2.trans h5

/-- After the table every counted token of a class 0 to 254 has a code (R208). -/
theorem TableBuilt.coded {b b' : TreeBuilder} (h : TableBuilt 0 255 b b') {k v : Byte}
    (hk : classOk k) (hv : freqGet b.freq k v ≠ 0) : codeGet b'.code k v ≠ none := by
  have hk' : k.toNat < 255 := by
    have := k.isLt
    by_contra hc
    exact hk (BitVec.eq_of_toNat_eq (by simp; omega))
  have h0 : classTotal b.freq k > 0 := by
    have h1 := freqGet_le_total b.freq k v
    have h2 : (freqGet b.freq k v).toNat ≠ 0 := fun he => hv (BitVec.eq_of_toNat_eq (by simpa using he))
    omega
  obtain ⟨x, hx⟩ := h.built k (by omega) (by omega) h0
  exact hx.complete hv

/-- The payload of tokens that all have codes. -/
theorem payloadBits_some {code : Table Bits} {ts : List Token} (h : ∀ x ∈ ts, codeGet code x.k x.v ≠ none) :
    ∃ bits, payloadBits code ts = some bits := by
  induction ts with
  | nil => exact ⟨[], rfl⟩
  | cons x ts ih =>
    obtain ⟨c, hc⟩ := Option.ne_none_iff_exists'.mp (h x (by simp))
    obtain ⟨cs, hcs⟩ := ih fun y hy => h y (by simp [hy])
    exact ⟨c ++ cs, by simp [payloadBits, hc, hcs]⟩

/-- What HE_FINISH does with a ready sink, where every token is counted (R207, R208). -/
theorem finish_wrote {s : State} (hw : WriterReady s) (hr : SinkReady s) (hf : tableWf s.builder.freq)
    (ht : ∀ x ∈ s.tokbuf, classOk x.k ∧ freqGet s.builder.freq x.k x.v ≠ 0) :
    ∃ t bits, finish s = .ok () t ∧ payloadBits t.builder.code s.tokbuf = some bits ∧
      TableBuilt 0 255 s.builder t.builder ∧ t.writer.n = 0 ∧
      Wrote (s.setBuilder t.builder) t (tableBits s.builder.freq ++ bits ++
        padding (s.writer.n + (tableBits s.builder.freq).length + bits.length)) := by
  obtain ⟨t, h1, h2, h3⟩ := writeTable_wrote hw hr hf
  have htb : t.tokbuf = s.tokbuf := h2.frame.tokbuf
  obtain ⟨bits, hb⟩ := payloadBits_some (code := t.builder.code) (ts := s.tokbuf)
    fun x hx => h3.coded (ht x hx).1 (ht x hx).2
  obtain ⟨u, h4, h5⟩ := encodeTokens_wrote _ h2.writerReady h2.ready (fun x hx => (ht x hx).1) hb
  obtain ⟨v, h6, h7, h8⟩ := bwFlush_wrote h5.writerReady h5.ready
  have hub : u.builder = t.builder := h5.frame.builder
  have hvb : v.builder = t.builder := h7.frame.builder.trans hub
  refine ⟨v, bits, ?_, by rw [hvb]; exact hb, by rw [hvb]; exact h3, h8, ?_⟩
  · rw [finish, steps_bind_ok h1]
    have : writePayload t = .ok () u := by
      rw [writePayload, steps_bind_ok (steps_get t), htb, h4]
    rw [steps_bind_ok this, h6]
  · rw [hvb]
    have h9 := (h2.trans h5).trans h7
    have hn : u.writer.n = (s.writer.n + (tableBits s.builder.freq ++ bits).length) % 8 := (h2.trans h5).pending
    have hp : padding u.writer.n = padding (s.writer.n + (tableBits s.builder.freq).length + bits.length) := by
      rw [hn, padding, padding, List.length_append]
      congr 1
      omega
    rwa [hp] at h9

end Sys2Proof.Machine
end

