-- ==== Sys2Proof/Laws/PixelEncoder.lean ====
section
/-! SUPPORT. What the encode side of the pixel codec does: the run flush, and the group of each pixel (45_pixel_codec.md R240,
R250). -/

namespace Sys2Proof.Machine

theorem putAll_setEnc (s : State) (e : PxEncoder) (ts : List Token) :
    putAll (s.setEnc e) ts = (putAll s ts).setEnc e := by
  induction ts generalizing s with
  | nil => rfl
  | cons t ts ih => exact ih (putOne s t)

theorem putAll_setMtf (s : State) (m : List Pixel) (ts : List Token) :
    putAll (s.setMtf m) ts = (putAll s ts).setMtf m := by
  induction ts generalizing s with
  | nil => rfl
  | cons t ts ih => exact ih (putOne s t)

/-- Tokens counted and buffered leave everything else unchanged. -/
theorem putAll_frame (s : State) (ts : List Token) :
    putAll s ts = (s.setBuilder { s.builder with freq := (putAll s ts).builder.freq }).setTokbuf (s.tokbuf ++ ts) := by
  induction ts generalizing s with
  | nil => simp [putAll, State.setBuilder, State.setTokbuf]
  | cons t ts ih =>
    rw [putAll_cons, ih]
    simp [putOne, State.setBuilder, State.setTokbuf]

/-! ## The run flush -/

theorem runByte_eq (r : Word) (j : Nat) : r.extractLsb' (8 * j) 8 = BitVec.ofNat 8 (r.toNat / 256 ^ j) := by
  apply BitVec.eq_of_toNat_eq
  rw [BitVec.extractLsb'_toNat, BitVec.toNat_ofNat, Nat.shiftRight_eq_div_pow, Nat.pow_mul]

/-- The tokens of the run bytes of significance `b - 1` down to 0. -/
def runByteTokens (r : Word) (b : Nat) : List Token :=
  (List.range b).reverse.map fun j => token (runByteClass j) (BitVec.ofNat 8 (r.toNat / 256 ^ j))

theorem runByteTokens_length (r : Word) (b : Nat) : (runByteTokens r b).length = b := by simp [runByteTokens]

theorem runByteTokens_succ (r : Word) (b : Nat) :
    runByteTokens r (b + 1) = token (runByteClass b) (BitVec.ofNat 8 (r.toNat / 256 ^ b)) :: runByteTokens r b := by
  simp [runByteTokens, List.range_succ]

theorem runGroup_eq (b : Nat) (r : Word) :
    runGroup b r = token .tag 0 :: token .byteCount (BitVec.ofNat 8 b) :: runByteTokens r b := rfl

theorem emitRunBytes_room (r : Word) (b : Nat) : ∀ {s : State} {n : Nat}, Room s (b + n) →
    emitRunBytes r b s = .ok () (putAll s (runByteTokens r b)) := by
  induction b with
  | zero => intro s n _; rfl
  | succ b ih =>
    intro s n h
    obtain ⟨h1, h2⟩ := emit_room (n := b + n) (h.mono (by omega)) (runByteClass b) (r.extractLsb' (8 * b) 8)
    rw [emitRunBytes, steps_bind_ok h1, ih (n := n) h2, runByteTokens_succ, putAll_cons, runByte_eq]

theorem runFlush_room (run : Word) {s : State} {n : Nat} (h : Room s ((runGroup (runByteCount (run - 1)) (run - 1)).length + n)) :
    runFlush run s = .ok () (putAll s (runGroup (runByteCount (run - 1)) (run - 1))) := by
  rw [runGroup_eq, List.length_cons, List.length_cons, runByteTokens_length] at h
  obtain ⟨h1, h2⟩ := emit_room (n := runByteCount (run - 1) + n + 1) (h.mono (by omega)) .tag (tagValue .run)
  obtain ⟨h3, h4⟩ := emit_room (n := runByteCount (run - 1) + n) h2 .byteCount (BitVec.ofNat 8 (runByteCount (run - 1)))
  rw [runFlush, steps_bind_ok h1, steps_bind_ok h3, emitRunBytes_room _ _ (n := n) h4]
  rfl

theorem setEnc_run_zero {s : State} (h : s.enc.run = 0) : s.setEnc { s.enc with run := 0 } = s := by
  have : ({ s.enc with run := 0 } : PxEncoder) = s.enc := by rw [← h]
  rw [this]; rfl

/-- The pending run flushed (R240 step 2, R252). -/
theorem flushRun_room {s : State} {n : Nat} (h : Room s ((pendingRun s.enc.run).length + n)) :
    flushRun s = .ok () (putAll (s.setEnc { s.enc with run := 0 }) (pendingRun s.enc.run)) := by
  rw [flushRun, steps_bind_ok (steps_get s)]
  by_cases hr : s.enc.run = 0
  · have hp : pendingRun s.enc.run = [] := if_pos hr
    rw [if_neg (by simp [hr]), hp, setEnc_run_zero hr]
    rfl
  · have hp : pendingRun s.enc.run = runGroup (runByteCount (s.enc.run - 1)) (s.enc.run - 1) := if_neg hr
    rw [hp] at h ⊢
    have h0 : s.enc.run.toNat > 0 := by
      rcases Nat.eq_zero_or_pos s.enc.run.toNat with h0 | h0
      · exact absurd (BitVec.eq_of_toNat_eq h0) hr
      · exact h0
    rw [if_pos h0, steps_bind_ok (runFlush_room s.enc.run h), steps_modify, putAll_setEnc]
    have : (putAll s (runGroup (runByteCount (s.enc.run - 1)) (s.enc.run - 1))).enc = s.enc := by
      rw [putAll_frame]; rfl
    rw [this]

/-! ## A pixel -/

theorem encodeUp_eq (s : State) : encodeUp s = .ok (encodeUpRead s).1 (encodeUpRead s).2 := by
  rw [encodeUp, steps_bind_ok (steps_get s), encodeUpRead]
  by_cases h : s.image.row = 0
  · rw [if_pos h, if_pos h]; rfl
  · rw [if_neg h, if_neg h, memoryRead]
    cases s.enc.linebuf.read s.image.column <;> rfl

/-- Reading `up` changes only the model's count of free values. -/
theorem encodeUpRead_frame (s : State) : (encodeUpRead s).2 = s.setFreeCount (encodeUpRead s).2.freeCount := by
  rw [encodeUpRead]
  cases (if s.image.row = 0 then some zeroPixel else s.enc.linebuf.read s.image.column) <;> rfl

/-- PX_ENC_PIXEL after its steps before the case split (R240). -/
def encodeCase (p up : Pixel) : M Unit := do
  let s ← get
  if p = s.enc.prior then modify fun s => s.setEnc { s.enc with run := s.enc.run + 1 }
  else do
    flushRun
    encodeGroup p up

theorem checkImage_ok {s : State} (h : s.image.i.toNat < s.image.pixels) : checkImage s = .ok () s := by
  rw [checkImage, steps_bind_ok (steps_get s), if_neg (by omega)]; rfl

theorem checkImage_full {s : State} (h : s.image.pixels ≤ s.image.i.toNat) : checkImage s = .error .imageComplete s := by
  rw [checkImage, steps_bind_ok (steps_get s), if_pos h]; rfl

theorem encodePixel_eq {s : State} (p : Pixel) (h : s.image.i.toNat < s.image.pixels) :
    encodePixel p s = encodeCase p (encodeUpRead s).1 (pixelTaken (encodeUpRead s).2 p) := by
  rw [encodePixel, steps_bind_ok (checkImage_ok h), steps_bind_ok (encodeUp_eq s), storeLine,
    steps_bind_ok (steps_modify _ _), advance, steps_bind_ok (steps_modify _ _)]
  rfl

theorem pixelTaken_enc (s : State) (p : Pixel) :
    (pixelTaken (encodeUpRead s).2 p).enc = { s.enc with linebuf := s.enc.linebuf.write s.image.column p } := by
  rw [encodeUpRead_frame]; rfl

theorem pixelTaken_mtf (s : State) (p : Pixel) : (pixelTaken (encodeUpRead s).2 p).mtf = s.mtf := by
  rw [encodeUpRead_frame]; rfl

theorem pixelTaken_config (s : State) (p : Pixel) : (pixelTaken (encodeUpRead s).2 p).config = s.config := by
  rw [encodeUpRead_frame]; rfl

theorem Room.pixelTaken {s : State} {n : Nat} (h : Room s n) (p : Pixel) :
    Room (Machine.pixelTaken (encodeUpRead s).2 p) n := by
  rw [encodeUpRead_frame]; exact h

/-- A pixel equal to PRIOR (R240 case 1). -/
theorem encodeCase_run {s : State} (up : Pixel) :
    encodeCase s.enc.prior up s = .ok () (s.setEnc { s.enc with run := s.enc.run + 1 }) := by
  rw [encodeCase, steps_bind_ok (steps_get s), if_pos rfl]; rfl

/-- Any other pixel flushes the run first (R240 step 2). -/
theorem encodeCase_other {s : State} {p : Pixel} (up : Pixel) {n : Nat} (hp : p ≠ s.enc.prior)
    (h : Room s ((pendingRun s.enc.run).length + n)) :
    encodeCase p up s = encodeGroup p up (putAll (s.setEnc { s.enc with run := 0 }) (pendingRun s.enc.run)) := by
  rw [encodeCase, steps_bind_ok (steps_get s), if_neg hp, steps_bind_ok (flushRun_room h)]

/-- The LOOKUP group (R240 case 3, R242). -/
theorem encodeGroup_hit {s : State} {p : Pixel} (up : Pixel) {pre post : List Pixel} {j : Nat}
    (hm : s.mtf = pre ++ p :: post) (hn : p ∉ pre) (hj : pre.length = j + 1) (h : Room s 2) :
    encodeGroup p up s = .ok () (putAll ((s.setMtf (p :: (pre ++ post))).setEnc { s.enc with prior := p }) (lookupTokens j)) := by
  rw [encodeGroup, steps_bind_ok (mtfCheckAndInsert_hit hm hn), hj]
  obtain ⟨h1, h2⟩ := emit_room (s := s.setMtf (p :: (pre ++ post))) (n := 1) h .tag (tagValue .lookup)
  obtain ⟨h3, -⟩ := emit_room (n := 0) h2 .lookup (BitVec.ofNat 8 j)
  simp only
  rw [steps_bind_ok h1, steps_bind_ok h3, setPrior, steps_modify]
  rfl

/-- A hit at position 0 (R243). -/
theorem encodeGroup_head {s : State} {p : Pixel} (up : Pixel) {post : List Pixel} (hm : s.mtf = p :: post) :
    encodeGroup p up s = .error .cacheState s := by
  rw [encodeGroup, steps_bind_ok (mtfCheckAndInsert_hit (pre := []) hm (by simp))]
  have : s.setMtf (p :: ([] ++ post)) = s := by
    simp [State.setMtf, ← hm]
  rw [this]; rfl

/-- The DELTA or DELTA_UP group (R240 cases 4 to 6, R246). -/
theorem encodeGroup_miss {s : State} {p : Pixel} (up : Pixel) (hm : p ∉ s.mtf) (hl : s.mtf.length ≤ s.config.cacheCapacity)
    (h : Room s 5) :
    encodeGroup p up s = .ok () (putAll ((s.setMtf ((p :: s.mtf).take s.config.cacheCapacity)).setEnc { s.enc with prior := p })
      (deltaTokens p (predict p s.enc.prior up).1 (predict p s.enc.prior up).2)) := by
  rw [encodeGroup, steps_bind_ok (mtfCheckAndInsert_miss hm hl)]
  simp only
  rw [steps_bind_ok (steps_get _)]
  simp only [State.setMtf_enc]
  generalize predict p s.enc.prior up = c
  obtain ⟨h1, h2⟩ := emit_room (s := s.setMtf ((p :: s.mtf).take s.config.cacheCapacity)) (n := 4) h .tag (tagValue c.2)
  obtain ⟨h3, h4⟩ := emit_room (n := 3) h2 .deltaR (p.r - c.1.r)
  obtain ⟨h5, h6⟩ := emit_room (n := 2) h4 .deltaG (p.g - c.1.g)
  obtain ⟨h7, h8⟩ := emit_room (n := 1) h6 .deltaB (p.b - c.1.b)
  obtain ⟨h9, -⟩ := emit_room (n := 0) h8 .deltaA (p.a - c.1.a)
  rw [steps_bind_ok h1, emitDeltas, steps_bind (x := emit _ _ >>= _), steps_bind_ok h3, steps_bind_ok h5, steps_bind_ok h7, h9]
  simp only [setPrior, steps_modify]
  rfl

/-! ## What the buffered tokens leave unchanged, in every case -/

/-- `t` is `s` with tokens counted and buffered. -/
def Emitted (s t : State) : Prop := t = (s.setBuilder { s.builder with freq := t.builder.freq }).setTokbuf t.tokbuf

theorem emitted_iff {s t : State} : Emitted s t ↔
    t.config = s.config ∧ t.writer = s.writer ∧ t.reader = s.reader ∧ t.mtf = s.mtf ∧ t.builder.etree = s.builder.etree ∧
    t.builder.code = s.builder.code ∧ t.decoder = s.decoder ∧ t.image = s.image ∧ t.enc = s.enc ∧ t.dec = s.dec ∧
    t.status = s.status ∧ t.agents = s.agents ∧ t.host = s.host ∧ t.freeCount = s.freeCount ∧ t.treeOut = s.treeOut := by
  constructor
  · intro h
    rw [h]
    simp
  · intro h
    obtain ⟨c, w, r, m, ⟨f, e, cd⟩, tb, d, i, en, de, st, a, ho, fc, tr⟩ := t
    simp only at h
    obtain ⟨rfl, rfl, rfl, rfl, rfl, rfl, rfl, rfl, rfl, rfl, rfl, rfl, rfl, rfl, rfl⟩ := h
    rfl

theorem Emitted.refl (s : State) : Emitted s s := by simp [emitted_iff]

theorem Emitted.trans (s t u : State) (h : Emitted s t) (h' : Emitted t u) : Emitted s u := by
  rw [emitted_iff] at *
  simp_all

theorem putToken_emitted (k v : Byte) : Within Emitted (putToken k v) := by
  refine Within.bind Emitted.trans (Within.ite (Within.raise Emitted.refl _) (Within.pure Emitted.refl _)) fun _ => ?_
  refine Within.get_bind fun s => Within.ite (Within.raise Emitted.refl _) (Within.bind Emitted.trans ?_ fun _ => ?_)
  · refine Within.bind Emitted.trans (Within.ite (Within.raise Emitted.refl _) (Within.pure Emitted.refl _)) fun _ => ?_
    intro s
    constructor
    · intro a t h
      rw [steps_bind_ok (steps_get s)] at h
      by_cases hc : classTotal s.builder.freq k = 2 ^ 32 - 1
      · rw [if_pos hc] at h; cases h
      · rw [if_neg hc] at h; cases h; rfl
    · intro c t h
      rw [steps_bind_ok (steps_get s)] at h
      by_cases hc : classTotal s.builder.freq k = 2 ^ 32 - 1
      · rw [if_pos hc] at h; cases h; exact Emitted.refl s
      · rw [if_neg hc] at h; cases h
  · exact Within.modify fun s => rfl

theorem emit_emitted (c : TokenClass) (v : Byte) : Within Emitted (emit c v) := putToken_emitted _ _

theorem emitRunBytes_emitted (r : Word) (b : Nat) : Within Emitted (emitRunBytes r b) := by
  induction b with
  | zero => exact Within.pure Emitted.refl _
  | succ b ih => exact Within.bind Emitted.trans (emit_emitted _ _) fun _ => ih

theorem runFlush_emitted (run : Word) : Within Emitted (runFlush run) :=
  Within.bind Emitted.trans (emit_emitted _ _) fun _ => Within.bind Emitted.trans (emit_emitted _ _) fun _ =>
    emitRunBytes_emitted _ _

theorem emitDeltas_emitted (p b : Pixel) : Within Emitted (emitDeltas p b) :=
  Within.bind Emitted.trans (emit_emitted _ _) fun _ => Within.bind Emitted.trans (emit_emitted _ _) fun _ =>
    Within.bind Emitted.trans (emit_emitted _ _) fun _ => emit_emitted _ _

/-- `t` is `s` with tokens counted and buffered and perhaps the run reset. -/
def Flushed (s t : State) : Prop := ∃ u, Emitted s u ∧ (t = u ∨ t = u.setEnc { u.enc with run := 0 })

theorem flushRun_flushed : Within Flushed flushRun := by
  intro s
  constructor
  · intro a t h
    rw [flushRun, steps_bind_ok (steps_get s)] at h
    by_cases hr : s.enc.run.toNat > 0
    · rw [if_pos hr] at h
      obtain ⟨_, u, h1, h2⟩ := steps_bind_inv h
      cases h2
      exact ⟨u, (runFlush_emitted _ s).1 _ _ h1, .inr rfl⟩
    · rw [if_neg hr] at h; cases h; exact ⟨s, Emitted.refl s, .inl rfl⟩
  · intro c t h
    rw [flushRun, steps_bind_ok (steps_get s)] at h
    by_cases hr : s.enc.run.toNat > 0
    · rw [if_pos hr] at h
      rcases steps_bind_error_inv h with h1 | ⟨_, u, -, h2⟩
      · exact ⟨t, (runFlush_emitted _ s).2 _ _ h1, .inl rfl⟩
      · cases h2
    · rw [if_neg hr] at h; cases h

/-! ## The causes -/

abbrev tokenCauses : List Cause := [.tokbufFull, .countOverflow]

/-- Every state. -/
def anyState (_ : State) : Prop := True

theorem anyState_keeps {α : Type} (m : M α) : Keeps anyState m := fun _ _ _ _ _ => trivial

theorem htbCount_raises {k : Byte} (v : Byte) (hk : classOk k) : Raises anyState [.countOverflow] (htbCount k v) := by
  intro s c t _ h
  rw [htbCount, steps_bind_ok (checkClass_ok hk s), steps_bind_ok (steps_get s)] at h
  by_cases hc : classTotal s.builder.freq k = 2 ^ 32 - 1
  · rw [if_pos hc] at h; cases h; simp
  · rw [if_neg hc] at h; cases h

theorem putToken_raises {k : Byte} (v : Byte) (hk : classOk k) : Raises anyState tokenCauses (putToken k v) := by
  intro s c t _ h
  rw [putToken, steps_bind_ok (checkClass_ok hk s), steps_bind_ok (steps_get s)] at h
  by_cases hf : tokbufFull s = true
  · rw [if_pos hf] at h; cases h; simp
  · rw [if_neg hf] at h
    rcases steps_bind_error_inv h with h1 | ⟨_, u, -, h2⟩
    · have := htbCount_raises v hk s c t trivial h1
      simp at this; simp [this]
    · cases h2

theorem emit_raises (c : TokenClass) (v : Byte) : Raises anyState tokenCauses (emit c v) := putToken_raises v (classId_ok c)

theorem emitRunBytes_raises (r : Word) (b : Nat) : Raises anyState tokenCauses (emitRunBytes r b) := by
  induction b with
  | zero => exact Raises.pure _
  | succ b ih => exact (emit_raises _ _).bind (anyState_keeps _) fun _ => ih

theorem runFlush_raises (run : Word) : Raises anyState tokenCauses (runFlush run) :=
  (emit_raises _ _).bind (anyState_keeps _) fun _ => (emit_raises _ _).bind (anyState_keeps _) fun _ =>
    emitRunBytes_raises _ _

theorem flushRun_raises : Raises anyState tokenCauses flushRun := by
  refine Raises.get_bind fun s c u _ h => ?_
  by_cases hr : s.enc.run.toNat > 0
  · rw [if_pos hr] at h
    exact ((runFlush_raises _).bind (anyState_keeps _) fun _ => Raises.modify _) s c u trivial h
  · rw [if_neg hr] at h; cases h

theorem emitDeltas_raises (p b : Pixel) : Raises anyState tokenCauses (emitDeltas p b) :=
  (emit_raises _ _).bind (anyState_keeps _) fun _ => (emit_raises _ _).bind (anyState_keeps _) fun _ =>
    (emit_raises _ _).bind (anyState_keeps _) fun _ => emit_raises _ _

/-! ## The front of the cache is PRIOR (R243) -/

/-- The cache is empty or holds PRIOR at position 0. -/
def HeadIsPrior (s : State) : Prop := s.mtf = [] ∨ s.mtf.head? = some s.enc.prior

theorem Flushed.head {s t : State} (h : Flushed s t) : t.mtf = s.mtf ∧ t.enc.prior = s.enc.prior := by
  obtain ⟨u, h1, rfl | rfl⟩ := h <;> rw [emitted_iff] at h1
  · exact ⟨h1.2.2.2.1, by rw [h1.2.2.2.2.2.2.2.2.1]⟩
  · exact ⟨h1.2.2.2.1, by simp [h1.2.2.2.2.2.2.2.2.1]⟩

theorem Emitted.mtf {s t : State} (h : Emitted s t) : t.mtf = s.mtf := (emitted_iff.mp h).2.2.2.1

/-- A group after the cache was updated: it completes with PRIOR the pixel. -/
theorem setPrior_head {α : Type} {p : Pixel} {x : M α} (hx : Within Emitted x) {s t : State}
    (h : (x >>= fun _ => setPrior p) s = .ok () t) : t.mtf = s.mtf ∧ t.enc.prior = p := by
  obtain ⟨_, u, h1, h2⟩ := steps_bind_inv h
  cases h2
  exact ⟨((hx s).1 _ _ h1).mtf, rfl⟩

theorem mtfFind_zero {p : Pixel} {es : List Pixel} (h : mtfFind p es = some 0) : es.head? = some p := by
  cases es with
  | nil => cases h
  | cons e es =>
    rw [mtfFind] at h
    by_cases he : e = p
    · rw [he]; rfl
    · rw [if_neg he] at h
      cases hf : mtfFind p es <;> simp [hf] at h

theorem steps_assoc {α β γ : Type} (x : M α) (f : α → M β) (g : β → M γ) (s : State) :
    ((x >>= f) >>= g) s = (x >>= fun a => f a >>= g) s := by
  rw [steps_bind, steps_bind, steps_bind]
  cases x s <;> rfl

/-- The tokens of a LOOKUP group and the new PRIOR. -/
def lookupGroup (p : Pixel) (j : Nat) : M Unit := do
  emit .tag (tagValue .lookup)
  emit .lookup (BitVec.ofNat 8 j)
  setPrior p

/-- The tokens of a DELTA or DELTA_UP group and the new PRIOR. -/
def deltaGroup (p : Pixel) (choice : Pixel × Tag) : M Unit := do
  emit .tag (tagValue choice.2)
  emitDeltas p choice.1
  setPrior p

theorem lookupGroup_prior (p : Pixel) (j : Nat) {s t : State} (h : lookupGroup p j s = .ok () t) :
    t.mtf = s.mtf ∧ t.enc.prior = p := by
  refine setPrior_head (x := emit .tag (tagValue .lookup) >>= fun _ => emit .lookup (BitVec.ofNat 8 j))
    (Within.bind Emitted.trans (emit_emitted _ _) fun _ => emit_emitted _ _) ?_
  rw [steps_assoc]; exact h

theorem deltaGroup_prior (p : Pixel) (c : Pixel × Tag) {s t : State} (h : deltaGroup p c s = .ok () t) :
    t.mtf = s.mtf ∧ t.enc.prior = p := by
  refine setPrior_head (x := emit .tag (tagValue c.2) >>= fun _ => emitDeltas p c.1)
    (Within.bind Emitted.trans (emit_emitted _ _) fun _ => emitDeltas_emitted _ _) ?_
  rw [steps_assoc]; exact h

theorem lookupGroup_raises (p : Pixel) (j : Nat) : Raises anyState tokenCauses (lookupGroup p j) :=
  (emit_raises _ _).bind (anyState_keeps _) fun _ => (emit_raises _ _).bind (anyState_keeps _) fun _ => Raises.modify _

theorem deltaGroup_raises (p : Pixel) (c : Pixel × Tag) : Raises anyState tokenCauses (deltaGroup p c) :=
  (emit_raises _ _).bind (anyState_keeps _) fun _ => (emitDeltas_raises _ _).bind (anyState_keeps _) fun _ =>
    Raises.modify _

/-- What the group of a pixel can be (R240 steps 3 to 6). -/
theorem encodeGroup_eq (p up : Pixel) (s : State) : encodeGroup p up s =
    match mtfFind p s.mtf with
    | none => deltaGroup p (predict p s.enc.prior up) (s.setMtf (insertFront s.config.cacheCapacity s.mtf p))
    | some 0 => .error .cacheState (s.setMtf (moveToFront s.mtf 0 p))
    | some (j + 1) => lookupGroup p j (s.setMtf (moveToFront s.mtf (j + 1) p)) := by
  rw [encodeGroup, mtfCheckAndInsert, steps_bind (x := _ >>= _), steps_bind_ok (steps_get s)]
  cases mtfFind p s.mtf with
  | none => rfl
  | some j => cases j <;> rfl

theorem encodeGroup_prior {s : State} {p : Pixel} (up : Pixel) (hp : p ≠ s.enc.prior) (h : HeadIsPrior s) :
    (∀ t, encodeGroup p up s = .ok () t → HeadIsPrior t) ∧
      ∀ c t, encodeGroup p up s = .error c t → c ∈ tokenCauses := by
  rw [encodeGroup_eq]
  cases hf : mtfFind p s.mtf with
  | none =>
    refine ⟨fun t ht => .inr ?_, fun c t ht => deltaGroup_raises _ _ _ c t trivial ht⟩
    rw [(deltaGroup_prior _ _ ht).1, (deltaGroup_prior _ _ ht).2]
    simp only [State.setMtf_mtf, insertFront]
    split <;> rfl
  | some j =>
    cases j with
    | zero =>
      have := mtfFind_zero hf
      rcases h with h | h <;> rw [h] at this <;> cases this
      exact absurd rfl hp
    | succ j =>
      refine ⟨fun t ht => .inr ?_, fun c t ht => lookupGroup_raises _ _ _ c t trivial ht⟩
      rw [(lookupGroup_prior _ _ ht).1, (lookupGroup_prior _ _ ht).2]
      rfl

theorem encodePixel_prior {s : State} (p : Pixel) (h : HeadIsPrior s) :
    (∀ t, encodePixel p s = .ok () t → HeadIsPrior t) ∧
      ∀ c t, encodePixel p s = .error c t → c = .imageComplete ∨ c ∈ tokenCauses := by
  by_cases hi : s.image.i.toNat < s.image.pixels
  · rw [encodePixel_eq p hi]
    have h' : HeadIsPrior (pixelTaken (encodeUpRead s).2 p) := by
      unfold HeadIsPrior
      rw [pixelTaken_mtf, pixelTaken_enc]
      exact h
    generalize pixelTaken (encodeUpRead s).2 p = u at h'
    rw [encodeCase, steps_bind_ok (steps_get u)]
    by_cases hp : p = u.enc.prior
    · rw [if_pos hp]
      constructor
      · intro t ht; cases ht; exact h'
      · intro c t ht; cases ht
    · rw [if_neg hp]
      constructor
      · intro t ht
        obtain ⟨_, v, h1, h2⟩ := steps_bind_inv ht
        have hv := ((flushRun_flushed u).1 _ _ h1).head
        refine (encodeGroup_prior (encodeUpRead s).1 (by rw [hv.2]; exact hp) ?_).1 t h2
        unfold HeadIsPrior
        rw [hv.1, hv.2]
        exact h'
      · intro c t ht
        rcases steps_bind_error_inv ht with h1 | ⟨_, v, h1, h2⟩
        · exact .inr (flushRun_raises u c t trivial h1)
        · have hv := ((flushRun_flushed u).1 _ _ h1).head
          refine .inr ((encodeGroup_prior (encodeUpRead s).1 (by rw [hv.2]; exact hp) ?_).2 c t h2)
          unfold HeadIsPrior
          rw [hv.1, hv.2]
          exact h'
  · rw [encodePixel, steps_bind_error (checkImage_full (by omega))]
    constructor
    · intro t ht; cases ht
    · intro c t ht; cases ht; exact .inl rfl

end Sys2Proof.Machine
end

