-- ==== Sys2Proof/Laws/PixelDecoder.lean ====
section
/-! SUPPORT. What the decode side of the pixel codec does with the groups of tokens that the bits ahead spell (45_pixel_codec.md
R260, R261). -/

namespace Sys2Proof.Machine

theorem Took.decoder {s t : State} (h : Took s t) : t.decoder = s.decoder := (onlyRead_iff.mp h.frame).2.2.2.2.2.1
theorem Took.dec {s t : State} (h : Took s t) : t.dec = s.dec := (onlyRead_iff.mp h.frame).2.2.2.2.2.2.2.2.1
theorem Took.mtf {s t : State} (h : Took s t) : t.mtf = s.mtf := (onlyRead_iff.mp h.frame).2.2.1
theorem Took.config {s t : State} (h : Took s t) : t.config = s.config := (onlyRead_iff.mp h.frame).1
theorem Took.image {s t : State} (h : Took s t) : t.image = s.image := (onlyRead_iff.mp h.frame).2.2.2.2.2.2.1

theorem Took.setDec {s t : State} (h : Took s t) (d : PxDecoder) : Took (s.setDec d) (t.setDec d) := by
  refine ⟨?_, h.bytes, h.pending⟩
  have := onlyRead_iff.mp h.frame
  rw [onlyRead_iff]
  simp only [State.setDec]
  tauto

theorem Took.setMtf {s t : State} (h : Took s t) (m : List Pixel) : Took (s.setMtf m) (t.setMtf m) := by
  refine ⟨?_, h.bytes, h.pending⟩
  have := onlyRead_iff.mp h.frame
  rw [onlyRead_iff]
  simp only [State.setMtf]
  tauto

@[simp] theorem streamIn_setDec (s : State) (d : PxDecoder) : streamIn (s.setDec d) = streamIn s := rfl
@[simp] theorem streamIn_setMtf (s : State) (m : List Pixel) : streamIn (s.setMtf m) = streamIn s := rfl
@[simp] theorem streamIn_setFreeCount (s : State) (n : Nat) : streamIn (s.setFreeCount n) = streamIn s := rfl

/-- The bits ahead spell these tokens in the loaded trees, and then `rest` follows. -/
def Ahead (s : State) (ts : List Token) (rest : Bits) : Prop :=
  ∃ bits, Spells s.decoder.dtree ts bits ∧ streamIn s = bits ++ rest

theorem Spells.append {d : Table CodeTree} {ts us : List Token} {bits : Bits} (h : Spells d (ts ++ us) bits) :
    ∃ a b, bits = a ++ b ∧ Spells d ts a ∧ Spells d us b := by
  induction ts generalizing bits with
  | nil => exact ⟨[], bits, rfl, rfl, h⟩
  | cons t ts ih =>
    obtain ⟨c, cs, tree, rfl, h1, h2, h3, h4⟩ := h
    obtain ⟨a, b, rfl, h5, h6⟩ := ih h4
    exact ⟨c ++ a, b, by simp, ⟨c, a, tree, rfl, h1, h2, h3, h5⟩, h6⟩

theorem Spells.join {d : Table CodeTree} {ts us : List Token} {a b : Bits} (h : Spells d ts a) (h' : Spells d us b) :
    Spells d (ts ++ us) (a ++ b) := by
  induction ts generalizing a with
  | nil => rw [show a = [] from h]; exact h'
  | cons t ts ih =>
    obtain ⟨c, cs, tree, rfl, h1, h2, h3, h4⟩ := h
    exact ⟨c, cs ++ b, tree, by simp, h1, h2, h3, ih h4⟩

/-- HD_READ of the class of the next token spelled (R224). -/
theorem readClass_ahead {s : State} {c : TokenClass} {v : Byte} {ts : List Token} {rest : Bits}
    (h : Ahead s (token c v :: ts) rest) :
    ∃ u, readClass c s = .ok v u ∧ Took s u ∧ Ahead u ts rest := by
  obtain ⟨bits, ⟨x, xs, tree, rfl, h1, h2, h3, h4⟩, h5⟩ := h
  rw [List.append_assoc] at h5
  obtain ⟨u, h6, h7, h8⟩ := hdRead_took (s := s) h1 h2 h3 h5
  exact ⟨u, h6, h8, xs, by rw [h8.decoder]; exact h4, h7⟩

theorem Ahead.nil {s : State} {rest : Bits} (h : Ahead s [] rest) : streamIn s = rest := by
  obtain ⟨bits, h1, h2⟩ := h
  rw [h2, show bits = [] from h1]; rfl

/-! ## The RUN group -/

theorem runDigit (r : Word) (x : Byte) (R n : Nat) (hx : x.toNat = R / 256 ^ n % 256) :
    (((r * 256 + x.setWidth 32 : Word).toNat) * 256 ^ n + R % 256 ^ n) % 2 ^ 32 =
      (r.toNat * 256 ^ (n + 1) + R % 256 ^ (n + 1)) % 2 ^ 32 := by
  have h1 : R % 256 ^ (n + 1) = R / 256 ^ n % 256 * 256 ^ n + R % 256 ^ n := by
    rw [Nat.pow_succ, Nat.mod_mul, Nat.mul_comm, Nat.add_comm]
  have h2 : (r * 256 + x.setWidth 32 : Word).toNat = (r.toNat * 256 + x.toNat) % 2 ^ 32 := by
    rw [BitVec.toNat_add, BitVec.toNat_mul, BitVec.toNat_setWidth]
    have : x.toNat % 2 ^ 32 = x.toNat := Nat.mod_eq_of_lt (by have := x.isLt; omega)
    rw [this, show (256 : Word).toNat = 256 from rfl, Nat.add_mod, Nat.mod_mod, ← Nat.add_mod]
  rw [h1, h2, hx]
  have h3 : ∀ a b c : Nat, (a % 2 ^ 32 * b + c) % 2 ^ 32 = (a * b + c) % 2 ^ 32 := by
    intro a b c
    rw [Nat.add_mod, Nat.mul_mod, Nat.mod_mod, ← Nat.mul_mod, ← Nat.add_mod]
  rw [h3]
  congr 1
  rw [Nat.pow_succ]
  ring

/-- The bytes of a run value, most significant first (R260; 30_encoding.md R108). -/
theorem readRunBytes_ahead (R : Word) (us : List Token) (rest : Bits) (n : Nat) : ∀ (r : Word) {s : State},
    Ahead s (runByteTokens R n ++ us) rest →
    ∃ x u, readRunBytes n r s = .ok x u ∧ Took s u ∧ Ahead u us rest ∧
      x.toNat = (r.toNat * 256 ^ n + R.toNat % 256 ^ n) % 2 ^ 32 := by
  induction n with
  | zero =>
    intro r s h
    refine ⟨r, s, rfl, Took.refl s, h, ?_⟩
    rw [Nat.pow_zero, Nat.mod_one, Nat.mul_one, Nat.add_zero, Nat.mod_eq_of_lt r.isLt]
  | succ n ih =>
    intro r s h
    rw [runByteTokens_succ, List.cons_append] at h
    obtain ⟨u, h1, h2, h3⟩ := readClass_ahead h
    obtain ⟨x, w, h4, h5, h6, h7⟩ := ih (r * 256 + (BitVec.ofNat 8 (R.toNat / 256 ^ n)).setWidth 32) h3
    refine ⟨x, w, ?_, h2.trans h5, h6, ?_⟩
    · rw [readRunBytes, steps_bind_ok h1, h4]
    · rw [h7]
      exact runDigit r _ R.toNat n (by rw [BitVec.toNat_ofNat])

theorem decodeRun_ahead {s : State} {b : Nat} {r : Word} {us : List Token} {rest : Bits} (hb : b ≤ 4) (hr : r.toNat < 256 ^ b)
    (h : Ahead s (token .byteCount (BitVec.ofNat 8 b) :: runByteTokens r b ++ us) rest) :
    ∃ t, decodeRun s = .ok () t ∧ Took (s.setDec { s.dec with drun := r }) t ∧ Ahead t us rest := by
  rw [List.cons_append] at h
  obtain ⟨u, h1, h2, h3⟩ := readClass_ahead h
  have hbn : (BitVec.ofNat 8 b).toNat = b := by
    rw [BitVec.toNat_ofNat]; exact Nat.mod_eq_of_lt (by omega)
  obtain ⟨x, w, h4, h5, h6, h7⟩ := readRunBytes_ahead r us rest b 0 h3
  have hx : x = r := by
    apply BitVec.eq_of_toNat_eq
    rw [h7, show (0 : Word).toNat = 0 from rfl, Nat.zero_mul, Nat.zero_add, Nat.mod_eq_of_lt hr, Nat.mod_eq_of_lt r.isLt]
  subst hx
  refine ⟨w.setDec { w.dec with drun := x }, ?_, ?_, h6⟩
  · rw [decodeRun, steps_bind_ok h1, if_neg (by rw [hbn]; exact Nat.not_lt.mpr hb), hbn, steps_bind_ok h4, steps_modify]
  · have := (h2.trans h5).setDec { w.dec with drun := x }
    rwa [(h2.trans h5).dec] at this ⊢

/-! ## The LOOKUP group -/

theorem decodeLookup_ahead {s : State} {p : Pixel} {pre post : List Pixel} {v : Byte} {us : List Token} {rest : Bits}
    (h : Ahead s (token .lookup v :: us) rest) (hm : s.mtf = pre ++ p :: post) (hv : pre.length = v.toNat + 1) :
    ∃ t, decodeLookup s = .ok () t ∧ Took ((s.setMtf (p :: (pre ++ post))).setDec { s.dec with c := p }) t ∧
      Ahead t us rest := by
  obtain ⟨u, h1, h2, h3⟩ := readClass_ahead h
  refine ⟨(u.setMtf (p :: (pre ++ post))).setDec { u.dec with c := p }, ?_, ?_, h3⟩
  · rw [decodeLookup, steps_bind_ok h1, steps_bind_ok (steps_get u), if_neg, ← hv,
      steps_bind_ok (mtfFetch_ok (h2.mtf.trans hm)), setColour, steps_modify]
    · rfl
    · rw [State.mtfLen, h2.mtf, hm]; simp; omega
  · have := (h2.setMtf (p :: (pre ++ post))).setDec { u.dec with c := p }
    rwa [h2.dec] at this ⊢

/-! ## The DELTA groups -/

/-- One delta, added to the channel of C, where C is `q` so far. -/
theorem readDelta_ahead {o s : State} {q : Pixel} {ch : Channel} {x : Byte} {us : List Token} {rest : Bits}
    (hk : Took (o.setDec { o.dec with c := q }) s) (h : Ahead s (token (deltaClass ch) x :: us) rest) :
    ∃ t, readDelta ch s = .ok () t ∧
      Took (o.setDec { o.dec with c := setChannel q ch (getChannel q ch + x) }) t ∧ Ahead t us rest := by
  obtain ⟨u, h1, h2, h3⟩ := readClass_ahead h
  refine ⟨u.setDec { u.dec with c := setChannel u.dec.c ch (getChannel u.dec.c ch + x) }, ?_, ?_, h3⟩
  · rw [readDelta, steps_bind_ok h1, steps_modify]
  · have hd : u.dec = { o.dec with c := q } := (hk.trans h2).dec
    rw [hd]
    exact (hk.trans h2).setDec _

/-- The four delta tokens of a difference. -/
def channelTokens (d : Pixel) : List Token := [token .deltaR d.r, token .deltaG d.g, token .deltaB d.b, token .deltaA d.a]

theorem decodeDeltas_ahead {s : State} {d : Pixel} {us : List Token} {rest : Bits}
    (h : Ahead s (channelTokens d ++ us) rest) (hl : s.mtf.length ≤ s.config.cacheCapacity) :
    ∃ t, decodeDeltas s = .ok () t ∧
      Took ((s.setMtf (cacheTouch s.config.cacheCapacity s.mtf (addPixel s.dec.c d))).setDec
        { s.dec with c := addPixel s.dec.c d }) t ∧ Ahead t us rest := by
  obtain ⟨t1, r1, k1, a1⟩ := readDelta_ahead (o := s) (q := s.dec.c) (ch := .r) (Took.refl s) h
  obtain ⟨t2, r2, k2, a2⟩ := readDelta_ahead (ch := .g) k1 a1
  obtain ⟨t3, r3, k3, a3⟩ := readDelta_ahead (ch := .b) k2 a2
  obtain ⟨t4, r4, k4, a4⟩ := readDelta_ahead (ch := .a) k3 a3
  have hk : Took (s.setDec { s.dec with c := addPixel s.dec.c d }) t4 := k4
  have hm : t4.mtf = s.mtf := hk.mtf
  have hc : t4.config = s.config := hk.config
  have hd : t4.dec.c = addPixel s.dec.c d := by rw [hk.dec]; rfl
  obtain ⟨r, h5, -⟩ := mtfCheckAndInsert_touch (s := t4) t4.dec.c (by rw [hm, hc]; exact hl)
  rw [hm, hc, hd] at h5
  refine ⟨t4.setMtf (cacheTouch s.config.cacheCapacity s.mtf (addPixel s.dec.c d)), ?_, hk.setMtf _, a4⟩
  rw [decodeDeltas, steps_bind_ok r1, steps_bind_ok r2, steps_bind_ok r3, steps_bind_ok r4, steps_bind_ok (steps_get t4), hd,
    steps_bind_ok h5]
  rfl

/-! ## The dispatch -/

theorem tagOf_value (t : Tag) : tagOf (tagValue t) = some t := by cases t <;> decide

theorem decodeGroup_ahead {s : State} {t : Tag} {us : List Token} {rest : Bits}
    (h : Ahead s (token .tag (tagValue t) :: us) rest) :
    ∃ u, Took s u ∧ Ahead u us rest ∧ decodeGroup s =
      (match t with
       | .run => decodeRun
       | .lookup => decodeLookup
       | .delta => decodeDeltas
       | .deltaUp => do
         let up ← decodeUp
         setColour up
         decodeDeltas) u := by
  obtain ⟨u, h1, h2, h3⟩ := readClass_ahead h
  refine ⟨u, h2, h3, ?_⟩
  rw [decodeGroup, steps_bind_ok h1, tagOf_value]
  cases t <;> rfl

theorem decodeUp_eq (s : State) : decodeUp s = .ok (decodeUpRead s).1 (decodeUpRead s).2 := by
  rw [decodeUp, steps_bind_ok (steps_get s), decodeUpRead]
  by_cases h : s.image.row = 0
  · rw [if_pos h, if_pos h]; rfl
  · rw [if_neg h, if_neg h, memoryRead]
    cases s.dec.out.read (s.image.i.toNat - s.image.w.toNat) <;> rfl

/-- Reading `up` changes only the model's count of free values. -/
theorem decodeUpRead_frame (s : State) : (decodeUpRead s).2 = s.setFreeCount (decodeUpRead s).2.freeCount := by
  rw [decodeUpRead]
  cases (if s.image.row = 0 then some zeroPixel else s.dec.out.read (s.image.i.toNat - s.image.w.toNat)) <;> rfl

theorem Took.decodeUpRead {s t : State} (h : Took s t) :
    (Machine.decodeUpRead t).1 = (Machine.decodeUpRead s).1 ∧ Took (Machine.decodeUpRead s).2 (Machine.decodeUpRead t).2 := by
  have hf : t.freeCount = s.freeCount := (onlyRead_iff.mp h.frame).2.2.2.2.2.2.2.2.2.2.2.2.2.2.1
  have key : ∀ x : Option Pixel, (pixelOr t x).1 = (pixelOr s x).1 ∧ Took (pixelOr s x).2 (pixelOr t x).2 := by
    intro x
    cases x with
    | some p => exact ⟨rfl, h⟩
    | none =>
      refine ⟨by simp [pixelOr, hf], ⟨?_, h.bytes, h.pending⟩⟩
      have := onlyRead_iff.mp h.frame
      rw [onlyRead_iff]
      simp only [pixelOr, State.setFreeCount]
      tauto
  rw [Machine.decodeUpRead, Machine.decodeUpRead, h.image, h.dec]
  exact key _

/-- PX_DEC_PIXEL is its colour, OUT and I (R260). -/
theorem decodePixel_eq {s t : State} (hi : s.image.i.toNat < s.image.pixels) (h : decodeColour s = .ok () t) :
    decodePixel s = .ok t.dec.c (pixelGiven t) := by
  rw [decodePixel, steps_bind_ok (checkImage_ok hi), steps_bind_ok h, storeOut, steps_bind_ok (steps_modify _ _), advance,
    steps_bind_ok (steps_modify _ _), steps_bind_ok (steps_get _)]
  rfl

theorem decodePixel_error {s t : State} {c : Cause} (hi : s.image.i.toNat < s.image.pixels)
    (h : decodeColour s = .error c t) : decodePixel s = .error c t := by
  rw [decodePixel, steps_bind_ok (checkImage_ok hi), steps_bind_error h]

theorem decodeColour_countdown {s : State} (h : s.dec.drun ≠ 0) :
    decodeColour s = .ok () (s.setDec { s.dec with drun := s.dec.drun - 1 }) := by
  have h0 : s.dec.drun.toNat > 0 := by
    rcases Nat.eq_zero_or_pos s.dec.drun.toNat with h0 | h0
    · exact absurd (BitVec.eq_of_toNat_eq h0) h
    · exact h0
  rw [decodeColour, steps_bind_ok (steps_get s), if_pos h0]; rfl

theorem decodeColour_group {s : State} (h : s.dec.drun = 0) : decodeColour s = decodeGroup s := by
  rw [decodeColour, steps_bind_ok (steps_get s), if_neg (by simp [h])]

/-- A RUN group (R260, R261). -/
theorem decodeColour_run {s : State} {b : Nat} {r : Word} {us : List Token} {rest : Bits} (hd : s.dec.drun = 0) (hb : b ≤ 4)
    (hr : r.toNat < 256 ^ b) (h : Ahead s (runGroup b r ++ us) rest) :
    ∃ t, decodeColour s = .ok () t ∧ Took (s.setDec { s.dec with drun := r }) t ∧ Ahead t us rest := by
  obtain ⟨u, h1, h2, h3⟩ := decodeGroup_ahead (t := .run) h
  obtain ⟨t, h4, h5, h6⟩ := decodeRun_ahead hb hr h2
  refine ⟨t, by rw [decodeColour_group hd, h3]; exact h4, ?_, h6⟩
  rw [h1.dec] at h5
  exact (h1.setDec _).trans h5

/-- A LOOKUP group (R260, R261). -/
theorem decodeColour_lookup {s : State} {p : Pixel} {pre post : List Pixel} {v : Byte} {us : List Token} {rest : Bits}
    (hd : s.dec.drun = 0) (h : Ahead s (token .tag 1 :: token .lookup v :: us) rest) (hm : s.mtf = pre ++ p :: post)
    (hv : pre.length = v.toNat + 1) :
    ∃ t, decodeColour s = .ok () t ∧ Took ((s.setMtf (p :: (pre ++ post))).setDec { s.dec with c := p }) t ∧
      Ahead t us rest := by
  obtain ⟨u, h1, h2, h3⟩ := decodeGroup_ahead (t := .lookup) h
  obtain ⟨t, h4, h5, h6⟩ := decodeLookup_ahead h2 (h1.mtf.trans hm) hv
  refine ⟨t, by rw [decodeColour_group hd, h3]; exact h4, ?_, h6⟩
  rw [h1.dec] at h5
  exact ((h1.setMtf _).setDec _).trans h5

/-- A DELTA group (R260, R261). -/
theorem decodeColour_delta {s : State} {d : Pixel} {us : List Token} {rest : Bits} (hd : s.dec.drun = 0)
    (h : Ahead s (token .tag 2 :: channelTokens d ++ us) rest) (hl : s.mtf.length ≤ s.config.cacheCapacity) :
    ∃ t, decodeColour s = .ok () t ∧
      Took ((s.setMtf (cacheTouch s.config.cacheCapacity s.mtf (addPixel s.dec.c d))).setDec
        { s.dec with c := addPixel s.dec.c d }) t ∧ Ahead t us rest := by
  obtain ⟨u, h1, h2, h3⟩ := decodeGroup_ahead (t := .delta) h
  obtain ⟨t, h4, h5, h6⟩ := decodeDeltas_ahead h2 (by rw [h1.mtf, h1.config]; exact hl)
  refine ⟨t, by rw [decodeColour_group hd, h3]; exact h4, ?_, h6⟩
  rw [h1.dec, h1.mtf, h1.config] at h5
  exact ((h1.setMtf _).setDec _).trans h5

/-- A DELTA_UP group (R260, R261, R262). -/
theorem decodeColour_deltaUp {s : State} {d : Pixel} {us : List Token} {rest : Bits} (hd : s.dec.drun = 0)
    (h : Ahead s (token .tag 3 :: channelTokens d ++ us) rest) (hl : s.mtf.length ≤ s.config.cacheCapacity) :
    ∃ t, decodeColour s = .ok () t ∧
      Took (((decodeUpRead s).2.setMtf (cacheTouch s.config.cacheCapacity s.mtf (addPixel (decodeUpRead s).1 d))).setDec
        { s.dec with c := addPixel (decodeUpRead s).1 d }) t ∧ Ahead t us rest := by
  obtain ⟨u, h1, h2, h3⟩ := decodeGroup_ahead (t := .deltaUp) h
  obtain ⟨hu, hk⟩ := h1.decodeUpRead
  have hs2 := decodeUpRead_frame s
  have hu2 := decodeUpRead_frame u
  have hk' := hk.setDec { s.dec with c := (decodeUpRead s).1 }
  obtain ⟨t, h4, h5, h6⟩ := decodeDeltas_ahead
    (s := (decodeUpRead u).2.setDec { s.dec with c := (decodeUpRead s).1 }) (d := d) (us := us) (rest := rest)
    (by rw [hu2]; exact h2) (by rw [hk'.mtf, hk'.config, hs2]; exact hl)
  refine ⟨t, ?_, ?_, h6⟩
  · rw [decodeColour_group hd, h3]
    simp only
    rw [steps_bind_ok (decodeUp_eq u), hu, setColour, steps_bind_ok (steps_modify _ _)]
    have : (decodeUpRead u).2.dec = s.dec := by rw [hu2]; exact h1.dec
    rw [this, h4]
  · have e : Took (((decodeUpRead u).2.setDec { s.dec with c := (decodeUpRead s).1 }).setMtf
        (cacheTouch s.config.cacheCapacity s.mtf (addPixel (decodeUpRead s).1 d)) |>.setDec
        { s.dec with c := addPixel (decodeUpRead s).1 d }) t := by
      have hm : ((decodeUpRead u).2.setDec { s.dec with c := (decodeUpRead s).1 }).mtf = s.mtf := by
        rw [hk'.mtf, hs2]; rfl
      have hc : ((decodeUpRead u).2.setDec { s.dec with c := (decodeUpRead s).1 }).config = s.config := by
        rw [hk'.config, hs2]; rfl
      rw [hm, hc] at h5
      exact h5
    exact ((hk.setMtf _).setDec _).trans e

end Sys2Proof.Machine
end

