-- ==== Sys2Proof/Laws/Causes.lean ====
section
/-! SUPPORT. The causes that the steps of each command can raise (60_exceptions.md R303). -/

namespace Sys2Proof.Machine

section
variable {α β : Type} {cs : List Cause}

/-- In a sequence each part may raise its causes. -/
theorem Raises.seq {x : M α} {f : α → M β} (hx : Raises anyState cs x) (hf : ∀ a, Raises anyState cs (f a)) :
    Raises anyState cs (x >>= f) := hx.bind (anyState_keeps _) hf

theorem Raises.get {f : State → M β} (hf : ∀ s, Raises anyState cs (f s)) :
    Raises anyState cs (do let s ← MonadState.get; f s) := Raises.get_bind fun s c u _ h => hf s s c u trivial h

theorem Raises.some {m : M α} {ds : List Cause} (h : Raises anyState ds m) (hc : ∀ c ∈ ds, c ∈ cs) : Raises anyState cs m :=
  h.mono (fun _ h => h) hc

theorem Raises.noResult {P : State → Prop} {body : M Unit} (h : Raises P cs body) : Raises P cs (noResult body) := by
  intro s c t hs ht
  rcases steps_bind_error_inv ht with h1 | ⟨_, u, -, h2⟩
  · exact h s c t hs h1
  · cases h2

theorem Raises.thrown {c : Cause} (h : c ∈ cs) : Raises anyState cs (throw c : M α) := by intro s c' t _ h'; cases h'; exact h

end

/-! ## The bit streams -/

theorem sinkPut_raises (b : Byte) : Raises anyState [.sinkIo] (sinkPut b) := by
  intro s c t _ h
  unfold sinkPut at h
  cases hs : s.agents.sinkAnswers with
  | nil => rw [hs] at h; cases h
  | cons x rest => rw [hs] at h; cases x <;> cases h; simp

theorem putBit_raises (b : Bool) : Raises anyState [.sinkIo] (putBit b) :=
  Raises.get fun _ => (Raises.modify _).seq fun _ =>
    Raises.ite (fun _ => (sinkPut_raises _).seq fun _ => Raises.modify _) (fun _ => Raises.pure _)

theorem putBits_raises (bs : Bits) : Raises anyState [.sinkIo] (putBits bs) := by
  induction bs with
  | nil => exact Raises.pure _
  | cons b bs ih => exact (putBit_raises b).seq fun _ => ih

theorem writeBits_raises (v : Word) (n : Nat) : Raises anyState [.sinkIo] (writeBits v n) := putBits_raises _

theorem bwFlush_raises : Raises anyState [.sinkIo] bwFlush :=
  Raises.get fun _ => Raises.ite (fun _ => (sinkPut_raises _).seq fun _ => Raises.modify _) (fun _ => Raises.pure _)

theorem bwWriteBits_raises (w : Byte) (v : Word) : Raises anyState [.widthRange, .sinkIo] (bwWriteBits w v) :=
  Raises.ite (fun _ => Raises.raise (by simp)) (fun _ => (writeBits_raises _ _).some (by simp))

/-- What a read past the end raises. -/
abbrev readCauses : List Cause := [.eos, .sourceIo]

theorem sourceGet_raises : Raises anyState readCauses sourceGet := by
  intro s c t _ h
  unfold sourceGet at h
  cases hs : s.agents.source with
  | nil => rw [hs] at h; cases h; simp
  | cons x rest => rw [hs] at h; cases x <;> cases h <;> simp

theorem getBit_raises : Raises anyState readCauses getBit :=
  Raises.seq (Raises.get fun _ => Raises.ite (fun _ => sourceGet_raises.seq fun _ => Raises.modify _) (fun _ => Raises.pure _))
    fun _ => Raises.get fun _ => (Raises.modify _).seq fun _ => Raises.pure _

theorem parseBits_raises (n : Nat) (v : Word) : Raises anyState readCauses (parseBits getBit n v) := by
  induction n generalizing v with
  | zero => exact Raises.pure _
  | succ n ih => exact getBit_raises.seq fun _ => ih _

theorem parseByte_raises : Raises anyState readCauses (parseByte getBit) := (parseBits_raises _ _).seq fun _ => Raises.pure _
theorem parseHalf_raises : Raises anyState readCauses (parseHalf getBit) := (parseBits_raises _ _).seq fun _ => Raises.pure _

abbrev tableCauses : List Cause := [.eos, .sourceIo, .treeTooLarge]

theorem readCauses_table : ∀ c ∈ readCauses, c ∈ tableCauses := by simp

theorem parseNode_raises (fuel count : Nat) : Raises anyState tableCauses (parseNode getBit Cause.treeTooLarge fuel count) := by
  induction fuel generalizing count with
  | zero => exact Raises.thrown (by simp)
  | succ fuel ih =>
    exact Raises.ite (fun _ => Raises.thrown (by simp)) fun _ => (getBit_raises.some readCauses_table).seq fun _ =>
      Raises.ite (fun _ => (ih _).seq fun _ => (ih _).seq fun _ => Raises.pure _)
        (fun _ => (parseByte_raises.some readCauses_table).seq fun _ => Raises.pure _)

theorem parseItem_raises : Raises anyState tableCauses (parseItem getBit Cause.treeTooLarge) :=
  (parseByte_raises.some readCauses_table).seq fun _ => Raises.ite (fun _ => Raises.pure _)
    fun _ => Raises.seq ((parseNode_raises _ _).seq fun _ => Raises.pure _) fun _ => Raises.pure _

theorem parseTree_raises : Raises anyState tableCauses (parseTree getBit Cause.treeTooLarge) :=
  (parseNode_raises _ _).seq fun _ => Raises.pure _

abbrev headerCauses : List Cause := [.badMagic, .eos, .sourceIo]

theorem readCauses_header : ∀ c ∈ readCauses, c ∈ headerCauses := by simp

theorem parseBytes_raises (n : Nat) : Raises anyState readCauses (parseBytes getBit n) := by
  induction n with
  | zero => exact Raises.pure _
  | succ n ih => exact parseByte_raises.seq fun _ => ih.seq fun _ => Raises.pure _

theorem parseMagic_raises : Raises anyState headerCauses (parseMagic getBit Cause.badMagic) :=
  ((parseBytes_raises _).some readCauses_header).seq fun _ =>
    Raises.ite (fun _ => Raises.pure _) (fun _ => Raises.thrown (by simp))

theorem brReadBits_raises (w : Byte) : Raises anyState [.widthRange, .eos, .sourceIo] (brReadBits w) :=
  Raises.ite (fun _ => Raises.raise (by simp)) (fun _ => (parseBits_raises _ _).some (by simp))

/-! ## The cache -/

theorem mtfCheckAndInsert_raises (p : Pixel) : Raises anyState [] (mtfCheckAndInsert p) := by
  refine Raises.get fun s => ?_
  cases mtfFind p s.mtf with
  | some j => exact (Raises.modify _).seq fun _ => Raises.pure _
  | none => exact (Raises.modify _).seq fun _ => Raises.pure _

theorem mtfFetch_raises (j : Nat) : Raises anyState [.fetchRange] (mtfFetch j) := by
  refine Raises.get fun s => ?_
  cases s.mtf[j]? with
  | none => exact Raises.raise (by simp)
  | some p => exact (Raises.modify _).seq fun _ => Raises.pure _

/-- A fetch of an occupied position raises nothing. -/
theorem mtfFetch_completes {j : Nat} {s : State} (h : j < s.mtf.length) : ∃ p t, mtfFetch j s = .ok p t := by
  obtain ⟨p, pre, post, hm, rfl⟩ := split_at h
  exact ⟨p, _, mtfFetch_ok hm⟩

/-! ## The tree builder and the encoder -/

theorem checkClass_raises (k : Byte) : Raises anyState [.classRange] (checkClass k) :=
  Raises.ite (fun _ => Raises.raise (by simp)) (fun _ => Raises.pure _)

theorem htbCount_raises_any (k v : Byte) : Raises anyState [.classRange, .countOverflow] (htbCount k v) := by
  refine ((checkClass_raises k).some (by simp)).seq fun _ => Raises.get fun s => ?_
  exact Raises.ite (fun _ => Raises.raise (by simp)) (fun _ => Raises.modify _)

theorem htbBuild_raises (k : Byte) : Raises anyState [.classRange] (htbBuild k) :=
  (checkClass_raises k).seq fun _ => Raises.get fun _ => Raises.modify _

theorem htbDerive_raises (k : Byte) : Raises anyState [.classRange] (htbDerive k) :=
  (checkClass_raises k).seq fun _ => Raises.get fun _ => Raises.modify _

theorem putToken_raises_any (k v : Byte) : Raises anyState [.classRange, .tokbufFull, .countOverflow] (putToken k v) := by
  refine ((checkClass_raises k).some (by simp)).seq fun _ => Raises.get fun s => ?_
  exact Raises.ite (fun _ => Raises.raise (by simp))
    (fun _ => ((htbCount_raises_any k v).some (by simp)).seq fun _ => Raises.modify _)

theorem encodeToken_raises_any (k v : Byte) : Raises anyState [.classRange, .noCode, .sinkIo] (encodeToken k v) := by
  refine ((checkClass_raises k).some (by simp)).seq fun _ => Raises.get fun s => ?_
  cases codeGet s.builder.code k v with
  | none => exact Raises.raise (by simp)
  | some bits => exact (putBits_raises _).some (by simp)

theorem encodeToken_raises {k : Byte} (v : Byte) (hk : classOk k) : Raises anyState [.noCode, .sinkIo] (encodeToken k v) := by
  intro s c t _ h
  rw [encodeToken, steps_bind_ok (checkClass_ok hk s), steps_bind_ok (steps_get s)] at h
  cases hc : codeGet s.builder.code k v with
  | none => rw [hc] at h; cases h; simp
  | some bits =>
    rw [hc] at h
    have := putBits_raises bits s c t trivial h
    simp at this; simp [this]

theorem writeRecord_raises {k : Byte} (hk : classOk k) : Raises anyState [.sinkIo] (writeRecord k) := by
  refine Raises.get fun s => Raises.ite (fun _ => ?_) (fun _ => Raises.pure _)
  have hb : ∀ s c t, htbBuild k s = .error c t → c ∈ [Cause.sinkIo] := by
    intro s c t h; rw [htbBuild_ok hk] at h; cases h
  have hd : ∀ s c t, htbDerive k s = .error c t → c ∈ [Cause.sinkIo] := by
    intro s c t h; rw [htbDerive_ok hk] at h; cases h
  refine Raises.seq (fun s c t _ h => hb s c t h) fun _ => Raises.seq (fun s c t _ h => hd s c t h) fun _ =>
    (writeBits_raises _ _).seq fun _ => Raises.get fun s => ?_
  cases tableGet s.builder.etree k.toNat with
  | some t => simp only; rw [writeTree_eq]; exact putBits_raises _
  | none => exact Raises.pure _

theorem writeRecords_raises (n : Nat) : ∀ k, k + n ≤ 255 → Raises anyState [.sinkIo] (writeRecords n k) := by
  induction n with
  | zero => intro k _; exact Raises.pure _
  | succ n ih =>
    intro k hk
    have hc : classOk (BitVec.ofNat 8 k) := by
      intro h
      have := congrArg BitVec.toNat h
      simp at this
      omega
    exact (writeRecord_raises hc).seq fun _ => ih (k + 1) (by omega)

theorem writeTable_raises : Raises anyState [.sinkIo] writeTable :=
  (writeRecords_raises 255 0 (by omega)).seq fun _ => writeBits_raises _ _

theorem encodeTokens_raises (ts : List Token) (h : ∀ x ∈ ts, classOk x.k) :
    Raises anyState [.noCode, .sinkIo] (encodeTokens ts) := by
  induction ts with
  | nil => exact Raises.pure _
  | cons t ts ih => exact (encodeToken_raises _ (h t (by simp))).seq fun _ => ih fun x hx => h x (by simp [hx])

/-- The token buffer holds no token of class 255. -/
def TokensNamed (s : State) : Prop := ∀ x ∈ s.tokbuf, x.k ≠ sentinelId

theorem writePayload_raises : Raises TokensNamed [.noCode, .sinkIo] writePayload :=
  Raises.get_bind fun s c u hs h => encodeTokens_raises _ hs s c u trivial h

/-- Writing leaves the token buffer as it is. -/
theorem writeTable_tokbuf : Within (fun s t : State => t.tokbuf = s.tokbuf) writeTable := by
  have tr : ∀ s t u : State, t.tokbuf = s.tokbuf → u.tokbuf = t.tokbuf → u.tokbuf = s.tokbuf := fun _ _ _ a b => b.trans a
  have rf : ∀ s : State, s.tokbuf = s.tokbuf := fun _ => rfl
  have hw : ∀ bs, Within (fun s t : State => t.tokbuf = s.tokbuf) (putBits bs) := fun bs =>
    (putBits_frame bs).mono fun _ _ h => h.tokbuf
  have hc : ∀ k, Within (fun s t : State => t.tokbuf = s.tokbuf) (checkClass k) := fun k =>
    Within.ite (Within.raise rf _) (Within.pure rf _)
  have hr : ∀ k, Within (fun s t : State => t.tokbuf = s.tokbuf) (writeRecord k) := by
    intro k
    refine Within.get_bind fun s => Within.ite (Within.bind tr ?_ fun _ => Within.bind tr ?_ fun _ =>
      Within.bind tr (hw _) fun _ => Within.get_bind fun s => ?_) (Within.pure rf _)
    · exact Within.bind tr (hc k) fun _ => Within.get_bind fun _ => Within.modify fun _ => rfl
    · exact Within.bind tr (hc k) fun _ => Within.get_bind fun _ => Within.modify fun _ => rfl
    · cases tableGet s.builder.etree k.toNat with
      | some t => simp only; rw [writeTree_eq]; exact hw _
      | none => exact Within.pure rf _
  have hrs : ∀ n k, Within (fun s t : State => t.tokbuf = s.tokbuf) (writeRecords n k) := by
    intro n
    induction n with
    | zero => intro k; exact Within.pure rf _
    | succ n ih => intro k; exact Within.bind tr (hr _) fun _ => ih _
  exact Within.bind tr (hrs _ _) fun _ => hw _

theorem finish_raises : Raises TokensNamed [.noCode, .sinkIo] finish := by
  have hk : Keeps TokensNamed writeTable := by
    intro s a t hs ht x hx
    rw [(writeTable_tokbuf s).1 a t ht] at hx
    exact hs x hx
  have hp : Keeps TokensNamed writePayload := by
    intro s a t hs ht x hx
    rw [writePayload, steps_bind_ok (steps_get s)] at ht
    have : ∀ ts : List Token, Within (fun s t : State => t.tokbuf = s.tokbuf) (encodeTokens ts) := by
      have tr : ∀ s t u : State, t.tokbuf = s.tokbuf → u.tokbuf = t.tokbuf → u.tokbuf = s.tokbuf := fun _ _ _ a b => b.trans a
      have rf : ∀ s : State, s.tokbuf = s.tokbuf := fun _ => rfl
      intro ts
      induction ts with
      | nil => exact Within.pure rf _
      | cons y ys ih =>
        refine Within.bind tr (Within.bind tr (Within.ite (Within.raise rf _) (Within.pure rf _)) fun _ =>
          Within.get_bind fun s => ?_) fun _ => ih
        cases codeGet s.builder.code y.k y.v with
        | none => exact Within.raise rf _
        | some bits => exact (putBits_frame bits).mono fun _ _ h => h.tokbuf
    rw [(this _ s).1 a t ht] at hx
    exact hs x hx
  refine Raises.bind (writeTable_raises.mono (fun _ _ => trivial) (by simp)) hk fun _ => ?_
  exact Raises.bind writePayload_raises hp fun _ => bwFlush_raises.mono (fun _ _ => trivial) (by simp)

/-! ## The decoder -/

theorem readRecords_raises (n : Nat) : Raises anyState tableCauses (readRecords n) := by
  induction n with
  | zero => exact Raises.raise (by simp)
  | succ n ih =>
    refine parseItem_raises.seq fun item => ?_
    cases item with
    | none => exact Raises.modify _
    | some kt => exact (Raises.modify _).seq fun _ => ih

theorem readTable_raises : Raises anyState tableCauses readTable := Raises.get fun _ => readRecords_raises _

theorem walkTree_raises (t : CodeTree) : Raises anyState readCauses (walkTree t) := by
  induction t with
  | leaf v => exact Raises.pure _
  | internal l r ihl ihr => exact getBit_raises.seq fun _ => Raises.ite (fun _ => ihr) (fun _ => ihl)

abbrev tokenReadCauses : List Cause := [.classNotFound, .eos, .sourceIo]

theorem hdRead_raises (k : Byte) : Raises anyState tokenReadCauses (hdRead k) := by
  refine Raises.get fun s => Raises.ite (fun _ => Raises.raise (by simp)) fun _ => ?_
  cases tableGet s.decoder.dtree k.toNat with
  | none => exact Raises.raise (by simp)
  | some t => exact (walkTree_raises t).some (by simp)

/-! ## The pixel codec -/

theorem checkImage_raises : Raises anyState [.imageComplete] checkImage :=
  Raises.get fun _ => Raises.ite (fun _ => Raises.raise (by simp)) (fun _ => Raises.pure _)

theorem memoryRead_raises (m : State → Memory) (x : Nat) : Raises anyState [] (memoryRead m x) := by
  intro s c t _ h
  unfold memoryRead at h
  cases hm : (m s).read x <;> rw [hm] at h <;> cases h

theorem encodeGroup_raises (p up : Pixel) : Raises anyState [.tokbufFull, .countOverflow, .cacheState] (encodeGroup p up) := by
  intro s c t _ h
  rw [encodeGroup_eq] at h
  cases hf : mtfFind p s.mtf with
  | none =>
    rw [hf] at h
    have := deltaGroup_raises _ _ _ c t trivial h
    simp at this; rcases this with rfl | rfl <;> simp
  | some j =>
    rw [hf] at h
    cases j with
    | zero => cases h; simp
    | succ j =>
      have := lookupGroup_raises _ _ _ c t trivial h
      simp at this; rcases this with rfl | rfl <;> simp

abbrev encodePixelCauses : List Cause := [.imageComplete, .tokbufFull, .countOverflow, .cacheState]

theorem encodePixel_raises (p : Pixel) : Raises anyState encodePixelCauses (encodePixel p) := by
  refine (checkImage_raises.some (by simp)).seq fun _ => Raises.seq ?_ fun up => (Raises.modify _).seq fun _ =>
    (Raises.modify _).seq fun _ => Raises.get fun s => Raises.ite (fun _ => Raises.modify _) (fun _ => ?_)
  · exact Raises.get fun s => Raises.ite (fun _ => Raises.pure _) (fun _ => (memoryRead_raises _ _).some (by simp))
  · exact (flushRun_raises.some (by simp)).seq fun _ => (encodeGroup_raises p up).some (by simp)

abbrev colourCauses : List Cause := [.classNotFound, .unknownTag, .lookupRange, .eos, .sourceIo]

theorem readClass_raises (c : TokenClass) : Raises anyState colourCauses (readClass c) := (hdRead_raises _).some (by simp)

theorem readDelta_raises (ch : Channel) : Raises anyState colourCauses (readDelta ch) :=
  (readClass_raises _).seq fun _ => Raises.modify _

theorem decodeDeltas_raises : Raises anyState colourCauses decodeDeltas :=
  (readDelta_raises _).seq fun _ => (readDelta_raises _).seq fun _ => (readDelta_raises _).seq fun _ =>
    (readDelta_raises _).seq fun _ => Raises.get fun _ => ((mtfCheckAndInsert_raises _).some (by simp)).seq fun _ =>
      Raises.pure _

theorem decodeUp_raises : Raises anyState colourCauses decodeUp :=
  Raises.get fun s => Raises.ite (fun _ => Raises.pure _) (fun _ => (memoryRead_raises _ _).some (by simp))

theorem decodeLookup_raises : Raises anyState colourCauses decodeLookup := by
  refine (readClass_raises _).seq fun v => Raises.get_bind fun s c u _ h => ?_
  by_cases hv : v.toNat + 1 ≥ s.mtfLen
  · rw [if_pos hv] at h; cases h; simp
  · rw [if_neg hv] at h
    obtain ⟨p, t, hp⟩ := mtfFetch_completes (s := s) (j := v.toNat + 1) (by unfold State.mtfLen at hv; omega)
    rw [steps_bind_ok hp] at h
    cases h

theorem readRunBytes_raises (n : Nat) (r : Word) : Raises anyState colourCauses (readRunBytes n r) := by
  induction n generalizing r with
  | zero => exact Raises.pure _
  | succ n ih => exact (readClass_raises _).seq fun _ => ih _

theorem decodeRun_raises : Raises anyState colourCauses decodeRun :=
  (readClass_raises _).seq fun _ => Raises.ite (fun _ => Raises.raise (by simp))
    (fun _ => (readRunBytes_raises _ _).seq fun _ => Raises.modify _)

theorem decodeGroup_raises : Raises anyState colourCauses decodeGroup := by
  refine (readClass_raises _).seq fun v => ?_
  rcases tagOf v with - | - | - | - | -
  · exact Raises.raise (by simp)
  · exact decodeRun_raises
  · exact decodeLookup_raises
  · exact decodeDeltas_raises
  · exact decodeUp_raises.seq fun _ => (Raises.modify _).seq fun _ => decodeDeltas_raises

theorem decodeColour_raises : Raises anyState colourCauses decodeColour :=
  Raises.get fun _ => Raises.ite (fun _ => Raises.modify _) (fun _ => decodeGroup_raises)

abbrev decodePixelCauses : List Cause := [.imageComplete, .classNotFound, .unknownTag, .lookupRange, .eos, .sourceIo]

theorem decodePixel_raises : Raises anyState decodePixelCauses decodePixel :=
  (checkImage_raises.some (by simp)).seq fun _ => (decodeColour_raises.some (by simp)).seq fun _ =>
    (Raises.modify _).seq fun _ => (Raises.modify _).seq fun _ => Raises.get fun _ => Raises.pure _

/-- With a pixel left, PX_DEC_PIXEL does not find the image complete. -/
theorem decodePixel_raises_left {s t : State} {c : Cause} (hi : s.image.i.toNat < s.image.pixels)
    (h : decodePixel s = .error c t) : c ∈ colourCauses := by
  rw [decodePixel, steps_bind_ok (checkImage_ok hi)] at h
  exact (decodeColour_raises.seq fun _ => (Raises.modify _).seq fun _ => (Raises.modify _).seq fun _ =>
    Raises.get fun _ => Raises.pure _) s c t trivial h

/-! ## The top level -/

theorem readHeader_raises : Raises anyState headerCauses readHeader :=
  parseMagic_raises.seq fun _ => (parseHalf_raises.some readCauses_header).seq fun _ => (Raises.modify _).seq fun _ =>
    (parseHalf_raises.some readCauses_header).seq fun _ => Raises.modify _

end Sys2Proof.Machine
end

