-- ==== Sys2Proof/Laws/Codebook.lean ====
section
/-! SUPPORT. The codebook table that HE_WRITE_TABLE writes, as the records that HD_READ_TABLE loads
(44_huffman_decoder.md R225). -/

namespace Sys2Proof.Machine

/-- The class ids 0 to 254, ascending. -/
def classIds : List Byte := (List.range 255).map (BitVec.ofNat 8)

theorem classIds_ok {k : Byte} (h : k ∈ classIds) : classOk k := by
  simp only [classIds, List.mem_map, List.mem_range] at h
  obtain ⟨n, hn, rfl⟩ := h
  intro hc
  have := congrArg BitVec.toNat hc
  simp at this
  omega

theorem mem_classIds {k : Byte} (h : classOk k) : k ∈ classIds := by
  simp only [classIds, List.mem_map, List.mem_range]
  refine ⟨k.toNat, ?_, by simp⟩
  have := k.isLt
  by_contra hc
  exact h (BitVec.eq_of_toNat_eq (by simp; omega))

/-- The records of the codebook table, in the order they are written. -/
def tableRecords (freq : Table Word) : List (Byte × CodeTree) :=
  classIds.filterMap fun k => (buildTree (tableRow freq k)).map fun t => (k, t)

theorem recordStream_filterMap (freq : Table Word) (ks : List Byte) :
    ks.flatMap (recordBits freq) = recordStream (ks.filterMap fun k => (buildTree (tableRow freq k)).map fun t => (k, t)) := by
  induction ks with
  | nil => rfl
  | cons k ks ih =>
    rw [List.flatMap_cons, ih]
    cases h : buildTree (tableRow freq k) with
    | none => simp [recordBits, h]
    | some t => simp [recordBits, h, recordStream]

theorem tableBits_eq (freq : Table Word) : tableBits freq = recordStream (tableRecords freq) ++ binByte sentinelId := by
  rw [tableBits, tableRecords, ← recordStream_filterMap]; rfl

theorem tableRecords_ok {freq : Table Word} (hw : tableWf freq) :
    ∀ x ∈ tableRecords freq, classOk x.1 ∧ treeOk x.2 := by
  intro x hx
  simp only [tableRecords, List.mem_filterMap, Option.map_eq_some_iff] at hx
  obtain ⟨k, hk, t, ht, rfl⟩ := hx
  exact ⟨classIds_ok hk, ((buildTree_row hw k).1 t ht).ok⟩

theorem classIds_nodup : classIds.Nodup := by
  refine List.Nodup.map_on ?_ List.nodup_range
  intro x hx y hy h
  have := congrArg BitVec.toNat h
  simp only [List.mem_range] at hx hy
  simp at this
  omega

theorem find_filterMap (f : Byte → Option CodeTree) (k : Byte) : ∀ ks : List Byte, ks.Nodup →
    ((ks.filterMap fun k => (f k).map fun t => (k, t)).find? fun x => x.1 = k).map (·.2) =
      if k ∈ ks then f k else none := by
  intro ks
  induction ks with
  | nil => intro _; rfl
  | cons j ks ih =>
    intro hn
    have hn' := List.nodup_cons.mp hn
    cases hf : f j with
    | none =>
      simp only [List.filterMap_cons, hf, Option.map_none, ih hn'.2]
      by_cases hj : k = j
      · subst hj; simp [hn'.1, hf]
      · simp [hj]
    | some t =>
      simp only [List.filterMap_cons, hf, Option.map_some, List.find?_cons]
      by_cases hj : k = j
      · subst hj; simp [hf]
      · have : ¬ j = k := fun h => hj h.symm
        have h2 := ih hn'.2
        simp only [this, decide_false, List.mem_cons, hj, false_or]
        exact h2

/-- The trees that the written table loads over a DTREE: those the encoder built. -/
theorem loadAll_tableRecords (freq : Table Word) (d : Table CodeTree) (k : Byte) :
    tableGet (loadAll (tableRecords freq) d) k.toNat =
      (if classOk k then buildTree (tableRow freq k) else none).or (tableGet d k.toNat) := by
  rw [loadAll_get, tableRecords, ← List.filterMap_reverse,
    find_filterMap (fun k => buildTree (tableRow freq k)) k _ (List.nodup_reverse.mpr classIds_nodup)]
  congr 1
  by_cases hk : classOk k
  · rw [if_pos hk, if_pos (by simpa using mem_classIds hk)]
  · rw [if_neg hk, if_neg (fun h => hk (classIds_ok (by simpa using h)))]

/-- The tree that the encoder built for a class is the one BuildTree returns. -/
theorem ClassBuilt.buildTree {freq : Table Word} (hw : tableWf freq) {k : Byte} {b : TreeBuilder} {x : CodeTree}
    (h : ClassBuilt freq k b x) : buildTree (tableRow freq k) = some x := by
  have h1 := h.record
  unfold recordBits at h1
  cases hb : Machine.buildTree (tableRow freq k) with
  | none => rw [hb] at h1; simp [binByte, bin] at h1
  | some t =>
    rw [hb] at h1
    have h2 : binTree t = binTree x := List.append_cancel_left h1
    have ht := ((buildTree_row hw k).1 t hb).ok
    have h3 := parseTree_bin .truncated ht []
    rw [h2, parseTree_bin .truncated h.built.ok []] at h3
    cases h3
    rfl

end Sys2Proof.Machine
end

