-- ==== Sys2Proof/Laws/Colour.lean ====
section
/-! SUPPORT. What the decode of a pixel leaves unchanged (45_pixel_codec.md R260). -/

namespace Sys2Proof.Machine

theorem Within.tracked {α : Type} {x : EStateM Reject Bits α} {y : M α} (h : Tracks x y) : Within OnlyRead y := by
  intro s
  constructor
  · intro a t ht; exact (h.inv ht).2.frame
  · intro c t ht
    have hs := h s
    cases hx : x (streamIn s) with
    | ok a bs =>
      rw [hx] at hs
      obtain ⟨u, h1, -⟩ := hs
      rw [h1] at ht; cases ht
    | error e bs =>
      rw [hx] at hs
      obtain ⟨u, h1, h2⟩ := hs
      rw [h1] at ht; cases ht
      exact h2

/-- A read of a token only reads. -/
theorem hdRead_onlyRead (k : Byte) : Within OnlyRead (hdRead k) := by
  refine Within.get_bind fun s => Within.ite (Within.raise OnlyRead.refl _) ?_
  cases tableGet s.decoder.dtree k.toNat with
  | none => exact Within.raise OnlyRead.refl _
  | some t => exact Within.tracked (walkTree_tracks t)

/-- `t` is `s` but for what the decode of a colour may write: the reader, the source, the cache, C, DRUN and the model's
count of free values. -/
def Coloured (s t : State) : Prop :=
  t = ((((s.setReader t.reader).setAgents { s.agents with source := t.agents.source }).setMtf t.mtf).setDec
    { t.dec with out := s.dec.out }).setFreeCount t.freeCount

theorem coloured_iff {s t : State} : Coloured s t ↔
    t.config = s.config ∧ t.writer = s.writer ∧ t.builder = s.builder ∧ t.tokbuf = s.tokbuf ∧
    t.decoder = s.decoder ∧ t.image = s.image ∧ t.enc = s.enc ∧ t.dec.out = s.dec.out ∧ t.status = s.status ∧
    t.agents.sink = s.agents.sink ∧ t.agents.sinkAnswers = s.agents.sinkAnswers ∧
    t.agents.pixels = s.agents.pixels ∧ t.host = s.host ∧ t.treeOut = s.treeOut := by
  constructor
  · intro h
    rw [h]
    simp
  · intro h
    obtain ⟨c, w, r, m, b, tb, d, i, en, ⟨dc, dr, dx⟩, st, ⟨a1, a2, a3, a4⟩, ho, fc, tr⟩ := t
    simp only at h
    obtain ⟨rfl, rfl, rfl, rfl, rfl, rfl, rfl, rfl, rfl, rfl, rfl, rfl, rfl, rfl⟩ := h
    rfl

theorem Coloured.refl (s : State) : Coloured s s := by simp [coloured_iff]

theorem Coloured.trans (s t u : State) (h : Coloured s t) (h' : Coloured t u) : Coloured s u := by
  rw [coloured_iff] at *
  simp_all

theorem OnlyRead.coloured {s t : State} (h : OnlyRead s t) : Coloured s t := by
  rw [onlyRead_iff] at h
  rw [coloured_iff]
  simp_all

theorem coloured_modify {f : State → State} (h : ∀ s,
    (f s).config = s.config ∧ (f s).writer = s.writer ∧ (f s).builder = s.builder ∧ (f s).tokbuf = s.tokbuf ∧
    (f s).decoder = s.decoder ∧ (f s).image = s.image ∧ (f s).enc = s.enc ∧ (f s).dec.out = s.dec.out ∧
    (f s).status = s.status ∧ (f s).agents.sink = s.agents.sink ∧ (f s).agents.sinkAnswers = s.agents.sinkAnswers ∧
    (f s).agents.pixels = s.agents.pixels ∧ (f s).host = s.host ∧ (f s).treeOut = s.treeOut) :
    Within Coloured (modify f : M Unit) := Within.modify fun s => coloured_iff.mpr (h s)

theorem readClass_coloured (c : TokenClass) : Within Coloured (readClass c) :=
  (hdRead_onlyRead _).mono fun _ _ h => h.coloured

theorem setColour_coloured (p : Pixel) : Within Coloured (setColour p) := coloured_modify fun _ => ⟨rfl, rfl, rfl, rfl, rfl, rfl, rfl, rfl, rfl, rfl, rfl, rfl, rfl, rfl⟩

theorem mtfCheckAndInsert_coloured (p : Pixel) : Within Coloured (mtfCheckAndInsert p) := by
  refine Within.get_bind fun s => ?_
  cases mtfFind p s.mtf with
  | some j => exact Within.bind Coloured.trans ((coloured_modify fun _ => ⟨rfl, rfl, rfl, rfl, rfl, rfl, rfl, rfl, rfl, rfl, rfl, rfl, rfl, rfl⟩)) fun _ => Within.pure Coloured.refl _
  | none => exact Within.bind Coloured.trans ((coloured_modify fun _ => ⟨rfl, rfl, rfl, rfl, rfl, rfl, rfl, rfl, rfl, rfl, rfl, rfl, rfl, rfl⟩)) fun _ => Within.pure Coloured.refl _

theorem mtfFetch_coloured (j : Nat) : Within Coloured (mtfFetch j) := by
  refine Within.get_bind fun s => ?_
  cases s.mtf[j]? with
  | none => exact Within.raise Coloured.refl _
  | some p => exact Within.bind Coloured.trans ((coloured_modify fun _ => ⟨rfl, rfl, rfl, rfl, rfl, rfl, rfl, rfl, rfl, rfl, rfl, rfl, rfl, rfl⟩)) fun _ => Within.pure Coloured.refl _

theorem readDelta_coloured (ch : Channel) : Within Coloured (readDelta ch) :=
  Within.bind Coloured.trans (readClass_coloured _) fun _ => coloured_modify fun _ => ⟨rfl, rfl, rfl, rfl, rfl, rfl, rfl, rfl, rfl, rfl, rfl, rfl, rfl, rfl⟩

theorem decodeDeltas_coloured : Within Coloured decodeDeltas :=
  Within.bind Coloured.trans (readDelta_coloured _) fun _ => Within.bind Coloured.trans (readDelta_coloured _) fun _ =>
    Within.bind Coloured.trans (readDelta_coloured _) fun _ => Within.bind Coloured.trans (readDelta_coloured _) fun _ =>
      Within.get_bind fun _ => Within.bind Coloured.trans (mtfCheckAndInsert_coloured _) fun _ => Within.pure Coloured.refl _

theorem decodeUp_coloured : Within Coloured decodeUp := by
  intro s
  rw [decodeUp_eq]
  constructor
  · intro a t h
    cases h
    rw [decodeUpRead_frame]
    rfl
  · intro c t h; cases h

theorem decodeLookup_coloured : Within Coloured decodeLookup :=
  Within.bind Coloured.trans (readClass_coloured _) fun _ => Within.get_bind fun _ => Within.ite (Within.raise Coloured.refl _)
    (Within.bind Coloured.trans (mtfFetch_coloured _) fun _ => setColour_coloured _)

theorem readRunBytes_coloured (n : Nat) (r : Word) : Within Coloured (readRunBytes n r) := by
  induction n generalizing r with
  | zero => exact Within.pure Coloured.refl _
  | succ n ih => exact Within.bind Coloured.trans (readClass_coloured _) fun _ => ih _

theorem decodeRun_coloured : Within Coloured decodeRun :=
  Within.bind Coloured.trans (readClass_coloured _) fun _ => Within.ite (Within.raise Coloured.refl _)
    (Within.bind Coloured.trans (readRunBytes_coloured _ _) fun _ => coloured_modify fun _ => ⟨rfl, rfl, rfl, rfl, rfl, rfl, rfl, rfl, rfl, rfl, rfl, rfl, rfl, rfl⟩)

theorem decodeGroup_coloured : Within Coloured decodeGroup := by
  refine Within.bind Coloured.trans (readClass_coloured _) fun v => ?_
  rcases tagOf v with - | - | - | - | -
  · exact Within.raise Coloured.refl _
  · exact decodeRun_coloured
  · exact decodeLookup_coloured
  · exact decodeDeltas_coloured
  · exact Within.bind Coloured.trans decodeUp_coloured fun _ => Within.bind Coloured.trans (setColour_coloured _) fun _ =>
      decodeDeltas_coloured

theorem decodeColour_coloured : Within Coloured decodeColour :=
  Within.get_bind fun _ => Within.ite (coloured_modify fun _ => ⟨rfl, rfl, rfl, rfl, rfl, rfl, rfl, rfl, rfl, rfl, rfl, rfl, rfl, rfl⟩) decodeGroup_coloured

/-- PX_DEC_PIXEL that completes: there was a pixel left, its colour was decoded, and then OUT and I were written (R260). -/
theorem decodePixel_inv {s t : State} {p : Pixel} (h : decodePixel s = .ok p t) :
    s.image.i.toNat < s.image.pixels ∧ ∃ u, decodeColour s = .ok () u ∧ Coloured s u ∧ t = pixelGiven u ∧ p = u.dec.c := by
  by_cases hi : s.image.i.toNat < s.image.pixels
  · refine ⟨hi, ?_⟩
    cases hc : decodeColour s with
    | ok a u =>
      rw [decodePixel_eq hi hc] at h
      cases h
      exact ⟨u, rfl, (decodeColour_coloured s).1 _ _ hc, rfl, rfl⟩
    | error c u => rw [decodePixel_error hi hc] at h; cases h
  · rw [decodePixel, steps_bind_error (checkImage_full (by omega))] at h
    cases h

theorem pixels_lt (m : ImageState) : m.pixels < 2 ^ 32 := by
  have h1 := m.w.isLt
  have h2 := m.h.isLt
  calc m.w.toNat * m.h.toNat ≤ (2 ^ 16 - 1) * (2 ^ 16 - 1) := Nat.mul_le_mul (by omega) (by omega)
    _ < 2 ^ 32 := by norm_num

theorem decodePixel_image {s t : State} {p : Pixel} (h : decodePixel s = .ok p t) :
    t.image.w = s.image.w ∧ t.image.h = s.image.h ∧ t.image.i.toNat = s.image.i.toNat + 1 := by
  obtain ⟨hi, u, -, hu, rfl, -⟩ := decodePixel_inv h
  have him := (coloured_iff.mp hu).2.2.2.2.2.1
  have hlt := pixels_lt s.image
  refine ⟨by simp [pixelGiven, him], by simp [pixelGiven, him], ?_⟩
  simp only [pixelGiven, State.setImage_image, him, BitVec.toNat_add]
  rw [show (1 : Word).toNat = 1 from rfl]
  omega

theorem decodePixels_image (n : Nat) : ∀ {s t : State}, decodePixels n s = .ok () t →
    t.image.w = s.image.w ∧ t.image.h = s.image.h ∧ t.image.i.toNat = s.image.i.toNat + n := by
  induction n with
  | zero => intro s t h; cases h; simp
  | succ n ih =>
    intro s t h
    obtain ⟨p, u, h1, h2⟩ := steps_bind_inv h
    have a := decodePixel_image h1
    have b := ih h2
    exact ⟨b.1.trans a.1, b.2.1.trans a.2.1, by omega⟩

theorem readTable_image {s t : State} (h : readTable s = .ok () t) : t.image = s.image := by
  have key : ∀ n, Within (fun s t : State => t.image = s.image) (readRecords n) := by
    intro n
    have tr : ∀ s t u : State, t.image = s.image → u.image = t.image → u.image = s.image := fun _ _ _ a b => b.trans a
    induction n with
    | zero => exact Within.raise (R := fun s t : State => t.image = s.image) (fun _ => rfl) _
    | succ n ih =>
      refine Within.bind tr ((Within.tracked parseItem_tracks).mono fun _ _ h => (onlyRead_iff.mp h).2.2.2.2.2.2.1) fun item => ?_
      cases item with
      | none => exact Within.modify fun _ => rfl
      | some kt => exact Within.bind tr (Within.modify fun _ => rfl) fun _ => ih
  rw [readTable, steps_bind_ok (steps_get s)] at h
  exact (key _ s).1 _ _ h

theorem readHeader_image {s t : State} (h : readHeader s = .ok () t) : t.image.i = s.image.i := by
  obtain ⟨_, s1, h1, h⟩ := steps_bind_inv h
  obtain ⟨w, s2, h2, h⟩ := steps_bind_inv h
  obtain ⟨_, s3, h3, h⟩ := steps_bind_inv h
  obtain ⟨hh, s4, h4, h5⟩ := steps_bind_inv h
  cases h3; cases h5
  have a := (parseMagic_tracks.inv h1).2.image
  have b := (parseHalf_tracks.inv h2).2.image
  have c := (parseHalf_tracks.inv h4).2.image
  simp [loadHeight, c, loadWidth, b, a]

end Sys2Proof.Machine
end

