-- ==== Sys2Proof/Laws/Fixed.lean ====
section
/-! SUPPORT. What no step of a command between its start and its response touches: STATUS, the parameters and the command
interface (10_state.md R51; 70_reset_and_hazards.md R352). `Init()` alone clears STATUS. -/

namespace Sys2Proof.Machine

/-- STATUS, the parameters and the command interface are the same. -/
def Fixed (s t : State) : Prop := t.status = s.status ∧ t.config = s.config ∧ t.host = s.host

theorem Fixed.refl (s : State) : Fixed s s := ⟨rfl, rfl, rfl⟩

theorem Fixed.trans (s t u : State) (h : Fixed s t) (h' : Fixed t u) : Fixed s u :=
  ⟨h'.1.trans h.1, h'.2.1.trans h.2.1, h'.2.2.trans h.2.2⟩

theorem Fixed.failed {s t : State} (h : Fixed s t) : t.failed = s.failed := by simp [State.failed, h.1]

/-- Steps that touch none of the three. -/
abbrev Quiet {α : Type} (m : M α) : Prop := Within Fixed m

section
variable {α β : Type}

theorem Quiet.pure (a : α) : Quiet (pure a : M α) := Within.pure Fixed.refl a
theorem Quiet.raise (c : Cause) : Quiet (raise c : M α) := Within.raise Fixed.refl c
theorem Quiet.throw (c : Cause) : Quiet (throw c : M α) := Within.raise Fixed.refl c
theorem Quiet.modify {f : State → State} (hf : ∀ s, Fixed s (f s)) : Quiet (modify f : M Unit) := Within.modify hf
theorem Quiet.bind {x : M α} {f : α → M β} (hx : Quiet x) (hf : ∀ a, Quiet (f a)) : Quiet (x >>= f) :=
  Within.bind Fixed.trans hx hf
theorem Quiet.get_bind {f : State → M β} (hf : ∀ s, Quiet (f s)) : Quiet (do let s ← MonadState.get; f s) :=
  Within.get_bind hf
theorem Quiet.noResult {body : M Unit} (h : Quiet body) : Quiet (noResult body) := h.bind fun _ => Quiet.pure _

end

theorem fixed_rfl (s : State) : s.status = s.status ∧ s.config = s.config ∧ s.host = s.host := ⟨rfl, rfl, rfl⟩

theorem sinkPut_quiet (b : Byte) : Quiet (sinkPut b) := by
  intro s
  unfold sinkPut
  cases s.agents.sinkAnswers with
  | nil => exact ⟨fun a t h => by cases h; exact fixed_rfl s, fun c t h => by cases h⟩
  | cons x rest =>
    cases x with
    | ok => exact ⟨fun a t h => by cases h; exact fixed_rfl s, fun c t h => by cases h⟩
    | ioerr => exact ⟨fun a t h => (by cases h), fun c t h => by cases h; exact fixed_rfl s⟩

theorem sourceGet_quiet : Quiet sourceGet := by
  intro s
  unfold sourceGet
  cases s.agents.source with
  | nil => exact ⟨fun a t h => (by cases h), fun c t h => by cases h; exact fixed_rfl s⟩
  | cons x rest =>
    cases x with
    | byte b => exact ⟨fun a t h => by cases h; exact fixed_rfl s, fun c t h => by cases h⟩
    | eos => exact ⟨fun a t h => (by cases h), fun c t h => by cases h; exact fixed_rfl s⟩
    | ioerr => exact ⟨fun a t h => (by cases h), fun c t h => by cases h; exact fixed_rfl s⟩

theorem pixelGet_quiet : Quiet pixelGet := by
  intro s
  unfold pixelGet
  cases s.agents.pixels with
  | nil => exact ⟨fun a t h => (by cases h), fun c t h => by cases h; exact fixed_rfl s⟩
  | cons x rest =>
    cases x with
    | pixel p => exact ⟨fun a t h => by cases h; exact fixed_rfl s, fun c t h => by cases h⟩
    | missing => exact ⟨fun a t h => (by cases h), fun c t h => by cases h; exact fixed_rfl s⟩
    | ioerr => exact ⟨fun a t h => (by cases h), fun c t h => by cases h; exact fixed_rfl s⟩

theorem memoryRead_quiet (m : State → Memory) (x : Nat) : Quiet (memoryRead m x) := by
  intro s
  unfold memoryRead
  cases (m s).read x with
  | some p => exact ⟨fun a t h => by cases h; exact fixed_rfl s, fun c t h => by cases h⟩
  | none => exact ⟨fun a t h => by cases h; exact fixed_rfl s, fun c t h => by cases h⟩

/-! ## The bit streams -/

theorem setWriter_quiet (acc : Byte) (n : Nat) : Quiet (setWriter acc n) := Quiet.modify (by exact fun s => fixed_rfl s)

theorem putBit_quiet (b : Bool) : Quiet (putBit b) :=
  Quiet.get_bind fun _ => (setWriter_quiet _ _).bind fun _ =>
    Within.ite ((sinkPut_quiet _).bind fun _ => setWriter_quiet _ _) (Quiet.pure _)

theorem putBits_quiet (bs : Bits) : Quiet (putBits bs) := by
  induction bs with
  | nil => exact Quiet.pure _
  | cons b bs ih => exact (putBit_quiet b).bind fun _ => ih

theorem writeBits_quiet (v : Word) (n : Nat) : Quiet (writeBits v n) := putBits_quiet _

theorem bwFlush_quiet : Quiet bwFlush :=
  Quiet.get_bind fun _ => Within.ite ((sinkPut_quiet _).bind fun _ => setWriter_quiet _ _) (Quiet.pure _)

theorem setReader_quiet (cur : Byte) (n : Nat) : Quiet (setReader cur n) := Quiet.modify (by exact fun s => fixed_rfl s)

theorem getBit_quiet : Quiet getBit :=
  Quiet.bind (Quiet.get_bind fun _ => Within.ite (sourceGet_quiet.bind fun _ => setReader_quiet _ _) (Quiet.pure _))
    fun _ => Quiet.get_bind fun _ => (setReader_quiet _ _).bind fun _ => Quiet.pure _

theorem parseBits_quiet (n : Nat) (v : Word) : Quiet (parseBits getBit n v) := by
  induction n generalizing v with
  | zero => exact Quiet.pure _
  | succ n ih => exact getBit_quiet.bind fun _ => ih _

theorem parseByte_quiet : Quiet (parseByte getBit) := (parseBits_quiet _ _).bind fun _ => Quiet.pure _
theorem parseHalf_quiet : Quiet (parseHalf getBit) := (parseBits_quiet _ _).bind fun _ => Quiet.pure _

theorem parseNode_quiet (fuel count : Nat) : Quiet (parseNode getBit Cause.treeTooLarge fuel count) := by
  induction fuel generalizing count with
  | zero => exact Quiet.throw _
  | succ fuel ih =>
    exact Within.ite (Quiet.throw _) (getBit_quiet.bind fun _ =>
      Within.ite ((ih _).bind fun _ => (ih _).bind fun _ => Quiet.pure _) (parseByte_quiet.bind fun _ => Quiet.pure _))

theorem parseTree_quiet : Quiet (parseTree getBit Cause.treeTooLarge) := (parseNode_quiet _ _).bind fun _ => Quiet.pure _

theorem parseItem_quiet : Quiet (parseItem getBit Cause.treeTooLarge) :=
  parseByte_quiet.bind fun _ => Within.ite (Quiet.pure _) (parseTree_quiet.bind fun _ => Quiet.pure _)

theorem parseBytes_quiet (n : Nat) : Quiet (parseBytes getBit n) := by
  induction n with
  | zero => exact Quiet.pure _
  | succ n ih => exact parseByte_quiet.bind fun _ => ih.bind fun _ => Quiet.pure _

theorem parseMagic_quiet : Quiet (parseMagic getBit Cause.badMagic) :=
  (parseBytes_quiet _).bind fun _ => Within.ite (Quiet.pure _) (Quiet.throw _)

theorem bwWriteBits_quiet (w : Byte) (v : Word) : Quiet (bwWriteBits w v) :=
  Within.ite (Quiet.raise _) (writeBits_quiet _ _)

theorem brReadBits_quiet (w : Byte) : Quiet (brReadBits w) := Within.ite (Quiet.raise _) (parseBits_quiet _ _)

/-! ## The cache -/

theorem mtfCheckAndInsert_quiet (p : Pixel) : Quiet (mtfCheckAndInsert p) := by
  refine Quiet.get_bind fun s => ?_
  cases mtfFind p s.mtf with
  | some j => exact Quiet.bind (Quiet.modify (by exact fun s => fixed_rfl s)) fun _ => Quiet.pure _
  | none => exact Quiet.bind (Quiet.modify (by exact fun s => fixed_rfl s)) fun _ => Quiet.pure _

theorem mtfFetch_quiet (j : Nat) : Quiet (mtfFetch j) := by
  refine Quiet.get_bind fun s => ?_
  cases s.mtf[j]? with
  | none => exact Quiet.raise _
  | some p => exact Quiet.bind (Quiet.modify (by exact fun s => fixed_rfl s)) fun _ => Quiet.pure _

theorem mtfClear_quiet : Quiet mtfClear := Quiet.modify (by exact fun s => fixed_rfl s)

/-! ## The tree builder and the encoder -/

theorem checkClass_quiet (k : Byte) : Quiet (checkClass k) := Within.ite (Quiet.raise _) (Quiet.pure _)
theorem setBuilder_quiet (x : TreeBuilder) : Quiet (setBuilder x) := Quiet.modify (by exact fun s => fixed_rfl s)

theorem htbCount_quiet (k v : Byte) : Quiet (htbCount k v) :=
  (checkClass_quiet k).bind fun _ => Quiet.get_bind fun _ => Within.ite (Quiet.raise _) (setBuilder_quiet _)

theorem htbBuild_quiet (k : Byte) : Quiet (htbBuild k) :=
  (checkClass_quiet k).bind fun _ => Quiet.get_bind fun _ => setBuilder_quiet _

theorem htbDerive_quiet (k : Byte) : Quiet (htbDerive k) :=
  (checkClass_quiet k).bind fun _ => Quiet.get_bind fun _ => setBuilder_quiet _

theorem putToken_quiet (k v : Byte) : Quiet (putToken k v) :=
  (checkClass_quiet k).bind fun _ => Quiet.get_bind fun _ => Within.ite (Quiet.raise _)
    ((htbCount_quiet k v).bind fun _ => Quiet.modify (by exact fun s => fixed_rfl s))

theorem emit_quiet (c : TokenClass) (v : Byte) : Quiet (emit c v) := putToken_quiet _ _

theorem encodeToken_quiet (k v : Byte) : Quiet (encodeToken k v) := by
  refine (checkClass_quiet k).bind fun _ => Quiet.get_bind fun s => ?_
  cases codeGet s.builder.code k v with
  | none => exact Quiet.raise _
  | some bits => exact putBits_quiet _

theorem writeTree_quiet (t : CodeTree) : Quiet (writeTree t) := by
  induction t with
  | leaf v => exact (putBit_quiet _).bind fun _ => writeBits_quiet _ _
  | internal l r ihl ihr => exact (putBit_quiet _).bind fun _ => ihl.bind fun _ => ihr

theorem writeRecord_quiet (k : Byte) : Quiet (writeRecord k) := by
  refine Quiet.get_bind fun s => Within.ite ((htbBuild_quiet k).bind fun _ => (htbDerive_quiet k).bind fun _ =>
    (writeBits_quiet _ _).bind fun _ => Quiet.get_bind fun s => ?_) (Quiet.pure _)
  cases tableGet s.builder.etree k.toNat with
  | some t => exact writeTree_quiet t
  | none => exact Quiet.pure _

theorem writeRecords_quiet (n k : Nat) : Quiet (writeRecords n k) := by
  induction n generalizing k with
  | zero => exact Quiet.pure _
  | succ n ih => exact (writeRecord_quiet _).bind fun _ => ih _

theorem writeTable_quiet : Quiet writeTable := (writeRecords_quiet _ _).bind fun _ => writeBits_quiet _ _

theorem encodeTokens_quiet (ts : List Token) : Quiet (encodeTokens ts) := by
  induction ts with
  | nil => exact Quiet.pure _
  | cons t ts ih => exact (encodeToken_quiet _ _).bind fun _ => ih

theorem writePayload_quiet : Quiet writePayload := Quiet.get_bind fun _ => encodeTokens_quiet _

theorem finish_quiet : Quiet finish := writeTable_quiet.bind fun _ => writePayload_quiet.bind fun _ => bwFlush_quiet

/-! ## The decoder -/

theorem readRecords_quiet (n : Nat) : Quiet (readRecords n) := by
  induction n with
  | zero => exact Quiet.raise _
  | succ n ih =>
    refine parseItem_quiet.bind fun item => ?_
    cases item with
    | none => exact Quiet.modify (by exact fun s => fixed_rfl s)
    | some kt => exact Quiet.bind (Quiet.modify (by exact fun s => fixed_rfl s)) fun _ => ih

theorem readTable_quiet : Quiet readTable := Quiet.get_bind fun _ => readRecords_quiet _

theorem walkTree_quiet (t : CodeTree) : Quiet (walkTree t) := by
  induction t with
  | leaf v => exact Quiet.pure _
  | internal l r ihl ihr => exact getBit_quiet.bind fun _ => Within.ite ihr ihl

theorem hdRead_quiet (k : Byte) : Quiet (hdRead k) := by
  refine Quiet.get_bind fun s => Within.ite (Quiet.raise _) ?_
  cases tableGet s.decoder.dtree k.toNat with
  | none => exact Quiet.raise _
  | some t => exact walkTree_quiet t

/-! ## The pixel codec -/

theorem setDim_quiet (w h : Half) : Quiet (setDim w h) := Quiet.modify (by exact fun s => fixed_rfl s)
theorem checkImage_quiet : Quiet checkImage := Quiet.get_bind fun _ => Within.ite (Quiet.raise _) (Quiet.pure _)
theorem advance_quiet : Quiet advance := Quiet.modify (by exact fun s => fixed_rfl s)

theorem emitRunBytes_quiet (r : Word) (n : Nat) : Quiet (emitRunBytes r n) := by
  induction n with
  | zero => exact Quiet.pure _
  | succ n ih => exact (emit_quiet _ _).bind fun _ => ih

theorem runFlush_quiet (run : Word) : Quiet (runFlush run) :=
  (emit_quiet _ _).bind fun _ => (emit_quiet _ _).bind fun _ => emitRunBytes_quiet _ _

theorem flushRun_quiet : Quiet flushRun :=
  Quiet.get_bind fun _ => Within.ite ((runFlush_quiet _).bind fun _ => Quiet.modify (by exact fun s => fixed_rfl s)) (Quiet.pure _)

theorem setPrior_quiet (p : Pixel) : Quiet (setPrior p) := Quiet.modify (by exact fun s => fixed_rfl s)

theorem emitDeltas_quiet (p base : Pixel) : Quiet (emitDeltas p base) :=
  (emit_quiet _ _).bind fun _ => (emit_quiet _ _).bind fun _ => (emit_quiet _ _).bind fun _ => emit_quiet _ _

theorem encodeGroup_quiet (p up : Pixel) : Quiet (encodeGroup p up) := by
  refine (mtfCheckAndInsert_quiet p).bind fun pos => ?_
  cases pos with
  | none =>
    exact Quiet.get_bind fun _ => (emit_quiet _ _).bind fun _ => (emitDeltas_quiet _ _).bind fun _ => setPrior_quiet _
  | some j =>
    cases j with
    | zero => exact Quiet.raise _
    | succ j => exact (emit_quiet _ _).bind fun _ => (emit_quiet _ _).bind fun _ => setPrior_quiet _

theorem encodeUp_quiet : Quiet encodeUp :=
  Quiet.get_bind fun _ => Within.ite (Quiet.pure _) (memoryRead_quiet _ _)

theorem storeLine_quiet (p : Pixel) : Quiet (storeLine p) := Quiet.modify (by exact fun s => fixed_rfl s)

theorem encodePixel_quiet (p : Pixel) : Quiet (encodePixel p) :=
  checkImage_quiet.bind fun _ => encodeUp_quiet.bind fun _ => (storeLine_quiet p).bind fun _ =>
    advance_quiet.bind fun _ => Quiet.get_bind fun _ =>
      Within.ite (Quiet.modify (by exact fun s => fixed_rfl s)) (flushRun_quiet.bind fun _ => encodeGroup_quiet _ _)

theorem readClass_quiet (c : TokenClass) : Quiet (readClass c) := hdRead_quiet _
theorem setColour_quiet (p : Pixel) : Quiet (setColour p) := Quiet.modify (by exact fun s => fixed_rfl s)

theorem readDelta_quiet (ch : Channel) : Quiet (readDelta ch) :=
  (readClass_quiet _).bind fun _ => Quiet.modify (by exact fun s => fixed_rfl s)

theorem decodeDeltas_quiet : Quiet decodeDeltas :=
  (readDelta_quiet _).bind fun _ => (readDelta_quiet _).bind fun _ => (readDelta_quiet _).bind fun _ =>
    (readDelta_quiet _).bind fun _ => Quiet.get_bind fun _ => (mtfCheckAndInsert_quiet _).bind fun _ => Quiet.pure _

theorem decodeUp_quiet : Quiet decodeUp :=
  Quiet.get_bind fun _ => Within.ite (Quiet.pure _) (memoryRead_quiet _ _)

theorem decodeLookup_quiet : Quiet decodeLookup :=
  (readClass_quiet _).bind fun _ => Quiet.get_bind fun _ => Within.ite (Quiet.raise _)
    ((mtfFetch_quiet _).bind fun _ => setColour_quiet _)

theorem readRunBytes_quiet (n : Nat) (r : Word) : Quiet (readRunBytes n r) := by
  induction n generalizing r with
  | zero => exact Quiet.pure _
  | succ n ih => exact (readClass_quiet _).bind fun _ => ih _

theorem decodeRun_quiet : Quiet decodeRun :=
  (readClass_quiet _).bind fun _ => Within.ite (Quiet.raise _)
    ((readRunBytes_quiet _ _).bind fun _ => Quiet.modify (by exact fun s => fixed_rfl s))

theorem decodeGroup_quiet : Quiet decodeGroup := by
  refine (readClass_quiet _).bind fun v => ?_
  rcases tagOf v with - | - | - | - | -
  · exact Quiet.raise _
  · exact decodeRun_quiet
  · exact decodeLookup_quiet
  · exact decodeDeltas_quiet
  · exact decodeUp_quiet.bind fun _ => (setColour_quiet _).bind fun _ => decodeDeltas_quiet

theorem storeOut_quiet : Quiet storeOut := Quiet.modify (by exact fun s => fixed_rfl s)

theorem decodeColour_quiet : Quiet decodeColour :=
  Quiet.get_bind fun _ => Within.ite (Quiet.modify (by exact fun s => fixed_rfl s)) decodeGroup_quiet

theorem decodePixel_quiet : Quiet decodePixel :=
  checkImage_quiet.bind fun _ => decodeColour_quiet.bind fun _ =>
      storeOut_quiet.bind fun _ => advance_quiet.bind fun _ => Quiet.get_bind fun _ => Quiet.pure _

/-! ## The top level -/

theorem writeBytes_quiet (bs : List Byte) : Quiet (writeBytes bs) := by
  induction bs with
  | nil => exact Quiet.pure _
  | cons b bs ih => exact (writeBits_quiet _ _).bind fun _ => ih

theorem writeHeader_quiet (w h : Half) : Quiet (writeHeader w h) :=
  (writeBytes_quiet _).bind fun _ => (writeBits_quiet _ _).bind fun _ => writeBits_quiet _ _

theorem readHeader_quiet : Quiet readHeader :=
  parseMagic_quiet.bind fun _ => parseHalf_quiet.bind fun _ => Quiet.bind (Quiet.modify (by exact fun s => fixed_rfl s)) fun _ =>
    parseHalf_quiet.bind fun _ => Quiet.modify (by exact fun s => fixed_rfl s)

theorem encodePixels_quiet (n : Nat) : Quiet (encodePixels n) := by
  induction n with
  | zero => exact Quiet.pure _
  | succ n ih => exact pixelGet_quiet.bind fun _ => (encodePixel_quiet _).bind fun _ => ih

theorem decodePixels_quiet (n : Nat) : Quiet (decodePixels n) := by
  induction n with
  | zero => exact Quiet.pure _
  | succ n ih => exact decodePixel_quiet.bind fun _ => ih

theorem dimResult_quiet : Quiet dimResult := Quiet.get_bind fun _ => Quiet.pure _

/-- The steps of ENCODE after `Init()`. -/
def encodeRest (w h : Half) : M Unit := do
  modify (loadWidth w)
  modify (loadHeight h)
  writeHeader w h
  setDim w h
  encodePixels (w.toNat * h.toNat)
  flushRun
  finish

/-- The steps of DECODE after `Init()`. -/
def decodeRest : M Word := do
  readHeader
  let s ← get
  setDim s.image.w s.image.h
  readTable
  decodePixels (s.image.w.toNat * s.image.h.toNat)
  dimResult

/-- The steps of DECODE_HEADER after `Init()`. -/
def decodeHeaderRest : M Word := do
  readHeader
  dimResult

theorem encodeImage_eq (w h : Half) (s : State) : encodeImage w h s = encodeRest w h (initState s) := rfl
theorem decodeImage_eq (s : State) : decodeImage s = decodeRest (initState s) := rfl
theorem decodeHeader_eq (s : State) : decodeHeaderSteps s = decodeHeaderRest (initState s) := rfl

theorem encodeRest_quiet (w h : Half) : Quiet (encodeRest w h) :=
  Quiet.bind (Quiet.modify (by exact fun s => fixed_rfl s)) fun _ => Quiet.bind (Quiet.modify (by exact fun s => fixed_rfl s)) fun _ =>
    (writeHeader_quiet w h).bind fun _ => (setDim_quiet w h).bind fun _ => (encodePixels_quiet _).bind fun _ =>
      flushRun_quiet.bind fun _ => finish_quiet

theorem decodeRest_quiet : Quiet decodeRest :=
  readHeader_quiet.bind fun _ => Quiet.get_bind fun _ => (setDim_quiet _ _).bind fun _ => readTable_quiet.bind fun _ =>
    (decodePixels_quiet _).bind fun _ => dimResult_quiet

theorem decodeHeaderRest_quiet : Quiet decodeHeaderRest := readHeader_quiet.bind fun _ => dimResult_quiet

/-! ## The response of a quiet body -/

/-- What a response leaves of STATUS, the parameters and the interface, from the state `s` in which the body ran. -/
structure Answered (s t : State) (r : Response) : Prop where
  host : t.host = { s.host with responses := s.host.responses ++ [r] }
  config : t.config = s.config
  status : match r with
    | .ok _ => t.status = s.status
    | .err k c => k = c.kind ∧ t.status = if s.failed then s.status else statusWord c

theorem failEntry_answered {s u : State} (h : Fixed s u) (c : Cause) : Answered s (failEntry c u) (.err c.kind c) := by
  obtain ⟨h1, h2, h3⟩ := h
  have hf : u.failed = s.failed := by simp [State.failed, h1]
  by_cases hs : s.failed = true
  · rw [failEntry_of_failed u c (hf.trans hs)]
    exact ⟨by simp [h3], by simp [h2], by simp [h1, hs]⟩
  · rw [failEntry_of_ready u c (hf.trans (by simpa using hs))]
    exact ⟨by simp [h3], by simp [h2], by simp [hs]⟩

theorem complete_answered {body : M Word} (h : Quiet body) (s : State) : ∃ r, Answered s (complete (body s)) r := by
  cases hb : body s with
  | ok r u =>
    obtain ⟨h1, h2, h3⟩ := (h s).1 r u hb
    exact ⟨.ok r, by simp [complete, h3], by simp [complete, h2], h1⟩
  | error c u => exact ⟨_, failEntry_answered ((h s).2 c u hb) c⟩

theorem runUnit_answered {body : M Word} (h : Quiet body) {s t : State} (ht : runUnit body s = .next t) :
    ∃ r, Answered s t r := by
  rw [runUnit_eq] at ht
  cases ht
  by_cases hs : s.failed = true
  · rw [if_pos hs]
    exact ⟨_, failEntry_answered (Fixed.refl s) _⟩
  · rw [if_neg hs]
    exact complete_answered h s

theorem runAlways_answered {body rest : M Word} {s t : State} (h : Quiet rest) (hb : body s = rest (initState s))
    (ht : runAlways body s = .next t) : ∃ r, Answered (initState s) t r := by
  rw [runAlways, hb] at ht
  cases ht
  exact complete_answered h (initState s)

/-- What every command does to STATUS, the parameters and the interface (30_encoding.md R120; 60_exceptions.md R310 to R312): the
four that clear STATUS do so first. -/
theorem exec_answered {i : Instr} {s t : State} (hi : isElement i = false) (ht : exec i s = .next t) :
    ∃ r, Answered (if clearsStatus i then initState s else s) t r := by
  cases i
  case bwWriteBit b => exact runUnit_answered (putBit_quiet b).noResult ht
  case bwWriteBits w v => exact runUnit_answered (bwWriteBits_quiet w v).noResult ht
  case bwFlush => exact runUnit_answered bwFlush_quiet.noResult ht
  case brReadBit => exact runUnit_answered (getBit_quiet.bind fun _ => Quiet.pure _) ht
  case brReadBits w => exact runUnit_answered (brReadBits_quiet w) ht
  case mtfCheckAndInsert p => exact runUnit_answered ((mtfCheckAndInsert_quiet p).bind fun _ => Quiet.pure _) ht
  case mtfFetch j => exact runUnit_answered ((mtfFetch_quiet _).bind fun _ => Quiet.pure _) ht
  case mtfClear => exact runUnit_answered mtfClear_quiet.noResult ht
  case htbCount k v => exact runUnit_answered (htbCount_quiet k v).noResult ht
  case htbBuild k => exact runUnit_answered (htbBuild_quiet k).noResult ht
  case htbDerive k => exact runUnit_answered (htbDerive_quiet k).noResult ht
  case hePutToken k v => exact runUnit_answered (putToken_quiet k v).noResult ht
  case heEncodeToken k v => exact runUnit_answered (encodeToken_quiet k v).noResult ht
  case heWriteTable => exact runUnit_answered writeTable_quiet.noResult ht
  case heWritePayload => exact runUnit_answered writePayload_quiet.noResult ht
  case heFinish => exact runUnit_answered finish_quiet.noResult ht
  case hdReadTable => exact runUnit_answered readTable_quiet.noResult ht
  case hdRead k => exact runUnit_answered ((hdRead_quiet k).bind fun _ => Quiet.pure _) ht
  case pxSetDim w h => exact runUnit_answered (setDim_quiet w h).noResult ht
  case pxEncPixel p => exact runUnit_answered (encodePixel_quiet p).noResult ht
  case pxEncEnd => exact runUnit_answered flushRun_quiet.noResult ht
  case pxDecPixel => exact runUnit_answered (decodePixel_quiet.bind fun _ => Quiet.pure _) ht
  case encodeImage w h => exact runAlways_answered (encodeRest_quiet w h).noResult rfl ht
  case decodeImage => exact runAlways_answered decodeRest_quiet rfl ht
  case decodeHeader => exact runAlways_answered decodeHeaderRest_quiet rfl ht
  case statusRead =>
    cases ht
    exact ⟨.ok s.status, rfl, rfl, rfl⟩
  case reset =>
    cases ht
    exact ⟨.ok 0, rfl, rfl, rfl⟩
  all_goals cases hi

theorem parseElement_quiet (pos : StreamPos) : Quiet (parseElement getBit Cause.treeTooLarge Cause.badMagic pos) := by
  cases pos with
  | header =>
    exact parseMagic_quiet.bind fun _ => parseHalf_quiet.bind fun _ => parseHalf_quiet.bind fun _ => Quiet.pure _
  | table =>
    refine parseItem_quiet.bind fun x => ?_
    cases x <;> exact Quiet.pure _
  | tree =>
    refine parseTree_quiet.bind fun x => ?_
    cases x <;> exact Quiet.pure _

theorem runElement_config {f : State → State} (hf : ∀ s, (f s).config = s.config) {s t : State}
    (ht : runElement f s = .next t) : t.config = s.config := by
  rw [runElement_eq] at ht
  cases ht
  split
  · exact (failEntry_answered (Fixed.refl s) _).config
  · exact hf s

/-- No instruction changes the parameters (10_state.md R20). -/
theorem exec_config {i : Instr} {s t : State} (ht : exec i s = .next t) : t.config = s.config := by
  cases hi : isElement i with
  | false =>
    obtain ⟨r, -, h2, -⟩ := exec_answered hi ht
    cases hc : clearsStatus i <;> simpa [hc] using h2
  | true =>
    cases i
    case streamHeader w h => exact runElement_config (f := fun s => loadHeight h (loadWidth w s)) (fun s => rfl) ht
    case tableRecord k t => exact runElement_config (f := loadRecord k t) (fun s => rfl) ht
    case tableSentinel => exact runElement_config (f := endTable) (fun s => rfl) ht
    case treeInternal l r => exact runElement_config (f := fun s => s.setTreeOut (some (.internal l r))) (fun s => rfl) ht
    case treeLeaf v => exact runElement_config (f := fun s => s.setTreeOut (some (.leaf v))) (fun s => rfl) ht
    all_goals cases hi

end Sys2Proof.Machine
end

