-- ==== Sys2Proof/Laws/Container.lean ====
section
/-! SUPPORT. The container header (46_top_level.md R279; 30_encoding.md R90 to R92), written and read. -/

namespace Sys2Proof.Machine

theorem bin_split (n m : Nat) (v : Word) : bin (n + m) v = bin n (v >>> m) ++ bin m v := by
  induction n with
  | zero => simp
  | succ n ih =>
    rw [show n + 1 + m = n + m + 1 by omega, bin, bin, ih, BitVec.getLsbD_ushiftRight, Nat.add_comm m n]
    rfl

theorem binHalf_bytes (w : Half) : binHalf w = binByte (w.extractLsb' 8 8) ++ binByte (w.extractLsb' 0 8) := by
  refine (bin_split 8 8 (w.setWidth 32)).trans ?_
  rw [binByte, binByte]
  congr 1 <;> apply bin_congr <;> intro i hi
  · simp [BitVec.getLsbD_ushiftRight, hi]
    simp [show 8 + i < 32 by omega, show i < 32 by omega]
  · simp [hi]

theorem bitsOf_append (a b : List Byte) : bitsOf (a ++ b) = bitsOf a ++ bitsOf b := by simp [bitsOf]

theorem bitsOf_header (w h : Half) : bitsOf (headerBytes w h) = bitsOf magic ++ (binHalf w ++ binHalf h) := by
  rw [headerBytes, bitsOf_append, binHalf_bytes, binHalf_bytes]
  simp [bitsOf]

/-! ## Writing -/

theorem writeBytes_wrote (bs : List Byte) : ∀ {s : State}, WriterReady s → SinkReady s →
    ∃ t, writeBytes bs s = .ok () t ∧ Wrote s t (bitsOf bs) := by
  induction bs with
  | nil => intro s hw hr; exact ⟨s, rfl, Wrote.nil hw hr⟩
  | cons b bs ih =>
    intro s hw hr
    obtain ⟨t, h1, h2⟩ := writeBits_wrote (b.setWidth 32) 8 hw hr
    obtain ⟨u, h3, h4⟩ := ih h2.writerReady h2.ready
    exact ⟨u, by rw [writeBytes, steps_bind_ok h1, h3], by rw [bitsOf_cons]; exact h2.trans h4⟩

theorem writeHeader_wrote (w h : Half) {s : State} (hw : WriterReady s) (hr : SinkReady s) :
    ∃ t, writeHeader w h s = .ok () t ∧ Wrote s t (bitsOf (headerBytes w h)) := by
  obtain ⟨t, h1, h2⟩ := writeBytes_wrote magic hw hr
  obtain ⟨u, h3, h4⟩ := writeBits_wrote (w.setWidth 32) 16 h2.writerReady h2.ready
  obtain ⟨v, h5, h6⟩ := writeBits_wrote (h.setWidth 32) 16 h4.writerReady h4.ready
  refine ⟨v, by rw [writeHeader, steps_bind_ok h1, steps_bind_ok h3, h5], ?_⟩
  rw [bitsOf_header]
  exact h2.trans (h4.trans h6)

/-! ## Reading -/

theorem Took.setImage {s t : State} (h : Took s t) (m : ImageState) : Took (s.setImage m) (t.setImage m) := by
  refine ⟨?_, h.bytes, h.pending⟩
  have := onlyRead_iff.mp h.frame
  rw [onlyRead_iff]
  simp only [State.setImage]
  tauto

@[simp] theorem streamIn_setImage (s : State) (m : ImageState) : streamIn (s.setImage m) = streamIn s := rfl

theorem readHeader_ok (w h : Half) {s : State} {rest : Bits}
    (hs : streamIn s = bitsOf (headerBytes w h) ++ rest) :
    ∃ t, readHeader s = .ok () t ∧ streamIn t = rest ∧ Took (s.setImage ⟨w, h, s.image.i⟩) t := by
  rw [bitsOf_header, List.append_assoc, List.append_assoc] at hs
  obtain ⟨t, h1, h2, h3⟩ := parseMagic_tracks.ok (s := s) (by rw [hs]; exact parseMagic_bin _ _)
  obtain ⟨u, h4, h5, h6⟩ := parseHalf_tracks.ok (s := t) (by rw [h2]; exact parseHalf_bin w _)
  obtain ⟨v, h7, h8, h9⟩ := parseHalf_tracks.ok (s := loadWidth w u)
    (by rw [loadWidth, streamIn_setImage, h5]; exact parseHalf_bin h _)
  refine ⟨loadHeight h v, ?_, h8, ?_⟩
  · rw [readHeader, steps_bind_ok h1, steps_bind_ok h4, steps_bind_ok (steps_modify _ _), steps_bind_ok h7, steps_modify]
  · have h10 := (h3.trans h6).setImage { u.image with w := w }
    have h11 := h10.trans h9
    have hi : v.image = { s.image with w := w } := by
      rw [(onlyRead_iff.mp h9.frame).2.2.2.2.2.2.1]
      simp [loadWidth, (onlyRead_iff.mp (h3.trans h6).frame).2.2.2.2.2.2.1]
    have := h11.setImage { v.image with h := h }
    rw [hi] at this
    rw [loadHeight, hi]
    exact this

theorem parseBytes_short (n : Nat) : ∀ bs : Bits, bs.length < 8 * n → ∃ r, parseBytes nextBit n bs = .error .truncated r := by
  induction n with
  | zero => intro bs h; omega
  | succ n ih =>
    intro bs h
    by_cases h8 : bs.length < 8
    · exact ⟨[], by rw [parseBytes]; exact steps_bind_error (steps_bind_error (parseBits_short 8 0 bs h8))⟩
    · have hp : parseByte nextBit bs = .ok ((readWord 0 (bs.take 8)).setWidth 8) (bs.drop 8) := by
        have h2 := parseBits_append (bs.take 8) (bs.drop 8) 0
        rw [List.take_append_drop, List.length_take_of_le (by omega)] at h2
        rw [parseByte, steps_bind_ok h2]; rfl
      obtain ⟨r, h3⟩ := ih (bs.drop 8) (by simp; omega)
      exact ⟨r, by rw [parseBytes, steps_bind_ok hp]; exact steps_bind_error h3⟩

/-- Fewer than seven bytes: the read of the magic fails as the source ends (R279). -/
theorem readHeader_short {s : State} (hs : (streamIn s).length < 56) :
    ∃ t, readHeader s = .error (endCause s.agents.source) t ∧ OnlyRead s t := by
  obtain ⟨r, h⟩ := parseBytes_short 7 (streamIn s) hs
  obtain ⟨t, h1, h2⟩ := parseMagic_tracks.error (s := s) (e := .truncated) (bs := r) (by
    rw [parseMagic]; exact steps_bind_error h)
  exact ⟨t, by rw [readHeader]; exact steps_bind_error h1, h2⟩

/-- Bytes that were taken whole: the reader holds no bit and the source stands after them. -/
theorem Took.aligned {s t : State} (h : Took s t) (hn : s.reader.n = 0) {bs : List Byte} {rest : List SourceAnswer}
    (hs : s.agents.source = bs.map .byte ++ rest) {xs : Bits} (hx : xs.length = 8 * bs.length)
    (hin : streamIn s = xs ++ streamIn t) : t.reader.n = 0 ∧ t.agents.source = rest := by
  obtain ⟨a, ha⟩ := h.bytes
  have h7 := h.pending (by omega)
  have hl := congrArg List.length hin
  simp only [streamIn, hn, ha, sourceBytes_map, bin_length, List.length_append, bitsOf_length, hx] at hl
  have hab : a.length = bs.length := by omega
  refine ⟨by omega, ?_⟩
  rw [hs] at ha
  exact ((List.append_inj ha (by simp [hab])).2).symm

/-- Seven bytes that are not the magic (R279). -/
theorem readHeader_badMagic {s : State} (hn : s.reader.n = 0) {bs : List Byte} {rest : List SourceAnswer}
    (hs : s.agents.source = bs.map .byte ++ rest) (hl : bs.length = 7) (hm : bs ≠ magic) :
    ∃ t, readHeader s = .error .badMagic t ∧ OnlyRead s t ∧ t.agents.source = rest := by
  have hin : streamIn s = bitsOf bs ++ bitsOf (sourceBytes rest) := by
    simp [streamIn, hn, hs, sourceBytes_map, bitsOf_append]
  have hp : parseBytes nextBit 7 (streamIn s) = .ok bs (bitsOf (sourceBytes rest)) := by
    rw [hin, ← hl]; exact parseBytes_bin bs _
  obtain ⟨t, h1, h2, h3⟩ := (parseBytes_tracks 7).ok hp
  refine ⟨t, ?_, h3.frame, (h3.aligned hn hs (bitsOf_length bs) (by rw [hin, h2])).2⟩
  rw [readHeader, parseMagic]
  apply steps_bind_error
  rw [steps_bind_ok h1, if_neg hm]; rfl

end Sys2Proof.Machine
end

