-- ==== Sys2Proof/Laws/Outside.lean ====
section
/-! SUPPORT. The steps of a unit command neither look at the command interface and the pixel source nor touch them
(20_memory.md R60; 70_reset_and_hazards.md R353): with others in their place the steps are the same. -/

namespace Sys2Proof.Machine

/-- The state with another command interface and other answers of the pixel source. -/
def State.outside (s : State) (h : HostPort) (ps : List PixelAnswer) : State :=
  (s.setHost h).setAgents { s.agents with pixels := ps }

/-- A result with another command interface and other answers of the pixel source. -/
def outsideResult {α : Type} (h : HostPort) (ps : List PixelAnswer) :
    EStateM.Result Cause State α → EStateM.Result Cause State α
  | .ok a t => .ok a (t.outside h ps)
  | .error c t => .error c (t.outside h ps)

/-- Steps that neither look at the two nor touch them. -/
def Blind {α : Type} (m : M α) : Prop :=
  ∀ (s : State) (h : HostPort) (ps : List PixelAnswer), m (s.outside h ps) = outsideResult h ps (m s)

section
variable {α β : Type}

theorem Blind.pure (a : α) : Blind (pure a : M α) := fun _ _ _ => rfl
theorem Blind.raise (c : Cause) : Blind (raise c : M α) := fun _ _ _ => rfl
theorem Blind.throw (c : Cause) : Blind (throw c : M α) := fun _ _ _ => rfl

theorem Blind.modify {f : State → State} (hf : ∀ s h ps, f (s.outside h ps) = (f s).outside h ps) :
    Blind (modify f : M Unit) := by
  intro s h ps
  rw [steps_modify, steps_modify, hf]
  rfl

theorem Blind.bind {x : M α} {f : α → M β} (hx : Blind x) (hf : ∀ a, Blind (f a)) : Blind (x >>= f) := by
  intro s h ps
  rw [steps_bind, steps_bind, hx s h ps]
  cases x s with
  | ok a t => exact hf a t h ps
  | error c t => rfl

theorem Blind.get_bind {f : State → M β} (he : ∀ s h ps, f (State.outside s h ps) = f s) (hf : ∀ s, Blind (f s)) :
    Blind (do let s ← MonadState.get; f s) := by
  intro s h ps
  rw [steps_bind_ok (steps_get _), steps_bind_ok (steps_get _), he]
  exact hf s s h ps

theorem Blind.ite {p : Prop} [Decidable p] {x y : M α} (hx : Blind x) (hy : Blind y) : Blind (if p then x else y) := by
  split
  · exact hx
  · exact hy

theorem Blind.noResult {body : M Unit} (h : Blind body) : Blind (noResult body) := h.bind fun _ => Blind.pure _

/-- A completing run of steps with another outside. -/
theorem Blind.ok {m : M α} (h : Blind m) {s t : State} {a : α} (hm : m s = .ok a t) (o : HostPort) (ps : List PixelAnswer) :
    m (s.outside o ps) = .ok a (t.outside o ps) := by
  rw [h s o ps, hm]; rfl

end

theorem sinkPut_blind (b : Byte) : Blind (sinkPut b) := by
  intro s h ps
  have e : (s.outside h ps).agents.sinkAnswers = s.agents.sinkAnswers := rfl
  unfold sinkPut
  rw [e]
  cases s.agents.sinkAnswers with
  | nil => rfl
  | cons x rest => cases x <;> rfl

theorem sourceGet_blind : Blind sourceGet := by
  intro s h ps
  have e : (s.outside h ps).agents.source = s.agents.source := rfl
  unfold sourceGet
  rw [e]
  cases s.agents.source with
  | nil => rfl
  | cons x rest => cases x <;> rfl

theorem memoryRead_blind {m : State → Memory} (hm : ∀ s h ps, m (State.outside s h ps) = m s) (x : Nat) :
    Blind (memoryRead m x) := by
  intro s h ps
  unfold memoryRead
  rw [hm]
  cases (m s).read x <;> rfl

/-! ## The bit streams -/

theorem setWriter_blind (acc : Byte) (n : Nat) : Blind (setWriter acc n) := Blind.modify (fun _ _ _ => rfl)

theorem putBit_blind (b : Bool) : Blind (putBit b) :=
  Blind.get_bind (fun _ _ _ => rfl) fun _ => (setWriter_blind _ _).bind fun _ =>
    Blind.ite ((sinkPut_blind _).bind fun _ => setWriter_blind _ _) (Blind.pure _)

theorem putBits_blind (bs : Bits) : Blind (putBits bs) := by
  induction bs with
  | nil => exact Blind.pure _
  | cons b bs ih => exact (putBit_blind b).bind fun _ => ih

theorem writeBits_blind (v : Word) (n : Nat) : Blind (writeBits v n) := putBits_blind _

theorem bwFlush_blind : Blind bwFlush :=
  Blind.get_bind (fun _ _ _ => rfl) fun _ => Blind.ite ((sinkPut_blind _).bind fun _ => setWriter_blind _ _) (Blind.pure _)

theorem setReader_blind (cur : Byte) (n : Nat) : Blind (setReader cur n) := Blind.modify (fun _ _ _ => rfl)

theorem getBit_blind : Blind getBit :=
  Blind.bind (Blind.get_bind (fun _ _ _ => rfl) fun _ => Blind.ite (sourceGet_blind.bind fun _ => setReader_blind _ _) (Blind.pure _))
    fun _ => Blind.get_bind (fun _ _ _ => rfl) fun _ => (setReader_blind _ _).bind fun _ => Blind.pure _

theorem parseBits_blind (n : Nat) (v : Word) : Blind (parseBits getBit n v) := by
  induction n generalizing v with
  | zero => exact Blind.pure _
  | succ n ih => exact getBit_blind.bind fun _ => ih _

theorem parseByte_blind : Blind (parseByte getBit) := (parseBits_blind _ _).bind fun _ => Blind.pure _
theorem parseHalf_blind : Blind (parseHalf getBit) := (parseBits_blind _ _).bind fun _ => Blind.pure _

theorem parseNode_blind (fuel count : Nat) : Blind (parseNode getBit Cause.treeTooLarge fuel count) := by
  induction fuel generalizing count with
  | zero => exact Blind.throw _
  | succ fuel ih =>
    exact Blind.ite (Blind.throw _) (getBit_blind.bind fun _ =>
      Blind.ite ((ih _).bind fun _ => (ih _).bind fun _ => Blind.pure _) (parseByte_blind.bind fun _ => Blind.pure _))

theorem parseTree_blind : Blind (parseTree getBit Cause.treeTooLarge) := (parseNode_blind _ _).bind fun _ => Blind.pure _

theorem parseItem_blind : Blind (parseItem getBit Cause.treeTooLarge) :=
  parseByte_blind.bind fun _ => Blind.ite (Blind.pure _) (parseTree_blind.bind fun _ => Blind.pure _)

theorem parseBytes_blind (n : Nat) : Blind (parseBytes getBit n) := by
  induction n with
  | zero => exact Blind.pure _
  | succ n ih => exact parseByte_blind.bind fun _ => ih.bind fun _ => Blind.pure _

theorem parseMagic_blind : Blind (parseMagic getBit Cause.badMagic) :=
  (parseBytes_blind _).bind fun _ => Blind.ite (Blind.pure _) (Blind.throw _)

theorem bwWriteBits_blind (w : Byte) (v : Word) : Blind (bwWriteBits w v) :=
  Blind.ite (Blind.raise _) (writeBits_blind _ _)

theorem brReadBits_blind (w : Byte) : Blind (brReadBits w) := Blind.ite (Blind.raise _) (parseBits_blind _ _)

/-! ## The cache -/

theorem mtfCheckAndInsert_blind (p : Pixel) : Blind (mtfCheckAndInsert p) := by
  refine Blind.get_bind (fun _ _ _ => rfl) fun s => ?_
  cases mtfFind p s.mtf with
  | some j => exact Blind.bind (Blind.modify (fun _ _ _ => rfl)) fun _ => Blind.pure _
  | none => exact Blind.bind (Blind.modify (fun _ _ _ => rfl)) fun _ => Blind.pure _

theorem mtfFetch_blind (j : Nat) : Blind (mtfFetch j) := by
  refine Blind.get_bind (fun _ _ _ => rfl) fun s => ?_
  cases s.mtf[j]? with
  | none => exact Blind.raise _
  | some p => exact Blind.bind (Blind.modify (fun _ _ _ => rfl)) fun _ => Blind.pure _

theorem mtfClear_blind : Blind mtfClear := Blind.modify (fun _ _ _ => rfl)

/-! ## The tree builder and the encoder -/

theorem checkClass_blind (k : Byte) : Blind (checkClass k) := Blind.ite (Blind.raise _) (Blind.pure _)
theorem setBuilder_blind (x : TreeBuilder) : Blind (setBuilder x) := Blind.modify (fun _ _ _ => rfl)

theorem htbCount_blind (k v : Byte) : Blind (htbCount k v) :=
  (checkClass_blind k).bind fun _ => Blind.get_bind (fun _ _ _ => rfl) fun _ => Blind.ite (Blind.raise _) (setBuilder_blind _)

theorem htbBuild_blind (k : Byte) : Blind (htbBuild k) :=
  (checkClass_blind k).bind fun _ => Blind.get_bind (fun _ _ _ => rfl) fun _ => setBuilder_blind _

theorem htbDerive_blind (k : Byte) : Blind (htbDerive k) :=
  (checkClass_blind k).bind fun _ => Blind.get_bind (fun _ _ _ => rfl) fun _ => setBuilder_blind _

theorem putToken_blind (k v : Byte) : Blind (putToken k v) :=
  (checkClass_blind k).bind fun _ => Blind.get_bind (fun _ _ _ => rfl) fun _ => Blind.ite (Blind.raise _)
    ((htbCount_blind k v).bind fun _ => Blind.modify (fun _ _ _ => rfl))

theorem emit_blind (c : TokenClass) (v : Byte) : Blind (emit c v) := putToken_blind _ _

theorem encodeToken_blind (k v : Byte) : Blind (encodeToken k v) := by
  refine (checkClass_blind k).bind fun _ => Blind.get_bind (fun _ _ _ => rfl) fun s => ?_
  cases codeGet s.builder.code k v with
  | none => exact Blind.raise _
  | some bits => exact putBits_blind _

theorem writeTree_blind (t : CodeTree) : Blind (writeTree t) := by
  induction t with
  | leaf v => exact (putBit_blind _).bind fun _ => writeBits_blind _ _
  | internal l r ihl ihr => exact (putBit_blind _).bind fun _ => ihl.bind fun _ => ihr

theorem writeRecord_blind (k : Byte) : Blind (writeRecord k) := by
  refine Blind.get_bind (fun _ _ _ => rfl) fun s => Blind.ite ((htbBuild_blind k).bind fun _ => (htbDerive_blind k).bind fun _ =>
    (writeBits_blind _ _).bind fun _ => Blind.get_bind (fun _ _ _ => rfl) fun s => ?_) (Blind.pure _)
  cases tableGet s.builder.etree k.toNat with
  | some t => exact writeTree_blind t
  | none => exact Blind.pure _

theorem writeRecords_blind (n k : Nat) : Blind (writeRecords n k) := by
  induction n generalizing k with
  | zero => exact Blind.pure _
  | succ n ih => exact (writeRecord_blind _).bind fun _ => ih _

theorem writeTable_blind : Blind writeTable := (writeRecords_blind _ _).bind fun _ => writeBits_blind _ _

theorem encodeTokens_blind (ts : List Token) : Blind (encodeTokens ts) := by
  induction ts with
  | nil => exact Blind.pure _
  | cons t ts ih => exact (encodeToken_blind _ _).bind fun _ => ih

theorem writePayload_blind : Blind writePayload := Blind.get_bind (fun _ _ _ => rfl) fun _ => encodeTokens_blind _

theorem finish_blind : Blind finish := writeTable_blind.bind fun _ => writePayload_blind.bind fun _ => bwFlush_blind

/-! ## The decoder -/

theorem readRecords_blind (n : Nat) : Blind (readRecords n) := by
  induction n with
  | zero => exact Blind.raise _
  | succ n ih =>
    refine parseItem_blind.bind fun item => ?_
    cases item with
    | none => exact Blind.modify (fun _ _ _ => rfl)
    | some kt => exact Blind.bind (Blind.modify (fun _ _ _ => rfl)) fun _ => ih

theorem readTable_blind : Blind readTable := Blind.get_bind (fun _ _ _ => rfl) fun _ => readRecords_blind _

theorem walkTree_blind (t : CodeTree) : Blind (walkTree t) := by
  induction t with
  | leaf v => exact Blind.pure _
  | internal l r ihl ihr => exact getBit_blind.bind fun _ => Blind.ite ihr ihl

theorem hdRead_blind (k : Byte) : Blind (hdRead k) := by
  refine Blind.get_bind (fun _ _ _ => rfl) fun s => Blind.ite (Blind.raise _) ?_
  cases tableGet s.decoder.dtree k.toNat with
  | none => exact Blind.raise _
  | some t => exact walkTree_blind t

/-! ## The pixel codec -/

theorem setDim_blind (w h : Half) : Blind (setDim w h) := Blind.modify (fun _ _ _ => rfl)
theorem checkImage_blind : Blind checkImage := Blind.get_bind (fun _ _ _ => rfl) fun _ => Blind.ite (Blind.raise _) (Blind.pure _)
theorem advance_blind : Blind advance := Blind.modify (fun _ _ _ => rfl)

theorem emitRunBytes_blind (r : Word) (n : Nat) : Blind (emitRunBytes r n) := by
  induction n with
  | zero => exact Blind.pure _
  | succ n ih => exact (emit_blind _ _).bind fun _ => ih

theorem runFlush_blind (run : Word) : Blind (runFlush run) :=
  (emit_blind _ _).bind fun _ => (emit_blind _ _).bind fun _ => emitRunBytes_blind _ _

theorem flushRun_blind : Blind flushRun :=
  Blind.get_bind (fun _ _ _ => rfl) fun _ => Blind.ite ((runFlush_blind _).bind fun _ => Blind.modify (fun _ _ _ => rfl)) (Blind.pure _)

theorem setPrior_blind (p : Pixel) : Blind (setPrior p) := Blind.modify (fun _ _ _ => rfl)

theorem emitDeltas_blind (p base : Pixel) : Blind (emitDeltas p base) :=
  (emit_blind _ _).bind fun _ => (emit_blind _ _).bind fun _ => (emit_blind _ _).bind fun _ => emit_blind _ _

theorem encodeGroup_blind (p up : Pixel) : Blind (encodeGroup p up) := by
  refine (mtfCheckAndInsert_blind p).bind fun pos => ?_
  cases pos with
  | none =>
    exact Blind.get_bind (fun _ _ _ => rfl) fun _ => (emit_blind _ _).bind fun _ => (emitDeltas_blind _ _).bind fun _ => setPrior_blind _
  | some j =>
    cases j with
    | zero => exact Blind.raise _
    | succ j => exact (emit_blind _ _).bind fun _ => (emit_blind _ _).bind fun _ => setPrior_blind _

theorem encodeUp_blind : Blind encodeUp :=
  Blind.get_bind (fun _ _ _ => rfl) fun _ => Blind.ite (Blind.pure _) (memoryRead_blind (fun _ _ _ => rfl) _)

theorem storeLine_blind (p : Pixel) : Blind (storeLine p) := Blind.modify (fun _ _ _ => rfl)

theorem encodePixel_blind (p : Pixel) : Blind (encodePixel p) :=
  checkImage_blind.bind fun _ => encodeUp_blind.bind fun _ => (storeLine_blind p).bind fun _ =>
    advance_blind.bind fun _ => Blind.get_bind (fun _ _ _ => rfl) fun _ =>
      Blind.ite (Blind.modify (fun _ _ _ => rfl)) (flushRun_blind.bind fun _ => encodeGroup_blind _ _)

theorem readClass_blind (c : TokenClass) : Blind (readClass c) := hdRead_blind _
theorem setColour_blind (p : Pixel) : Blind (setColour p) := Blind.modify (fun _ _ _ => rfl)

theorem readDelta_blind (ch : Channel) : Blind (readDelta ch) :=
  (readClass_blind _).bind fun _ => Blind.modify (fun _ _ _ => rfl)

theorem decodeDeltas_blind : Blind decodeDeltas :=
  (readDelta_blind _).bind fun _ => (readDelta_blind _).bind fun _ => (readDelta_blind _).bind fun _ =>
    (readDelta_blind _).bind fun _ => Blind.get_bind (fun _ _ _ => rfl) fun _ => (mtfCheckAndInsert_blind _).bind fun _ => Blind.pure _

theorem decodeUp_blind : Blind decodeUp :=
  Blind.get_bind (fun _ _ _ => rfl) fun _ => Blind.ite (Blind.pure _) (memoryRead_blind (fun _ _ _ => rfl) _)

theorem decodeLookup_blind : Blind decodeLookup :=
  (readClass_blind _).bind fun _ => Blind.get_bind (fun _ _ _ => rfl) fun _ => Blind.ite (Blind.raise _)
    ((mtfFetch_blind _).bind fun _ => setColour_blind _)

theorem readRunBytes_blind (n : Nat) (r : Word) : Blind (readRunBytes n r) := by
  induction n generalizing r with
  | zero => exact Blind.pure _
  | succ n ih => exact (readClass_blind _).bind fun _ => ih _

theorem decodeRun_blind : Blind decodeRun :=
  (readClass_blind _).bind fun _ => Blind.ite (Blind.raise _)
    ((readRunBytes_blind _ _).bind fun _ => Blind.modify (fun _ _ _ => rfl))

theorem decodeGroup_blind : Blind decodeGroup := by
  refine (readClass_blind _).bind fun v => ?_
  rcases tagOf v with - | - | - | - | -
  · exact Blind.raise _
  · exact decodeRun_blind
  · exact decodeLookup_blind
  · exact decodeDeltas_blind
  · exact decodeUp_blind.bind fun _ => (setColour_blind _).bind fun _ => decodeDeltas_blind

theorem storeOut_blind : Blind storeOut := Blind.modify (fun _ _ _ => rfl)

theorem decodeColour_blind : Blind decodeColour :=
  Blind.get_bind (fun _ _ _ => rfl) fun _ => Blind.ite (Blind.modify (fun _ _ _ => rfl)) decodeGroup_blind

theorem decodePixel_blind : Blind decodePixel :=
  checkImage_blind.bind fun _ => decodeColour_blind.bind fun _ =>
      storeOut_blind.bind fun _ => advance_blind.bind fun _ => Blind.get_bind (fun _ _ _ => rfl) fun _ => Blind.pure _

/-! ## The top level -/

theorem writeBytes_blind (bs : List Byte) : Blind (writeBytes bs) := by
  induction bs with
  | nil => exact Blind.pure _
  | cons b bs ih => exact (writeBits_blind _ _).bind fun _ => ih

theorem writeHeader_blind (w h : Half) : Blind (writeHeader w h) :=
  (writeBytes_blind _).bind fun _ => (writeBits_blind _ _).bind fun _ => writeBits_blind _ _

theorem readHeader_blind : Blind readHeader :=
  parseMagic_blind.bind fun _ => parseHalf_blind.bind fun _ => Blind.bind (Blind.modify (fun _ _ _ => rfl)) fun _ =>
    parseHalf_blind.bind fun _ => Blind.modify (fun _ _ _ => rfl)

theorem decodePixels_blind (n : Nat) : Blind (decodePixels n) := by
  induction n with
  | zero => exact Blind.pure _
  | succ n ih => exact decodePixel_blind.bind fun _ => ih

theorem dimResult_blind : Blind dimResult := Blind.get_bind (fun _ _ _ => rfl) fun _ => Blind.pure _


end Sys2Proof.Machine
end

