-- ==== Sys2Proof/Laws/Run.lean ====
section
/-! SUPPORT. Instructions one after the other: `runAll`. -/

namespace Sys2Proof.Machine

theorem runAll_cons {i : Instr} {is : List Instr} {s t : State} (h : exec i s = .next t) : runAll (i :: is) s = runAll is t := by
  simp [runAll, h]

theorem runAll_append (is js : List Instr) (s : State) : runAll (is ++ js) s = (runAll is s).bind (runAll js) := by
  induction is generalizing s with
  | nil => rfl
  | cons i is ih =>
    simp only [List.cons_append, runAll]
    cases exec i s <;> simp [ih]

end Sys2Proof.Machine
end

