-- ==== Sys2Proof/Laws/UnitCommands.lean ====
section
/-! SUPPORT. Unit commands one after the other do what the steps of a top-level command do one after the other
(70_reset_and_hazards.md R353). -/

namespace Sys2Proof.Machine

/-! ## The bit streams do not look at the image -/

/-- A result with another image. -/
def imageResult {α : Type} (m : ImageState) : EStateM.Result Cause State α → EStateM.Result Cause State α
  | .ok a t => .ok a (t.setImage m)
  | .error c t => .error c (t.setImage m)

/-- Steps that neither look at the image nor touch it. -/
def ImageBlind {α : Type} (x : M α) : Prop := ∀ (s : State) (m : ImageState), x (s.setImage m) = imageResult m (x s)

section
variable {α β : Type}

theorem ImageBlind.pure (a : α) : ImageBlind (pure a : M α) := fun _ _ => rfl
theorem ImageBlind.raise (c : Cause) : ImageBlind (raise c : M α) := fun _ _ => rfl
theorem ImageBlind.throw (c : Cause) : ImageBlind (throw c : M α) := fun _ _ => rfl

theorem ImageBlind.modify {f : State → State} (hf : ∀ s m, f (State.setImage s m) = (f s).setImage m) :
    ImageBlind (modify f : M Unit) := by
  intro s m
  rw [steps_modify, steps_modify, hf]
  rfl

theorem ImageBlind.bind {x : M α} {f : α → M β} (hx : ImageBlind x) (hf : ∀ a, ImageBlind (f a)) : ImageBlind (x >>= f) := by
  intro s m
  rw [steps_bind, steps_bind, hx s m]
  cases x s with
  | ok a t => exact hf a t m
  | error c t => rfl

theorem ImageBlind.get_bind {f : State → M β} (he : ∀ s m, f (State.setImage s m) = f s) (hf : ∀ s, ImageBlind (f s)) :
    ImageBlind (do let s ← MonadState.get; f s) := by
  intro s m
  rw [steps_bind_ok (steps_get _), steps_bind_ok (steps_get _), he]
  exact hf s s m

theorem ImageBlind.ite {p : Prop} [Decidable p] {x y : M α} (hx : ImageBlind x) (hy : ImageBlind y) :
    ImageBlind (if p then x else y) := by
  split
  · exact hx
  · exact hy

theorem ImageBlind.ok {x : M α} (h : ImageBlind x) {s t : State} {a : α} (hx : x s = .ok a t) (m : ImageState) :
    x (s.setImage m) = .ok a (t.setImage m) := by
  rw [h s m, hx]; rfl

end

theorem sinkPut_imageBlind (b : Byte) : ImageBlind (sinkPut b) := by
  intro s m
  have e : (s.setImage m).agents = s.agents := rfl
  unfold sinkPut
  rw [e]
  cases s.agents.sinkAnswers with
  | nil => rfl
  | cons x rest => cases x <;> rfl

theorem sourceGet_imageBlind : ImageBlind sourceGet := by
  intro s m
  have e : (s.setImage m).agents = s.agents := rfl
  unfold sourceGet
  rw [e]
  cases s.agents.source with
  | nil => rfl
  | cons x rest => cases x <;> rfl

theorem putBit_imageBlind (b : Bool) : ImageBlind (putBit b) :=
  ImageBlind.get_bind (fun _ _ => rfl) fun _ => (ImageBlind.modify fun _ _ => rfl).bind fun _ =>
    ImageBlind.ite ((sinkPut_imageBlind _).bind fun _ => ImageBlind.modify fun _ _ => rfl) (ImageBlind.pure _)

theorem putBits_imageBlind (bs : Bits) : ImageBlind (putBits bs) := by
  induction bs with
  | nil => exact ImageBlind.pure _
  | cons b bs ih => exact (putBit_imageBlind b).bind fun _ => ih

theorem writeBytes_imageBlind (bs : List Byte) : ImageBlind (writeBytes bs) := by
  induction bs with
  | nil => exact ImageBlind.pure _
  | cons b bs ih => exact (putBits_imageBlind _).bind fun _ => ih

theorem writeHeader_imageBlind (w h : Half) : ImageBlind (writeHeader w h) :=
  (writeBytes_imageBlind _).bind fun _ => (putBits_imageBlind _).bind fun _ => putBits_imageBlind _

theorem getBit_imageBlind : ImageBlind getBit :=
  ImageBlind.bind (ImageBlind.get_bind (fun _ _ => rfl) fun _ => ImageBlind.ite (sourceGet_imageBlind.bind fun _ =>
    ImageBlind.modify fun _ _ => rfl) (ImageBlind.pure _)) fun _ => ImageBlind.get_bind (fun _ _ => rfl) fun _ =>
    (ImageBlind.modify fun _ _ => rfl).bind fun _ => ImageBlind.pure _

theorem parseBits_imageBlind (n : Nat) (v : Word) : ImageBlind (parseBits getBit n v) := by
  induction n generalizing v with
  | zero => exact ImageBlind.pure _
  | succ n ih => exact getBit_imageBlind.bind fun _ => ih _

/-! ## Runs of unit commands -/

/-- The interface after more responses. -/
def HostPort.answered (o : HostPort) (rs : List Response) : HostPort := { o with responses := o.responses ++ rs }

/-- The instructions lead from `s` to `t`, whatever the interface and the pixel source hold, and answer `rs`. -/
def Answers (is : List Instr) (rs : List Response) (s t : State) : Prop :=
  ∀ o ps, runAll is (s.outside o ps) = some (t.outside (o.answered rs) ps)

/-- The instructions lead from `s` to `t`, whatever the interface and the pixel source hold. -/
def Runs (is : List Instr) (s t : State) : Prop := ∃ rs, Answers is rs s t

theorem Answers.nil (s : State) : Answers [] [] s s := by
  intro o ps
  simp [runAll, HostPort.answered]

theorem Runs.nil (s : State) : Runs [] s s := ⟨[], Answers.nil s⟩

theorem Answers.append {is js : List Instr} {rs rs' : List Response} {s t u : State} (h : Answers is rs s t)
    (h' : Answers js rs' t u) : Answers (is ++ js) (rs ++ rs') s u := by
  intro o ps
  rw [runAll_append, h]
  show runAll js _ = _
  rw [h']
  simp [HostPort.answered]

theorem Runs.append {is js : List Instr} {s t u : State} (h : Runs is s t) (h' : Runs js t u) : Runs (is ++ js) s u := by
  obtain ⟨rs, hr⟩ := h
  obtain ⟨rs', hr'⟩ := h'
  exact ⟨rs ++ rs', hr.append hr'⟩

theorem Answers.unit {i : Instr} {body : M Word} (he : exec i = runUnit body) (hb : Blind body) {s t : State} {r : Word}
    (hs : s.failed = false) (h : body s = .ok r t) : Answers [i] [.ok r] s t := by
  intro o ps
  have h1 : exec i (s.outside o ps) = .next (respond (.ok r) (t.outside o ps)) := by
    rw [he]; exact runUnit_ok hs (hb.ok h o ps)
  rw [runAll_cons h1]
  rfl

theorem Runs.unit {i : Instr} {body : M Word} (he : exec i = runUnit body) (hb : Blind body) {s t : State} {r : Word}
    (hs : s.failed = false) (h : body s = .ok r t) : Runs [i] s t := ⟨_, Answers.unit he hb hs h⟩

theorem Runs.unit' {i : Instr} {body : M Unit} (he : exec i = runUnit (noResult body)) (hb : Blind body) {s t : State}
    (hs : s.failed = false) (h : body s = .ok () t) : Runs [i] s t :=
  Runs.unit he hb.noResult hs (noResult_ok h)

theorem Answers.reset (s : State) : Answers [.reset] [.ok 0] s (initState s) := by
  intro o ps
  have h1 : exec .reset (s.outside o ps) = .next (respond (.ok 0) (initState (s.outside o ps))) := runAlways_ok rfl
  rw [runAll_cons h1]
  rfl

theorem Runs.reset (s : State) : Runs [.reset] s (initState s) := ⟨_, Answers.reset s⟩

/-- Where the steps of a top-level command and its unit commands end in the same block, with the unit commands' answers. -/
theorem Answers.sameBlock {is : List Instr} {rs : List Response} {s t v : State} (h : Answers is rs s t)
    (hv : v.host.issues = s.host.issues) (hb : ∃ o ps, v = t.outside o ps) :
    ∃ u, runAll is s = some u ∧ SameBlock v u ∧ u.host.responses = s.host.responses ++ rs := by
  obtain ⟨o, ps, rfl⟩ := hb
  refine ⟨_, h s.host s.agents.pixels, ?_, rfl⟩
  have h2 : o.issues = s.host.issues := hv
  unfold SameBlock
  simp [State.outside, HostPort.answered, State.setHost, State.setAgents, h2]

theorem Runs.sameBlock {is : List Instr} {s t v : State} (h : Runs is s t) (hv : v.host.issues = s.host.issues)
    (hb : ∃ o ps, v = t.outside o ps) : ∃ u, runAll is s = some u ∧ SameBlock v u := by
  obtain ⟨rs, hr⟩ := h
  obtain ⟨u, h1, h2, -⟩ := hr.sameBlock hv hb
  exact ⟨u, h1, h2⟩

/-- A unit command that answers OK: its steps completed. -/
theorem runUnit_ok_inv {body : M Word} (hq : Quiet body) {s t : State} {r : Word} (h : runUnit body s = .next t)
    (hr : t.host.responses = s.host.responses ++ [.ok r]) :
    s.failed = false ∧ ∃ u, body s = .ok r u ∧ t = respond (.ok r) u := by
  by_cases hs : s.failed = true
  · rw [runUnit_failed body hs] at h
    cases h
    simp at hr
  · have hs' : s.failed = false := by simpa using hs
    cases hb : body s with
    | ok a u =>
      rw [runUnit_ok hs' hb] at h
      cases h
      have hu := ((hq s).1 _ _ hb).2.2
      simp only [respond_host, hu] at hr
      have := List.append_cancel_left hr
      simp at this
      subst this
      exact ⟨hs', u, rfl, rfl⟩
    | error c u =>
      rw [runUnit_error hs' hb] at h
      cases h
      have hf := (hq s).2 _ _ hb
      rw [failEntry_of_ready _ _ (hf.failed.trans hs')] at hr
      simp [hf.2.2] at hr

/-- A top-level command that answers OK: its steps after `Init()` completed. -/
theorem runAlways_ok_inv {body rest : M Word} (hb : ∀ s, body s = rest (initState s)) (hq : Quiet rest) {s t : State} {r : Word}
    (h : runAlways body s = .next t) (hr : t.host.responses = s.host.responses ++ [.ok r]) :
    ∃ u, rest (initState s) = .ok r u ∧ t = respond (.ok r) u := by
  have h1 : runUnit rest (initState s) = .next t := by
    rw [runUnit_eq, if_neg (by rw [initState_failed]; simp)]
    rw [runAlways, hb] at h
    exact h
  exact (runUnit_ok_inv hq h1 hr).2

/-! ## The pieces of ENCODE -/

theorem Runs.writeBytes (bs : List Byte) : ∀ {s t : State}, s.failed = false → writeBytes bs s = .ok () t →
    Runs (bs.map fun m => .bwWriteBits 8 (m.setWidth 32)) s t := by
  induction bs with
  | nil => intro s t _ h; cases h; exact Runs.nil s
  | cons b bs ih =>
    intro s t hs h
    obtain ⟨_, u, h1, h2⟩ := steps_bind_inv h
    have hu := ((writeBits_quiet _ _ s).1 _ _ h1).failed.trans hs
    exact Runs.append (Runs.unit' (i := .bwWriteBits 8 (b.setWidth 32)) (body := bwWriteBits 8 (b.setWidth 32)) rfl
      (Blind.ite (Blind.raise _) (writeBits_blind _ _)) hs h1) (ih hu h2)

theorem Runs.writeHeader {w h : Half} {s t : State} (hs : s.failed = false) (hw : writeHeader w h s = .ok () t) :
    Runs (magic.map (fun m => .bwWriteBits 8 (m.setWidth 32)) ++
      [.bwWriteBits 16 (w.setWidth 32), .bwWriteBits 16 (h.setWidth 32)]) s t := by
  obtain ⟨_, u, h1, h2⟩ := steps_bind_inv hw
  obtain ⟨_, v, h3, h4⟩ := steps_bind_inv h2
  have hu := ((writeBytes_quiet _ s).1 _ _ h1).failed.trans hs
  have hv := ((writeBits_quiet _ _ u).1 _ _ h3).failed.trans hu
  refine (Runs.writeBytes magic hs h1).append (Runs.append (js := [_]) (is := [_])
    (Runs.unit' (body := bwWriteBits 16 (w.setWidth 32)) rfl (Blind.ite (Blind.raise _) (writeBits_blind _ _)) hu h3)
    (Runs.unit' (body := bwWriteBits 16 (h.setWidth 32)) rfl (Blind.ite (Blind.raise _) (writeBits_blind _ _)) hv h4))

theorem Runs.encodePixels (ps : List Pixel) (rest : List PixelAnswer) : ∀ {s t : State}, s.failed = false →
    s.agents.pixels = ps.map .pixel ++ rest → encodePixels ps.length s = .ok () t →
    t.agents.pixels = rest ∧ Runs (ps.map .pxEncPixel) s t := by
  induction ps with
  | nil => intro s t _ hp h; cases h; exact ⟨hp, Runs.nil s⟩
  | cons p ps ih =>
    intro s t hs hp h
    obtain ⟨q, u, h1, h2⟩ := steps_bind_inv h
    obtain ⟨_, v, h3, h4⟩ := steps_bind_inv h2
    have hg : pixelGet s = .ok p (s.outside s.host (ps.map .pixel ++ rest)) := by
      unfold pixelGet
      rw [hp]; rfl
    rw [hg] at h1
    cases h1
    have hv := ((encodePixel_quiet p _).1 _ _ h3).failed.trans hs
    obtain ⟨v', hv'⟩ : ∃ v', encodePixel p s = .ok () v' ∧ v = v'.outside s.host (ps.map .pixel ++ rest) := by
      rw [encodePixel_blind p s] at h3
      cases hx : encodePixel p s with
      | ok a w => rw [hx] at h3; cases h3; exact ⟨w, rfl, rfl⟩
      | error c w => rw [hx] at h3; cases h3
    obtain ⟨h5, rfl⟩ := hv'
    obtain ⟨h6, h7⟩ := ih hv rfl h4
    refine ⟨h6, Runs.append (is := [_]) (Runs.unit' (body := encodePixel p) rfl (encodePixel_blind p) hs h5) ?_⟩
    obtain ⟨rs, hr⟩ := h7
    exact ⟨rs, fun o qs => hr o qs⟩

/-- The steps of HE_FINISH are its three unit commands (43_huffman_encoder.md R207). -/
theorem Runs.finish {s t : State} (hs : s.failed = false) (h : finish s = .ok () t) :
    Runs [.heWriteTable, .heWritePayload, .bwFlush] s t := by
  obtain ⟨_, u, h1, h2⟩ := steps_bind_inv h
  obtain ⟨_, v, h3, h4⟩ := steps_bind_inv h2
  have hu := ((writeTable_quiet s).1 _ _ h1).failed.trans hs
  have hv := ((writePayload_quiet u).1 _ _ h3).failed.trans hu
  exact Runs.append (is := [_]) (Runs.unit' rfl writeTable_blind hs h1)
    (Runs.append (is := [_]) (Runs.unit' rfl writePayload_blind hu h3) (Runs.unit' rfl bwFlush_blind hv h4))

/-- The steps of ENCODE after `Init()` are its unit commands after RESET (R353). -/
theorem Runs.encodeRest {w h : Half} {ps : List Pixel} {rest : List PixelAnswer} {s t : State}
    (hp : s.agents.pixels = ps.map .pixel ++ rest) (hl : ps.length = w.toNat * h.toNat)
    (he : encodeRest w h (initState s) = .ok () t) :
    t.agents.pixels = rest ∧ Runs (encodeStart w h ++ ps.map .pxEncPixel ++ [.pxEncEnd, .heFinish]) s t := by
  obtain ⟨_, s1, h1, he⟩ := steps_bind_inv he
  obtain ⟨_, s2, h2, he⟩ := steps_bind_inv he
  obtain ⟨_, s3, h3, he⟩ := steps_bind_inv he
  obtain ⟨_, s4, h4, he⟩ := steps_bind_inv he
  obtain ⟨_, s5, h5, he⟩ := steps_bind_inv he
  obtain ⟨_, s6, h6, h7⟩ := steps_bind_inv he
  cases h1; cases h2; cases h4
  have hs0 : (initState s).failed = false := initState_failed s
  have f3 : s3.failed = false := ((writeHeader_quiet w h _).1 _ _ h3).failed.trans hs0
  have h3' := (writeHeader_imageBlind w h).ok h3 (initState s).image
  have hstart : Runs (encodeStart w h) s (startImage w h s3) := by
    have r1 := Runs.writeHeader (s := initState s) hs0 h3'
    have r2 : Runs [.pxSetDim w h] (s3.setImage (initState s).image) (startImage w h s3) :=
      Runs.unit' rfl (setDim_blind w h) f3 rfl
    have := (Runs.reset s).append (r1.append r2)
    simpa [encodeStart] using this
  have hpx : (startImage w h s3).agents.pixels = ps.map .pixel ++ rest := by
    have : s3.agents.pixels = s.agents.pixels := by
      have hb := (writeHeader_blind w h) (loadHeight h (loadWidth w (initState s))) (initState s).host
        (initState s).agents.pixels
      have e : (loadHeight h (loadWidth w (initState s))).outside (initState s).host (initState s).agents.pixels =
        loadHeight h (loadWidth w (initState s)) := rfl
      rw [e, h3] at hb
      have h8 : s3 = s3.outside (initState s).host (initState s).agents.pixels := by
        simpa [outsideResult] using hb
      rw [h8]; rfl
    exact this.trans hp
  rw [← hl] at h5
  obtain ⟨p1, p2⟩ := Runs.encodePixels ps rest (s := startImage w h s3) f3 hpx h5
  have f5 : s5.failed = false := ((encodePixels_quiet _ _).1 _ _ h5).failed.trans f3
  have f6 : s6.failed = false := ((flushRun_quiet _).1 _ _ h6).failed.trans f5
  have px : ∀ {m : M Unit}, Blind m → ∀ {a b : State}, m a = .ok () b → b.agents.pixels = a.agents.pixels := by
    intro m hm a b hab
    have hb := hm a a.host a.agents.pixels
    have e : a.outside a.host a.agents.pixels = a := rfl
    rw [e, hab] at hb
    have h8 : b = b.outside a.host a.agents.pixels := by simpa [outsideResult] using hb
    rw [h8]; rfl
  refine ⟨by rw [px finish_blind h7, px flushRun_blind h6, p1], ?_⟩
  exact (hstart.append p2).append (Runs.append (is := [_]) (Runs.unit' rfl flushRun_blind f5 h6)
    (Runs.unit' rfl finish_blind f6 h7))

/-! ## The pieces of DECODE -/

theorem Answers.readBits {n : Byte} (hn : n.toNat ≤ 32) {v : Word} {s t : State} (hs : s.failed = false)
    (h : parseBits getBit n.toNat 0 s = .ok v t) : Answers [.brReadBits n] [.ok v] s t := by
  refine Answers.unit (body := Machine.brReadBits n) rfl (Blind.ite (Blind.raise _) (parseBits_blind _ _)) hs ?_
  rw [Machine.brReadBits, if_neg (Nat.not_lt.mpr hn)]
  exact h

/-- BR_READ_BITS 8 answers the byte that the decoder reads. -/
theorem Answers.readByte {v : Byte} {s t : State} (hs : s.failed = false) (h : parseByte getBit s = .ok v t) :
    Answers [.brReadBits 8] [.ok (v.setWidth 32)] s t := by
  obtain ⟨x, u, h1, h2⟩ := steps_bind_inv h
  have h3 := ((parseBits_tracks 8 0).inv h1).1
  rw [parseByte_inv (parseByte_tracks.inv h).1, binByte, parseBits_bin] at h3
  injection h3 with h3
  cases h2
  have h4 := readWord_byte (x.setWidth 8)
  rw [binByte, h3] at h4
  rw [← h4]
  exact Answers.readBits (by decide) hs h1

/-- BR_READ_BITS 16 answers the 16-bit field that the decoder reads. -/
theorem Answers.readHalf {v : Half} {s t : State} (hs : s.failed = false) (h : parseHalf getBit s = .ok v t) :
    Answers [.brReadBits 16] [.ok (v.setWidth 32)] s t := by
  obtain ⟨x, u, h1, h2⟩ := steps_bind_inv h
  have h3 := ((parseBits_tracks 16 0).inv h1).1
  rw [parseHalf_inv (parseHalf_tracks.inv h).1, binHalf, parseBits_bin] at h3
  injection h3 with h3
  cases h2
  have h4 := readWord_half (x.setWidth 16)
  rw [binHalf, h3] at h4
  rw [← h4]
  exact Answers.readBits (by decide) hs h1

theorem Answers.readBytes (n : Nat) : ∀ {s t : State} {l : List Byte}, s.failed = false → parseBytes getBit n s = .ok l t →
    Answers (List.replicate n (.brReadBits 8)) (l.map fun b => .ok (b.setWidth 32)) s t := by
  induction n with
  | zero => intro s t l _ h; cases h; exact Answers.nil s
  | succ n ih =>
    intro s t l hs h
    obtain ⟨b, u, h1, h2⟩ := steps_bind_inv h
    obtain ⟨bs, v, h3, h4⟩ := steps_bind_inv h2
    cases h4
    have hu := ((parseByte_quiet s).1 _ _ h1).failed.trans hs
    exact Answers.append (is := [_]) (rs := [_]) (Answers.readByte hs h1) (ih hu h3)

theorem parseHalf_imageBlind : ImageBlind (parseHalf getBit) := (parseBits_imageBlind _ _).bind fun _ => ImageBlind.pure _

/-- The header's reads (46_top_level.md R279): they answer the magic and the dimensions. -/
theorem Answers.readHeader {s t : State} (hs : s.failed = false) (h : readHeader s = .ok () t) :
    ∃ v, Answers (List.replicate 7 (.brReadBits 8) ++ [.brReadBits 16, .brReadBits 16])
        (magic.map (fun m => .ok (m.setWidth 32)) ++ [.ok (t.image.w.setWidth 32), .ok (t.image.h.setWidth 32)]) s v ∧
      ∀ w h, startImage w h t = startImage w h v := by
  obtain ⟨_, s1, h1, h⟩ := steps_bind_inv h
  obtain ⟨w, s2, h2, h⟩ := steps_bind_inv h
  obtain ⟨_, s3, h3, h⟩ := steps_bind_inv h
  obtain ⟨hh, s4, h4, h5⟩ := steps_bind_inv h
  cases h3; cases h5
  obtain ⟨m, s1', h6, h7⟩ := steps_bind_inv h1
  obtain ⟨rfl, rfl⟩ : s1' = s1 ∧ m = magic := by
    by_cases he : m = magic
    · rw [if_pos he] at h7; cases h7; exact ⟨rfl, he⟩
    · rw [if_neg he] at h7; cases h7
  have f1 := ((parseBytes_quiet _ s).1 _ _ h6).failed.trans hs
  have f2 := ((parseHalf_quiet _).1 _ _ h2).failed.trans f1
  have h4' := parseHalf_imageBlind.ok h4 s2.image
  have hw : s4.image.w = w := congrArg (fun x => x.image.w) (parseHalf_tracks.inv h4).2.frame
  show ∃ v, Answers _ (_ ++ [.ok (s4.image.w.setWidth 32), .ok (hh.setWidth 32)]) s v ∧ _
  rw [hw]
  refine ⟨s4.setImage s2.image, ?_, fun _ _ => rfl⟩
  exact (Answers.readBytes 7 hs h6).append
    (Answers.append (is := [_]) (rs := [_]) (Answers.readHalf f1 h2) (Answers.readHalf (s := s2) f2 h4'))

theorem Runs.decodePixels (n : Nat) : ∀ {s t : State}, s.failed = false → decodePixels n s = .ok () t →
    Runs (List.replicate n .pxDecPixel) s t := by
  induction n with
  | zero => intro s t _ h; cases h; exact Runs.nil s
  | succ n ih =>
    intro s t hs h
    obtain ⟨p, u, h1, h2⟩ := steps_bind_inv h
    have hu := ((decodePixel_quiet s).1 _ _ h1).failed.trans hs
    refine Runs.append (is := [_]) (Runs.unit (body := do let p ← decodePixel; pure (packPixel p)) rfl
      (decodePixel_blind.bind fun _ => Blind.pure _) hs (r := packPixel p) ?_) (ih hu h2)
    rw [steps_bind_ok h1]; rfl

/-- The steps of DECODE after `Init()` are its unit commands after RESET (R353), of which the reads of the header answer the
magic and the dimensions. -/
theorem Answers.decodeRest {s t : State} {r : Word} (he : decodeRest (initState s) = .ok r t) :
    r = packDim t.image.w t.image.h ∧ t.image.i.toNat = t.image.w.toNat * t.image.h.toNat ∧
      ∃ rs, Answers (decodeStart t.image.w t.image.h ++ List.replicate (t.image.w.toNat * t.image.h.toNat) .pxDecPixel)
        (decodeStartAnswers t.image.w t.image.h ++ rs) s t := by
  obtain ⟨_, s1, h1, he⟩ := steps_bind_inv he
  rw [steps_bind_ok (steps_get s1)] at he
  obtain ⟨_, s2, h2, he⟩ := steps_bind_inv he
  obtain ⟨_, s3, h3, he⟩ := steps_bind_inv he
  obtain ⟨_, s4, h4, h5⟩ := steps_bind_inv he
  cases h2
  rw [dimResult, steps_bind_ok (steps_get s4)] at h5
  cases h5
  have hs0 : (initState s).failed = false := initState_failed s
  obtain ⟨v, r1, hv⟩ := Answers.readHeader hs0 h1
  have f1 := ((readHeader_quiet _).1 _ _ h1).failed.trans hs0
  have i3 := readTable_image h3
  have i4 := decodePixels_image _ h4
  rw [i3] at i4
  have hw : t.image.w = s1.image.w := i4.1
  have hh : t.image.h = s1.image.h := i4.2.1
  have hi : t.image.i.toNat = s1.image.w.toNat * s1.image.h.toNat := by
    rw [i4.2.2]
    show (0 : Word).toNat + _ = _
    simp
  have fv : v.failed = false := by
    have := hv 0 0
    have h6 : (startImage 0 0 s1).failed = (startImage 0 0 v).failed := by rw [this]
    exact h6.symm.trans f1
  have f3 : s3.failed = false := ((readTable_quiet _).1 _ _ h3).failed.trans f1
  refine ⟨rfl, by rw [hi, hw, hh], ?_⟩
  rw [hw, hh]
  have r2 : Answers [.pxSetDim s1.image.w s1.image.h] [.ok 0] v (startImage s1.image.w s1.image.h s1) := by
    rw [hv]
    exact Answers.unit (body := noResult (setDim _ _)) rfl (setDim_blind _ _).noResult fv rfl
  have r3 : Answers [.hdReadTable] [.ok 0] (startImage s1.image.w s1.image.h s1) s3 :=
    Answers.unit rfl readTable_blind.noResult f1 (noResult_ok h3)
  obtain ⟨rs, r4⟩ := Runs.decodePixels _ f3 h4
  have := ((Answers.reset s).append (r1.append (r2.append r3))).append r4
  exact ⟨rs, by simpa [decodeStart, decodeStartAnswers] using this⟩

end Sys2Proof.Machine
end

