-- ==== Sys2Proof/Laws/Failures.lean ====
section
/-! SUPPORT. The commands that answer ERR, and what made them (60_exceptions.md R303, R310, R311). -/

namespace Sys2Proof.Machine

/-! ## The failures of a command -/

/-- A unit command that answers ERR: it was refused in the failed state, or its steps failed. -/
theorem runUnit_err_inv {body : M Word} (hq : Quiet body) {s t : State} {k : Kind} {c : Cause} (h : runUnit body s = .next t)
    (hr : t.host.responses = s.host.responses ++ [.err k c]) :
    (s.failed = true ∧ c = .failedState) ∨ (s.failed = false ∧ ∃ u, body s = .error c u ∧ t = failEntry c u) := by
  by_cases hs : s.failed = true
  · rw [runUnit_failed body hs] at h
    cases h
    simp at hr
    exact .inl ⟨hs, hr.2.symm⟩
  · have hs' : s.failed = false := by simpa using hs
    cases hb : body s with
    | ok a u =>
      rw [runUnit_ok hs' hb] at h
      cases h
      have hu := ((hq s).1 _ _ hb).2.2
      simp [hu] at hr
    | error d u =>
      rw [runUnit_error hs' hb] at h
      cases h
      have hf := (hq s).2 _ _ hb
      rw [failEntry_of_ready _ _ (hf.failed.trans hs')] at hr
      simp [hf.2.2] at hr
      obtain ⟨-, rfl⟩ := hr
      exact .inr ⟨hs', u, rfl, rfl⟩

/-- A top-level command that answers ERR: its steps after `Init()` failed. -/
theorem runAlways_err_inv {body rest : M Word} (hb : ∀ s, body s = rest (initState s)) (hq : Quiet rest) {s t : State}
    {k : Kind} {c : Cause} (h : runAlways body s = .next t) (hr : t.host.responses = s.host.responses ++ [.err k c]) :
    ∃ u, rest (initState s) = .error c u ∧ t = failEntry c u := by
  have h1 : runUnit rest (initState s) = .next t := by
    rw [runUnit_eq, if_neg (by rw [initState_failed]; simp)]
    rw [runAlways, hb] at h
    exact h
  rcases runUnit_err_inv hq h1 hr with ⟨hf, -⟩ | ⟨-, hu⟩
  · rw [initState_failed] at hf; cases hf
  · exact hu

/-- While pixels are left, DECODE's pixels do not find the image complete. -/
theorem decodePixels_raises (n : Nat) : ∀ {s t : State} {c : Cause}, s.image.i.toNat + n ≤ s.image.pixels →
    decodePixels n s = .error c t → c ∈ colourCauses := by
  induction n with
  | zero => intro s t c _ h; cases h
  | succ n ih =>
    intro s t c hi h
    rcases steps_bind_error_inv h with h1 | ⟨p, u, h1, h2⟩
    · exact decodePixel_raises_left (by omega) h1
    · have hu := decodePixel_image h1
      exact ih (by simp only [ImageState.pixels, hu.1, hu.2.1, hu.2.2] at hi ⊢; omega) h2

theorem decodeRest_raises {s t : State} {c : Cause} (h : decodeRest s = .error c t) :
    c ∈ [Cause.badMagic, .eos, .sourceIo, .treeTooLarge, .classNotFound, .unknownTag, .lookupRange] := by
  rcases steps_bind_error_inv h with h1 | ⟨_, s1, h1, h⟩
  · have := readHeader_raises s c t trivial h1
    simp at this; rcases this with rfl | rfl | rfl <;> simp
  · rw [steps_bind_ok (steps_get s1), setDim, steps_bind_ok (steps_modify _ _)] at h
    rcases steps_bind_error_inv h with h2 | ⟨_, s2, h2, h⟩
    · have := readTable_raises _ c t trivial h2
      simp at this; rcases this with rfl | rfl | rfl <;> simp
    · rcases steps_bind_error_inv h with h3 | ⟨_, s3, h3, h4⟩
      · have hi := readTable_image h2
        have := decodePixels_raises _ (s := s2) (by rw [hi]; simp [startImage, ImageState.pixels]) h3
        simp at this; rcases this with rfl | rfl | rfl | rfl | rfl <;> simp
      · rw [dimResult, steps_bind_ok (steps_get _)] at h4; cases h4

end Sys2Proof.Machine
end

