-- ==== Sys2Proof/Laws/ImageEncoder.lean ====
section
/-! SUPPORT. The pixels of one encode: the tokens each adds, and why no class total and no cache state can fail (46_top_level.md
R281; 60_exceptions.md R303). -/

namespace Sys2Proof.Machine

/-! ## Tokens emitted in order -/

/-- Tokens emitted in order. -/
def emitAll : List Token → M Unit
  | [] => pure ()
  | t :: ts => do
    putToken t.k t.v
    emitAll ts

theorem emitAll_append (ts us : List Token) : emitAll (ts ++ us) = emitAll ts >>= fun _ => emitAll us := by
  induction ts with
  | nil => rfl
  | cons t ts ih =>
    funext s
    rw [List.cons_append, emitAll, ih, emitAll, steps_assoc]

theorem emitRunBytes_all (r : Word) (b : Nat) : emitRunBytes r b = emitAll (runByteTokens r b) := by
  induction b with
  | zero => rfl
  | succ b ih => rw [emitRunBytes, ih, runByteTokens_succ, runByte_eq]; rfl

theorem runFlush_all (run : Word) : runFlush run = emitAll (runGroup (runByteCount (run - 1)) (run - 1)) := by
  rw [runFlush, emitRunBytes_all]; rfl

theorem flushRun_all (s : State) : flushRun s =
    (emitAll (pendingRun s.enc.run) >>= fun _ => modify fun s => s.setEnc { s.enc with run := 0 }) s := by
  rw [flushRun, steps_bind_ok (steps_get s)]
  by_cases hr : s.enc.run = 0
  · rw [if_neg (by simp [hr]), show pendingRun s.enc.run = [] from if_pos hr]
    show _ = EStateM.Result.ok () (s.setEnc { s.enc with run := 0 })
    rw [setEnc_run_zero hr]; rfl
  · have h0 : s.enc.run.toNat > 0 := by
      rcases Nat.eq_zero_or_pos s.enc.run.toNat with h0 | h0
      · exact absurd (BitVec.eq_of_toNat_eq h0) hr
      · exact h0
    rw [if_pos h0, runFlush_all, show pendingRun s.enc.run = _ from if_neg hr]

theorem steps_bind_assoc {α β γ : Type} (x : M α) (f : α → M β) (g : β → M γ) :
    ((x >>= f) >>= g) = x >>= fun a => f a >>= g := funext fun s => steps_assoc x f g s

theorem steps_pure_bind {β : Type} (f : Unit → M β) : ((pure () : M Unit) >>= f) = f () := rfl

theorem lookupGroup_all (p : Pixel) (j : Nat) : lookupGroup p j = emitAll (lookupTokens j) >>= fun _ => setPrior p := by
  simp only [lookupTokens, emitAll, steps_bind_assoc, steps_pure_bind]
  rfl

theorem deltaGroup_all (p : Pixel) (c : Pixel × Tag) :
    deltaGroup p c = emitAll (deltaTokens p c.1 c.2) >>= fun _ => setPrior p := by
  simp only [deltaGroup, emitDeltas, deltaTokens, emitAll, steps_bind_assoc, steps_pure_bind]
  rfl

/-- The tokens of a class in a list. -/
def classCount (ts : List Token) (k : Byte) : Nat := (ts.map Token.k).count k

theorem putOne_total {s : State} {t : Token} (hw : tableWf s.builder.freq) (hc : classTotal s.builder.freq t.k < 2 ^ 32 - 1) (k : Byte) :
    classTotal (putOne s t).builder.freq k = classTotal s.builder.freq k + if t.k = k then 1 else 0 := by
  have h := classTotal_count hw t.k t.v k hc
  have e : (if k = t.k then 1 else 0) = if t.k = k then 1 else (0 : Nat) := by
    by_cases hk : k = t.k
    · rw [if_pos hk, if_pos hk.symm]
    · rw [if_neg hk, if_neg fun h => hk h.symm]
  rw [e] at h
  exact h

theorem putOne_freq {s : State} {t : Token} (hc : classTotal s.builder.freq t.k < 2 ^ 32 - 1) {k v : Byte}
    (h : freqGet s.builder.freq k v ≠ 0 ∨ t = ⟨k, v⟩) : freqGet (putOne s t).builder.freq k v ≠ 0 := by
  simp only [putOne, State.setTokbuf_builder, State.setBuilder_builder, freqGet_set]
  by_cases hkv : k = t.k ∧ v = t.v
  · rw [if_pos hkv]
    intro h0
    have h1 := freqGet_le_total s.builder.freq t.k t.v
    have h2 := congrArg BitVec.toNat h0
    rw [BitVec.toNat_add, show (1 : Word).toNat = 1 from rfl, show (0 : Word).toNat = 0 from rfl] at h2
    omega
  · rw [if_neg hkv]
    rcases h with h | rfl
    · exact h
    · exact absurd ⟨rfl, rfl⟩ hkv

/-- What tokens put in order do to the counts. -/
theorem putAll_counts (ts : List Token) : ∀ {s : State}, tableWf s.builder.freq →
    (∀ k, classTotal s.builder.freq k + ts.length < 2 ^ 32) →
    tableWf (putAll s ts).builder.freq ∧
    (∀ k, classTotal (putAll s ts).builder.freq k = classTotal s.builder.freq k + classCount ts k) ∧
    ∀ k v, freqGet s.builder.freq k v ≠ 0 ∨ ⟨k, v⟩ ∈ ts → freqGet (putAll s ts).builder.freq k v ≠ 0 := by
  induction ts with
  | nil => intro s hw _; exact ⟨hw, fun k => rfl, fun k v h => h.resolve_right (by simp)⟩
  | cons t ts ih =>
    intro s hw hc
    have h0 : classTotal s.builder.freq t.k < 2 ^ 32 - 1 := by have := hc t.k; simp at this; omega
    have hw' : tableWf (putOne s t).builder.freq := tableWf_set hw _ _
    obtain ⟨a, b, c⟩ := ih (s := putOne s t) hw' (fun k => by
      rw [putOne_total hw h0]; have := hc k; simp at this; split <;> omega)
    rw [putAll_cons]
    refine ⟨a, fun k => ?_, fun k v h => ?_⟩
    · rw [b, putOne_total hw h0, classCount, classCount, List.map_cons, List.count_cons]
      by_cases hk : t.k = k
      · simp [hk]; omega
      · simp [hk]
    · refine c k v ?_
      rcases h with h | h
      · exact .inl (putOne_freq h0 (.inl h))
      · rcases List.mem_cons.mp h with h | h
        · exact .inl (putOne_freq h0 (.inr h.symm))
        · exact .inr h

/-- Tokens are all put, or the buffer is full (R200). -/
theorem emitAll_cases (ts : List Token) : ∀ {s : State}, (∀ t ∈ ts, classOk t.k) → tableWf s.builder.freq →
    (∀ k, classTotal s.builder.freq k + ts.length < 2 ^ 32) →
    emitAll ts s = .ok () (putAll s ts) ∨
      ∃ t d, emitAll ts s = .error .tokbufFull t ∧ s.config.tokbufDepth = some d ∧
        d < s.tokbuf.length + ts.length := by
  induction ts with
  | nil => intro s _ _ _; exact .inl rfl
  | cons t ts ih =>
    intro s hk hw hc
    have h0 : classTotal s.builder.freq t.k < 2 ^ 32 - 1 := by have := hc t.k; simp at this; omega
    by_cases hd : s.config.tokbufDepth = some s.tokbuf.length
    · refine .inr ⟨s, s.tokbuf.length, ?_, hd, by simp⟩
      rw [emitAll, steps_bind_error (putToken_full t.v (hk t (by simp)) hd)]
    · have h1 := putToken_ok t.v (hk t (by simp)) hd (by omega)
      have hw' : tableWf (putOne s t).builder.freq := tableWf_set hw _ _
      rcases ih (s := putOne s t) (fun x hx => hk x (by simp [hx])) hw' (fun k => by
        rw [putOne_total hw h0]; have := hc k; simp at this; split <;> omega) with h2 | ⟨u, d, h2, h3, h5⟩
      · exact .inl (by rw [emitAll, steps_bind_ok h1]; exact h2)
      · refine .inr ⟨u, d, by rw [emitAll, steps_bind_ok h1]; exact h2, h3, ?_⟩
        simp [putOne] at h5 ⊢
        omega

/-! ## The tokens of one pixel -/

theorem token_ok (c : TokenClass) (v : Byte) : classOk (token c v).k := classId_ok c

theorem pendingRun_ok (run : Word) : ∀ t ∈ pendingRun run, classOk t.k := by
  intro t ht
  unfold pendingRun at ht
  split at ht
  · cases ht
  · rw [runGroup_eq] at ht
    simp only [List.mem_cons, runByteTokens, List.mem_map] at ht
    rcases ht with rfl | rfl | ⟨j, -, rfl⟩ <;> exact token_ok _ _

theorem runByteCount_le (r : Word) : runByteCount r ≤ 4 := by
  unfold runByteCount
  split
  · omega
  · split
    · omega
    · split
      · omega
      · split <;> omega

theorem pendingRun_length (run : Word) : (pendingRun run).length ≤ if run = 0 then 0 else 6 := by
  unfold pendingRun
  split
  · simp
  · rw [runGroup_eq]
    have := runByteCount_le (run - 1)
    simp only [List.length_cons, runByteTokens_length]
    omega

theorem classCount_le {ts : List Token} (h : (ts.map Token.k).Nodup) (k : Byte) : classCount ts k ≤ 1 :=
  List.nodup_iff_count_le_one.mp h k

theorem runGroup_classes {b : Nat} (hb : b ≤ 4) (r : Word) : ((runGroup b r).map Token.k).Nodup := by
  have e : (runGroup b r).map Token.k =
      classId .tag :: classId .byteCount :: (List.range b).reverse.map fun j => classId (runByteClass j) := by
    simp [runGroup, token]
  rw [e]
  have : b = 0 ∨ b = 1 ∨ b = 2 ∨ b = 3 ∨ b = 4 := by omega
  rcases this with rfl | rfl | rfl | rfl | rfl <;> decide

/-- A pending run adds at most one token to a class. -/
theorem classCount_pendingRun (run : Word) (k : Byte) : classCount (pendingRun run) k ≤ if run = 0 then 0 else 1 := by
  unfold pendingRun
  split
  · simp [classCount]
  · exact classCount_le (runGroup_classes (runByteCount_le _) _) k

/-- The tokens of a pixel that differs from PRIOR (R240 steps 3 to 6). -/
def groupTokens (s : State) (p : Pixel) : List Token :=
  match mtfFind p s.mtf with
  | some j => lookupTokens (j - 1)
  | none => deltaTokens p (predict p s.enc.prior (encodeUpRead s).1).1 (predict p s.enc.prior (encodeUpRead s).1).2

theorem groupTokens_ok (s : State) (p : Pixel) : ∀ t ∈ groupTokens s p, classOk t.k := by
  intro t ht
  unfold groupTokens at ht
  split at ht
  · simp only [lookupTokens, List.mem_cons, List.not_mem_nil, or_false] at ht
    rcases ht with rfl | rfl <;> exact token_ok _ _
  · simp only [deltaTokens, List.mem_cons, List.not_mem_nil, or_false] at ht
    rcases ht with rfl | rfl | rfl | rfl | rfl <;> exact token_ok _ _

theorem groupTokens_length (s : State) (p : Pixel) : (groupTokens s p).length ≤ 5 := by
  unfold groupTokens
  split <;> simp [lookupTokens, deltaTokens]

theorem classCount_group (s : State) (p : Pixel) (k : Byte) : classCount (groupTokens s p) k ≤ 1 := by
  refine classCount_le ?_ k
  unfold groupTokens
  split
  · exact (show [classId .tag, classId .lookup].Nodup by decide)
  · exact (show [classId .tag, classId .deltaR, classId .deltaG, classId .deltaB, classId .deltaA].Nodup by decide)

/-! ## The state after a pixel -/

/-- The tokens that a pixel adds. -/
def pixelTokens (s : State) (p : Pixel) : List Token :=
  if p = s.enc.prior then [] else pendingRun s.enc.run ++ groupTokens s p

/-- The state after a pixel is encoded (R240). -/
def pixelEncoded (s : State) (p : Pixel) : State :=
  if p = s.enc.prior then
    (pixelTaken (encodeUpRead s).2 p).setEnc
      { prior := s.enc.prior, run := s.enc.run + 1, linebuf := s.enc.linebuf.write s.image.column p }
  else putAll (((pixelTaken (encodeUpRead s).2 p).setMtf (cacheTouch s.config.cacheCapacity s.mtf p)).setEnc
    { prior := p, run := 0, linebuf := s.enc.linebuf.write s.image.column p }) (pixelTokens s p)

/-- What holds of the encode side while an image is encoded. -/
structure EncInv (s : State) : Prop where
  wf : tableWf s.builder.freq
  head : HeadIsPrior s
  len : s.mtf.length ≤ s.config.cacheCapacity
  total : ∀ k, classTotal s.builder.freq k + (if s.enc.run = 0 then 0 else 1) ≤ s.image.i.toNat
  toks : ∀ t ∈ s.tokbuf, classOk t.k ∧ freqGet s.builder.freq t.k t.v ≠ 0
  count : s.tokbuf.length + (if s.enc.run = 0 then 0 else 6) ≤ 6 * s.image.i.toNat
  left : s.image.i.toNat ≤ s.image.pixels
  run : s.enc.run.toNat ≤ s.image.i.toNat

/-- The buffer is full before 6 tokens for each pixel so far and `m` more are in it. -/
def FullBy (s : State) (m : Nat) : Prop :=
  ∃ d, s.config.tokbufDepth = some d ∧ d < 6 * (s.image.i.toNat + m)

theorem pixels_room (m : ImageState) : m.pixels + 2 ^ 17 ≤ 2 ^ 32 + 1 := by
  have h1 := m.w.isLt
  have h2 := m.h.isLt
  have h3 : m.pixels ≤ (2 ^ 16 - 1) * (2 ^ 16 - 1) := Nat.mul_le_mul (by omega) (by omega)
  omega

theorem EncInv.room {s : State} (h : EncInv s) (k : Byte) {n : Nat} (hn : n ≤ 1000) :
    classTotal s.builder.freq k + n < 2 ^ 32 := by
  have h1 := h.total k
  have h2 := h.left
  have h3 := pixels_room s.image
  omega

theorem flushRun_cases {s : State} (h : EncInv s) :
    flushRun s = .ok () (putAll (s.setEnc { s.enc with run := 0 }) (pendingRun s.enc.run)) ∨
      ∃ t d, flushRun s = .error .tokbufFull t ∧ s.config.tokbufDepth = some d ∧
        d < s.tokbuf.length + (pendingRun s.enc.run).length := by
  have hl := pendingRun_length s.enc.run
  rw [flushRun_all]
  rcases emitAll_cases (pendingRun s.enc.run) (s := s) (pendingRun_ok _) h.wf
    (fun k => h.room k (by split at hl <;> omega)) with h1 | ⟨t, d, h1, h2, h4⟩
  · left
    rw [steps_bind_ok h1, steps_modify, putAll_setEnc]
    have : (putAll s (pendingRun s.enc.run)).enc = s.enc := by rw [putAll_frame]; rfl
    rw [this]
  · exact .inr ⟨t, d, steps_bind_error h1, h2, h4⟩

/-- A group of tokens and the new PRIOR. -/
theorem group_cases {ts : List Token} {p : Pixel} {s : State} (hk : ∀ t ∈ ts, classOk t.k) (hw : tableWf s.builder.freq)
    (hc : ∀ k, classTotal s.builder.freq k + ts.length < 2 ^ 32) :
    (emitAll ts >>= fun _ => setPrior p) s = .ok () (putAll (s.setEnc { s.enc with prior := p }) ts) ∨
      ∃ t d, (emitAll ts >>= fun _ => setPrior p) s = .error .tokbufFull t ∧ s.config.tokbufDepth = some d ∧
        d < s.tokbuf.length + ts.length := by
  rcases emitAll_cases ts hk hw hc with h1 | ⟨t, d, h1, h2, h4⟩
  · left
    rw [steps_bind_ok h1, setPrior, steps_modify, putAll_setEnc]
    have : (putAll s ts).enc = s.enc := by rw [putAll_frame]; rfl
    rw [this]
  · exact .inr ⟨t, d, steps_bind_error h1, h2, h4⟩

theorem mtfFind_some {p : Pixel} {es : List Pixel} {j : Nat} (h : mtfFind p es = some j) :
    ∃ pre post, es = pre ++ p :: post ∧ p ∉ pre ∧ pre.length = j := by
  by_cases hp : p ∈ es
  · obtain ⟨pre, post, rfl, hn⟩ := exists_split hp
    rw [mtfFind_hit post hn] at h
    cases h
    exact ⟨pre, post, rfl, hn, rfl⟩
  · rw [mtfFind_miss hp] at h; cases h

theorem mtfFind_none {p : Pixel} {es : List Pixel} (h : mtfFind p es = none) : p ∉ es := by
  intro hp
  obtain ⟨pre, post, rfl, hn⟩ := exists_split hp
  rw [mtfFind_hit post hn] at h
  cases h

/-- The group of a pixel that is not at the front of the cache: its tokens are emitted and the cache is updated. -/
theorem encodeGroup_all {s : State} {p : Pixel} (up : Pixel) (hl : s.mtf.length ≤ s.config.cacheCapacity)
    (hh : s.mtf.head? ≠ some p) :
    encodeGroup p up s = (emitAll (match mtfFind p s.mtf with
      | some j => lookupTokens (j - 1)
      | none => deltaTokens p (predict p s.enc.prior up).1 (predict p s.enc.prior up).2) >>= fun _ => setPrior p)
      (s.setMtf (cacheTouch s.config.cacheCapacity s.mtf p)) := by
  rw [encodeGroup_eq]
  cases hf : mtfFind p s.mtf with
  | none =>
    simp only
    rw [deltaGroup_all, insertFront_eq s.config.capacity_pos hl, cacheTouch, if_neg (mtfFind_none hf)]
  | some j =>
    obtain ⟨pre, post, he, hn, rfl⟩ := mtfFind_some hf
    cases hj : pre.length with
    | zero =>
      rw [List.length_eq_zero_iff] at hj
      subst hj
      exact absurd (by rw [he]; rfl) hh
    | succ j =>
      simp only
      rw [lookupGroup_all, ← hj, he, moveToFront_split, cacheTouch_split hn, hj]
      rfl

theorem putAll_enc (s : State) (ts : List Token) : (putAll s ts).enc = s.enc := by rw [putAll_frame]; rfl
theorem putAll_mtf (s : State) (ts : List Token) : (putAll s ts).mtf = s.mtf := by rw [putAll_frame]; rfl
theorem putAll_config (s : State) (ts : List Token) : (putAll s ts).config = s.config := by rw [putAll_frame]; rfl
theorem putAll_image (s : State) (ts : List Token) : (putAll s ts).image = s.image := by rw [putAll_frame]; rfl
theorem putAll_tokbuf (s : State) (ts : List Token) : (putAll s ts).tokbuf = s.tokbuf ++ ts := by rw [putAll_frame]; rfl

/-- The tokens of a group, with `up` given (R240 steps 3 to 6). -/
def groupWith (up : Pixel) (s : State) (p : Pixel) : List Token :=
  match mtfFind p s.mtf with
  | some j => lookupTokens (j - 1)
  | none => deltaTokens p (predict p s.enc.prior up).1 (predict p s.enc.prior up).2

/-- The case split of a pixel that differs from PRIOR and is not at the front of the cache. -/
theorem encodeCase_cases {u : State} {p : Pixel} (up : Pixel) (hw : tableWf u.builder.freq)
    (hroom : ∀ k, classTotal u.builder.freq k + 20 < 2 ^ 32) (hl : u.mtf.length ≤ u.config.cacheCapacity)
    (hp : p ≠ u.enc.prior) (hh : u.mtf.head? ≠ some p) (hgk : ∀ t ∈ groupWith up u p, classOk t.k)
    (hgl : (groupWith up u p).length ≤ 5) :
    encodeCase p up u = .ok () (putAll ((u.setMtf (cacheTouch u.config.cacheCapacity u.mtf p)).setEnc
        { u.enc with prior := p, run := 0 }) (pendingRun u.enc.run ++ groupWith up u p)) ∨
      ∃ t d, encodeCase p up u = .error .tokbufFull t ∧ u.config.tokbufDepth = some d ∧
        d < u.tokbuf.length + (pendingRun u.enc.run ++ groupWith up u p).length := by
  have hpl := pendingRun_length u.enc.run
  have hpl' : (pendingRun u.enc.run).length ≤ 6 := by split at hpl <;> omega
  rw [encodeCase, steps_bind_ok (steps_get u), if_neg hp]
  rcases emitAll_cases (pendingRun u.enc.run) (s := u) (pendingRun_ok _) hw (fun k => by have := hroom k; omega) with
    h1 | ⟨t, d, h1, h2, h4⟩
  · obtain ⟨hcw, hct, -⟩ := putAll_counts (pendingRun u.enc.run) (s := u) hw (fun k => by have := hroom k; omega)
    have e1 := putAll_enc u (pendingRun u.enc.run)
    have e2 := putAll_mtf u (pendingRun u.enc.run)
    have e3 := putAll_config u (pendingRun u.enc.run)
    have e4 := putAll_tokbuf u (pendingRun u.enc.run)
    have e5 : putAll ((u.setMtf (cacheTouch u.config.cacheCapacity u.mtf p)).setEnc { u.enc with prior := p, run := 0 })
        (pendingRun u.enc.run ++ groupWith up u p) =
        putAll ((((putAll u (pendingRun u.enc.run)).setEnc { u.enc with run := 0 }).setMtf
          (cacheTouch u.config.cacheCapacity u.mtf p)).setEnc { u.enc with prior := p, run := 0 }) (groupWith up u p) := by
      simp only [putAll_append, putAll_setEnc, putAll_setMtf]
      rfl
    rw [e5]
    generalize hv : putAll u (pendingRun u.enc.run) = v at *
    have hfl : flushRun u = .ok () (v.setEnc { u.enc with run := 0 }) := by
      rw [flushRun_all, steps_bind_ok h1, steps_modify, e1]
    rw [steps_bind_ok hfl, encodeGroup_all up (by rw [State.setEnc_mtf, State.setEnc_config, e2, e3]; exact hl)
      (by rw [State.setEnc_mtf, e2]; exact hh)]
    simp only [State.setEnc_mtf, State.setEnc_config, State.setEnc_enc, e2, e3]
    change (emitAll (groupWith up u p) >>= fun _ => setPrior p) _ = _ ∨ ∃ t d, (emitAll (groupWith up u p) >>= fun _ => setPrior p) _ = _ ∧ _
    rcases group_cases (ts := groupWith up u p) (p := p)
      (s := (v.setEnc { u.enc with run := 0 }).setMtf (cacheTouch u.config.cacheCapacity u.mtf p)) hgk hcw (fun k => by
        have a := hroom k
        have b := hct k
        have c : classCount (pendingRun u.enc.run) k ≤ 1 := by
          have := classCount_pendingRun u.enc.run k
          split at this <;> omega
        simp only [State.setMtf_builder, State.setEnc_builder]
        omega) with h5 | ⟨t, d, h5, h6, h8⟩
    · exact .inl h5
    · refine .inr ⟨t, d, h5, by rw [← e3]; exact h6, ?_⟩
      simp only [State.setMtf_tokbuf, State.setEnc_tokbuf, e4, List.length_append] at h8
      rw [List.length_append]
      omega
  · refine .inr ⟨t, d, ?_, h2, ?_⟩
    · apply steps_bind_error
      rw [flushRun_all, steps_bind_error h1]
    · rw [List.length_append]; omega

theorem EncInv.head_ne {s : State} (h : EncInv s) {p : Pixel} (hp : p ≠ s.enc.prior) : s.mtf.head? ≠ some p := by
  rcases h.head with hm | hm
  · rw [hm]; simp
  · rw [hm]; intro he; cases he; exact hp rfl

theorem pixelTaken_builder (s : State) (p : Pixel) : (pixelTaken (encodeUpRead s).2 p).builder = s.builder := by
  rw [encodeUpRead_frame]; rfl

theorem pixelTaken_tokbuf (s : State) (p : Pixel) : (pixelTaken (encodeUpRead s).2 p).tokbuf = s.tokbuf := by
  rw [encodeUpRead_frame]; rfl

theorem pixelTaken_image (s : State) (p : Pixel) : (pixelTaken (encodeUpRead s).2 p).image = { s.image with i := s.image.i + 1 } := by
  rw [encodeUpRead_frame]; rfl

/-- A pixel of an encode is encoded, or the token buffer is full (R281). -/
theorem encodePixel_cases {s : State} (h : EncInv s) (hi : s.image.i.toNat < s.image.pixels) (p : Pixel) :
    encodePixel p s = .ok () (pixelEncoded s p) ∨ ((∃ t, encodePixel p s = .error .tokbufFull t) ∧ FullBy s 1) := by
  rw [encodePixel_eq p hi, pixelEncoded]
  have he := pixelTaken_enc s p
  have hm := pixelTaken_mtf s p
  have hc := pixelTaken_config s p
  have hb := pixelTaken_builder s p
  have ht := pixelTaken_tokbuf s p
  have hg : groupWith (encodeUpRead s).1 (pixelTaken (encodeUpRead s).2 p) p = groupTokens s p := by
    rw [groupWith, groupTokens, hm, he]
  generalize pixelTaken (encodeUpRead s).2 p = u at *
  by_cases hp : p = s.enc.prior
  · left
    rw [if_pos hp, encodeCase, steps_bind_ok (steps_get _), if_pos (by rw [he]; exact hp), steps_modify, he]
  · rw [if_neg hp, pixelTokens, if_neg hp]
    have hpl := pendingRun_length s.enc.run
    have hgl := groupTokens_length s p
    have hcnt := h.count
    rcases encodeCase_cases (u := u) (p := p) (encodeUpRead s).1 (by rw [hb]; exact h.wf)
      (by rw [hb]; exact fun k => h.room k (by omega)) (by rw [hm, hc]; exact h.len) (by rw [he]; exact hp)
      (by rw [hm]; exact h.head_ne hp) (by rw [hg]; exact groupTokens_ok s p) (by rw [hg]; exact hgl) with h1 | ⟨t, d, h1, h2, h4⟩
    · left
      rw [h1, hg, hm, hc, he]
    · right
      refine ⟨⟨t, h1⟩, d, by rw [← hc]; exact h2, ?_⟩
      rw [hg, ht, he, List.length_append] at h4
      simp only at h4
      split at hpl <;> split at hcnt <;> simp_all <;> omega

theorem pixelEncoded_image (s : State) (p : Pixel) : (pixelEncoded s p).image = { s.image with i := s.image.i + 1 } := by
  unfold pixelEncoded
  split
  · exact pixelTaken_image s p
  · rw [putAll_image]; exact pixelTaken_image s p

theorem next_index {s : State} (hi : s.image.i.toNat < s.image.pixels) : (s.image.i + 1).toNat = s.image.i.toNat + 1 := by
  have := pixels_lt s.image
  rw [BitVec.toNat_add, show (1 : Word).toNat = 1 from rfl]
  omega

/-- What holds of the encode side still holds after a pixel. -/
theorem EncInv.pixel {s : State} (h : EncInv s) (hi : s.image.i.toNat < s.image.pixels) (p : Pixel) :
    EncInv (pixelEncoded s p) := by
  have hI := next_index hi
  have him := pixelEncoded_image s p
  have hi1 : (pixelEncoded s p).image.i.toNat = s.image.i.toNat + 1 := by rw [him]; exact hI
  have hpix : (pixelEncoded s p).image.pixels = s.image.pixels := by rw [him]; rfl
  by_cases hp : p = s.enc.prior
  · have e : pixelEncoded s p = _ := if_pos hp
    have hrun : (s.enc.run + 1).toNat = s.enc.run.toNat + 1 := by
      have := h.run
      have := pixels_lt s.image
      rw [BitVec.toNat_add, show (1 : Word).toNat = 1 from rfl]
      omega
    have hne : s.enc.run + 1 ≠ 0 := by
      intro h0
      rw [h0] at hrun
      simp at hrun
    have q : (pixelEncoded s p).enc.run = s.enc.run + 1 := by rw [e]; rfl
    refine ⟨?_, ?_, ?_, ?_, ?_, ?_, by rw [hi1, hpix]; omega, ?_⟩
    · rw [e, State.setEnc_builder, pixelTaken_builder]; exact h.wf
    · unfold HeadIsPrior; rw [e, State.setEnc_mtf, pixelTaken_mtf]; exact h.head
    · rw [e, State.setEnc_mtf, State.setEnc_config, pixelTaken_mtf, pixelTaken_config]; exact h.len
    · intro k
      rw [hi1, q, if_neg hne, e, State.setEnc_builder, pixelTaken_builder]
      have := h.total k
      omega
    · rw [e, State.setEnc_builder, pixelTaken_builder, State.setEnc_tokbuf, pixelTaken_tokbuf]; exact h.toks
    · rw [hi1, q, if_neg hne, e, State.setEnc_tokbuf, pixelTaken_tokbuf]
      have := h.count
      omega
    · rw [hi1, e]
      simp only [State.setEnc_enc, hrun]
      have := h.run
      omega
  · have e : pixelEncoded s p = _ := if_neg hp
    have ts : pixelTokens s p = pendingRun s.enc.run ++ groupTokens s p := if_neg hp
    have hpl := pendingRun_length s.enc.run
    have hgl := groupTokens_length s p
    obtain ⟨cw, ct, cf⟩ := putAll_counts (pixelTokens s p)
      (s := ((pixelTaken (encodeUpRead s).2 p).setMtf (cacheTouch s.config.cacheCapacity s.mtf p)).setEnc
        { prior := p, run := 0, linebuf := s.enc.linebuf.write s.image.column p })
      (by rw [State.setEnc_builder, State.setMtf_builder, pixelTaken_builder]; exact h.wf)
      (by rw [State.setEnc_builder, State.setMtf_builder, pixelTaken_builder, ts, List.length_append]
          exact fun k => h.room k (by split at hpl <;> omega))
    rw [State.setEnc_builder, State.setMtf_builder, pixelTaken_builder] at ct cf
    refine ⟨?_, ?_, ?_, ?_, ?_, ?_, by rw [hi1, hpix]; omega, ?_⟩
    · rw [e]; exact cw
    · right
      rw [e, putAll_mtf, putAll_enc]
      exact cacheTouch_head s.config.capacity_pos _ _
    · rw [e, putAll_mtf, putAll_config, State.setEnc_mtf, State.setMtf_mtf, State.setEnc_config, State.setMtf_config,
        pixelTaken_config]
      exact cacheTouch_length h.len p
    · intro k
      rw [hi1, e, putAll_enc, ct, ts]
      have a := classCount_pendingRun s.enc.run k
      have b := classCount_group s p k
      have c := h.total k
      have d : classCount (pendingRun s.enc.run ++ groupTokens s p) k =
          classCount (pendingRun s.enc.run) k + classCount (groupTokens s p) k := by
        simp [classCount, List.count_append]
      rw [d]
      simp only [State.setEnc_enc, if_true]
      split at a <;> split at c <;> simp_all <;> omega
    · intro t ht
      rw [e] at ht ⊢
      rw [putAll_tokbuf, State.setEnc_tokbuf, State.setMtf_tokbuf, pixelTaken_tokbuf, List.mem_append] at ht
      rcases ht with ht | ht
      · exact ⟨(h.toks t ht).1, cf _ _ (.inl (h.toks t ht).2)⟩
      · refine ⟨?_, cf _ _ (.inr ht)⟩
        rw [ts, List.mem_append] at ht
        rcases ht with ht | ht
        · exact pendingRun_ok _ t ht
        · exact groupTokens_ok s p t ht
    · rw [hi1, e, putAll_tokbuf, putAll_enc, State.setEnc_tokbuf, State.setMtf_tokbuf, pixelTaken_tokbuf, ts]
      have c := h.count
      simp only [State.setEnc_enc, if_true, List.length_append]
      split at hpl <;> split at c <;> simp_all <;> omega
    · rw [hi1, e, putAll_enc]
      simp

/-! ## The pixels of an image -/

/-- What holds of the encode side does not depend on the agents and the interface. -/
theorem EncInv.outside {s : State} (h : EncInv s) (o : HostPort) (ps : List PixelAnswer) : EncInv (s.outside o ps) :=
  ⟨h.wf, h.head, h.len, h.total, h.toks, h.count, h.left, h.run⟩

/-- The state after pixels are encoded in order. -/
def pixelsEncoded (s : State) (ps : List Pixel) : State := ps.foldl pixelEncoded s

theorem pixelsEncoded_image (ps : List Pixel) : ∀ {s : State}, s.image.i.toNat + ps.length ≤ s.image.pixels →
    (pixelsEncoded s ps).image.w = s.image.w ∧ (pixelsEncoded s ps).image.h = s.image.h ∧
      (pixelsEncoded s ps).image.i.toNat = s.image.i.toNat + ps.length := by
  induction ps with
  | nil => intro s _; exact ⟨rfl, rfl, rfl⟩
  | cons p ps ih =>
    intro s hi
    simp only [List.length_cons] at hi
    have him := pixelEncoded_image s p
    have hI := next_index (s := s) (by omega)
    obtain ⟨a, b, c⟩ := ih (s := pixelEncoded s p) (by rw [him]; simp only [ImageState.pixels] at *; rw [hI]; omega)
    rw [him] at a b c
    simp only [hI] at c
    exact ⟨a, b, by rw [List.length_cons]; exact c.trans (by omega)⟩

theorem EncInv.pixels (ps : List Pixel) : ∀ {s : State}, EncInv s → s.image.i.toNat + ps.length ≤ s.image.pixels →
    EncInv (pixelsEncoded s ps) := by
  induction ps with
  | nil => intro s h _; exact h
  | cons p ps ih =>
    intro s h hi
    simp only [List.length_cons] at hi
    have him := pixelEncoded_image s p
    have hI := next_index (s := s) (by omega)
    exact ih (h.pixel (by omega) p) (by rw [him]; simp only [ImageState.pixels] at *; rw [hI]; omega)

/-- The pixels of an image are encoded in order, or the token buffer is full (R280, R281). -/
theorem encodePixels_cases (o : HostPort) (rest : List PixelAnswer) (ps : List Pixel) : ∀ {s : State}, EncInv s →
    s.image.i.toNat + ps.length ≤ s.image.pixels →
    encodePixels ps.length (s.outside o (ps.map .pixel ++ rest)) = .ok () ((pixelsEncoded s ps).outside o rest) ∨
      ((∃ t, encodePixels ps.length (s.outside o (ps.map .pixel ++ rest)) = .error .tokbufFull t) ∧ FullBy s ps.length) := by
  induction ps with
  | nil => intro s _ _; exact .inl rfl
  | cons p ps ih =>
    intro s h hi
    simp only [List.length_cons] at hi
    have him := pixelEncoded_image s p
    have hI := next_index (s := s) (by omega)
    have hg : pixelGet (s.outside o ((p :: ps).map .pixel ++ rest)) = .ok p (s.outside o (ps.map .pixel ++ rest)) := rfl
    rw [List.length_cons, encodePixels, steps_bind_ok hg]
    rcases encodePixel_cases h (by omega) p with h1 | ⟨⟨t, h1⟩, d, h2, h4⟩
    · rw [steps_bind_ok ((encodePixel_blind p).ok h1 _ _)]
      rcases ih (s := pixelEncoded s p) (h.pixel (by omega) p)
        (by rw [him]; simp only [ImageState.pixels] at *; rw [hI]; omega) with h2 | ⟨h2, d, h3, h5⟩
      · exact .inl h2
      · refine .inr ⟨h2, d, ?_, ?_⟩
        · rw [← h3]
          congr 1
          unfold pixelEncoded
          split
          · rw [State.setEnc_config, pixelTaken_config]
          · rw [putAll_config, State.setEnc_config, State.setMtf_config, pixelTaken_config]
        · rw [him] at h5
          simp only [hI] at h5
          omega
    · refine .inr ⟨⟨t.outside o (ps.map .pixel ++ rest), ?_⟩, d, h2, by omega⟩
      apply steps_bind_error
      rw [encodePixel_blind, h1]; rfl

/-- Why the pixels of an image can fail (60_exceptions.md R303). -/
theorem encodePixels_raises (n : Nat) : ∀ {s t : State} {c : Cause}, EncInv s → s.image.i.toNat + n ≤ s.image.pixels →
    encodePixels n s = .error c t → c ∈ [Cause.pixelIo, .pixelMissing, .tokbufFull] := by
  induction n with
  | zero => intro s t c _ _ h; cases h
  | succ n ih =>
    intro s t c hs hi h
    rcases steps_bind_error_inv h with h1 | ⟨p, u, h1, h2⟩
    · unfold pixelGet at h1
      cases hp : s.agents.pixels with
      | nil => rw [hp] at h1; cases h1; simp
      | cons x rest => rw [hp] at h1; cases x <;> cases h1 <;> simp
    · obtain ⟨rest, rfl⟩ : ∃ rest, u = s.outside s.host rest := by
        unfold pixelGet at h1
        cases hp : s.agents.pixels with
        | nil => rw [hp] at h1; cases h1
        | cons x rest => rw [hp] at h1; cases x <;> cases h1; exact ⟨rest, rfl⟩
      rcases encodePixel_cases (hs.outside s.host rest) (show s.image.i.toNat < s.image.pixels by omega) p with
        h3 | ⟨⟨v, h3⟩, -⟩
      · rw [steps_bind_ok h3] at h2
        have him := pixelEncoded_image (s.outside s.host rest) p
        have hI := next_index (s := s) (by omega)
        refine ih ((hs.outside s.host rest).pixel (show s.image.i.toNat < s.image.pixels by omega) p) ?_ h2
        rw [him]
        show (s.image.i + 1).toNat + n ≤ s.image.pixels
        omega
      · rw [steps_bind_error h3] at h2; cases h2; simp

end Sys2Proof.Machine
end

