-- ==== Sys2Proof/Laws/Sink.lean ====
section
/-! SUPPORT. Steps that write and complete have done what they do with a sink that always answers `ok` (40_bitstream.md R130). -/

namespace Sys2Proof.Machine

/-- The state with a sink that always answers `ok`. -/
def willing (s : State) : State := s.setAgents { s.agents with sinkAnswers := [] }

theorem willing_ready (s : State) : SinkReady (willing s) := by
  intro a ha
  cases ha

/-- Steps that complete do the same with a willing sink. -/
def Willing {α : Type} (m : M α) : Prop := ∀ s a t, m s = .ok a t → m (willing s) = .ok a (willing t)

section
variable {α β : Type}

theorem Willing.pure (a : α) : Willing (pure a : M α) := by intro s b t h; cases h; rfl
theorem Willing.raise (c : Cause) : Willing (raise c : M α) := by intro s b t h; cases h

theorem Willing.modify {f : State → State} (hf : ∀ s, f (willing s) = willing (f s)) : Willing (modify f : M Unit) := by
  intro s b t h
  cases h
  rw [steps_modify, hf]

theorem Willing.bind {x : M α} {f : α → M β} (hx : Willing x) (hf : ∀ a, Willing (f a)) : Willing (x >>= f) := by
  intro s b t h
  obtain ⟨a, u, h1, h2⟩ := steps_bind_inv h
  rw [steps_bind_ok (hx s a u h1)]
  exact hf a u b t h2

theorem Willing.get_bind {f : State → M β} (he : ∀ s, f (willing s) = f s) (hf : ∀ s, Willing (f s)) :
    Willing (do let s ← MonadState.get; f s) := by
  intro s b t h
  rw [steps_bind_ok (steps_get _)] at h ⊢
  rw [he]
  exact hf s s b t h

theorem Willing.ite {p : Prop} [Decidable p] {x y : M α} (hx : Willing x) (hy : Willing y) : Willing (if p then x else y) := by
  split
  · exact hx
  · exact hy

end

theorem sinkPut_willing (b : Byte) : Willing (sinkPut b) := by
  intro s a t h
  unfold sinkPut at h
  cases hs : s.agents.sinkAnswers with
  | nil => rw [hs] at h; cases h; rfl
  | cons x rest => rw [hs] at h; cases x <;> cases h; rfl

theorem setWriter_willing (acc : Byte) (n : Nat) : Willing (setWriter acc n) :=
  Willing.modify (f := fun s => s.setWriter ⟨acc, n⟩) fun _ => rfl

theorem putBit_willing (b : Bool) : Willing (putBit b) :=
  Willing.get_bind (fun _ => rfl) fun _ => (setWriter_willing _ _).bind fun _ =>
    Willing.ite ((sinkPut_willing _).bind fun _ => setWriter_willing _ _) (Willing.pure _)

theorem putBits_willing (bs : Bits) : Willing (putBits bs) := by
  induction bs with
  | nil => exact Willing.pure _
  | cons b bs ih => exact (putBit_willing b).bind fun _ => ih

theorem writeBytes_willing (bs : List Byte) : Willing (writeBytes bs) := by
  induction bs with
  | nil => exact Willing.pure _
  | cons b bs ih => exact (putBits_willing _).bind fun _ => ih

theorem writeHeader_willing (w h : Half) : Willing (writeHeader w h) :=
  (writeBytes_willing _).bind fun _ => (putBits_willing _).bind fun _ => putBits_willing _

theorem checkClass_willing (k : Byte) : Willing (checkClass k) := Willing.ite (Willing.raise _) (Willing.pure _)

theorem setBuilder_willing (x : TreeBuilder) : Willing (setBuilder x) :=
  Willing.modify (f := fun s => s.setBuilder x) fun _ => rfl

theorem writeRecord_willing (k : Byte) : Willing (writeRecord k) := by
  refine Willing.get_bind (fun _ => rfl) fun s => Willing.ite (Willing.bind ?_ fun _ => Willing.bind ?_ fun _ =>
    (putBits_willing _).bind fun _ => Willing.get_bind (fun _ => rfl) fun s => ?_) (Willing.pure _)
  · exact (checkClass_willing k).bind fun _ => Willing.get_bind (fun _ => rfl) fun _ => setBuilder_willing _
  · exact (checkClass_willing k).bind fun _ => Willing.get_bind (fun _ => rfl) fun _ => setBuilder_willing _
  · cases tableGet s.builder.etree k.toNat with
    | some t => simp only; rw [writeTree_eq]; exact putBits_willing _
    | none => exact Willing.pure _

theorem writeRecords_willing (n k : Nat) : Willing (writeRecords n k) := by
  induction n generalizing k with
  | zero => exact Willing.pure _
  | succ n ih => exact (writeRecord_willing _).bind fun _ => ih _

theorem writeTable_willing : Willing writeTable := (writeRecords_willing _ _).bind fun _ => putBits_willing _

theorem encodeTokens_willing (ts : List Token) : Willing (encodeTokens ts) := by
  induction ts with
  | nil => exact Willing.pure _
  | cons t ts ih =>
    refine Willing.bind ((checkClass_willing t.k).bind fun _ => Willing.get_bind (fun _ => rfl) fun s => ?_) fun _ => ih
    cases codeGet s.builder.code t.k t.v with
    | none => exact Willing.raise _
    | some bits => exact putBits_willing _

theorem bwFlush_willing : Willing bwFlush :=
  Willing.get_bind (fun _ => rfl) fun _ =>
    Willing.ite ((sinkPut_willing _).bind fun _ => setWriter_willing _ _) (Willing.pure _)

/-- `Wrote` from a completing write, whatever the sink answers later. -/
theorem streamOut_of_ok {α : Type} {m : M α} (hm : Willing m) {bs : Bits}
    (hw : ∀ s, WriterReady s → SinkReady s → ∃ a t, m s = .ok a t ∧ Wrote s t bs) {s t : State} {a : α}
    (hs : WriterReady s) (h : m s = .ok a t) :
    streamOut t = streamOut s ++ bs ∧ t.writer.n = (s.writer.n + bs.length) % 8 := by
  obtain ⟨b, u, h1, h2⟩ := hw (willing s) hs (willing_ready s)
  have h3 := hm s a t h
  rw [h3] at h1
  cases h1
  exact ⟨h2.stream, h2.pending⟩

/-! ## No token of an encode is without a code (43_huffman_encoder.md R208) -/

theorem encodeTokens_coded {ts : List Token} {P : State → Prop} (hk : ∀ x ∈ ts, classOk x.k)
    (hp : ∀ x ∈ ts, ∀ s, P s → codeGet s.builder.code x.k x.v ≠ none) (hkeep : ∀ s t, P s → OnlyWrote s t → P t) :
    Raises P [.sinkIo] (encodeTokens ts) := by
  induction ts with
  | nil => exact Raises.pure _
  | cons x ts ih =>
    have hx : ∀ s, P s → ∃ c, encodeToken x.k x.v s = putBits c s := by
      intro s hs
      cases hc : codeGet s.builder.code x.k x.v with
      | none => exact absurd hc (hp x (by simp) s hs)
      | some c => exact ⟨c, encodeToken_ok (hk x (by simp)) hc⟩
    refine Raises.bind ?_ ?_ fun _ => ih (fun y hy => hk y (by simp [hy])) (fun y hy => hp y (by simp [hy]))
    · intro s c t hs h
      obtain ⟨bs, hb⟩ := hx s hs
      rw [hb] at h
      exact putBits_raises bs s c t trivial h
    · intro s a t hs h
      obtain ⟨bs, hb⟩ := hx s hs
      rw [hb] at h
      exact hkeep s t hs ((putBits_frame bs s).1 a t h)

/-- HE_FINISH with every buffered token counted can fail only with the sink (R208). -/
theorem finish_counted {s t : State} {c : Cause} (hw : WriterReady s) (hf : tableWf s.builder.freq)
    (ht : ∀ x ∈ s.tokbuf, classOk x.k ∧ freqGet s.builder.freq x.k x.v ≠ 0) (h : finish s = .error c t) : c = .sinkIo := by
  rcases steps_bind_error_inv h with h1 | ⟨_, u, h1, h⟩
  · simpa using writeTable_raises s c t trivial h1
  · rcases steps_bind_error_inv h with h2 | ⟨_, v, h2, h3⟩
    · obtain ⟨u', h3, h4, h5⟩ := writeTable_wrote (s := willing s) hw (willing_ready s) hf
      rw [writeTable_willing s _ u h1] at h3
      cases h3
      have hb : TableBuilt 0 255 s.builder u.builder := h5
      have htb := (writeTable_tokbuf s).1 _ _ h1
      rw [writePayload, steps_bind_ok (steps_get u), htb] at h2
      have := encodeTokens_coded (ts := s.tokbuf) (P := fun w => w.builder = u.builder)
        (fun x hx => (ht x hx).1)
        (fun x hx w hw => by rw [hw]; exact hb.coded (ht x hx).1 (ht x hx).2)
        (fun a b ha hab => hab.builder.trans ha) u c t rfl h2
      simpa using this
    · simpa using bwFlush_raises v c t trivial h3

end Sys2Proof.Machine
end

