-- ==== Sys2Proof/Laws/EncodeImage.lean ====
section
/-! SUPPORT. The steps of ENCODE after `Init()` (46_top_level.md R280, R281; 60_exceptions.md R303). -/

namespace Sys2Proof.Machine

/-- What the pixels of an encode and the flush of the run leave unchanged. -/
structure EncFrame (s t : State) : Prop where
  config : t.config = s.config
  writer : t.writer = s.writer
  reader : t.reader = s.reader
  decoder : t.decoder = s.decoder
  dec : t.dec = s.dec
  status : t.status = s.status
  agents : t.agents = s.agents
  host : t.host = s.host
  treeOut : t.treeOut = s.treeOut
  width : t.image.w = s.image.w
  height : t.image.h = s.image.h

theorem EncFrame.trans {s t u : State} (h : EncFrame s t) (h' : EncFrame t u) : EncFrame s u :=
  ⟨h'.config.trans h.config, h'.writer.trans h.writer, h'.reader.trans h.reader, h'.decoder.trans h.decoder,
    h'.dec.trans h.dec, h'.status.trans h.status, h'.agents.trans h.agents, h'.host.trans h.host,
    h'.treeOut.trans h.treeOut, h'.width.trans h.width, h'.height.trans h.height⟩

theorem putAll_encFrame (s : State) (ts : List Token) : EncFrame s (putAll s ts) := by
  rw [putAll_frame]
  exact ⟨rfl, rfl, rfl, rfl, rfl, rfl, rfl, rfl, rfl, rfl, rfl⟩

theorem pixelEncoded_frame (s : State) (p : Pixel) : EncFrame s (pixelEncoded s p) := by
  have hu : EncFrame s (pixelTaken (encodeUpRead s).2 p) := by
    rw [encodeUpRead_frame]
    exact ⟨rfl, rfl, rfl, rfl, rfl, rfl, rfl, rfl, rfl, rfl, rfl⟩
  unfold pixelEncoded
  split
  · exact hu.trans ⟨rfl, rfl, rfl, rfl, rfl, rfl, rfl, rfl, rfl, rfl, rfl⟩
  · refine EncFrame.trans (t := ((pixelTaken (encodeUpRead s).2 p).setMtf (cacheTouch s.config.cacheCapacity s.mtf p)).setEnc
      { prior := p, run := 0, linebuf := s.enc.linebuf.write s.image.column p }) ?_ (putAll_encFrame _ _)
    exact hu.trans ⟨rfl, rfl, rfl, rfl, rfl, rfl, rfl, rfl, rfl, rfl, rfl⟩

theorem pixelsEncoded_frame (ps : List Pixel) : ∀ s : State, EncFrame s (pixelsEncoded s ps) := by
  induction ps with
  | nil => intro s; exact ⟨rfl, rfl, rfl, rfl, rfl, rfl, rfl, rfl, rfl, rfl, rfl⟩
  | cons p ps ih => intro s; exact (pixelEncoded_frame s p).trans (ih _)

/-- The state after the run is flushed (R252). -/
def runFlushed (s : State) : State := putAll (s.setEnc { s.enc with run := 0 }) (pendingRun s.enc.run)

theorem runFlushed_frame (s : State) : EncFrame s (runFlushed s) :=
  EncFrame.trans (t := s.setEnc { s.enc with run := 0 }) ⟨rfl, rfl, rfl, rfl, rfl, rfl, rfl, rfl, rfl, rfl, rfl⟩
    (putAll_encFrame _ _)

theorem EncInv.flushed {s : State} (h : EncInv s) :
    tableWf (runFlushed s).builder.freq ∧ (runFlushed s).tokbuf.length ≤ 6 * s.image.i.toNat ∧
      ∀ t ∈ (runFlushed s).tokbuf, classOk t.k ∧ freqGet (runFlushed s).builder.freq t.k t.v ≠ 0 := by
  have hl := pendingRun_length s.enc.run
  obtain ⟨cw, -, cf⟩ := putAll_counts (pendingRun s.enc.run) (s := s.setEnc { s.enc with run := 0 }) h.wf
    (fun k => h.room k (by split at hl <;> omega))
  refine ⟨cw, ?_, fun t ht => ?_⟩
  · have := h.count
    rw [runFlushed, putAll_tokbuf, State.setEnc_tokbuf, List.length_append]
    split at hl <;> split at this <;> simp_all
    omega
  · rw [runFlushed, putAll_tokbuf, List.mem_append] at ht
    rcases ht with ht | ht
    · exact ⟨(h.toks t ht).1, cf _ _ (.inl (h.toks t ht).2)⟩
    · exact ⟨pendingRun_ok _ t ht, cf _ _ (.inr ht)⟩

/-- The state of an encode before its first pixel (R280): the header is written and PX_SET_DIM's steps have run. -/
theorem EncInv.start {s : State} (w h : Half) (hb : s.builder.freq = []) (ht : s.tokbuf = []) : EncInv (startImage w h s) where
  wf := by show tableWf s.builder.freq; rw [hb]; exact List.Pairwise.nil
  head := .inl rfl
  len := Nat.zero_le _
  total := fun k => by show classTotal s.builder.freq k + 0 ≤ 0; rw [hb]; exact Nat.le_refl _
  toks := by
    intro t h
    have : t ∈ s.tokbuf := h
    rw [ht] at this
    cases this
  count := by show s.tokbuf.length + 0 ≤ 0; rw [ht]; exact Nat.le_refl _
  left := Nat.zero_le _
  run := Nat.le_refl _

/-- Pixels and the flush deliver nothing. -/
theorem encodePixels_sink (n : Nat) : Within (fun s t : State => t.agents.sink = s.agents.sink) (encodePixels n) := by
  have tr : ∀ s t u : State, t.agents.sink = s.agents.sink → u.agents.sink = t.agents.sink → u.agents.sink = s.agents.sink :=
    fun _ _ _ a b => b.trans a
  have rf : ∀ s : State, s.agents.sink = s.agents.sink := fun _ => rfl
  have hem : ∀ {α : Type} {m : M α}, Within Emitted m → Within (fun s t : State => t.agents.sink = s.agents.sink) m :=
    fun h => h.mono fun _ _ h => by rw [(emitted_iff.mp h).2.2.2.2.2.2.2.2.2.2.2.1]
  have hfl : Within (fun s t : State => t.agents.sink = s.agents.sink) flushRun :=
    flushRun_flushed.mono fun s t h => by
      obtain ⟨u, h1, rfl | rfl⟩ := h
      · rw [(emitted_iff.mp h1).2.2.2.2.2.2.2.2.2.2.2.1]
      · show u.agents.sink = _
        rw [(emitted_iff.mp h1).2.2.2.2.2.2.2.2.2.2.2.1]
  have hgr : ∀ p up, Within (fun s t : State => t.agents.sink = s.agents.sink) (encodeGroup p up) := by
    intro p up
    refine Within.bind tr ((mtfCheckAndInsert_coloured p).mono fun _ _ h => (coloured_iff.mp h).2.2.2.2.2.2.2.2.2.1) fun pos => ?_
    cases pos with
    | none =>
      exact Within.get_bind fun _ => Within.bind tr (hem (emit_emitted _ _)) fun _ =>
        Within.bind tr (hem (emitDeltas_emitted _ _)) fun _ => Within.modify fun _ => rfl
    | some j =>
      cases j with
      | zero => exact Within.raise rf _
      | succ j =>
        exact Within.bind tr (hem (emit_emitted _ _)) fun _ => Within.bind tr (hem (emit_emitted _ _)) fun _ =>
          Within.modify fun _ => rfl
  have hup : Within (fun s t : State => t.agents.sink = s.agents.sink) encodeUp := by
    intro s
    rw [encodeUp_eq]
    constructor
    · intro a t h; cases h; rw [encodeUpRead_frame]; rfl
    · intro c t h; cases h
  have hck : Within (fun s t : State => t.agents.sink = s.agents.sink) checkImage :=
    Within.get_bind fun _ => Within.ite (Within.raise rf _) (Within.pure rf _)
  have hpx : ∀ p, Within (fun s t : State => t.agents.sink = s.agents.sink) (encodePixel p) := fun p =>
    Within.bind tr hck fun _ => Within.bind tr hup fun up => Within.bind tr (Within.modify fun _ => rfl) fun _ =>
      Within.bind tr (Within.modify fun _ => rfl) fun _ => Within.get_bind fun _ => Within.ite (Within.modify fun _ => rfl)
        (Within.bind tr hfl fun _ => hgr p up)
  have hg : Within (fun s t : State => t.agents.sink = s.agents.sink) pixelGet := by
    intro s
    unfold pixelGet
    cases s.agents.pixels with
    | nil => exact ⟨fun a t h => (by cases h), fun c t h => by cases h; rfl⟩
    | cons x rest =>
      cases x with
      | pixel p => exact ⟨fun a t h => by cases h; rfl, fun c t h => by cases h⟩
      | missing => exact ⟨fun a t h => (by cases h), fun c t h => by cases h; rfl⟩
      | ioerr => exact ⟨fun a t h => (by cases h), fun c t h => by cases h; rfl⟩
  induction n with
  | zero => exact Within.pure rf _
  | succ n ih => exact Within.bind tr hg fun p => Within.bind tr (hpx p) fun _ => ih

theorem EncInv.of_pixels (n : Nat) : ∀ {s t : State}, EncInv s → s.image.i.toNat + n ≤ s.image.pixels →
    encodePixels n s = .ok () t → EncInv t ∧ t.writer = s.writer := by
  induction n with
  | zero => intro s t h _ ht; cases ht; exact ⟨h, rfl⟩
  | succ n ih =>
    intro s t h hi ht
    obtain ⟨p, u, h1, h2⟩ := steps_bind_inv ht
    obtain ⟨rest, rfl⟩ : ∃ rest, u = s.outside s.host rest := by
      unfold pixelGet at h1
      cases hp : s.agents.pixels with
      | nil => rw [hp] at h1; cases h1
      | cons x rest => rw [hp] at h1; cases x <;> cases h1; exact ⟨rest, rfl⟩
    rcases encodePixel_cases (h.outside s.host rest) (show s.image.i.toNat < s.image.pixels by omega) p with
      h3 | ⟨⟨v, h3⟩, -⟩
    · rw [steps_bind_ok h3] at h2
      have him := pixelEncoded_image (s.outside s.host rest) p
      have hI := next_index (s := s) (by omega)
      obtain ⟨a, b⟩ := ih ((h.outside s.host rest).pixel (show s.image.i.toNat < s.image.pixels by omega) p) (by
        rw [him]
        show (s.image.i + 1).toNat + n ≤ s.image.pixels
        omega) h2
      exact ⟨a, b.trans (pixelEncoded_frame _ p).writer⟩
    · rw [steps_bind_error h3] at h2; cases h2

/-- Why ENCODE can fail, and what it has delivered (60_exceptions.md R303; 46_top_level.md R280). -/
theorem encodeRest_error {s t : State} {w h : Half} {c : Cause} (he : encodeRest w h (initState s) = .error c t) :
    c ∈ [Cause.sinkIo, .pixelIo, .pixelMissing, .tokbufFull] ∧
      (c ≠ .sinkIo → t.agents.sink = s.agents.sink ++ headerBytes w h) := by
  rw [encodeRest, steps_bind_ok (steps_modify _ _), steps_bind_ok (steps_modify _ _)] at he
  have hs0 : WriterReady (loadHeight h (loadWidth w (initState s))) := Nat.zero_le _
  have hraise : ∀ {s t : State} {c : Cause}, writeHeader w h s = .error c t → c = .sinkIo := by
    intro s t c h1
    have : Raises anyState [Cause.sinkIo] (writeHeader w h) := by
      refine Raises.seq ?_ fun _ => (writeBits_raises _ _).seq fun _ => writeBits_raises _ _
      have : ∀ bs, Raises anyState [Cause.sinkIo] (writeBytes bs) := by
        intro bs
        induction bs with
        | nil => exact Raises.pure _
        | cons b bs ih => exact (writeBits_raises _ _).seq fun _ => ih
      exact this _
    simpa using this s c t trivial h1
  rcases steps_bind_error_inv he with h1 | ⟨_, s1, h1, he⟩
  · have := hraise h1
    subst this
    exact ⟨by simp, fun h => absurd rfl h⟩
  · obtain ⟨h2, h3⟩ := streamOut_of_ok (writeHeader_willing w h)
      (fun s a b => by obtain ⟨t, c, d⟩ := writeHeader_wrote w h a b; exact ⟨(), t, c, d⟩) hs0 h1
    have hn : s1.writer.n = 0 := by
      rw [h3]
      show (0 + (bitsOf (headerBytes w h)).length) % 8 = 0
      rw [bitsOf_length]; omega
    have hsink : s1.agents.sink = s.agents.sink ++ headerBytes w h := by
      obtain ⟨bytes, e1, e2⟩ := sink_of_stream h2 rfl hn
      obtain ⟨b, e3, e4⟩ := bitsOf_split (headerBytes w h) (x := bytes) (r := []) (by rw [e2]; simp)
      have hb : b = [] := by
        have := congrArg List.length e4
        rw [bitsOf_length] at this
        exact List.length_eq_zero_iff.mp (by simpa using this)
      rw [e1, e3, hb, List.append_nil]; rfl
    have hfr : OnlyWrote (loadHeight h (loadWidth w (initState s))) s1 := by
      obtain ⟨t', c', d'⟩ := writeHeader_wrote w h (s := willing (loadHeight h (loadWidth w (initState s)))) hs0 (willing_ready _)
      have h4 := writeHeader_willing w h _ _ _ h1
      rw [h4] at c'
      cases c'
      have := onlyWrote_iff.mp d'.frame
      rw [onlyWrote_iff]
      exact this
    have hf := onlyWrote_iff.mp hfr
    rw [setDim, steps_bind_ok (steps_modify _ _)] at he
    have hinv : EncInv (startImage w h s1) := EncInv.start w h (by rw [hf.2.2.2.1]; rfl) (by rw [hf.2.2.2.2.1]; rfl)
    have hi : (startImage w h s1).image.i.toNat + w.toNat * h.toNat ≤ (startImage w h s1).image.pixels := by
      show (0 : Word).toNat + w.toNat * h.toNat ≤ w.toNat * h.toNat
      simp
    rcases steps_bind_error_inv he with h4 | ⟨_, s2, h4, he⟩
    · have := encodePixels_raises _ hinv hi h4
      refine ⟨by simp at this; rcases this with rfl | rfl | rfl <;> simp, fun _ => ?_⟩
      rw [(encodePixels_sink _ _).2 _ _ h4]
      exact hsink
    · obtain ⟨hinv2, hw2⟩ := EncInv.of_pixels _ hinv hi h4
      rcases flushRun_cases hinv2 with h5 | ⟨v, d, h5, -⟩
      · rw [steps_bind_ok h5] at he
        obtain ⟨a, -, b⟩ := hinv2.flushed
        have hwr : WriterReady (runFlushed s2) := by
          unfold WriterReady
          rw [(runFlushed_frame s2).writer, hw2]
          show s1.writer.n ≤ 7
          omega
        have := finish_counted hwr a b he
        subst this
        exact ⟨by simp, fun h => absurd rfl h⟩
      · rw [steps_bind_error h5] at he
        cases he
        refine ⟨by simp, fun _ => ?_⟩
        have h6 := (flushRun_flushed s2).2 _ _ h5
        have h7 : t.agents.sink = s2.agents.sink := by
          obtain ⟨u, h8, rfl | rfl⟩ := h6
          · rw [(emitted_iff.mp h8).2.2.2.2.2.2.2.2.2.2.2.1]
          · show u.agents.sink = _
            rw [(emitted_iff.mp h8).2.2.2.2.2.2.2.2.2.2.2.1]
        rw [h7, (encodePixels_sink _ _).1 _ _ h4]
        exact hsink

theorem writePayload_willing : Willing writePayload := by
  intro s a t h
  rw [writePayload, steps_bind_ok (steps_get _)] at h ⊢
  exact encodeTokens_willing _ s a t h

theorem finish_willing : Willing finish :=
  writeTable_willing.bind fun _ => writePayload_willing.bind fun _ => bwFlush_willing

/-- What HE_FINISH that completes has done, from a byte boundary (43_huffman_encoder.md R207). -/
theorem finish_done {z t : State} (hn : z.writer.n = 0) (hw : tableWf z.builder.freq)
    (ht : ∀ x ∈ z.tokbuf, classOk x.k ∧ freqGet z.builder.freq x.k x.v ≠ 0) (h : finish z = .ok () t) :
    ∃ bits bytes, OnlyWrote (z.setBuilder t.builder) t ∧ t.agents.sink = z.agents.sink ++ bytes ∧ t.writer.n = 0 ∧
      TableBuilt 0 255 z.builder t.builder ∧ payloadBits t.builder.code t.tokbuf = some bits ∧
      bitsOf bytes = tableBits t.builder.freq ++ bits ++ padding ((tableBits t.builder.freq).length + bits.length) := by
  have hn' : (willing z).writer.n = 0 := hn
  obtain ⟨t1, bits, k1, k2, k3, k4, k5⟩ := finish_wrote (s := willing z) (by unfold WriterReady; omega) (willing_ready _) hw ht
  rw [finish_willing _ _ _ h] at k1
  cases k1
  have k6 := onlyWrote_iff.mp k5.frame
  have hfreq : t.builder.freq = z.builder.freq := k3.freq
  have htok : t.tokbuf = z.tokbuf := k6.2.2.2.2.1
  obtain ⟨bytes, e1, e2⟩ := sink_of_stream (s := (willing z).setBuilder t.builder) k5.stream hn' k4
  refine ⟨bits, bytes, onlyWrote_iff.mpr k6, e1, k4, k3, ?_, ?_⟩
  · rw [htok]; exact k2
  · rw [hn', Nat.zero_add] at e2
    rw [e2, hfreq]; rfl

/-- What the steps of ENCODE that complete have done (46_top_level.md R280). -/
structure EncodeDone (s : State) (w h : Half) (ps : List Pixel) (rest : List PixelAnswer) (t : State) (v : State)
    (bits : Bits) (bytes : List Byte) : Prop where
  /-- The state before the first pixel. -/
  start : OnlyWrote ((initState s).setImage ⟨w, h, 0⟩) v
  /-- What ENCODE leaves unchanged after that, but for the writer, the builder and the sink. -/
  frame : OnlyWrote (((runFlushed (pixelsEncoded (startImage w h v) ps)).outside s.host rest).setBuilder t.builder) t
  sink : t.agents.sink = s.agents.sink ++ headerBytes w h ++ bytes
  writer : t.writer.n = 0
  built : TableBuilt 0 255 (runFlushed (pixelsEncoded (startImage w h v) ps)).builder t.builder
  payload : payloadBits t.builder.code t.tokbuf = some bits
  bits : bitsOf bytes = tableBits t.builder.freq ++ bits ++ padding ((tableBits t.builder.freq).length + bits.length)

theorem OnlyWrote.image {s t : State} (h : OnlyWrote s t) : t.image = s.image := (onlyWrote_iff.mp h).2.2.2.2.2.2.1

/-- The steps of ENCODE, where they complete. -/
theorem encodeRest_done {s t : State} {w h : Half} {ps : List Pixel} {rest : List PixelAnswer}
    (hp : s.agents.pixels = ps.map .pixel ++ rest) (hl : ps.length = w.toNat * h.toNat)
    (he : encodeRest w h (initState s) = .ok () t) : ∃ v bits bytes, EncodeDone s w h ps rest t v bits bytes := by
  rw [encodeRest, steps_bind_ok (steps_modify _ _), steps_bind_ok (steps_modify _ _)] at he
  obtain ⟨_, s1, h1, he⟩ := steps_bind_inv he
  rw [setDim, steps_bind_ok (steps_modify _ _)] at he
  obtain ⟨_, s2, h2, he⟩ := steps_bind_inv he
  obtain ⟨_, s3, h3, h4⟩ := steps_bind_inv he
  have hs0 : WriterReady (loadHeight h (loadWidth w (initState s))) := Nat.zero_le _
  obtain ⟨t', c', d'⟩ := writeHeader_wrote w h (s := willing (loadHeight h (loadWidth w (initState s)))) hs0 (willing_ready _)
  rw [writeHeader_willing w h _ _ _ h1] at c'
  cases c'
  have hfr : OnlyWrote ((initState s).setImage ⟨w, h, 0⟩) s1 := by
    have := onlyWrote_iff.mp d'.frame
    rw [onlyWrote_iff]
    exact this
  have hn : s1.writer.n = 0 := by
    have := d'.pending
    rw [bitsOf_length] at this
    exact this.trans (by show (0 + 8 * _) % 8 = 0; omega)
  have hsink : s1.agents.sink = s.agents.sink ++ headerBytes w h := by
    obtain ⟨bytes, e1, e2⟩ := sink_of_stream (s := willing (loadHeight h (loadWidth w (initState s)))) d'.stream rfl hn
    obtain ⟨b, e3, e4⟩ := bitsOf_split (headerBytes w h) (x := bytes) (r := []) (by rw [e2]; simp)
    have hb : b = [] := by
      have := congrArg List.length e4
      rw [bitsOf_length] at this
      exact List.length_eq_zero_iff.mp (by simpa using this)
    have e5 : s1.agents.sink = s.agents.sink ++ bytes := e1
    rw [e5, e3, hb, List.append_nil]
  have hf := onlyWrote_iff.mp hfr
  have hinv : EncInv (startImage w h s1) := EncInv.start w h (by rw [hf.2.2.2.1]; rfl) (by rw [hf.2.2.2.2.1]; rfl)
  have hi : (startImage w h s1).image.i.toNat + ps.length ≤ (startImage w h s1).image.pixels := by
    rw [hl]
    show (0 : Word).toNat + w.toNat * h.toNat ≤ w.toNat * h.toNat
    simp
  have hout : startImage w h s1 = (startImage w h s1).outside s.host (ps.map .pixel ++ rest) := by
    have a : s1.host = s.host := hf.2.2.2.2.2.2.2.2.2.2.2.2.1
    have b : s1.agents.pixels = ps.map .pixel ++ rest := hf.2.2.2.2.2.2.2.2.2.2.2.1.trans hp
    rw [← a, ← b]; rfl
  rw [hout, ← hl] at h2
  rcases encodePixels_cases s.host rest ps hinv hi with h5 | ⟨⟨_, h5⟩, -⟩
  · rw [h5] at h2
    cases h2
    have hinv4 := hinv.pixels ps hi
    have hb3 := (flushRun_blind (pixelsEncoded (startImage w h s1) ps)) s.host rest
    rw [h3] at hb3
    rcases flushRun_cases hinv4 with h6 | ⟨v, d, h6, -⟩
    · rw [h6] at hb3
      have h7 : s3 = (runFlushed (pixelsEncoded (startImage w h s1) ps)).outside s.host rest := by
        injection hb3
      subst h7
      obtain ⟨a, -, b⟩ := hinv4.flushed
      have F := (pixelsEncoded_frame ps (startImage w h s1)).trans (runFlushed_frame _)
      obtain ⟨bits, bytes, k1, k2, k3, k4, k5, k6⟩ := finish_done
        (z := (runFlushed (pixelsEncoded (startImage w h s1) ps)).outside s.host rest) (by
          show (runFlushed (pixelsEncoded (startImage w h s1) ps)).writer.n = 0
          rw [F.writer]; exact hn) a b h4
      refine ⟨s1, bits, bytes, hfr, k1, ?_, k3, k4, k5, k6⟩
      rw [k2]
      show (runFlushed (pixelsEncoded (startImage w h s1) ps)).agents.sink ++ bytes = _
      rw [F.agents]
      show s1.agents.sink ++ bytes = _
      rw [hsink]
    · rw [h6] at hb3; cases hb3
  · rw [h5] at h2; cases h2

/-- Where the sink is willing and the token buffer holds 6 tokens for each pixel, the steps of ENCODE complete (R280, R281). -/
theorem encodeRest_completes {s : State} {w h : Half} {ps : List Pixel} {rest : List PixelAnswer} (hr : SinkReady s)
    (hp : s.agents.pixels = ps.map .pixel ++ rest) (hl : ps.length = w.toNat * h.toNat)
    (hd : ∀ d, s.config.tokbufDepth = some d → 6 * (w.toNat * h.toNat) ≤ d) :
    ∃ t, encodeRest w h (initState s) = .ok () t := by
  rw [encodeRest, steps_bind_ok (steps_modify _ _), steps_bind_ok (steps_modify _ _)]
  have hs0 : WriterReady (loadHeight h (loadWidth w (initState s))) := Nat.zero_le _
  obtain ⟨s1, h1, d'⟩ := writeHeader_wrote w h (s := loadHeight h (loadWidth w (initState s))) hs0 hr
  rw [steps_bind_ok h1, setDim, steps_bind_ok (steps_modify _ _)]
  have hfr : OnlyWrote ((initState s).setImage ⟨w, h, 0⟩) s1 := d'.frame
  have hf := onlyWrote_iff.mp hfr
  have hinv : EncInv (startImage w h s1) := EncInv.start w h (by rw [hf.2.2.2.1]; rfl) (by rw [hf.2.2.2.2.1]; rfl)
  have hi0 : (startImage w h s1).image.i.toNat = 0 := rfl
  have hi : (startImage w h s1).image.i.toNat + ps.length ≤ (startImage w h s1).image.pixels := by
    rw [hl, hi0]
    show 0 + w.toNat * h.toNat ≤ w.toNat * h.toNat
    omega
  have hout : startImage w h s1 = (startImage w h s1).outside s.host (ps.map .pixel ++ rest) := by
    have a : s1.host = s.host := hf.2.2.2.2.2.2.2.2.2.2.2.2.1
    have b : s1.agents.pixels = ps.map .pixel ++ rest := hf.2.2.2.2.2.2.2.2.2.2.2.1.trans hp
    rw [← a, ← b]; rfl
  have hcfg : s1.config = s.config := hf.1
  rw [hout, ← hl]
  rcases encodePixels_cases s.host rest ps hinv hi with h5 | ⟨-, d, h6, h8⟩
  · rw [steps_bind_ok h5]
    have hinv4 := hinv.pixels ps hi
    have F0 := pixelsEncoded_frame ps (startImage w h s1)
    have hI := (pixelsEncoded_image ps hi).2.2
    rcases flushRun_cases hinv4 with h6 | ⟨v, d, -, h7, h9⟩
    · rw [steps_bind_ok ((flushRun_blind).ok h6 _ _)]
      obtain ⟨a, -, b⟩ := hinv4.flushed
      have F := F0.trans (runFlushed_frame _)
      obtain ⟨t, -, k1, -⟩ := finish_wrote (s := (runFlushed (pixelsEncoded (startImage w h s1) ps)).outside s.host rest)
        (by show (runFlushed (pixelsEncoded (startImage w h s1) ps)).writer.n ≤ 7
            rw [F.writer]; exact d'.writerReady)
        (by intro x hx
            have hx' : x ∈ (runFlushed (pixelsEncoded (startImage w h s1) ps)).agents.sinkAnswers := hx
            rw [F.agents] at hx'
            exact d'.ready x hx') a b
      exact ⟨t, k1⟩
    · have := hinv4.count
      have hl6 := pendingRun_length (pixelsEncoded (startImage w h s1) ps).enc.run
      rw [F0.config] at h7
      have := hd d (by rw [← hcfg]; exact h7)
      have hc := hinv4.count
      rw [hI, hi0, hl] at hc
      exfalso
      by_cases hz : (pixelsEncoded (startImage w h s1) ps).enc.run = 0
      · rw [if_pos hz] at hl6 hc; omega
      · rw [if_neg hz] at hl6 hc; omega
  · have := hd d (by rw [← hcfg]; exact h6)
    rw [hi0, hl] at h8
    omega

end Sys2Proof.Machine
end

