-- ==== Sys2Proof/Laws/Fields.lean ====
section
/-! SUPPORT. The fields of a command word (30_encoding.md R119): each field of a word put together is the one put in, a word with
RSV 0 is its fields put together, and a word decodes by its fields. -/

namespace Sys2Proof

@[simp] theorem fieldOp_word (op a v : Byte) (d : Word) : fieldOp (commandWord op a v d) = op := by
  apply BitVec.eq_of_getLsbD_eq
  intro i hi
  simp only [fieldOp, commandWord, BitVec.getLsbD_extractLsb', BitVec.getLsbD_append]
  have h : 0 + i < 8 := by omega
  simp [hi]

@[simp] theorem fieldA_word (op a v : Byte) (d : Word) : fieldA (commandWord op a v d) = a := by
  apply BitVec.eq_of_getLsbD_eq
  intro i hi
  simp only [fieldA, commandWord, BitVec.getLsbD_extractLsb', BitVec.getLsbD_append]
  simp [hi]

@[simp] theorem fieldV_word (op a v : Byte) (d : Word) : fieldV (commandWord op a v d) = v := by
  apply BitVec.eq_of_getLsbD_eq
  intro i hi
  simp only [fieldV, commandWord, BitVec.getLsbD_extractLsb', BitVec.getLsbD_append]
  have h2 : ¬ 16 + i - 8 < 8 := by omega
  have h3 : 16 + i - 8 - 8 = i := by omega
  have h4 : ¬ 16 + i < 8 := by omega
  simp [hi, h2, h3, h4]

@[simp] theorem fieldRsv_word (op a v : Byte) (d : Word) : fieldRsv (commandWord op a v d) = 0 := by
  apply BitVec.eq_of_getLsbD_eq
  intro i hi
  simp only [fieldRsv, commandWord, BitVec.getLsbD_extractLsb', BitVec.getLsbD_append]
  have h2 : ¬ 24 + i - 8 < 8 := by omega
  have h3 : ¬ 24 + i - 8 - 8 < 8 := by omega
  have h4 : 24 + i - 8 - 8 - 8 = i := by omega
  have h5 : ¬ 24 + i < 8 := by omega
  simp [hi, h2, h3, h4, h5]

@[simp] theorem fieldD_word (op a v : Byte) (d : Word) : fieldD (commandWord op a v d) = d := by
  apply BitVec.eq_of_getLsbD_eq
  intro i hi
  simp only [fieldD, commandWord, BitVec.getLsbD_extractLsb', BitVec.getLsbD_append]
  have h2 : ¬ 32 + i - 8 < 8 := by omega
  have h3 : ¬ 32 + i - 8 - 8 < 8 := by omega
  have h4 : ¬ 32 + i - 8 - 8 - 8 < 8 := by omega
  have h5 : 32 + i - 8 - 8 - 8 - 8 = i := by omega
  have h6 : ¬ 32 + i < 8 := by omega
  simp [hi, h2, h3, h4, h5, h6]

theorem word_fields (w : BitVec 64) (h : fieldRsv w = 0) : commandWord (fieldOp w) (fieldA w) (fieldV w) (fieldD w) = w := by
  have hd : commandWord (fieldOp w) (fieldA w) (fieldV w) (fieldD w) =
    fieldD w ++ fieldRsv w ++ fieldV w ++ fieldA w ++ fieldOp w := by rw [h]; rfl
  rw [hd]
  apply BitVec.eq_of_getLsbD_eq
  intro i hi
  simp only [fieldOp, fieldA, fieldV, fieldRsv, fieldD, BitVec.getLsbD_extractLsb', BitVec.getLsbD_append]
  by_cases h1 : i < 8
  · simp [h1]
  by_cases h2 : i < 16
  · have : i - 8 < 8 := by omega
    have e : 8 + (i - 8) = i := by omega
    simp [h1, this, e]
  by_cases h3 : i < 24
  · have a1 : ¬ i - 8 < 8 := by omega
    have a2 : i - 8 - 8 < 8 := by omega
    have e : 16 + (i - 8 - 8) = i := by omega
    simp [h1, a1, a2, e]
  by_cases h4 : i < 32
  · have a1 : ¬ i - 8 < 8 := by omega
    have a2 : ¬ i - 8 - 8 < 8 := by omega
    have a3 : i - 8 - 8 - 8 < 8 := by omega
    have e : 24 + (i - 8 - 8 - 8) = i := by omega
    simp [h1, a1, a2, a3, e]
  · have a1 : ¬ i - 8 < 8 := by omega
    have a2 : ¬ i - 8 - 8 < 8 := by omega
    have a3 : ¬ i - 8 - 8 - 8 < 8 := by omega
    have a4 : i - 8 - 8 - 8 - 8 < 32 := by omega
    have e : 32 + (i - 8 - 8 - 8 - 8) = i := by omega
    simp [h1, a1, a2, a3, a4, e]

@[simp] theorem unpack_pack (p : Pixel) : unpackPixel (packPixel p) = p := by
  obtain ⟨r, g, b, a⟩ := p
  simp only [unpackPixel, packPixel, Pixel.mk.injEq]
  refine ⟨?_, ?_, ?_, ?_⟩ <;> apply BitVec.eq_of_getLsbD_eq <;> intro i hi <;>
    simp only [BitVec.getLsbD_extractLsb', BitVec.getLsbD_append]
  · have h1 : ¬ 24 + i - 8 < 8 := by omega
    have h2 : ¬ 24 + i - 8 - 8 < 8 := by omega
    have h4 : 24 + i - 8 - 8 - 8 = i := by omega
    have h5 : ¬ 24 + i < 8 := by omega
    simp [hi, h1, h2, h4, h5]
  · have h1 : ¬ 16 + i - 8 < 8 := by omega
    have h4 : 16 + i - 8 - 8 = i := by omega
    have h5 : ¬ 16 + i < 8 := by omega
    simp [hi, h1, h4, h5]
  · simp [hi]
  · simp [hi]

@[simp] theorem pack_unpack (d : Word) : packPixel (unpackPixel d) = d := by
  simp only [unpackPixel, packPixel]
  apply BitVec.eq_of_getLsbD_eq
  intro i hi
  simp only [BitVec.getLsbD_extractLsb', BitVec.getLsbD_append]
  by_cases h1 : i < 8
  · simp [h1]
  by_cases h2 : i < 16
  · have a1 : i - 8 < 8 := by omega
    have e : 8 + (i - 8) = i := by omega
    simp [h1, a1, e]
  by_cases h3 : i < 24
  · have a1 : ¬ i - 8 < 8 := by omega
    have a2 : i - 8 - 8 < 8 := by omega
    have e : 16 + (i - 8 - 8) = i := by omega
    simp [h1, a1, a2, e]
  · have a1 : ¬ i - 8 < 8 := by omega
    have a2 : ¬ i - 8 - 8 < 8 := by omega
    have a3 : i - 8 - 8 - 8 < 8 := by omega
    have e : 24 + (i - 8 - 8 - 8) = i := by omega
    simp [h1, a1, a2, a3, e]

@[simp] theorem fieldW_pack (w h : Half) : fieldW (packDim w h) = w := by
  apply BitVec.eq_of_getLsbD_eq
  intro i hi
  have h1 : ¬ 16 + i < 16 := by omega
  simp only [fieldW, packDim, BitVec.getLsbD_extractLsb', BitVec.getLsbD_append]
  simp [hi, h1]

@[simp] theorem fieldH_pack (w h : Half) : fieldH (packDim w h) = h := by
  apply BitVec.eq_of_getLsbD_eq
  intro i hi
  simp only [fieldH, packDim, BitVec.getLsbD_extractLsb', BitVec.getLsbD_append]
  simp [hi]

@[simp] theorem pack_dim (d : Word) : packDim (fieldW d) (fieldH d) = d := by
  apply BitVec.eq_of_getLsbD_eq
  intro i hi
  simp only [fieldW, fieldH, packDim, BitVec.getLsbD_extractLsb', BitVec.getLsbD_append]
  by_cases h1 : i < 16
  · simp [h1]
  · have a1 : i - 16 < 16 := by omega
    have e : 16 + (i - 16) = i := by omega
    simp [h1, a1, e]

theorem decodeCommand_word (op a v : Byte) (d : Word) : decodeCommand (commandWord op a v d) = decodeFields op a v d := by
  simp [decodeCommand]

/-- What `whenZero` answers. -/
theorem whenZero_ok {z : Bool} {i j : Instr} : whenZero z i = .ok j ↔ z = true ∧ i = j := by
  unfold whenZero
  cases z <;> simp

end Sys2Proof
end

