-- ==== Sys2Proof/Laws/PerInstr.lean ====
section
/-! SUPPORT. Statements about every instruction as syntax, one lemma a constructor. -/

namespace Sys2Proof.Laws.OpcodeField

/-- The opcode of a command in the table of 30_encoding.md R118; an element of the stream has none. -/
def opcode : Instr → Option Byte
  | .bwWriteBit _ => some 0x01
  | .bwWriteBits _ _ => some 0x02
  | .bwFlush => some 0x03
  | .brReadBit => some 0x08
  | .brReadBits _ => some 0x09
  | .mtfCheckAndInsert _ => some 0x10
  | .mtfFetch _ => some 0x11
  | .mtfClear => some 0x12
  | .htbCount _ _ => some 0x18
  | .htbBuild _ => some 0x19
  | .htbDerive _ => some 0x1A
  | .hePutToken _ _ => some 0x20
  | .heEncodeToken _ _ => some 0x21
  | .heWriteTable => some 0x22
  | .heWritePayload => some 0x23
  | .heFinish => some 0x24
  | .hdReadTable => some 0x28
  | .hdRead _ => some 0x29
  | .pxSetDim _ _ => some 0x30
  | .pxEncPixel _ => some 0x31
  | .pxEncEnd => some 0x32
  | .pxDecPixel => some 0x33
  | .encodeImage _ _ => some 0x38
  | .decodeImage => some 0x39
  | .decodeHeader => some 0x3A
  | .statusRead => some 0x3E
  | .reset => some 0x3F
  | .streamHeader _ _ => none
  | .tableRecord _ _ => none
  | .treeInternal _ _ => none
  | .treeLeaf _ => none
  | .tableSentinel => none

/-- The code of an instruction: a command has the word with its opcode in OP and 0 in RSV (R118, R119), an element has
bits of the stream at its own position (R90, R93). -/
def Statement (i : Instr) : Prop :=
  match encode i with
  | .command w => opcode i = some (fieldOp w) ∧ fieldRsv w = 0
  | .element _ bits => opcode i = none ∧ bits ≠ []

theorem bwWriteBit (bit : Bool) : Statement (.bwWriteBit bit) := by simp [Statement, opcode, encode]
theorem bwWriteBits (width : Byte) (value : Word) : Statement (.bwWriteBits width value) := by simp [Statement, opcode, encode]
theorem bwFlush : Statement (.bwFlush) := by simp [Statement, opcode, encode]
theorem brReadBit : Statement (.brReadBit) := by simp [Statement, opcode, encode]
theorem brReadBits (width : Byte) : Statement (.brReadBits width) := by simp [Statement, opcode, encode]
theorem mtfCheckAndInsert (p : Pixel) : Statement (.mtfCheckAndInsert p) := by simp [Statement, opcode, encode]
theorem mtfFetch (index : Byte) : Statement (.mtfFetch index) := by simp [Statement, opcode, encode]
theorem mtfClear : Statement (.mtfClear) := by simp [Statement, opcode, encode]
theorem htbCount (k : Byte) (v : Byte) : Statement (.htbCount k v) := by simp [Statement, opcode, encode]
theorem htbBuild (k : Byte) : Statement (.htbBuild k) := by simp [Statement, opcode, encode]
theorem htbDerive (k : Byte) : Statement (.htbDerive k) := by simp [Statement, opcode, encode]
theorem hePutToken (k : Byte) (v : Byte) : Statement (.hePutToken k v) := by simp [Statement, opcode, encode]
theorem heEncodeToken (k : Byte) (v : Byte) : Statement (.heEncodeToken k v) := by simp [Statement, opcode, encode]
theorem heWriteTable : Statement (.heWriteTable) := by simp [Statement, opcode, encode]
theorem heWritePayload : Statement (.heWritePayload) := by simp [Statement, opcode, encode]
theorem heFinish : Statement (.heFinish) := by simp [Statement, opcode, encode]
theorem hdReadTable : Statement (.hdReadTable) := by simp [Statement, opcode, encode]
theorem hdRead (k : Byte) : Statement (.hdRead k) := by simp [Statement, opcode, encode]
theorem pxSetDim (w : Half) (h : Half) : Statement (.pxSetDim w h) := by simp [Statement, opcode, encode]
theorem pxEncPixel (p : Pixel) : Statement (.pxEncPixel p) := by simp [Statement, opcode, encode]
theorem pxEncEnd : Statement (.pxEncEnd) := by simp [Statement, opcode, encode]
theorem pxDecPixel : Statement (.pxDecPixel) := by simp [Statement, opcode, encode]
theorem encodeImage (w : Half) (h : Half) : Statement (.encodeImage w h) := by simp [Statement, opcode, encode]
theorem decodeImage : Statement (.decodeImage) := by simp [Statement, opcode, encode]
theorem decodeHeader : Statement (.decodeHeader) := by simp [Statement, opcode, encode]
theorem statusRead : Statement (.statusRead) := by simp [Statement, opcode, encode]
theorem reset : Statement (.reset) := by simp [Statement, opcode, encode]
theorem streamHeader (w : Half) (h : Half) : Statement (.streamHeader w h) := by simp [Statement, opcode, encode, binByte, bin, magic]
theorem tableRecord (k : Byte) (t : CodeTree) : Statement (.tableRecord k t) := by simp [Statement, opcode, encode, binByte, bin]
theorem treeInternal (l : CodeTree) (r : CodeTree) : Statement (.treeInternal l r) := by simp [Statement, opcode, encode, binTree]
theorem treeLeaf (v : Byte) : Statement (.treeLeaf v) := by simp [Statement, opcode, encode, binTree]
theorem tableSentinel : Statement (.tableSentinel) := by simp [Statement, opcode, encode, binByte, bin]

end Sys2Proof.Laws.OpcodeField
end

