-- ==== Sys2Proof/Laws/RoundTrip.lean ====
section
/-! SUPPORT. The decoder follows the encoder: the tokens of the pixels of an image decode to those pixels (45_pixel_codec.md R264;
46_top_level.md R288). -/

namespace Sys2Proof.Machine

/-! ## The tokens of pixels, as a function of what the encoder has seen -/

/-- `up` of the next pixel, for an image of width `W` whose pixels so far are `seen` (R241, R262). -/
def upAt (W : Nat) (seen : List Pixel) : Pixel := if seen.length / W = 0 then zeroPixel else seen[seen.length - W]?.getD zeroPixel

/-- The group of a pixel that differs from PRIOR (R240 steps 3 to 6). -/
def groupAt (up prior : Pixel) (cache : List Pixel) (p : Pixel) : List Token :=
  match mtfFind p cache with
  | some j => lookupTokens (j - 1)
  | none => deltaTokens p (predict p prior up).1 (predict p prior up).2

/-- The tokens from a pixel on to the end of the image, the last flush among them. -/
def laterTokens (W N : Nat) : List Pixel → List Pixel → Pixel → Word → List Pixel → List Token
  | [], _, _, run, _ => pendingRun run
  | p :: ps, seen, prior, run, cache =>
    if p = prior then laterTokens W N ps (seen ++ [p]) prior (run + 1) cache
    else pendingRun run ++ (groupAt (upAt W seen) prior cache p ++
      laterTokens W N ps (seen ++ [p]) p 0 (cacheTouch N cache p))

/-! ## The encoder -/

/-- LINEBUF and I after the pixels `seen` (R240, R241). -/
structure EncSeen (s : State) (seen : List Pixel) : Prop where
  index : s.image.i.toNat = seen.length
  line : ∀ j, j < seen.length → seen.length ≤ j + s.image.w.toNat → s.enc.linebuf.read (j % s.image.w.toNat) = seen[j]?

theorem EncSeen.up {s : State} {seen : List Pixel} (h : EncSeen s seen) (hw : 0 < s.image.w.toNat) :
    encodeUpRead s = (upAt s.image.w.toNat seen, s) := by
  unfold encodeUpRead upAt ImageState.row ImageState.column
  rw [h.index]
  by_cases hr : seen.length / s.image.w.toNat = 0
  · rw [if_pos hr, if_pos hr]; rfl
  · rw [if_neg hr, if_neg hr]
    have hge : s.image.w.toNat ≤ seen.length := by
      by_contra hlt
      exact hr (Nat.div_eq_of_lt (by omega))
    have h1 := h.line (seen.length - s.image.w.toNat) (by omega) (by omega)
    have h2 : (seen.length - s.image.w.toNat) % s.image.w.toNat = seen.length % s.image.w.toNat := by
      rw [← Nat.mod_eq_sub_mod hge]
    rw [h2] at h1
    rw [h1, List.getElem?_eq_getElem (by omega)]
    rfl

theorem Memory.read_write (m : Memory) (x y : Nat) (p : Pixel) : (m.write x p).read y = if y = x then some p else m.read y := by
  by_cases h : y = x
  · subst h; rw [if_pos rfl, Memory.read_write_same]
  · rw [if_neg h, Memory.read_write_other _ _ h]

theorem EncSeen.pixel {s : State} {seen : List Pixel} (h : EncSeen s seen) (hi : s.image.i.toNat < s.image.pixels) (p : Pixel) :
    EncSeen (pixelEncoded s p) (seen ++ [p]) := by
  have him := pixelEncoded_image s p
  have hI := next_index hi
  have hlb : (pixelEncoded s p).enc.linebuf = s.enc.linebuf.write s.image.column p := by
    unfold pixelEncoded
    split
    · rfl
    · rw [putAll_enc]; rfl
  have hw : 0 < s.image.w.toNat := by
    rcases Nat.eq_zero_or_pos s.image.w.toNat with h0 | h0
    · unfold ImageState.pixels at hi; rw [h0] at hi; omega
    · exact h0
  refine ⟨?_, fun j hj hn => ?_⟩
  · rw [him, List.length_append, ← h.index]; exact hI
  · rw [him] at hn ⊢
    simp only [List.length_append, List.length_singleton] at hj hn
    have hn : seen.length + 1 ≤ j + s.image.w.toNat := hn
    show (pixelEncoded s p).enc.linebuf.read (j % s.image.w.toNat) = _
    rw [hlb, Memory.read_write, ImageState.column, h.index]
    by_cases hj2 : j = seen.length
    · subst hj2
      rw [if_pos rfl]
      simp
    · rw [List.getElem?_append_left (by omega)]
      have hne : ¬ j % s.image.w.toNat = seen.length % s.image.w.toNat := by
        intro he
        have h3 : (seen.length - j) % s.image.w.toNat = 0 := (Nat.sub_mod_eq_zero_of_mod_eq he.symm)
        rw [Nat.mod_eq_of_lt (by omega)] at h3
        omega
      rw [if_neg hne]
      exact h.line j (by omega) (by omega)

theorem pixelEncoded_tokbuf (s : State) (p : Pixel) : (pixelEncoded s p).tokbuf = s.tokbuf ++ pixelTokens s p := by
  unfold pixelEncoded pixelTokens
  split
  · rw [State.setEnc_tokbuf, pixelTaken_tokbuf, List.append_nil]
  · rw [putAll_tokbuf, State.setEnc_tokbuf, State.setMtf_tokbuf, pixelTaken_tokbuf]

/-- The tokens of an image's pixels and the last flush are those of `laterTokens`. -/
theorem pixels_tokens (ps : List Pixel) : ∀ {s : State} {seen : List Pixel}, EncSeen s seen →
    s.image.i.toNat + ps.length ≤ s.image.pixels →
    (runFlushed (pixelsEncoded s ps)).tokbuf =
      s.tokbuf ++ laterTokens s.image.w.toNat s.config.cacheCapacity ps seen s.enc.prior s.enc.run s.mtf := by
  induction ps with
  | nil =>
    intro s seen _ _
    show (putAll _ (pendingRun s.enc.run)).tokbuf = _
    rw [putAll_tokbuf]; rfl
  | cons p ps ih =>
    intro s seen h hi
    simp only [List.length_cons] at hi
    have hlt : s.image.i.toNat < s.image.pixels := by omega
    have him := pixelEncoded_image s p
    have hI := next_index hlt
    have hw : 0 < s.image.w.toNat := by
      rcases Nat.eq_zero_or_pos s.image.w.toNat with h0 | h0
      · unfold ImageState.pixels at hlt; rw [h0] at hlt; omega
      · exact h0
    have hcfg : (pixelEncoded s p).config = s.config := (pixelEncoded_frame s p).config
    have := ih (s := pixelEncoded s p) (h.pixel hlt p) (by rw [him]; simp only [ImageState.pixels] at *; rw [hI]; omega)
    have hstep : pixelsEncoded s (p :: ps) = pixelsEncoded (pixelEncoded s p) ps := rfl
    rw [hstep, this, pixelEncoded_tokbuf, hcfg, him, List.append_assoc]
    congr 1
    by_cases hp : p = s.enc.prior
    · have e1 : (pixelEncoded s p).enc.prior = s.enc.prior := by unfold pixelEncoded; rw [if_pos hp]; rfl
      have e2 : (pixelEncoded s p).enc.run = s.enc.run + 1 := by unfold pixelEncoded; rw [if_pos hp]; rfl
      have e3 : (pixelEncoded s p).mtf = s.mtf := by
        unfold pixelEncoded; rw [if_pos hp, State.setEnc_mtf, pixelTaken_mtf]
      rw [e1, e2, e3, pixelTokens, if_pos hp, laterTokens, if_pos hp]; rfl
    · have e1 : (pixelEncoded s p).enc.prior = p := by unfold pixelEncoded; rw [if_neg hp, putAll_enc]; rfl
      have e2 : (pixelEncoded s p).enc.run = 0 := by unfold pixelEncoded; rw [if_neg hp, putAll_enc]; rfl
      have e3 : (pixelEncoded s p).mtf = cacheTouch s.config.cacheCapacity s.mtf p := by
        unfold pixelEncoded; rw [if_neg hp, putAll_mtf]; rfl
      have hg : groupTokens s p = groupAt (upAt s.image.w.toNat seen) s.enc.prior s.mtf p := by
        unfold groupTokens groupAt
        rw [h.up hw] <;> rfl
      rw [e1, e2, e3, pixelTokens, if_neg hp, laterTokens, if_neg hp, hg, List.append_assoc]

/-! ## The decoder -/

/-- Bytes were taken from the source, and less than a byte is left unconsumed. -/
structure Ate (s t : State) : Prop where
  bytes : ∃ bs : List Byte, s.agents.source = bs.map .byte ++ t.agents.source
  pending : s.reader.n ≤ 7 → t.reader.n ≤ 7

theorem Ate.refl (s : State) : Ate s s := ⟨⟨[], rfl⟩, id⟩

theorem Ate.trans {s t u : State} (h : Ate s t) (h' : Ate t u) : Ate s u := by
  refine ⟨?_, fun hn => h'.pending (h.pending hn)⟩
  obtain ⟨a, ha⟩ := h.bytes
  obtain ⟨b, hb⟩ := h'.bytes
  exact ⟨a ++ b, by rw [ha, hb]; simp⟩

/-- What the decoder has after the pixels `seen`, with C the last of them and no countdown. -/
structure DecSeen (s : State) (seen : List Pixel) (c : Pixel) : Prop where
  index : s.image.i.toNat = seen.length
  out : ∀ j, s.dec.out.read j = seen[j]?
  colour : s.dec.c = c

/-- What the pixels of a decode leave unchanged. -/
structure DecFrame (s t : State) : Prop where
  config : t.config = s.config
  decoder : t.decoder = s.decoder
  width : t.image.w = s.image.w
  height : t.image.h = s.image.h
  ate : Ate s t

theorem DecFrame.refl (s : State) : DecFrame s s := ⟨rfl, rfl, rfl, rfl, Ate.refl s⟩

theorem DecFrame.trans {s t u : State} (h : DecFrame s t) (h' : DecFrame t u) : DecFrame s u :=
  ⟨h'.config.trans h.config, h'.decoder.trans h.decoder, h'.width.trans h.width, h'.height.trans h.height,
    h.ate.trans h'.ate⟩

theorem DecSeen.up {s : State} {seen : List Pixel} {c : Pixel} (h : DecSeen s seen c) (hw : 0 < s.image.w.toNat) :
    decodeUpRead s = (upAt s.image.w.toNat seen, s) := by
  unfold decodeUpRead upAt ImageState.row
  rw [h.index]
  by_cases hr : seen.length / s.image.w.toNat = 0
  · rw [if_pos hr, if_pos hr]; rfl
  · rw [if_neg hr, if_neg hr]
    have hge : s.image.w.toNat ≤ seen.length := by
      by_contra hlt
      exact hr (Nat.div_eq_of_lt (by omega))
    rw [h.out, List.getElem?_eq_getElem (by omega)]
    rfl

/-- A pixel given: OUT and I follow. -/
theorem DecSeen.given {s t : State} {seen : List Pixel} {c p : Pixel} (h : DecSeen s seen c)
    (hi : s.image.i.toNat < s.image.pixels) (him : t.image = s.image) (ho : t.dec.out = s.dec.out) (hc : t.dec.c = p) :
    DecSeen (pixelGiven t) (seen ++ [p]) p := by
  refine ⟨?_, fun j => ?_, hc⟩
  · show (t.image.i + 1).toNat = _
    rw [him, List.length_append, ← h.index]; exact next_index hi
  · show (t.dec.out.write t.image.i.toNat t.dec.c).read j = _
    rw [Memory.read_write, ho, him, hc, h.index, h.out]
    by_cases hj : j = seen.length
    · subst hj; simp
    · rw [if_neg hj]
      by_cases hlt : j < seen.length
      · rw [List.getElem?_append_left hlt]
      · rw [List.getElem?_eq_none (by omega), List.getElem?_eq_none (by simp; omega)]

/-- The frame of one decoded pixel. -/
theorem DecFrame.given {s o t : State} (hs : o.config = s.config ∧ o.decoder = s.decoder ∧ o.image = s.image ∧
    o.agents = s.agents ∧ o.reader = s.reader) (h : Took o t) : DecFrame s (pixelGiven t) := by
  obtain ⟨a, b, c, d, e⟩ := hs
  refine ⟨h.config.trans a, h.decoder.trans b, ?_, ?_, ?_, ?_⟩
  · show t.image.w = _; rw [h.image, c]
  · show t.image.h = _; rw [h.image, c]
  · show ∃ bs : List Byte, s.agents.source = bs.map .byte ++ t.agents.source
    rw [← d]; exact h.bytes
  · show s.reader.n ≤ 7 → t.reader.n ≤ 7
    rw [← e]; exact h.pending

theorem decodePixels_append (a b : Nat) (s : State) : decodePixels (a + b) s = (decodePixels a >>= fun _ => decodePixels b) s := by
  induction a generalizing s with
  | zero => rw [Nat.zero_add]; rfl
  | succ a ih =>
    rw [Nat.succ_add, decodePixels, decodePixels, steps_assoc, steps_bind, steps_bind]
    cases decodePixel s with
    | ok p t => exact ih t
    | error c t => rfl

theorem Ahead.given {t : State} {ts : List Token} {rest : Bits} (h : Ahead t ts rest) : Ahead (pixelGiven t) ts rest := h

/-- A countdown gives C again and again (R260). -/
theorem decode_countdown (n : Nat) : ∀ {s : State} {seen : List Pixel} {c : Pixel} {ts : List Token} {rest : Bits},
    DecSeen s seen c → s.dec.drun.toNat = n → s.image.i.toNat + n ≤ s.image.pixels → Ahead s ts rest →
    ∃ t, decodePixels n s = .ok () t ∧ Ahead t ts rest ∧ DecSeen t (seen ++ List.replicate n c) c ∧ t.dec.drun = 0 ∧
      t.mtf = s.mtf ∧ DecFrame s t := by
  induction n with
  | zero =>
    intro s seen c ts rest h hd _ ha
    exact ⟨s, rfl, ha, by simpa using h, BitVec.eq_of_toNat_eq hd, rfl, DecFrame.refl s⟩
  | succ n ih =>
    intro s seen c ts rest h hd hi ha
    have hlt : s.image.i.toNat < s.image.pixels := by omega
    have hne : s.dec.drun ≠ 0 := by intro h0; rw [h0] at hd; simp at hd
    have h1 := decodePixel_eq hlt (decodeColour_countdown hne)
    have hd1 : (s.dec.drun - 1).toNat = n := by
      have := s.dec.drun.isLt
      rw [BitVec.toNat_sub, show (1 : Word).toNat = 1 from rfl, hd]
      omega
    have h2 := h.given (t := s.setDec { s.dec with drun := s.dec.drun - 1 }) (p := c) hlt rfl rfl h.colour
    have f2 := DecFrame.given (s := s) (o := s.setDec { s.dec with drun := s.dec.drun - 1 }) ⟨rfl, rfl, rfl, rfl, rfl⟩ (Took.refl _)
    have hnext := next_index hlt
    obtain ⟨t, h3, h4, h5, h6, h7, h8⟩ := ih h2 hd1 (by
      show (s.image.i + 1).toNat + n ≤ s.image.pixels
      omega) (Ahead.given (t := s.setDec { s.dec with drun := s.dec.drun - 1 }) ha)
    refine ⟨t, by rw [decodePixels, steps_bind_ok h1, h3], h4, ?_, h6, h7, f2.trans h8⟩
    rw [List.replicate_succ]
    rwa [List.append_assoc] at h5

/-- A pending run decodes to as many copies of C (R250, R260). -/
theorem decode_run {s : State} {seen : List Pixel} {c : Pixel} {run : Word} {ts : List Token} {rest : Bits}
    (h : DecSeen s seen c) (hd : s.dec.drun = 0) (hi : s.image.i.toNat + run.toNat ≤ s.image.pixels)
    (ha : Ahead s (pendingRun run ++ ts) rest) :
    ∃ t, decodePixels run.toNat s = .ok () t ∧ Ahead t ts rest ∧ DecSeen t (seen ++ List.replicate run.toNat c) c ∧
      t.dec.drun = 0 ∧ t.mtf = s.mtf ∧ DecFrame s t := by
  by_cases hr : run = 0
  · subst hr
    exact ⟨s, rfl, by simpa [pendingRun] using ha, by simpa using h, hd, rfl, DecFrame.refl s⟩
  · have hpos : 0 < run.toNat := by
      rcases Nat.eq_zero_or_pos run.toNat with h0 | h0
      · exact absurd (BitVec.eq_of_toNat_eq h0) hr
      · exact h0
    have hr1 : (run - 1).toNat = run.toNat - 1 := by
      have := run.isLt
      rw [BitVec.toNat_sub, show (1 : Word).toNat = 1 from rfl]
      omega
    rw [show pendingRun run = _ from if_neg hr] at ha
    have hlt : s.image.i.toNat < s.image.pixels := by omega
    have hb : (run - 1).toNat < 256 ^ runByteCount (run - 1) := by
      unfold runByteCount
      have := (run - 1).isLt
      split
      · omega
      · split
        · omega
        · split
          · assumption
          · split
            · assumption
            · omega
    obtain ⟨u, h1, h2, h3⟩ := decodeColour_run hd (runByteCount_le _) hb ha
    have h4 := decodePixel_eq hlt h1
    have hu : u.dec = { s.dec with drun := run - 1 } := h2.dec
    have h5 := h.given (t := u) (p := c) hlt (h2.image) (by rw [hu]) (by rw [hu]; exact h.colour)
    have f5 := DecFrame.given (s := s) (o := s.setDec { s.dec with drun := run - 1 }) (t := u) ⟨rfl, rfl, rfl, rfl, rfl⟩ h2
    have hnext := next_index hlt
    have hiu : (pixelGiven u).image.i.toNat = s.image.i.toNat + 1 := by
      show (u.image.i + 1).toNat = _
      rw [h2.image]; exact hnext
    have hpu : (pixelGiven u).image.pixels = s.image.pixels := by
      show (u.image.w.toNat * u.image.h.toNat) = _
      rw [h2.image]; rfl
    obtain ⟨t, h6, h7, h8, h9, h10, h11⟩ := decode_countdown (run.toNat - 1) h5
      (by show u.dec.drun.toNat = _; rw [hu]; exact hr1) (by rw [hiu, hpu]; omega) (Ahead.given h3)
    refine ⟨t, ?_, h7, ?_, h9, h10.trans h2.mtf, f5.trans h11⟩
    · obtain ⟨n, hn⟩ : ∃ n, run.toNat = n + 1 := ⟨run.toNat - 1, by omega⟩
      rw [hn, decodePixels, steps_bind_ok h4]
      rw [hn] at h6
      exact h6
    · obtain ⟨n, hn⟩ : ∃ n, run.toNat = n + 1 := ⟨run.toNat - 1, by omega⟩
      rw [hn] at h8 ⊢
      rw [List.replicate_succ]
      rwa [List.append_assoc] at h8

theorem addPixel_sub (p b : Pixel) : addPixel b ⟨p.r - b.r, p.g - b.g, p.b - b.b, p.a - b.a⟩ = p := by
  unfold addPixel
  simp

theorem deltaTokens_eq (p b : Pixel) (tag : Tag) : deltaTokens p b tag =
    token .tag (tagValue tag) :: channelTokens ⟨p.r - b.r, p.g - b.g, p.b - b.b, p.a - b.a⟩ := rfl

theorem predict_cases (p prior up : Pixel) : predict p prior up = (prior, .delta) ∨ predict p prior up = (up, .deltaUp) := by
  unfold predict
  simp only
  split
  · exact .inr rfl
  · exact .inl rfl

/-- A group decodes to its pixel (R264). -/
theorem decode_group {s : State} {seen : List Pixel} {prior p : Pixel} {ts : List Token} {rest : Bits}
    (h : DecSeen s seen prior) (hd : s.dec.drun = 0) (hlt : s.image.i.toNat < s.image.pixels) (hp : p ≠ prior)
    (hl : s.mtf.length ≤ s.config.cacheCapacity) (hn : s.config.cacheCapacity ≤ 256) (hh : s.mtf = [] ∨ s.mtf.head? = some prior)
    (ha : Ahead s (groupAt (upAt s.image.w.toNat seen) prior s.mtf p ++ ts) rest) :
    ∃ q t, decodePixel s = .ok q t ∧ Ahead t ts rest ∧ DecSeen t (seen ++ [p]) p ∧ t.dec.drun = 0 ∧
      t.mtf = cacheTouch s.config.cacheCapacity s.mtf p ∧ DecFrame s t := by
  have hw : 0 < s.image.w.toNat := by
    rcases Nat.eq_zero_or_pos s.image.w.toNat with h0 | h0
    · unfold ImageState.pixels at hlt; rw [h0] at hlt; omega
    · exact h0
  have close : ∀ {o u : State}, (o.config = s.config ∧ o.decoder = s.decoder ∧ o.image = s.image ∧ o.agents = s.agents ∧
      o.reader = s.reader) → o.dec = { s.dec with c := p } → o.mtf = cacheTouch s.config.cacheCapacity s.mtf p →
      decodeColour s = .ok () u → Took o u → Ahead u ts rest →
      ∃ q t, decodePixel s = .ok q t ∧ Ahead t ts rest ∧ DecSeen t (seen ++ [p]) p ∧ t.dec.drun = 0 ∧
        t.mtf = cacheTouch s.config.cacheCapacity s.mtf p ∧ DecFrame s t := by
    intro o u ho hod hom hc hk hau
    have hud : u.dec = { s.dec with c := p } := hk.dec.trans hod
    exact ⟨_, _, decodePixel_eq hlt hc, Ahead.given hau, h.given hlt (hk.image.trans ho.2.2.1) (by rw [hud]) (by rw [hud]),
      by show u.dec.drun = 0; rw [hud]; exact hd, hk.mtf.trans hom, DecFrame.given ho hk⟩
  unfold groupAt at ha
  cases hf : mtfFind p s.mtf with
  | some j =>
    rw [hf] at ha
    obtain ⟨pre, post, he, hnp, hj⟩ := mtfFind_some hf
    have hj0 : j ≠ 0 := by
      rintro rfl
      rw [List.length_eq_zero_iff] at hj
      subst hj
      rw [he] at hh
      rcases hh with hh | hh
      · cases hh
      · cases hh; exact hp rfl
    have hjl : j < s.mtf.length := by rw [he, ← hj]; simp
    obtain ⟨u, h1, h2, h3⟩ := decodeColour_lookup (p := p) (pre := pre) (post := post) (us := ts) hd ha he (by
      rw [BitVec.toNat_ofNat, hj, Nat.mod_eq_of_lt (by omega)]; omega)
    exact close (o := (s.setMtf (p :: (pre ++ post))).setDec { s.dec with c := p }) ⟨rfl, rfl, rfl, rfl, rfl⟩ rfl
      (by rw [he, cacheTouch_split hnp]; rfl) h1 h2 h3
  | none =>
    rw [hf] at ha
    simp only at ha
    rcases predict_cases p prior (upAt s.image.w.toNat seen) with hpr | hpr
    · rw [hpr, deltaTokens_eq] at ha
      obtain ⟨u, h1, h2, h3⟩ := decodeColour_delta hd ha hl
      rw [h.colour, addPixel_sub] at h2
      exact close (o := (s.setMtf (cacheTouch s.config.cacheCapacity s.mtf p)).setDec { s.dec with c := p })
        ⟨rfl, rfl, rfl, rfl, rfl⟩ rfl rfl h1 h2 h3
    · rw [hpr, deltaTokens_eq] at ha
      obtain ⟨u, h1, h2, h3⟩ := decodeColour_deltaUp hd ha hl
      rw [h.up hw] at h2
      simp only [addPixel_sub] at h2
      exact close (o := (s.setMtf (cacheTouch s.config.cacheCapacity s.mtf p)).setDec { s.dec with c := p })
        ⟨rfl, rfl, rfl, rfl, rfl⟩ rfl rfl h1 h2 h3

/-- The tokens from a pixel on decode to the pixels from there on; `run` pixels of the run are still to be given (R264). -/
theorem decode_later (ps : List Pixel) : ∀ {s : State} {seen : List Pixel} {prior : Pixel} {run : Word} {rest : Bits},
    DecSeen s seen prior → s.dec.drun = 0 → s.mtf.length ≤ s.config.cacheCapacity → s.config.cacheCapacity ≤ 256 →
    (s.mtf = [] ∨ s.mtf.head? = some prior) → s.image.i.toNat + run.toNat + ps.length ≤ s.image.pixels →
    Ahead s (laterTokens s.image.w.toNat s.config.cacheCapacity ps (seen ++ List.replicate run.toNat prior) prior run s.mtf) rest →
    ∃ t c, decodePixels (run.toNat + ps.length) s = .ok () t ∧ streamIn t = rest ∧
      DecSeen t (seen ++ List.replicate run.toNat prior ++ ps) c ∧ DecFrame s t := by
  induction ps with
  | nil =>
    intro s seen prior run rest h hd hl hn hh hi ha
    obtain ⟨t, h1, h2, h3, -, -, h6⟩ := decode_run (ts := []) (run := run) h hd hi (by
      rw [List.append_nil]; exact ha)
    exact ⟨t, prior, h1, h2.nil, by simpa using h3, h6⟩
  | cons p ps ih =>
    intro s seen prior run rest h hd hl hn hh hi ha
    simp only [List.length_cons] at hi
    rw [laterTokens] at ha
    by_cases hp : p = prior
    · subst hp
      rw [if_pos rfl] at ha
      have hrun : (run + 1).toNat = run.toNat + 1 := by
        have := pixels_lt s.image
        rw [BitVec.toNat_add, show (1 : Word).toNat = 1 from rfl]
        omega
      have hs : seen ++ List.replicate run.toNat p ++ [p] = seen ++ List.replicate (run + 1).toNat p := by
        rw [hrun, List.replicate_succ', List.append_assoc]
      rw [hs] at ha
      obtain ⟨t, c, h1, h2, h3, h4⟩ := ih (run := run + 1) h hd hl hn hh (by rw [hrun]; omega) ha
      refine ⟨t, c, ?_, h2, ?_, h4⟩
      · rw [hrun] at h1
        rw [List.length_cons, show run.toNat + (ps.length + 1) = run.toNat + 1 + ps.length by omega]; exact h1
      · rw [← hs] at h3
        rw [List.append_cons]; exact h3
    · rw [if_neg hp] at ha
      obtain ⟨u, h1, h2, h3, h4, h5, h6⟩ := decode_run h hd (by omega) ha
      have hui : u.image.i.toNat = s.image.i.toNat + run.toNat := by
        rw [h3.index, List.length_append, List.length_replicate, h.index]
      have hup : u.image.pixels = s.image.pixels := by unfold ImageState.pixels; rw [h6.width, h6.height]
      have hult : u.image.i.toNat < u.image.pixels := by rw [hui, hup]; omega
      rw [← h5, ← h6.width] at h2
      obtain ⟨q, v, k1, k2, k3, k4, k5, k6⟩ := decode_group h3 h4 hult hp
        (by rw [h5, h6.config]; exact hl) (by rw [h6.config]; exact hn) (by rw [h5]; exact hh) h2
      have hvi : v.image.i.toNat = s.image.i.toNat + run.toNat + 1 := by
        rw [k3.index, List.length_append, ← h3.index, hui]; rfl
      have hvp : v.image.pixels = s.image.pixels := by
        unfold ImageState.pixels; rw [k6.width, k6.height, h6.width, h6.height]
      have hvm : v.mtf = cacheTouch s.config.cacheCapacity u.mtf p := by rw [k5, h6.config]
      obtain ⟨t, c, m1, m2, m3, m4⟩ := ih (s := v) (run := 0) (rest := rest) k3 k4
        (by rw [k5, k6.config]; exact cacheTouch_length (by rw [h5, h6.config]; exact hl) p)
        (by rw [k6.config, h6.config]; exact hn)
        (.inr (by rw [k5]; exact cacheTouch_head u.config.capacity_pos _ _))
        (by rw [hvi, hvp]; show _ + 0 + _ ≤ _; omega)
        (by
          rw [k6.config, h6.config, k6.width, hvm]
          show Ahead v (laterTokens _ _ ps (seen ++ List.replicate run.toNat prior ++ [p] ++ []) p 0 _) rest
          rw [List.append_nil]
          exact k2)
      refine ⟨t, c, ?_, m2, ?_, (h6.trans k6).trans m4⟩
      · rw [List.length_cons, decodePixels_append, steps_bind_ok h1, decodePixels, steps_bind_ok k1]
        have : (0 : Word).toNat + ps.length = ps.length := by simp
        rw [this] at m1
        exact m1
      · rw [List.append_cons]
        have e : seen ++ List.replicate run.toNat prior ++ [p] ++ List.replicate (0 : Word).toNat p = seen ++ List.replicate run.toNat prior ++ [p] := by
          simp
        rw [e] at m3
        exact m3

/-- The payload's bits spell the tokens in the trees that the encoder built (44_huffman_decoder.md R225). -/
theorem spells_payload {d : Table CodeTree} {b b' : TreeBuilder} (hb : TableBuilt 0 255 b b') (hw : tableWf b.freq)
    (hd : ∀ k, classOk k → tableGet d k.toNat = buildTree (tableRow b.freq k)) (ts : List Token) : ∀ {bits : Bits},
    (∀ t ∈ ts, classOk t.k ∧ freqGet b.freq t.k t.v ≠ 0) → payloadBits b'.code ts = some bits → Spells d ts bits := by
  induction ts with
  | nil => intro bits _ h; cases h; rfl
  | cons t ts ih =>
    intro bits hk h
    rw [payloadBits] at h
    cases hc : codeGet b'.code t.k t.v with
    | none => rw [hc] at h; cases h
    | some c =>
      cases hp : payloadBits b'.code ts with
      | none => rw [hc, hp] at h; cases h
      | some cs =>
        rw [hc, hp] at h
        cases h
        obtain ⟨hok, hf⟩ := hk t (by simp)
        have hlt : t.k.toNat < 0 + 255 := by
          have := t.k.isLt
          by_contra hcn
          exact hok (BitVec.eq_of_toNat_eq (by simp; omega))
        have h0 : classTotal b.freq t.k > 0 := by
          have := freqGet_le_total b.freq t.k t.v
          have h1 : (freqGet b.freq t.k t.v).toNat ≠ 0 := fun h => hf (BitVec.eq_of_toNat_eq h)
          omega
        obtain ⟨x, hx⟩ := hb.built t.k (by omega) hlt h0
        exact ⟨c, cs, x, rfl, hok, by rw [hd t.k hok]; exact hx.buildTree hw, (hx.codes t.v c).mp hc,
          ih (fun y hy => hk y (by simp [hy])) hp⟩

end Sys2Proof.Machine
end

