-- ==== Sys2Proof/Laws/StepCases.lean ====
section
/-! SUPPORT. Everything a step can do. -/

namespace Sys2Proof.Machine

/-- A step that answers a next state: nothing was issued; a command word was fetched and run, or was illegal; an element of
the stream was refused, read and run, or failed to be read. -/
theorem step_cases {s t : State} (h : step s = .next t) :
    (s.host.issues = [] ∧ t = s) ∨
    (∃ w rest, s.host.issues = .command w :: rest ∧
      ((∃ i, decodeCommand w = .ok i ∧ exec i (takeIssue s rest) = .next t) ∨
        ∃ r, decodeCommand w = .error r ∧ t = failEntry .illegalCommand (takeIssue s rest))) ∨
    ∃ pos rest, s.host.issues = .element pos :: rest ∧
      ((s.failed = true ∧ t = failEntry .failedState (takeIssue s rest)) ∨
        (∃ i u, s.failed = false ∧
          parseElement getBit .treeTooLarge .badMagic pos (takeIssue s rest) = .ok i u ∧ exec i u = .next t) ∨
        ∃ c u, s.failed = false ∧
          parseElement getBit .treeTooLarge .badMagic pos (takeIssue s rest) = .error c u ∧ t = failEntry c u) := by
  unfold step fetch at h
  cases hi : s.host.issues with
  | nil => simp only [hi] at h; cases h; exact .inl ⟨rfl, rfl⟩
  | cons x rest =>
    right
    cases x with
    | command w =>
      refine .inl ⟨w, rest, rfl, ?_⟩
      simp only [hi, fetchCommand] at h
      cases hd : decodeCommand w with
      | ok i => simp only [hd] at h; exact .inl ⟨i, rfl, h⟩
      | error r => simp only [hd] at h; cases h; exact .inr ⟨r, rfl, rfl⟩
    | element pos =>
      refine .inr ⟨pos, rest, rfl, ?_⟩
      have hf : (takeIssue s rest).failed = s.failed := rfl
      simp only [hi, fetchElement, hf] at h
      cases hs : s.failed with
      | true => simp only [hs, if_true] at h; cases h; exact .inl ⟨rfl, rfl⟩
      | false =>
        simp only [hs, Bool.false_eq_true, if_false] at h
        cases hp : parseElement getBit Cause.treeTooLarge Cause.badMagic pos (takeIssue s rest) with
        | ok i u => simp only [hp] at h; exact .inr (.inl ⟨i, u, rfl, rfl, h⟩)
        | error c u => simp only [hp] at h; cases h; exact .inr (.inr ⟨c, u, rfl, rfl, rfl⟩)

end Sys2Proof.Machine
end

