-- ==== Sys2Proof/Laws/UnitInvariant.lean ====
section
/-! SUPPORT. The steps of the commands that complete keep the invariants of the units (`UnitInv` of Safety.lean). -/

namespace Sys2Proof.Machine

/-- The parts of the state that the invariants of the units speak of. -/
theorem UnitInv.of_eq {s t : State} (h : UnitInv s) (h1 : t.config = s.config) (h2 : t.writer = s.writer)
    (h3 : t.reader = s.reader) (h4 : t.mtf = s.mtf) (h5 : t.builder = s.builder) (h6 : t.tokbuf = s.tokbuf)
    (h7 : t.decoder = s.decoder) (h8 : t.image = s.image) (h9 : t.enc = s.enc) (h10 : t.dec = s.dec) : UnitInv t := by
  constructor <;> simp only [h1, h2, h3, h4, h5, h6, h7, h8, h9, h10]
  exacts [h.writer_n, h.writer_acc, h.reader_n, h.mtf_len, h.mtf_nodup, h.freq_wf, h.freq_pos, h.freq_class,
    h.freq_total, h.etree_wf, h.etree_ok, h.code_wf, h.code_ok, h.tokbuf_ok, h.tokbuf_depth, h.dtree_wf, h.dtree_ok,
    h.image_i, h.run_le, h.linebuf_wf, h.linebuf_ok, h.out_wf, h.out_ok]

/-! ## Writing and reading bits -/

theorem UnitInv.wrote {s t : State} (h : UnitInv s) (hw : OnlyWrote s t) (ht : WriterTidy t) : UnitInv t := by
  rw [onlyWrote_iff] at hw
  obtain ⟨h1, h3, h4, h5, h6, h7, h8, h9, h10, -⟩ := hw
  have hu : UnitInv (s.setWriter t.writer) := { h with writer_n := ht.1, writer_acc := ht.2 }
  exact hu.of_eq h1 rfl h3 h4 h5 h6 h7 h8 h9 h10

theorem UnitInv.read {s t : State} (h : UnitInv s) (hr : OnlyRead s t) (hn : t.reader.n ≤ 8) : UnitInv t := by
  rw [onlyRead_iff] at hr
  obtain ⟨h1, h2, h4, h5, h6, h7, h8, h9, h10, -⟩ := hr
  have hu : UnitInv (s.setReader t.reader) := { h with reader_n := hn }
  exact hu.of_eq h1 h2 rfl h4 h5 h6 h7 h8 h9 h10

theorem putBits_units (bs : Bits) : Keeps UnitInv (putBits bs) := fun s a t h ht =>
  h.wrote ((putBits_frame bs s).1 a t ht) (putBits_tidy bs s a t ⟨h.writer_n, h.writer_acc⟩ ht)

theorem putBit_units (b : Bool) : Keeps UnitInv (putBit b) := fun s a t h ht =>
  h.wrote ((putBit_frame b s).1 a t ht) (putBit_tidy b s a t ⟨h.writer_n, h.writer_acc⟩ ht)

theorem writeBits_units (v : Word) (n : Nat) : Keeps UnitInv (writeBits v n) := putBits_units _

theorem bwWriteBits_units (w : Byte) (v : Word) : Keeps UnitInv (bwWriteBits w v) :=
  Keeps.ite (fun _ => Keeps.raise _) fun _ => writeBits_units _ _

theorem bwFlush_units : Keeps UnitInv bwFlush := fun s a t h ht =>
  h.wrote ((bwFlush_frame s).1 a t ht) (bwFlush_tidy s a t ⟨h.writer_n, h.writer_acc⟩ ht)

/-- What a read of one bit needs of an invariant: it does not look at the reader beyond BR_N, or at the source. -/
def ReadClosed (P : State → Prop) : Prop := ∀ s b t, P s → getBit s = .ok b t → P t

theorem unitInv_readClosed : ReadClosed UnitInv := fun s b t h ht =>
  h.read (Within.tracked getBit_tracks s |>.1 b t ht) (by have := getBit_n h.reader_n ht; omega)

section Read
variable {P : State → Prop} (hP : ReadClosed P)
include hP

theorem getBit_keeps : Keeps P getBit := hP

theorem parseBits_keeps (n : Nat) : ∀ v, Keeps P (parseBits getBit n v) := by
  induction n with
  | zero => exact fun v => Keeps.pure _
  | succ n ih => exact fun v => Keeps.bind hP fun b => ih _

theorem parseByte_keeps : Keeps P (parseByte getBit) := Keeps.bind (parseBits_keeps hP _ _) fun _ => Keeps.pure _

theorem parseHalf_keeps : Keeps P (parseHalf getBit) := Keeps.bind (parseBits_keeps hP _ _) fun _ => Keeps.pure _

theorem parseNode_keeps (c : Cause) (fuel : Nat) : ∀ count, Keeps P (parseNode getBit c fuel count) := by
  induction fuel with
  | zero => exact fun count => Keeps.raise _
  | succ fuel ih =>
    intro count
    refine Keeps.ite (fun _ => Keeps.raise _) fun _ => Keeps.bind hP fun b => ?_
    cases b
    · exact Keeps.bind (parseByte_keeps hP) fun _ => Keeps.pure _
    · exact Keeps.bind (ih _) fun l => Keeps.bind (ih _) fun r => Keeps.pure _

theorem parseItem_keeps (c : Cause) : Keeps P (parseItem getBit c) := by
  refine Keeps.bind (parseByte_keeps hP) fun k => Keeps.ite (fun _ => Keeps.pure _) fun _ => ?_
  exact Keeps.bind (Keeps.bind (parseNode_keeps hP _ _ _) fun _ => Keeps.pure _) fun _ => Keeps.pure _

theorem parseBytes_keeps (n : Nat) : Keeps P (parseBytes getBit n) := by
  induction n with
  | zero => exact Keeps.pure _
  | succ n ih => exact Keeps.bind (parseByte_keeps hP) fun _ => Keeps.bind ih fun _ => Keeps.pure _

theorem parseMagic_keeps (c : Cause) : Keeps P (parseMagic getBit c) :=
  Keeps.bind (parseBytes_keeps hP _) fun _ => Keeps.ite (fun _ => Keeps.pure _) fun _ => Keeps.raise _

theorem walkTree_keeps (t : CodeTree) : Keeps P (walkTree t) := by
  induction t with
  | leaf v => exact Keeps.pure _
  | internal l r hl hr =>
    refine Keeps.bind hP fun b => ?_
    cases b
    · exact hl
    · exact hr

theorem hdRead_keeps (k : Byte) : Keeps P (hdRead k) := by
  intro s v t h ht
  obtain ⟨hk, x, -, hx, -⟩ := hdRead_inv ht
  rw [hdRead_eq hk hx] at ht
  exact walkTree_keeps hP _ s v t h ht

end Read

theorem brReadBits_units (w : Byte) : Keeps UnitInv (brReadBits w) :=
  Keeps.ite (fun _ => Keeps.raise _) fun _ => parseBits_keeps unitInv_readClosed _ _

/-! ## The cache -/

theorem UnitInv.cache {s : State} (h : UnitInv s) {es : List Pixel} (hl : es.length ≤ s.config.cacheCapacity)
    (hn : es.Nodup) : UnitInv (s.setMtf es) := { h with mtf_len := hl, mtf_nodup := hn }

theorem mtfCheckAndInsert_units (p : Pixel) : Keeps UnitInv (mtfCheckAndInsert p) := by
  intro s a t h ht
  obtain ⟨r, hr, -⟩ := mtfCheckAndInsert_touch p h.mtf_len
  rw [hr] at ht
  cases ht
  exact h.cache (cacheTouch_length h.mtf_len p) (cacheTouch_nodup h.mtf_nodup p)

theorem mtfFetch_units (j : Nat) : Keeps UnitInv (mtfFetch j) := by
  intro s a t h ht
  by_cases hj : j < s.mtf.length
  · obtain ⟨p, pre, post, hm, rfl⟩ := split_at hj
    rw [mtfFetch_ok hm] at ht
    injection ht with ha ht
    subst ht
    have hp : (p :: (pre ++ post)).Perm s.mtf := by rw [hm]; exact moved_perm pre post p
    exact h.cache (by rw [hp.length_eq]; exact h.mtf_len) (hp.nodup_iff.mpr h.mtf_nodup)
  · rw [mtfFetch_range (by omega)] at ht
    cases ht

theorem mtfClear_units : Keeps UnitInv mtfClear :=
  Keeps.modify fun _ h => h.cache (by simp) List.nodup_nil

/-! ## The tree builder and the encoder -/

theorem checkClass_inv {k : Byte} {s t : State} {x : Unit} (h : checkClass k s = .ok x t) : classOk k ∧ t = s := by
  by_cases hk : k = sentinelId
  · rw [checkClass_range hk] at h; cases h
  · rw [checkClass_ok hk] at h; cases h; exact ⟨hk, rfl⟩

theorem classOk_toNat {k : Byte} (h : classOk k) : k.toNat ≤ 254 := by
  have h1 := k.isLt
  have h2 : k.toNat ≠ 255 := fun e => h (BitVec.eq_of_toNat_eq e)
  omega

/-- A count that HTB_COUNT adds 1 to does not wrap (42_huffman_tree_builder.md R180). -/
theorem UnitInv.count_ne {s : State} (h : UnitInv s) {k : Byte} (v : Byte)
    (ht : classTotal s.builder.freq k ≠ 2 ^ 32 - 1) : freqGet s.builder.freq k v + 1 ≠ 0 := by
  have hlt := h.freq_total k
  have hle := freqGet_le_total s.builder.freq k v
  intro e
  have := congrArg BitVec.toNat e
  rw [BitVec.toNat_add, show (1 : Word).toNat = 1 from rfl, show (0 : Word).toNat = 0 from rfl] at this
  omega

theorem UnitInv.count {s : State} (h : UnitInv s) {k : Byte} (v : Byte) (hk : classOk k)
    (ht : classTotal s.builder.freq k ≠ 2 ^ 32 - 1) : UnitInv (s.setBuilder { s.builder with
      freq := tableSet s.builder.freq (entryKey k v) (freqGet s.builder.freq k v + 1) }) := by
  have hlt : classTotal s.builder.freq k < 2 ^ 32 - 1 := by have := h.freq_total k; omega
  have hne := h.count_ne v ht
  exact { h with
    freq_wf := tableWf_set h.freq_wf _ _
    freq_pos := fun e he => by
      rcases mem_tableSet he with rfl | he
      · exact hne
      · exact h.freq_pos e he
    freq_class := fun e he => by
      rcases mem_tableSet he with rfl | he
      · simpa using classOk_toNat hk
      · exact h.freq_class e he
    freq_total := fun k' => by
      show classTotal (tableSet _ _ _) k' < _
      rw [classTotal_count h.freq_wf k v k' hlt]
      have := h.freq_total k'
      split
      · subst_vars; omega
      · omega
    tokbuf_ok := fun t ht => ⟨(h.tokbuf_ok t ht).1, by
      show freqGet (tableSet _ _ _) _ _ ≠ 0
      rw [freqGet_set]
      split
      · exact hne
      · exact (h.tokbuf_ok t ht).2⟩ }

theorem htbCount_units (k v : Byte) : Keeps UnitInv (htbCount k v) := by
  intro s a t h ht
  by_cases hk : k = sentinelId
  · unfold htbCount at ht
    rw [steps_bind_error (checkClass_range hk s)] at ht
    cases ht
  · by_cases hc : classTotal s.builder.freq k = 2 ^ 32 - 1
    · rw [htbCount_overflow v hk hc] at ht; cases ht
    · rw [htbCount_ok v hk hc] at ht
      cases ht
      exact h.count v hk hc

theorem putToken_units (k v : Byte) : Keeps UnitInv (putToken k v) := by
  intro s a t h ht
  by_cases hk : k = sentinelId
  · unfold putToken at ht
    rw [steps_bind_error (checkClass_range hk s)] at ht
    cases ht
  · by_cases hd : s.config.tokbufDepth = some s.tokbuf.length
    · rw [putToken_full v hk hd] at ht; cases ht
    · by_cases hc : classTotal s.builder.freq k = 2 ^ 32 - 1
      · rw [putToken_overflow v hk hd hc] at ht; cases ht
      · rw [putToken_ok v hk hd hc] at ht
        cases ht
        have hu := h.count v hk hc
        exact { hu with
          tokbuf_ok := fun x hx => by
            rcases List.mem_append.mp hx with hx | hx
            · exact hu.tokbuf_ok x hx
            · obtain rfl : x = ⟨k, v⟩ := by simpa using hx
              refine ⟨hk, ?_⟩
              show freqGet (tableSet _ _ _) _ _ ≠ 0
              rw [freqGet_set, if_pos ⟨rfl, rfl⟩]
              exact h.count_ne v hc
          tokbuf_depth := fun d hd' => by
            show (s.tokbuf ++ [_]).length ≤ d
            have hle := h.tokbuf_depth d hd'
            have hne : s.tokbuf.length ≠ d := by
              intro e
              apply hd
              have hd' : s.config.tokbufDepth = some d := hd'
              rw [hd', e]
            simp only [List.length_append, List.length_cons, List.length_nil]
            omega }

theorem emit_units (c : TokenClass) (v : Byte) : Keeps UnitInv (emit c v) := putToken_units _ _

theorem mem_tableErase {α : Type} {t : Table α} {k : Nat} {e : Nat × α} (h : e ∈ tableErase t k) : e ∈ t :=
  (List.mem_filter.mp h).1

theorem mem_tableDropClass {α : Type} {t : Table α} {k : Byte} {e : Nat × α} (h : e ∈ tableDropClass t k) : e ∈ t :=
  (List.mem_filter.mp h).1

theorem htbBuild_units (k : Byte) : Keeps UnitInv (htbBuild k) := by
  intro s a t h ht
  by_cases hk : k = sentinelId
  · unfold htbBuild at ht
    rw [steps_bind_error (checkClass_range hk s)] at ht
    cases ht
  · rw [htbBuild_ok hk] at ht
    cases ht
    have hb := (buildTree_row h.freq_wf k).1
    exact { h with
      etree_wf := by
        show tableWf (setEtree _ _ _)
        cases buildTree (tableRow s.builder.freq k) with
        | none => exact tableWf_erase h.etree_wf _
        | some x => exact tableWf_set h.etree_wf _ _
      etree_ok := fun e (he : e ∈ setEtree _ _ _) => by
        cases hx : buildTree (tableRow s.builder.freq k) with
        | none => rw [hx] at he; exact h.etree_ok e (mem_tableErase he)
        | some x =>
          rw [hx] at he
          rcases mem_tableSet he with rfl | he
          · exact ⟨classOk_toNat hk, (hb x hx).ok⟩
          · exact h.etree_ok e he
      code_wf := tableWf_dropClass h.code_wf _
      code_ok := fun e he => h.code_ok e (mem_tableDropClass he) }

/-- The codes of a tree, appended to a table of codes (42_huffman_tree_builder.md R185). -/
theorem deriveCodes_table (k : Byte) (t : CodeTree) : ∀ (pre : Bits) (c : Table Bits), tableWf c →
    tableWf (deriveCodes k t pre c) ∧ ∀ e ∈ deriveCodes k t pre c,
      e ∈ c ∨ (e.1 / 256 = k.toNat ∧ e.2.length ≤ pre.length + t.height) := by
  induction t with
  | leaf v =>
    intro pre c hc
    refine ⟨tableWf_set hc _ _, fun e he => ?_⟩
    rcases mem_tableSet he with rfl | he
    · exact .inr ⟨by simp, by simp⟩
    · exact .inl he
  | internal l r hl hr =>
    intro pre c hc
    obtain ⟨h1, h2⟩ := hl (pre ++ [false]) c hc
    obtain ⟨h3, h4⟩ := hr (pre ++ [true]) _ h1
    refine ⟨h3, fun e he => ?_⟩
    rcases h4 e he with he | ⟨e1, e2⟩
    · rcases h2 e he with he | ⟨e1, e2⟩
      · exact .inl he
      · refine .inr ⟨e1, ?_⟩
        simp only [List.length_append, List.length_cons, List.length_nil, CodeTree.height] at e2 ⊢
        omega
    · refine .inr ⟨e1, ?_⟩
      simp only [List.length_append, List.length_cons, List.length_nil, CodeTree.height] at e2 ⊢
      omega

theorem htbDerive_units (k : Byte) : Keeps UnitInv (htbDerive k) := by
  intro s a t h ht
  by_cases hk : k = sentinelId
  · unfold htbDerive at ht
    rw [steps_bind_error (checkClass_range hk s)] at ht
    cases ht
  · rw [htbDerive_ok hk] at ht
    cases ht
    have hw := tableWf_dropClass h.code_wf k
    cases hx : tableGet s.builder.etree k.toNat with
    | none =>
      have he : derivedCode s.builder k = tableDropClass s.builder.code k := by simp [derivedCode, hx]
      rw [he]
      exact { h with code_wf := hw, code_ok := fun e he => h.code_ok e (mem_tableDropClass he) }
    | some x =>
      have he : derivedCode s.builder k = deriveCodes k x [] (tableDropClass s.builder.code k) := by
        simp [derivedCode, hx]
      rw [he]
      obtain ⟨h1, h2⟩ := deriveCodes_table k x [] _ hw
      have hok : treeOk x := (h.etree_ok _ (mem_of_tableGet hx)).2
      have hh := CodeTree.height_le hok
      exact { h with
        code_wf := h1
        code_ok := fun e he => by
          rcases h2 e he with he | ⟨e1, e2⟩
          · exact h.code_ok e (mem_tableDropClass he)
          · have := classOk_toNat hk
            simp only [List.length_nil] at e2
            exact ⟨by omega, by omega⟩ }

theorem encodeToken_units (k v : Byte) : Keeps UnitInv (encodeToken k v) := by
  intro s a t h ht
  obtain ⟨_, u, hu, -⟩ := steps_bind_inv ht
  obtain ⟨hk, -⟩ := checkClass_inv hu
  cases hc : codeGet s.builder.code k v with
  | none => rw [encodeToken_noCode hk hc] at ht; cases ht
  | some c => rw [encodeToken_ok hk hc] at ht; exact putBits_units _ s a t h ht

theorem writeRecord_units (k : Byte) : Keeps UnitInv (writeRecord k) := by
  refine Keeps.get_bind fun s a t h ht => Keeps.ite (fun _ => ?_) (fun _ => Keeps.pure _) s a t h ht
  refine Keeps.bind (htbBuild_units k) fun _ => Keeps.bind (htbDerive_units k) fun _ =>
    Keeps.bind (writeBits_units _ _) fun _ => Keeps.get_bind fun s a t h ht => ?_
  cases hx : tableGet s.builder.etree k.toNat with
  | none => simp only [hx] at ht; cases ht; exact h
  | some x => simp only [hx, writeTree_eq] at ht; exact putBits_units _ s a t h ht

theorem writeRecords_units (n : Nat) : ∀ k, Keeps UnitInv (writeRecords n k) := by
  induction n with
  | zero => exact fun k => Keeps.pure _
  | succ n ih => exact fun k => Keeps.bind (writeRecord_units _) fun _ => ih _

theorem writeTable_units : Keeps UnitInv writeTable :=
  Keeps.bind (writeRecords_units _ _) fun _ => writeBits_units _ _

theorem encodeTokens_units (ts : List Token) : Keeps UnitInv (encodeTokens ts) := by
  induction ts with
  | nil => exact Keeps.pure _
  | cons t ts ih => exact Keeps.bind (encodeToken_units _ _) fun _ => ih

theorem writePayload_units : Keeps UnitInv writePayload :=
  Keeps.get_bind fun s a t h ht => encodeTokens_units _ s a t h ht

theorem finish_units : Keeps UnitInv finish :=
  Keeps.bind writeTable_units fun _ => Keeps.bind writePayload_units fun _ => bwFlush_units

/-! ## The decoder -/

theorem readRecords_units (n : Nat) : Keeps UnitInv (readRecords n) := by
  induction n with
  | zero => exact Keeps.raise _
  | succ n ih =>
    intro s a t h ht
    obtain ⟨x, u, hu, ht⟩ := steps_bind_inv ht
    have hU := parseItem_keeps unitInv_readClosed _ s x u h hu
    have hi := parseItem_inv (parseItem_tracks.inv hu).1
    cases x with
    | none => cases ht; exact { hU with }
    | some kt =>
      obtain ⟨-, hk, hok⟩ := hi
      refine ih _ a t ?_ ht
      exact { hU with
        dtree_wf := tableWf_set hU.dtree_wf _ _
        dtree_ok := fun e he => by
          rcases mem_tableSet he with rfl | he
          · exact ⟨classOk_toNat hk, hok⟩
          · exact hU.dtree_ok e he }

theorem readTable_units : Keeps UnitInv readTable :=
  Keeps.get_bind fun s a t h ht => readRecords_units _ s a t h ht

/-! ## The pixel codec -/

theorem UnitInv.start {s : State} (h : UnitInv s) (w h' : Half) : UnitInv (startImage w h' s) :=
  { h with
    mtf_len := by simp [startImage]
    mtf_nodup := by simp [startImage]
    image_i := by simp [startImage]
    run_le := by simp [startImage]
    linebuf_wf := by simp [startImage]
    linebuf_ok := by simp [startImage]
    out_wf := by simp [startImage]
    out_ok := by simp [startImage] }

theorem UnitInv.run {s : State} (h : UnitInv s) {e : PxEncoder} (hr : e.run.toNat ≤ s.image.i.toNat)
    (hl : e.linebuf = s.enc.linebuf) : UnitInv (s.setEnc e) :=
  { h with run_le := hr, linebuf_wf := hl ▸ h.linebuf_wf, linebuf_ok := fun x hx => h.linebuf_ok x (hl ▸ hx) }

theorem setPrior_units (p : Pixel) : Keeps UnitInv (setPrior p) := Keeps.modify fun _ h => h.run h.run_le rfl

theorem emitRunBytes_units (r : Word) (n : Nat) : Keeps UnitInv (emitRunBytes r n) := by
  induction n with
  | zero => exact Keeps.pure _
  | succ n ih => exact Keeps.bind (emit_units _ _) fun _ => ih

theorem runFlush_units (run : Word) : Keeps UnitInv (runFlush run) :=
  Keeps.bind (emit_units _ _) fun _ => Keeps.bind (emit_units _ _) fun _ => emitRunBytes_units _ _

theorem flushRun_units : Keeps UnitInv flushRun := by
  refine Keeps.get_bind fun s a t h ht => ?_
  split at ht
  · obtain ⟨_, u, h1, h2⟩ := steps_bind_inv ht
    have hu := runFlush_units _ s _ u h h1
    injection h2 with _ h2
    subst h2
    exact hu.run (Nat.zero_le _) rfl
  · cases ht; exact h

theorem encodeGroup_units (p up : Pixel) : Keeps UnitInv (encodeGroup p up) := by
  refine Keeps.bind (mtfCheckAndInsert_units p) fun pos => ?_
  match pos with
  | some 0 => exact Keeps.raise _
  | some (j + 1) => exact Keeps.bind (emit_units _ _) fun _ => Keeps.bind (emit_units _ _) fun _ => setPrior_units _
  | none =>
    refine Keeps.get_bind fun s a t h ht => ?_
    refine Keeps.bind (emit_units _ _) (fun _ => Keeps.bind ?_ fun _ => setPrior_units _) s a t h ht
    exact Keeps.bind (emit_units _ _) fun _ => Keeps.bind (emit_units _ _) fun _ => Keeps.bind (emit_units _ _) fun _ =>
      emit_units _ _

theorem column_lt {m : ImageState} (h : m.i.toNat < m.pixels) : m.column < m.w.toNat := by
  apply Nat.mod_lt
  rcases Nat.eq_zero_or_pos m.w.toNat with h0 | h0
  · rw [ImageState.pixels, h0, Nat.zero_mul] at h; omega
  · exact h0

theorem UnitInv.taken {s : State} (h : UnitInv s) (hi : s.image.i.toNat < s.image.pixels) (p : Pixel) :
    UnitInv (pixelTaken (encodeUpRead s).2 p) ∧
      (pixelTaken (encodeUpRead s).2 p).enc.run.toNat + 1 ≤ (pixelTaken (encodeUpRead s).2 p).image.i.toNat := by
  rw [pixelTaken_enc, pixelTaken_image]
  have hnext := next_index hi
  refine ⟨?_, by show s.enc.run.toNat + 1 ≤ (s.image.i + 1).toNat; have := h.run_le; omega⟩
  have hu : UnitInv (pixelTaken s p) := { h with
    image_i := by show (s.image.i + 1).toNat ≤ s.image.pixels; omega
    run_le := by show s.enc.run.toNat ≤ (s.image.i + 1).toNat; have := h.run_le; omega
    linebuf_wf := Memory.wf_write h.linebuf_wf _ _
    linebuf_ok := fun e he => by
      rcases mem_tableSet he with rfl | he
      · exact column_lt hi
      · exact h.linebuf_ok e he
    out_ok := fun e he => by
      show e.1 < (s.image.i + 1).toNat
      have := h.out_ok e he
      omega }
  rw [encodeUpRead_frame s]
  exact hu.of_eq rfl rfl rfl rfl rfl rfl rfl rfl rfl rfl

theorem checkImage_inv {s t : State} {x : Unit} (h : checkImage s = .ok x t) :
    t = s ∧ s.image.i.toNat < s.image.pixels := by
  by_cases hi : s.image.i.toNat < s.image.pixels
  · rw [checkImage_ok hi] at h; cases h; exact ⟨rfl, hi⟩
  · rw [checkImage_full (by omega)] at h; cases h

theorem encodePixel_units (p : Pixel) : Keeps UnitInv (encodePixel p) := by
  intro s a t h ht
  have hi : s.image.i.toNat < s.image.pixels := by
    obtain ⟨_, u, hu, -⟩ := steps_bind_inv ht
    exact (checkImage_inv hu).2
  rw [encodePixel_eq p hi] at ht
  obtain ⟨hu, hr⟩ := h.taken hi p
  unfold encodeCase at ht
  rw [steps_bind_ok (steps_get _)] at ht
  split at ht
  · cases ht
    refine hu.run ?_ rfl
    have h1 := (pixelTaken (encodeUpRead s).2 p).image.i.isLt
    show (_ + 1 : Word).toNat ≤ _
    rw [BitVec.toNat_add, show (1 : Word).toNat = 1 from rfl]
    omega
  · exact Keeps.bind flushRun_units (fun _ => encodeGroup_units _ _) _ a t hu ht

theorem UnitInv.colour {s : State} (h : UnitInv s) {d : PxDecoder} (hd : d.out = s.dec.out) : UnitInv (s.setDec d) :=
  { h with out_wf := hd ▸ h.out_wf, out_ok := fun x hx => h.out_ok x (hd ▸ hx) }

theorem readClass_units (c : TokenClass) : Keeps UnitInv (readClass c) := hdRead_keeps unitInv_readClosed _

theorem setColour_units (p : Pixel) : Keeps UnitInv (setColour p) := Keeps.modify fun _ h => h.colour rfl

theorem readDelta_units (ch : Channel) : Keeps UnitInv (readDelta ch) :=
  Keeps.bind (readClass_units _) fun _ => Keeps.modify fun _ h => h.colour rfl

theorem decodeDeltas_units : Keeps UnitInv decodeDeltas := by
  refine Keeps.bind (readDelta_units _) fun _ => Keeps.bind (readDelta_units _) fun _ =>
    Keeps.bind (readDelta_units _) fun _ => Keeps.bind (readDelta_units _) fun _ => Keeps.get_bind fun s a t h ht => ?_
  exact Keeps.bind (mtfCheckAndInsert_units _) (fun _ => Keeps.pure _) s a t h ht

theorem decodeUp_units : Keeps UnitInv decodeUp := by
  intro s a t h ht
  rw [decodeUp_eq] at ht
  cases ht
  rw [decodeUpRead_frame s]
  exact h.of_eq rfl rfl rfl rfl rfl rfl rfl rfl rfl rfl

theorem decodeLookup_units : Keeps UnitInv decodeLookup := by
  refine Keeps.bind (readClass_units _) fun v => Keeps.get_bind fun s a t h ht => ?_
  split at ht
  · cases ht
  · exact Keeps.bind (mtfFetch_units _) (fun _ => setColour_units _) s a t h ht

theorem readRunBytes_units (n : Nat) : ∀ r, Keeps UnitInv (readRunBytes n r) := by
  induction n with
  | zero => exact fun r => Keeps.pure _
  | succ n ih => exact fun r => Keeps.bind (readClass_units _) fun _ => ih _

theorem decodeRun_units : Keeps UnitInv decodeRun :=
  Keeps.bind (readClass_units _) fun _ => Keeps.ite (fun _ => Keeps.raise _) fun _ =>
    Keeps.bind (readRunBytes_units _ _) fun _ => Keeps.modify fun _ h => h.colour rfl

theorem decodeGroup_units : Keeps UnitInv decodeGroup := by
  refine Keeps.bind (readClass_units _) fun v => ?_
  split
  · exact Keeps.bind decodeUp_units fun _ => Keeps.bind (setColour_units _) fun _ => decodeDeltas_units
  · exact decodeDeltas_units
  · exact decodeLookup_units
  · exact decodeRun_units
  · exact Keeps.raise _

theorem decodeColour_units : Keeps UnitInv decodeColour := by
  refine Keeps.get_bind fun s a t h ht => ?_
  split at ht
  · cases ht; exact h.colour rfl
  · exact decodeGroup_units s a t h ht

theorem UnitInv.given {s : State} (h : UnitInv s) (hi : s.image.i.toNat < s.image.pixels) : UnitInv (pixelGiven s) := by
  have hnext := next_index hi
  exact { h with
    image_i := by show (s.image.i + 1).toNat ≤ s.image.pixels; omega
    run_le := by show s.enc.run.toNat ≤ (s.image.i + 1).toNat; have := h.run_le; omega
    out_wf := Memory.wf_write h.out_wf _ _
    out_ok := fun e he => by
      show e.1 < (s.image.i + 1).toNat
      rcases mem_tableSet he with rfl | he
      · show s.image.i.toNat < _; omega
      · have := h.out_ok e he
        omega }

theorem decodePixel_units : Keeps UnitInv decodePixel := by
  intro s a t h ht
  obtain ⟨hi, u, hu, hc, rfl, -⟩ := decodePixel_inv ht
  have himg : u.image = s.image := (coloured_iff.mp hc).2.2.2.2.2.1
  exact (decodeColour_units s () u h hu).given (by rw [himg]; exact hi)

/-! ## The top-level commands -/

theorem initState_units (s : State) : UnitInv (initState s) := by
  constructor <;> simp [State.reset, classTotal, tableRow, ImageState.pixels]

theorem encodePixels_units (n : Nat) : Keeps UnitInv (encodePixels n) := by
  induction n with
  | zero => exact Keeps.pure _
  | succ n ih =>
    refine Keeps.bind (fun s a t h ht => ?_) fun p => Keeps.bind (encodePixel_units p) fun _ => ih
    unfold pixelGet at ht
    split at ht <;> cases ht
    exact h.of_eq rfl rfl rfl rfl rfl rfl rfl rfl rfl rfl

theorem decodePixels_units (n : Nat) : Keeps UnitInv (decodePixels n) := by
  induction n with
  | zero => exact Keeps.pure _
  | succ n ih => exact Keeps.bind decodePixel_units fun _ => ih

theorem dimResult_units : Keeps UnitInv dimResult := Keeps.get_bind fun s a t h ht => by cases ht; exact h

/-- The units before the first pixel: no pixel has been taken, and LINEBUF holds none. -/
def BeforePixels (s : State) : Prop := UnitInv s ∧ s.image.i = 0 ∧ s.enc = ⟨zeroPixel, 0, []⟩ ∧ s.dec.out = []

theorem beforePixels_readClosed : ReadClosed BeforePixels := fun s b t h ht => by
  have hr := onlyRead_iff.mp (Within.tracked getBit_tracks s |>.1 b t ht)
  obtain ⟨-, -, -, -, -, -, h8, h9, h10, -⟩ := hr
  exact ⟨unitInv_readClosed s b t h.1 ht, by rw [h8]; exact h.2.1, by rw [h9]; exact h.2.2.1, by rw [h10]; exact h.2.2.2⟩

theorem BeforePixels.resize {s : State} (h : BeforePixels s) (m : ImageState) (hm : m.i = 0) :
    BeforePixels (s.setImage m) := by
  obtain ⟨hu, h1, h2, h3⟩ := h
  refine ⟨{ hu with image_i := ?_, run_le := ?_, linebuf_ok := ?_, out_ok := ?_ }, hm, h2, h3⟩
  · show m.i.toNat ≤ _; simp [hm]
  · show s.enc.run.toNat ≤ _; simp [h2]
  · show ∀ e ∈ s.enc.linebuf, _; simp [h2]
  · show ∀ e ∈ s.dec.out, _; simp [h3]

theorem initState_before (s : State) : BeforePixels (initState s) := ⟨initState_units s, rfl, rfl, rfl⟩

theorem readHeader_before : Keeps BeforePixels readHeader :=
  Keeps.bind (parseMagic_keeps beforePixels_readClosed _) fun _ =>
    Keeps.bind (parseHalf_keeps beforePixels_readClosed) fun _ =>
      Keeps.bind (Keeps.modify fun _ h => h.resize _ h.2.1) fun _ =>
        Keeps.bind (parseHalf_keeps beforePixels_readClosed) fun _ => Keeps.modify fun _ h => h.resize _ h.2.1

theorem writeBytes_units (bs : List Byte) : Keeps UnitInv (writeBytes bs) := by
  induction bs with
  | nil => exact Keeps.pure _
  | cons b bs ih => exact Keeps.bind (writeBits_units _ _) fun _ => ih

theorem writeHeader_units (w h : Half) : Keeps UnitInv (writeHeader w h) :=
  Keeps.bind (writeBytes_units _) fun _ => Keeps.bind (writeBits_units _ _) fun _ => writeBits_units _ _

theorem encodeRest_units (w h : Half) {s t : State} {x : Unit} (hs : BeforePixels s) (ht : encodeRest w h s = .ok x t) :
    UnitInv t := by
  have hu : UnitInv (loadHeight h (loadWidth w s)) :=
    ((hs.resize { s.image with w := w } hs.2.1).resize ⟨w, h, s.image.i⟩ hs.2.1).1
  exact Keeps.bind (writeHeader_units w h) (fun _ => Keeps.bind (Keeps.modify fun _ h' => h'.start w h) fun _ =>
    Keeps.bind (encodePixels_units _) fun _ => Keeps.bind flushRun_units fun _ => finish_units) _ x t hu ht

theorem decodeRest_units {s t : State} {x : Word} (hs : BeforePixels s) (ht : decodeRest s = .ok x t) : UnitInv t := by
  obtain ⟨_, u, h1, h2⟩ := steps_bind_inv ht
  refine Keeps.get_bind (fun s a t h ht => ?_) u x t (readHeader_before s _ u hs h1).1 h2
  exact Keeps.bind (Keeps.modify fun _ h' => h'.start _ _) (fun _ => Keeps.bind readTable_units fun _ =>
    Keeps.bind (decodePixels_units _) fun _ => dimResult_units) s a t h ht

theorem decodeHeaderRest_units {s t : State} {x : Word} (hs : BeforePixels s) (ht : decodeHeaderRest s = .ok x t) :
    UnitInv t := by
  obtain ⟨_, u, h1, h2⟩ := steps_bind_inv ht
  exact dimResult_units u x t (readHeader_before s _ u hs h1).1 h2

/-! ## Completion -/

theorem Keeps.noResult {P : State → Prop} {body : M Unit} (h : Keeps P body) : Keeps P (noResult body) :=
  Keeps.bind h fun _ => Keeps.pure _

theorem complete_units {r : EStateM.Result Cause State Word} {t : State} (h : ∀ x u, r = .ok x u → UnitInv u)
    (ht : complete r = t) (hf : t.failed = false) : UnitInv t := by
  subst ht
  cases r with
  | ok x u => exact (h x u rfl).of_eq rfl rfl rfl rfl rfl rfl rfl rfl rfl rfl
  | error c u =>
    have := failEntry_failed (s := u) c
    rw [complete] at hf
    rw [hf] at this
    cases this

/-- A unit command whose steps keep the units' invariants keeps them while the block is ready. -/
theorem runUnit_units {body : M Word} (hk : Keeps UnitInv body) {s t : State} (h : s.failed = false → UnitInv s)
    (ht : runUnit body s = .next t) (hf : t.failed = false) : UnitInv t := by
  rw [runUnit_eq] at ht
  injection ht with ht
  split at ht
  · subst ht
    rw [failEntry_failed] at hf
    cases hf
  · exact complete_units (fun x u hx => hk s x u (h (Bool.eq_false_iff.mpr ‹_›)) hx) ht hf

theorem runAlways_units {body : M Word} {s t : State} (hk : ∀ x u, body s = .ok x u → UnitInv u)
    (ht : runAlways body s = .next t) (hf : t.failed = false) : UnitInv t := by
  injection ht with ht
  exact complete_units hk ht hf

end Sys2Proof.Machine
end

