-- ==== Sys2Proof/Tests/Slice0.lean ====
section
/-! SUPPORT. Tests. The words, the results and the end states are those of 95_test_vectors.md (the vector or the program is
named), or are worked out from the rule named; then a witness for the hypotheses of each obligation. -/

namespace Sys2Proof.Tests

open Sys2Proof.Machine

/- Each test is elaborated before the next one: many kernel evaluations at once exhaust the threads. -/
set_option Elab.async false

/-! ## WellFormed: each check refuses an ill-formed term -/

/-- A right comb of `n` internal nodes, which has `2n + 1` nodes (V-ERR-13, V-ERR-14). -/
def comb : Nat → CodeTree
  | 0 => .leaf 255
  | n + 1 => .internal (.leaf 0) (comb n)

theorem test_wellFormed_class : WellFormed (.tableRecord 254 (.leaf 0)) = true ∧ WellFormed (.tableRecord 255 (.leaf 0)) = false := by
  decide

theorem test_wellFormed_record_size :
    WellFormed (.tableRecord 0 (comb 255)) = true ∧ WellFormed (.tableRecord 0 (comb 256)) = false := by decide +kernel

theorem test_wellFormed_tree_size :
    WellFormed (.treeInternal (.leaf 0) (comb 254)) = true ∧ WellFormed (.treeInternal (.leaf 0) (comb 255)) = false := by
  decide +kernel

theorem test_wellFormed_commands : WellFormed (.bwWriteBits 255 0) = true ∧ WellFormed (.htbCount 255 0) = true := by decide

/-! ## Decoding: one word of each command (30_encoding.md R118, R119), one bit string of each element (R90, R93) -/

theorem test_decode_bwWriteBit : decodeCommand 0x0000000000010001#64 = .ok (.bwWriteBit true) := by decide +kernel
theorem test_decode_bwWriteBits : decodeCommand 0x1234567800002002#64 = .ok (.bwWriteBits 32 0x12345678) := by decide +kernel
theorem test_decode_bwFlush : decodeCommand 0x0000000000000003#64 = .ok .bwFlush := by decide +kernel
theorem test_decode_brReadBit : decodeCommand 0x0000000000000008#64 = .ok .brReadBit := by decide +kernel
theorem test_decode_brReadBits : decodeCommand 0x0000000000000409#64 = .ok (.brReadBits 4) := by decide +kernel
theorem test_decode_mtfCheckAndInsert :
    decodeCommand 0x0A14000100000010#64 = .ok (.mtfCheckAndInsert ⟨10, 20, 0, 1⟩) := by decide +kernel
theorem test_decode_mtfFetch : decodeCommand 0x0000000000000211#64 = .ok (.mtfFetch 2) := by decide +kernel
theorem test_decode_mtfClear : decodeCommand 0x0000000000000012#64 = .ok .mtfClear := by decide +kernel
theorem test_decode_htbCount : decodeCommand 0x000000000007FE18#64 = .ok (.htbCount 254 7) := by decide +kernel
theorem test_decode_htbBuild : decodeCommand 0x000000000000FF19#64 = .ok (.htbBuild 255) := by decide +kernel
theorem test_decode_htbDerive : decodeCommand 0x000000000000071A#64 = .ok (.htbDerive 7) := by decide +kernel
theorem test_decode_hePutToken : decodeCommand 0x0000000000070820#64 = .ok (.hePutToken 8 7) := by decide +kernel
theorem test_decode_heEncodeToken : decodeCommand 0x000000000007FE21#64 = .ok (.heEncodeToken 254 7) := by decide +kernel
theorem test_decode_heWriteTable : decodeCommand 0x0000000000000022#64 = .ok .heWriteTable := by decide +kernel
theorem test_decode_heWritePayload : decodeCommand 0x0000000000000023#64 = .ok .heWritePayload := by decide +kernel
theorem test_decode_heFinish : decodeCommand 0x0000000000000024#64 = .ok .heFinish := by decide +kernel
theorem test_decode_hdReadTable : decodeCommand 0x0000000000000028#64 = .ok .hdReadTable := by decide +kernel
theorem test_decode_hdRead : decodeCommand 0x0000000000000829#64 = .ok (.hdRead 8) := by decide +kernel
theorem test_decode_pxSetDim : decodeCommand 0x0003000200000030#64 = .ok (.pxSetDim 3 2) := by decide +kernel
theorem test_decode_pxEncPixel : decodeCommand 0x0102030400000031#64 = .ok (.pxEncPixel ⟨1, 2, 3, 4⟩) := by decide +kernel
theorem test_decode_pxEncEnd : decodeCommand 0x0000000000000032#64 = .ok .pxEncEnd := by decide +kernel
theorem test_decode_pxDecPixel : decodeCommand 0x0000000000000033#64 = .ok .pxDecPixel := by decide +kernel
theorem test_decode_encode : decodeCommand 0x0002000100000038#64 = .ok (.encodeImage 2 1) := by decide +kernel
theorem test_decode_decode : decodeCommand 0x0000000000000039#64 = .ok .decodeImage := by decide +kernel
theorem test_decode_decodeHeader : decodeCommand 0x000000000000003A#64 = .ok .decodeHeader := by decide +kernel
theorem test_decode_statusRead : decodeCommand 0x000000000000003E#64 = .ok .statusRead := by decide +kernel
theorem test_decode_reset : decodeCommand 0x000000000000003F#64 = .ok .reset := by decide +kernel

/-- The words of V-ERR-9, V-ERR-10 and V-ERR-12 that are no command. -/
theorem test_decode_illegal : decodeCommand 0x0000000000000103#64 = .error .reservedField ∧
    decodeCommand 0x000000000100003F#64 = .error .reservedField ∧
    decodeCommand 0x0000000000020001#64 = .error .reservedField ∧
    decodeCommand 0x0000000000000004#64 = .error (.unknownOpcode 4) := by
  repeat' apply And.intro
  all_goals decide +kernel

/-- The header of V-BR-6: magic, W = 2, H = 3, and a byte that follows. -/
theorem test_decode_streamHeader :
    decodeElement .header (bitsOf [0x70, 0x69, 0x63, 0x63, 0x6F, 0x6D, 0x70, 0x00, 0x02, 0x00, 0x03, 0xAB]) =
      .ok (.streamHeader 2 3, binByte 0xAB) := by decide +kernel

/-- The TAG record of V-HE-4: `00000000 1 0 00000000 0 00000010`. -/
theorem test_decode_tableRecord :
    decodeElement .table [false, false, false, false, false, false, false, false, true,
      false, false, false, false, false, false, false, false, false,
      false, false, false, false, false, false, false, true, false] =
      .ok (.tableRecord 0 (.internal (.leaf 0) (.leaf 2)), []) := by decide +kernel

theorem test_decode_treeInternal :
    decodeElement .tree [true, false, false, false, false, false, false, false, false, true,
      false, true, false, false, false, false, false, false, true] =
      .ok (.treeInternal (.leaf 1) (.leaf 129), []) := by decide +kernel

theorem test_decode_treeLeaf :
    decodeElement .tree [false, false, false, false, false, false, true, false, true, true] = .ok (.treeLeaf 5, [true]) := by
  decide +kernel

theorem test_decode_tableSentinel :
    decodeElement .table [true, true, true, true, true, true, true, true, false] = .ok (.tableSentinel, [false]) := by
  decide +kernel

/-- V-ERR-14: a tree of 513 nodes. -/
theorem test_decode_large :
    decodeElement .table (binByte 0 ++ binTree (comb 256) ++ binByte 255) = .error .treeTooLarge := by decide +kernel

theorem test_decode_truncated : decodeElement .table [true, true, true] = .error .truncated ∧
    decodeElement .header (bitsOf [0x70, 0x69, 0x63, 0x63, 0x6F, 0x6D, 0x71]) = .error .badMagic := by
  apply And.intro <;> decide +kernel

/-! ## The rows of the opcode table -/

theorem test_row_command : decodeTableWord 64 0x0A14000100000010 = some (.mtfCheckAndInsert ⟨10, 20, 0, 1⟩) := by decide +kernel
theorem test_row_short_command : decodeTableWord 32 0x00000003 = some .bwFlush := by decide +kernel
theorem test_row_sentinel : decodeTableWord 8 255 = some .tableSentinel := by decide +kernel
theorem test_row_leaf : decodeTableWord 16 0x8002 = some (.treeLeaf 5) := by decide +kernel
theorem test_row_internal : decodeTableWord 8 0x80 = some (.treeInternal (.leaf 0) (.leaf 0)) := by decide +kernel
theorem test_row_record : decodeTableWord 24 0x000005 = some (.tableRecord 5 (.leaf 0)) := by decide +kernel
theorem test_row_header : decodeTableWord 88 0x03000200706D6F63636970 = some (.streamHeader 2 3) := by decide +kernel

/-- A row's word placed where the next step fetches it runs as the first instruction after reset. -/
theorem test_placed_command :
    step (State.reset.withFetchWord 64 0x0003000200000030) = exec (.pxSetDim 3 2) State.reset := by rfl

theorem test_placed_element : (match step (State.reset.withFetchWord 24 0x000005) with
    | .next t => tableGet t.decoder.dtree 5
    | .fault _ => none
    | .refused _ => none) = some (.leaf 0) := by decide +kernel

/-! ## One step of each instruction -/

/-- The state with one command word issued. -/
def issue (s : State) (w : BitVec 64) : State := s.setHost { s.host with issues := [.command w] }

/-- The state with one element of the stream issued. -/
def issueElement (s : State) (pos : StreamPos) : State := s.setHost { s.host with issues := [.element pos] }

/-- The state after one step. -/
def after (s : State) : State :=
  match step s with
  | .next t => t
  | .fault _ => s
  | .refused _ => s

/-- The block after reset with bytes at the byte source. -/
def withSource (bs : List Byte) : State := State.reset.setAgents { State.reset.agents with source := bs.map .byte }

/-- The block after reset with pixels at the pixel source. -/
def withPixels (ps : List Pixel) : State := State.reset.setAgents { State.reset.agents with pixels := ps.map .pixel }

/-- The block after reset with pixels in the cache. -/
def withCache (es : List Pixel) : State := State.reset.setMtf es

def pxA : Pixel := ⟨10, 0, 0, 0⟩
def pxB : Pixel := ⟨20, 0, 0, 0⟩
def pxC : Pixel := ⟨30, 0, 0, 0⟩
def pxD : Pixel := ⟨40, 0, 0, 0⟩

/-- The parameters with another capacity and depth. -/
def smallConfig : Config := ⟨3, some 4, by decide, by decide, by decide⟩

/-- The counts of class 0 of V-HTB-7: 0: 1, 1: 2, 2: 3, 3: 4. -/
def counted : State := State.reset.setBuilder ⟨[(0, 1), (1, 2), (2, 3), (3, 4)], [], []⟩

/-- V-BW-7, the second command. -/
theorem test_bwWriteBit : (after (issue (State.reset.setWriter ⟨0x2B, 7⟩) 0x10001)).agents.sink = [0x57] := by
  decide +kernel

/-- V-BW-3, the second command. -/
theorem test_bwWriteBits : (after (issue (State.reset.setWriter ⟨0, 7⟩) 0x1234567800002002)).agents.sink = [0, 0x24, 0x68, 0xAC] ∧
    (after (issue (State.reset.setWriter ⟨0, 7⟩) 0x1234567800002002)).writer = ⟨0x78, 7⟩ := by
  apply And.intro <;> decide +kernel

/-- V-BW-9: width 33. -/
theorem test_bwWriteBits_width : (after (issue State.reset 0x0000000100002102)).status = 0x000E0601 := by decide +kernel

/-- V-BW-2, the second command. -/
theorem test_bwFlush : (after (issue (State.reset.setWriter ⟨5, 3⟩) 0x3)).agents.sink = [0xA0] := by decide +kernel

/-- V-BW-11: the sink fails. -/
theorem test_bwWriteBit_sink : (after (issue ((State.reset.setWriter ⟨0x7F, 7⟩).setAgents ⟨[.ioerr], [], [], []⟩) 0x10001)).status =
    0x00010101 := by decide +kernel

/-- V-BR-3. -/
theorem test_brReadBit : (after (issue (withSource [0xA0]) 0x8)).host.responses = [.ok 1] := by decide +kernel

/-- V-BR-1, the first command: all five bytes are at hand and four are taken. -/
theorem test_brReadBits : (after (issue (withSource [0xDE, 0xAD, 0xBE, 0xEF, 0xA5]) 0x2009)).host.responses = [.ok 0xDEADBEEF] ∧
    (after (issue (withSource [0xDE, 0xAD, 0xBE, 0xEF, 0xA5]) 0x2009)).agents.source = [.byte 0xA5] := by
  apply And.intro <;> decide +kernel

/-- V-BR-5: the source fails. -/
theorem test_brReadBits_source : (after (issue (State.reset.setAgents ⟨[], [], [.byte 0xFF, .ioerr], []⟩) 0xC09)).status =
    0x00020101 := by decide +kernel

/-- V-MTF-2. -/
theorem test_mtfCheckAndInsert : (after (issue (withCache [pxA, pxB, pxC]) 0x1E00000000000010)).mtf = [pxC, pxA, pxB] ∧
    (after (issue (withCache [pxA, pxB, pxC]) 0x1E00000000000010)).host.responses = [.ok 2] := by
  apply And.intro <;> decide +kernel

/-- V-MTF-7: at capacity 3 the oldest pixel is evicted. -/
theorem test_mtfCheckAndInsert_evicts :
    (after (issue { withCache [pxC, pxB, pxA] with config := smallConfig } 0x2800000000000010)).mtf = [pxD, pxC, pxB] := by
  decide +kernel

/-- V-MTF-4. -/
theorem test_mtfFetch : (after (issue (withCache [pxD, pxC, pxA, pxB]) 0x211)).mtf = [pxA, pxD, pxC, pxB] ∧
    (after (issue (withCache [pxD, pxC, pxA, pxB]) 0x211)).host.responses = [.ok 0x0A000000] := by
  apply And.intro <;> decide +kernel

/-- V-MTF-9. -/
theorem test_mtfFetch_range : (after (issue (withCache [pxA, pxD, pxC, pxB]) 0x411)).status = 0x00110601 := by decide +kernel

/-- V-MTF-10. -/
theorem test_mtfClear : (after (issue (withCache [pxA]) 0x12)).mtfLen = 0 := by decide +kernel

/-- V-HTB-11, the first command. -/
theorem test_htbCount : freqGet (after (issue State.reset 0x7FE18)).builder.freq 254 7 = 1 := by decide +kernel

/-- V-HTB-7. -/
theorem test_htbBuild : tableGet (after (issue counted 0x19)).builder.etree 0 =
    some (.internal (.leaf 3) (.internal (.leaf 2) (.internal (.leaf 0) (.leaf 1)))) := by decide +kernel

/-- V-HTB-1. -/
theorem test_htbBuild_tie : tableGet (after (issue (State.reset.setBuilder ⟨[(5, 1), (6, 1), (7, 2)], [], []⟩) 0x19)).builder.etree 0 =
    some (.internal (.leaf 7) (.internal (.leaf 5) (.leaf 6))) := by decide +kernel

/-- The state of V-HTB-7 with its tree built. -/
def builtTree : CodeTree := .internal (.leaf 3) (.internal (.leaf 2) (.internal (.leaf 0) (.leaf 1)))

/-- V-HTB-7. -/
theorem test_htbDerive : (after (issue (State.reset.setBuilder ⟨[], [(0, builtTree)], []⟩) 0x1A)).builder.code =
    [(0, [true, true, false]), (1, [true, true, true]), (2, [true, false]), (3, [false])] := by decide +kernel

/-- V-HE-1, the first command. -/
theorem test_hePutToken : (after (issue State.reset 0x20020)).tokbuf = [⟨0, 2⟩] ∧
    freqGet (after (issue State.reset 0x20020)).builder.freq 0 2 = 1 := by apply And.intro <;> decide +kernel

/-- V-HE-5: TOKBUF_DEPTH = 4. -/
theorem test_hePutToken_full : (after (issue
    { State.reset with config := smallConfig, tokbuf := List.replicate 4 ⟨0, 2⟩ } 0x20020)).status = 0x000A0501 := by
  decide +kernel

/-- V-HTB-7: the code of 1 is `111`. -/
theorem test_heEncodeToken : (after (issue (State.reset.setBuilder ⟨[], [], [(1, [true, true, true])]⟩) 0x10021)).writer = ⟨7, 3⟩ := by
  decide +kernel

/-- V-HE-3. -/
theorem test_heEncodeToken_noCode : (after (issue State.reset 0x21)).status = 0x00100601 := by decide +kernel

/-- The block with the tokens of V-HE-4 buffered. -/
def buffered : State :=
  (State.reset.setBuilder ⟨[(0, 1), (2, 2), (1799, 1)], [], []⟩).setTokbuf [⟨0, 2⟩, ⟨0, 2⟩, ⟨0, 0⟩, ⟨7, 7⟩]

/-- V-HE-4: the table is 52 bits, six bytes and four pending bits. -/
theorem test_heWriteTable : (after (issue buffered 0x22)).agents.sink = [0x00, 0x80, 0x00, 0x40, 0xE0, 0x7F] ∧
    (after (issue buffered 0x22)).writer = ⟨15, 4⟩ := by apply And.intro <;> decide +kernel

/-- V-HE-4: with the codes 0 `0`, 2 `1` and an empty one, the payload is `110`. -/
theorem test_heWritePayload : (after (issue (buffered.setBuilder
    ⟨[], [], [(0, [false]), (2, [true]), (1799, [])]⟩) 0x23)).writer = ⟨6, 3⟩ := by decide +kernel

/-- V-HE-4. -/
theorem test_heFinish : (after (issue buffered 0x24)).agents.sink = [0x00, 0x80, 0x00, 0x40, 0xE0, 0x7F, 0xFC] := by
  decide +kernel

/-- V-HD-4: 25 bits consumed, four bytes taken. -/
theorem test_hdReadTable : (after (issue (withSource [0x00, 0x01, 0x7F, 0x80]) 0x28)).decoder = ⟨[(0, .leaf 2)], true⟩ ∧
    (after (issue (withSource [0x00, 0x01, 0x7F, 0x80]) 0x28)).reader.n = 7 := by apply And.intro <;> decide +kernel

/-- V-HD-5: the last bit of the sentinel is missing. -/
theorem test_hdReadTable_eos : (after (issue (withSource [0x00, 0x01, 0x7F]) 0x28)).status = 0x00080301 := by decide +kernel

/-- V-HD-1: the tree Internal(Leaf 0, Leaf 2) and the pending bits `110`, `0`. -/
theorem test_hdRead : (after (issue ((State.reset.setDecoder ⟨[(0, .internal (.leaf 0) (.leaf 2))], true⟩).setReader ⟨0xFC, 4⟩)
    0x29)).host.responses = [.ok 2] := by decide +kernel

/-- V-HD-2. -/
theorem test_hdRead_absent : (after (issue (withSource [0]) 0x29)).status = 0x00060201 := by decide +kernel

/-- P4, command 11. -/
theorem test_pxSetDim : (after (issue (withCache [pxA]) 0x0003000200000030)).image = ⟨3, 2, 0⟩ ∧
    (after (issue (withCache [pxA]) 0x0003000200000030)).mtf = [] := by apply And.intro <;> decide +kernel

/-- P4, command 15: the tie of the predictor gives DELTA. -/
theorem test_pxEncPixel : (after (issue (((State.reset.setImage ⟨3, 2, 3⟩).setEnc
    ⟨pxA, 0, [(0, pxA), (1, pxB), (2, pxA)]⟩).setMtf [pxA, pxB]) 0x1400000100000031)).tokbuf =
    [⟨0, 2⟩, ⟨7, 10⟩, ⟨8, 0⟩, ⟨9, 0⟩, ⟨10, 1⟩] := by decide +kernel

/-- P4, command 17: the run of one is flushed before the LOOKUP group. -/
theorem test_pxEncPixel_run : (after (issue (((State.reset.setImage ⟨3, 2, 5⟩).setEnc
    ⟨⟨20, 0, 0, 1⟩, 1, [(2, pxA)]⟩).setMtf [⟨20, 0, 0, 1⟩, pxA, pxB]) 0x1400000000000031)).tokbuf =
    [⟨0, 0⟩, ⟨1, 0⟩, ⟨0, 1⟩, ⟨6, 1⟩] := by decide +kernel

/-- V-PX-5: `TAG:RUN BYTECOUNT:1 RUNBYTE0:1`. -/
theorem test_pxEncEnd : (after (issue (State.reset.setEnc ⟨zeroPixel, 2, []⟩) 0x32)).tokbuf = [⟨0, 0⟩, ⟨1, 1⟩, ⟨2, 1⟩] := by
  decide +kernel

/-- V-PXD-6: the run value 5 with a tree of one leaf for each class. -/
theorem test_pxDecPixel : (after (issue ((State.reset.setImage ⟨1, 1, 0⟩).setDecoder
    ⟨[(0, .leaf 0), (1, .leaf 1), (2, .leaf 5)], true⟩) 0x33)).dec = ⟨zeroPixel, 5, [(0, zeroPixel)]⟩ := by decide +kernel

/-- V-PXD-1: the tag 4. -/
theorem test_pxDecPixel_tag : (after (issue ((State.reset.setImage ⟨1, 1, 0⟩).setDecoder ⟨[(0, .leaf 4)], true⟩) 0x33)).status =
    0x00050201 := by decide +kernel

/-- V-PX-1. -/
theorem test_encode : (after (issue (withPixels [⟨0, 0, 0, 255⟩, ⟨0, 0, 0, 255⟩, ⟨10, 10, 10, 255⟩, ⟨10, 10, 10, 255⟩])
    0x0002000200000038)).agents.sink =
    [0x70, 0x69, 0x63, 0x63, 0x6F, 0x6D, 0x70, 0x00, 0x02, 0x00, 0x02, 0x00, 0x80, 0x00, 0x40, 0x20, 0x00, 0x78, 0x00, 0x14,
      0x11, 0x00, 0x02, 0x82, 0x60, 0x00, 0x50, 0x54, 0x00, 0xFF, 0xFF, 0x8B, 0xC0] := by decide +kernel

/-- V-TOP-5: the second pixel is missing. -/
theorem test_encode_missing : (after (issue (withPixels [⟨1, 2, 3, 4⟩]) 0x0002000100000038)).status = 0x00090401 := by
  decide +kernel

/-- V-RT-4, which has DELTA and LOOKUP groups. -/
theorem test_decode : (after (issue (withSource [0x70, 0x69, 0x63, 0x63, 0x6F, 0x6D, 0x70, 0x00, 0x03, 0x00, 0x01, 0x00, 0x80,
    0x40, 0x40, 0xC0, 0x00, 0x70, 0x08, 0x40, 0x04, 0x24, 0x02, 0x14, 0x01, 0xFF, 0xC0]) 0x39)).dec.out =
    [(0, ⟨1, 1, 1, 1⟩), (1, ⟨2, 2, 2, 2⟩), (2, ⟨1, 1, 1, 1⟩)] := by decide +kernel

/-- V-ERR-5. -/
theorem test_decode_magic : (after (issue (withSource [0x70, 0x69, 0x63, 0x63, 0x6F, 0x6D, 0x71, 0, 0, 0, 0, 0xFF]) 0x39)).status =
    0x00040201 := by decide +kernel

/-- V-BR-6. -/
theorem test_decodeHeader : (after (issue (withSource [0x70, 0x69, 0x63, 0x63, 0x6F, 0x6D, 0x70, 0x00, 0x02, 0x00, 0x03, 0xAB])
    0x3A)).host.responses = [.ok 0x00020003] ∧
    (after (issue (withSource [0x70, 0x69, 0x63, 0x63, 0x6F, 0x6D, 0x70, 0x00, 0x02, 0x00, 0x03, 0xAB]) 0x3A)).agents.source =
      [.byte 0xAB] := by apply And.intro <;> decide +kernel

/-- V-ERR-9. -/
theorem test_illegal : (after (issue State.reset 0x103)).status = 0x000D0601 := by decide +kernel

/-- V-ERR-10: an illegal command is reported in the failed state, and STATUS keeps the first failure. -/
theorem test_illegal_failed : (after (issue (State.reset.setStatus 0x00080301) 0x20001)).host.responses =
    [.err .usage .illegalCommand] ∧ (after (issue (State.reset.setStatus 0x00080301) 0x20001)).status = 0x00080301 := by
  apply And.intro <;> decide +kernel

/-- P1, command 9 of the reader. -/
theorem test_statusRead : (after (issue (State.reset.setStatus 0x00080301) 0x3E)).host.responses = [.ok 0x00080301] := by
  decide +kernel

/-- P1, commands 10 and 13 of the reader. -/
theorem test_reset : (after (issue (State.reset.setStatus 0x00080301) 0x2109)).host.responses = [.err .usage .failedState] ∧
    (after (issue ((withCache [pxA]).setStatus 0x00080301) 0x3F)).status = 0 := by apply And.intro <;> decide +kernel

/-- R279, R90. -/
theorem test_streamHeader : (after (issueElement (withSource [0x70, 0x69, 0x63, 0x63, 0x6F, 0x6D, 0x70, 0x00, 0x02, 0x00, 0x03])
    .header)).image = ⟨2, 3, 0⟩ := by decide +kernel

/-- R220: class 0, Leaf 2 (V-HE-1). -/
theorem test_tableRecord : (after (issueElement (withSource [0x00, 0x01, 0x00]) .table)).decoder = ⟨[(0, .leaf 2)], false⟩ := by
  decide +kernel

/-- R220. -/
theorem test_tableSentinel : (after (issueElement (withSource [0xFF]) .table)).decoder = ⟨[], true⟩ := by decide +kernel

/-- R221: `1 0 00000001 0 10000001`. -/
theorem test_treeInternal : (after (issueElement (withSource [0x80, 0x50, 0x20]) .tree)).treeOut =
    some (.internal (.leaf 1) (.leaf 129)) := by decide +kernel

/-- R221: `0 00000101`. -/
theorem test_treeLeaf : (after (issueElement (withSource [0x02, 0x80]) .tree)).treeOut = some (.leaf 5) := by decide +kernel

theorem test_reset_memory : Memory.wf State.reset.enc.linebuf ∧ Memory.wf State.reset.dec.out := by decide


/-! ## Witnesses: a state and operands that meet all the hypotheses of each obligation

`ran i s` is the state after the instruction, so that a hypothesis `exec i s = .next t` is met by definition. -/

/-- The state after an instruction. -/
def ran (i : Instr) (s : State) : State :=
  match exec i s with
  | .next t => t
  | .fault _ => s
  | .refused _ => s

/-- What instructions one after the other leave, from what is evaluated of it. -/
theorem runAll_of {α : Type} {f : State → α} {is : List Instr} {s : State} {a : α} (h : (runAll is s).map f = some a) :
    ∃ t, runAll is s = some t ∧ f t = a := Option.map_eq_some_iff.mp h

/-- The block after reset in the failed state. -/
def failedBlock : State := State.reset.setStatus 0x00080301

theorem witness_illegalCommand_field : (issue State.reset 0x103).host.issues = [.command 0x103] ∧
    ∀ i, encode i ≠ .command 0x103 := by
  refine ⟨rfl, fun i h => ?_⟩
  have h' := congrArg (fun c => match c with
    | .command w => (fieldOp w, fieldA w)
    | .element _ _ => (0, 0)) h
  cases i <;> simp [encode] at h' <;> first | exact absurd h'.1 (by decide) | exact absurd h'.2 (by decide)

theorem witness_illegalCommand_opcode : (issue failedBlock 4).host.issues = [.command 4] ∧ ∀ i, encode i ≠ .command 4 := by
  refine ⟨rfl, fun i h => ?_⟩
  have h' := congrArg (fun c => match c with
    | .command w => fieldOp w
    | .element _ _ => 0) h
  cases i <;> simp [encode] at h' <;> revert h' <;> decide

theorem witness_decodeOfEncode : WellFormed (.tableRecord 254 (comb 255)) = true ∧
    encode (.tableRecord 254 (comb 255)) = .element .table (binByte 254 ++ binTree (comb 255)) :=
  ⟨by decide +kernel, rfl⟩

theorem witness_encodeOfDecoded : decodeCommand 0x3F = .ok .reset ∧
    decodeElement .table (binByte 0xFF ++ [true]) = .ok (.tableSentinel, [true]) := by
  apply And.intro <;> decide +kernel

theorem witness_stepRunsDecodedCommand : (issue State.reset 0x3F).host.issues = .command 0x3F :: [] ∧
    decodeCommand 0x3F = .ok .reset ∧ State.reset.host.issues = [] := ⟨rfl, by decide +kernel, rfl⟩

theorem witness_stepRunsDecodedElement_failed :
    (issueElement failedBlock .table).host.issues = .element .table :: [] ∧ (issueElement failedBlock .table).failed = true :=
  ⟨rfl, by decide⟩

theorem witness_stepRunsDecodedElement_ok : (issueElement (withSource [0xFF]) .table).failed = false ∧
    decodeElement .table (streamIn (issueElement (withSource [0xFF]) .table)) = .ok (.tableSentinel, []) := by
  apply And.intro <;> decide +kernel

theorem witness_stepRunsDecodedElement_error : (issueElement State.reset .table).failed = false ∧
    decodeElement .table (streamIn (issueElement State.reset .table)) = .error .truncated := by
  apply And.intro <;> decide +kernel

theorem witness_failedStateRefuses : isElement .bwFlush = false ∧ runsFailed .bwFlush = false ∧ failedBlock.failed = true := by
  decide

theorem witness_responseAndStatus_ok : isElement .bwFlush = false ∧ exec .bwFlush State.reset = .next (ran .bwFlush State.reset) ∧
    (ran .bwFlush State.reset).host.responses = [.ok 0] := ⟨rfl, rfl, by decide +kernel⟩

theorem witness_responseAndStatus_err : isElement (.hdRead 0) = false ∧
    exec (.hdRead 0) failedBlock = .next (ran (.hdRead 0) failedBlock) ∧
    (ran (.hdRead 0) failedBlock).host.responses = [.err .usage .failedState] := ⟨rfl, rfl, by decide +kernel⟩

theorem witness_causesOfCommands : isElement (.hdRead 0) = false ∧ (∀ w h, Instr.hdRead 0 ≠ .encodeImage w h) ∧
    (∀ x ∈ State.reset.tokbuf, x.k ≠ sentinelId) ∧ exec (.hdRead 0) State.reset = .next (ran (.hdRead 0) State.reset) ∧
    (ran (.hdRead 0) State.reset).host.responses = State.reset.host.responses ++ [.err .format .classNotFound] :=
  ⟨rfl, fun _ _ => by simp, by simp [State.reset], rfl, by decide +kernel⟩

theorem witness_configurationIsFixed : step (issue State.reset 0x3F) = .next (after (issue State.reset 0x3F)) := rfl

/-- A state with a command issued that meets the invariant: it is reset's with the pending bit `1` and one pixel cached. -/
def pendingBlock : State := issue ((withCache [pxA]).setWriter ⟨1, 1⟩) 0x3

theorem witness_stepKeepsInvariant : Inv pendingBlock ∧ step pendingBlock = .next (after pendingBlock) := by
  refine ⟨⟨?_, .inl rfl, fun _ => ?_⟩, rfl⟩
  · intro x hx
    exact ⟨0x3, by simpa [pendingBlock, issue] using hx⟩
  · constructor <;> simp [pendingBlock, issue, withCache, State.reset, Config.vectors, classTotal, tableRow, ImageState.pixels]

/-- A ready block with seven pending bits. -/
def sevenBits : State := State.reset.setWriter ⟨0x7F, 7⟩

theorem witness_writeBitsResult : sevenBits.failed = false ∧ WriterReady sevenBits ∧ SinkReady sevenBits ∧
    sevenBits.writer.acc.toNat < 2 ^ sevenBits.writer.n ∧ (32 : Byte).toNat ≤ 32 ∧ (0 : Byte).toNat ≤ 32 :=
  ⟨rfl, by simp [WriterReady, sevenBits], by simp [SinkReady, sevenBits, State.reset], by decide, by decide, by decide⟩

theorem witness_writeBitsSinkFailure : ∃ (s : State) (rest : List SinkAnswer), s.failed = false ∧ WriterReady s ∧
    (32 : Byte).toNat ≤ 32 ∧ s.agents.sinkAnswers = List.replicate 3 .ok ++ .ioerr :: rest ∧
    8 * (3 + 1) ≤ s.writer.n + (32 : Byte).toNat :=
  ⟨State.reset.setAgents ⟨[.ok, .ok, .ok, .ioerr], [], [], []⟩, [], rfl, by simp [WriterReady, State.reset], by decide, rfl, by decide⟩

theorem witness_flushResult : sevenBits.failed = false ∧ WriterReady sevenBits ∧ SinkReady sevenBits ∧ 0 < sevenBits.writer.n ∧
    State.reset.failed = false ∧ WriterReady State.reset ∧ State.reset.writer.n = 0 :=
  ⟨rfl, by simp [WriterReady, sevenBits], by simp [SinkReady, sevenBits, State.reset], by decide, rfl,
    by simp [WriterReady, State.reset], rfl⟩

theorem witness_flushResult_sink : ∃ s : State, s.failed = false ∧ WriterReady s ∧ 0 < s.writer.n ∧
    s.agents.sinkAnswers = .ioerr :: [] :=
  ⟨(State.reset.setWriter ⟨1, 1⟩).setAgents ⟨[.ioerr], [], [], []⟩, rfl, by simp [WriterReady], by decide, rfl⟩

/-- A ready block with one unconsumed bit `1` and four bytes at the source. -/
def fourBytes : State := (withSource [0xDE, 0xAD, 0xBE, 0xEF]).setReader ⟨1, 1⟩

theorem witness_readBitsResult : fourBytes.failed = false ∧ fourBytes.reader.n ≤ 8 ∧
    streamIn fourBytes = true :: bitsOf [0xDE, 0xAD, 0xBE, 0xEF] ∧ (32 : Byte).toNat ≤ 32 ∧
    ((streamIn fourBytes).take 32).length = (32 : Byte).toNat ∧ ([] : Bits).length = (0 : Byte).toNat := by
  repeat' apply And.intro
  all_goals decide +kernel

theorem witness_readBitsResult_full : ∃ s : State, s.failed = false ∧ s.reader.n = 8 ∧ streamIn s = binByte 0xA5 ++ [] :=
  ⟨State.reset.setReader ⟨0xA5, 8⟩, rfl, rfl, by decide +kernel⟩

theorem witness_readPastTheEnd : State.reset.failed = false ∧ streamIn State.reset = [] ∧ (1 : Byte).toNat ≤ 32 ∧
    (streamIn State.reset).length < (1 : Byte).toNat ∧ fourBytes.failed = false ∧
    (streamIn (fourBytes.setReader ⟨0, 0⟩)).length = 32 := by
  repeat' apply And.intro
  all_goals decide +kernel

theorem witness_bitRoundTrip : (∀ f ∈ [BitField.bit true, .bits 32 0xDEADBEEF, .bits 0 1], f.width ≤ 32) ∧
    State.reset.failed = false ∧ SinkReady State.reset ∧ State.reset.writer.n = 0 ∧
    (withSource [0xEF, 0x56, 0xDF, 0x77, 0x80]).failed = false ∧ (withSource [0xEF, 0x56, 0xDF, 0x77, 0x80]).reader.n = 0 ∧
    ∃ t, runAll ([BitField.bit true, .bits 32 0xDEADBEEF, .bits 0 1].map BitField.write ++ [.bwFlush]) State.reset = some t ∧
      t.agents.sink = State.reset.agents.sink ++ [0xEF, 0x56, 0xDF, 0x77, 0x80] :=
  ⟨by decide, rfl, by simp [SinkReady, State.reset], rfl, rfl, rfl, runAll_of (by decide +kernel)⟩

theorem witness_checkAndInsert : (withCache [pxA, pxB, pxC]).failed = false ∧
    (withCache [pxA, pxB, pxC]).mtf = [pxA, pxB] ++ pxC :: [] ∧ pxC ∉ [pxA, pxB] ∧ pxD ∉ (withCache [pxA, pxB, pxC]).mtf ∧
    (withCache [pxA, pxB, pxC]).mtfLen ≤ (withCache [pxA, pxB, pxC]).config.cacheCapacity := by
  repeat' apply And.intro
  all_goals decide +kernel

/-- A cache that is full at capacity 3. -/
def fullCache : State := { withCache [pxA, pxB, pxC] with config := smallConfig }

theorem witness_checkAndInsert_full : fullCache.failed = false ∧ pxD ∉ fullCache.mtf ∧
    fullCache.mtfLen = fullCache.config.cacheCapacity := by decide

theorem witness_fetchAndClear : (withCache [pxA, pxB]).failed = false ∧ (withCache [pxA, pxB]).mtf = [pxA] ++ pxB :: [] ∧
    [pxA].length = (1 : Byte).toNat ∧ (withCache [pxA, pxB]).mtf = [] ++ pxA :: [pxB] ∧ ([] : List Pixel).length = (0 : Byte).toNat := by
  decide

theorem witness_cachesAgree : (withCache [pxA, pxB]).failed = false ∧ (withCache [pxA, pxB]).mtf.Nodup ∧
    (withCache [pxA, pxB]).mtf[(1 : Byte).toNat]? = some pxB ∧ fullCache.failed = false ∧ fullCache.config = fullCache.config ∧
    pxD ∉ fullCache.mtf := by decide

/-- The empty cache at capacity 3. -/
def emptyCache : State := { State.reset with config := smallConfig }

theorem witness_cacheEviction : emptyCache.failed = false ∧ emptyCache.mtf.Nodup ∧ emptyCache.mtfLen ≤ emptyCache.config.cacheCapacity ∧
    [pxB, pxC, pxD].Nodup ∧ pxA ∉ [pxB, pxC, pxD] ∧ [pxB, pxC, pxD].length = emptyCache.config.cacheCapacity ∧
    ∃ t, runAll ([pxA, pxB, pxC, pxD].map .mtfCheckAndInsert) emptyCache = some t ∧
      t.host.responses = emptyCache.host.responses ++ .ok 0xFFFFFFFF#32 :: List.replicate 3 (.ok 0xFFFFFFFF#32) :=
  ⟨rfl, by decide, by decide, by decide, by decide, rfl, runAll_of (by decide +kernel)⟩

theorem witness_cacheEviction_held : [pxB, pxC].Nodup ∧ pxA ∉ [pxB, pxC] ∧
    [pxB, pxC].length + 1 = emptyCache.config.cacheCapacity ∧
    ∃ t, runAll ([pxA, pxB, pxC].map .mtfCheckAndInsert) emptyCache = some t ∧
      t.host.responses = emptyCache.host.responses ++ .ok 0xFFFFFFFF#32 :: List.replicate 2 (.ok 0xFFFFFFFF#32) :=
  ⟨by decide, by decide, rfl, runAll_of (by decide +kernel)⟩

/-- The counts of class 0 of which the total can rise once more. -/
def nearlyFull : State := State.reset.setBuilder ⟨[(5, 0xFFFFFFFE)], [], []⟩

theorem witness_count : nearlyFull.failed = false ∧ classOk 0 ∧ classTotal nearlyFull.builder.freq 0 = 2 ^ 32 - 2 := by
  decide +kernel

theorem witness_build : counted.failed = false ∧ classOk 0 ∧ classOk 254 ∧ tableWf counted.builder.freq := by decide +kernel

theorem witness_builtTreeShape : IsBuiltTree (fun v => if v = 9 then 1 else 0) (.leaf 9) := by
  have h : firstList (fun v => if v = 9 then 1 else 0) = [⟨1, 0, .leaf 9⟩] := by decide +kernel
  rw [IsBuiltTree, h]
  exact .root 1 ⟨1, 0, .leaf 9⟩

/-- The block with the tree of V-HTB-7 in class 0. -/
def withTree : State := State.reset.setBuilder ⟨[], [(0, builtTree)], []⟩

theorem witness_derive : withTree.failed = false ∧ classOk 0 ∧ tableGet withTree.builder.etree (0 : Byte).toNat = some builtTree ∧
    builtTree.values.Nodup ∧ 2 ≤ builtTree.leaves ∧ exec (.htbDerive 0) withTree = .next (ran (.htbDerive 0) withTree) ∧
    codeGet (ran (.htbDerive 0) withTree).builder.code 0 1 = some [true, true, true] :=
  ⟨rfl, by decide, rfl, by decide, by decide, rfl, by decide +kernel⟩

theorem witness_putToken : emptyCache.failed = false ∧ classOk 254 ∧
    emptyCache.config.tokbufDepth ≠ some emptyCache.tokbuf.length ∧ classTotal emptyCache.builder.freq 254 < 2 ^ 32 - 1 := by
  decide +kernel

/-- The block with TOKBUF full at depth 4. -/
def fullBuffer : State := { State.reset with config := smallConfig, tokbuf := List.replicate 4 ⟨0, 2⟩ }

/-- The block with class 0 counted 2^32 - 1 times. -/
def fullClass : State := State.reset.setBuilder ⟨[(5, 0xFFFFFFFF)], [], []⟩

theorem witness_checks : State.reset.failed = false ∧ 32 < (33 : Byte).toNat ∧ State.reset.mtfLen ≤ (0 : Byte).toNat ∧
    classOk 0 ∧ codeGet State.reset.builder.code 0 0 = none ∧ tableGet State.reset.decoder.dtree (0 : Byte).toNat = none ∧
    State.reset.image.w.toNat * State.reset.image.h.toNat ≤ State.reset.image.i.toNat := by decide

theorem witness_checks_full : fullBuffer.failed = false ∧ fullBuffer.config.tokbufDepth = some fullBuffer.tokbuf.length ∧
    fullClass.failed = false ∧ fullClass.config.tokbufDepth ≠ some fullClass.tokbuf.length ∧
    classTotal fullClass.builder.freq 0 = 2 ^ 32 - 1 := by decide +kernel

/-- V-HTB-7's codes, and an empty code in class 1. -/
def withCodes : State := State.reset.setBuilder ⟨[], [], [(0, [true, true, false]), (1, [true, true, true]), (256, [])]⟩

theorem witness_encodeToken : withCodes.failed = false ∧ classOk 0 ∧ classOk 1 ∧
    codeGet withCodes.builder.code 0 1 = some [true, true, true] ∧ codeGet withCodes.builder.code 1 0 = some [] ∧
    WriterReady withCodes ∧ SinkReady withCodes :=
  ⟨rfl, by decide, by decide, by decide +kernel, by decide +kernel, by simp [WriterReady, withCodes, State.reset], by simp [SinkReady, withCodes, State.reset]⟩

theorem buffered_ready : buffered.failed = false ∧ WriterReady buffered ∧ SinkReady buffered ∧ tableWf buffered.builder.freq ∧
    ∀ x ∈ buffered.tokbuf, x.k ≠ sentinelId ∧ freqGet buffered.builder.freq x.k x.v ≠ 0 :=
  ⟨rfl, by simp [WriterReady, buffered, State.reset], by simp [SinkReady, buffered, State.reset], by decide, by decide +kernel⟩

theorem witness_writeTable : buffered.failed = false ∧ WriterReady buffered ∧ SinkReady buffered ∧ tableWf buffered.builder.freq ∧
    0 < classTotal buffered.builder.freq 0 ∧ classTotal buffered.builder.freq 254 = 0 :=
  ⟨rfl, buffered_ready.2.1, buffered_ready.2.2.1, buffered_ready.2.2.2.1, by decide +kernel, by decide +kernel⟩

theorem witness_writePayload : (buffered.setBuilder ⟨[], [], [(0, [false]), (2, [true]), (1799, [])]⟩).failed = false ∧
    (∀ x ∈ buffered.tokbuf, x.k ≠ sentinelId) ∧
    payloadBits [(0, [false]), (2, [true]), (1799, [])] buffered.tokbuf = some [true, true, false] ∧
    buffered.tokbuf = [⟨0, 2⟩, ⟨0, 2⟩, ⟨0, 0⟩] ++ ⟨7, 7⟩ :: [] ∧
    payloadBits [(0, [false]), (2, [true])] [⟨0, 2⟩, ⟨0, 2⟩, ⟨0, 0⟩] = some [true, true, false] ∧
    codeGet [(0, [false]), (2, [true])] 7 7 = none := by decide +kernel

theorem witness_finish : buffered.failed = false ∧ WriterReady buffered ∧ SinkReady buffered ∧ tableWf buffered.builder.freq ∧
    ∀ x ∈ buffered.tokbuf, x.k ≠ sentinelId ∧ freqGet buffered.builder.freq x.k x.v ≠ 0 :=
  buffered_ready

theorem witness_readTable : (withSource [0x00, 0x01, 0x7F, 0x80]).failed = false ∧
    (∀ x ∈ [((0 : Byte), CodeTree.leaf 2)], classOk x.1 ∧ treeOk x.2) ∧
    streamIn (withSource [0x00, 0x01, 0x7F, 0x80]) =
      [((0 : Byte), CodeTree.leaf 2)].flatMap (fun x => binByte x.1 ++ binTree x.2) ++ binByte 255 ++ List.replicate 7 false := by
  decide +kernel

/-- The bytes that hold a bit string, which is cut to whole bytes. -/
def packBits : Nat → Bits → List Byte
  | 0, _ => []
  | n + 1, bs => ((bs.take 8).foldl (fun a b => a * 2 + (BitVec.ofBool b).setWidth 8) 0) :: packBits n (bs.drop 8)

/-- The table of V-ERR-14: 323 bytes, of which the tree of 513 nodes takes 2569 bits after the class id. -/
def largeTable : List Byte := packBits 323 (binByte 0 ++ (binTree (comb 256) ++ List.replicate 7 true))

theorem witness_treeTooLarge : (withSource largeTable).failed = false ∧ classOk 0 ∧ ¬ treeOk (comb 256) ∧
    streamIn (withSource largeTable) = binByte 0 ++ (binTree (comb 256) ++ List.replicate 7 true) := by decide +kernel

/-- The block with the tree Internal(Leaf 0, Leaf 2) in class 0 of the decoder and the pending bit `1`. -/
def readyToRead : State := (State.reset.setDecoder ⟨[(0, .internal (.leaf 0) (.leaf 2))], true⟩).setReader ⟨1, 1⟩

theorem witness_readToken : readyToRead.failed = false ∧ classOk 0 ∧
    tableGet readyToRead.decoder.dtree (0 : Byte).toNat = some (.internal (.leaf 0) (.leaf 2)) ∧
    (CodeTree.internal (.leaf 0) (.leaf 2)).follow [true] = some 2 ∧ streamIn readyToRead = [true] ++ [] ∧
    (CodeTree.leaf 2).follow [] = some 2 := by decide +kernel

/-- The encoder with the same tree. -/
def readyToDerive : State := State.reset.setBuilder ⟨[], [(0, .internal (.leaf 0) (.leaf 2))], []⟩

theorem witness_decoderAgrees : readyToDerive.failed = false ∧ classOk 0 ∧
    tableGet readyToDerive.builder.etree (0 : Byte).toNat = some (.internal (.leaf 0) (.leaf 2)) ∧
    (CodeTree.internal (.leaf 0) (.leaf 2)).values.Nodup ∧
    exec (.htbDerive 0) readyToDerive = .next (ran (.htbDerive 0) readyToDerive) ∧
    codeGet (ran (.htbDerive 0) readyToDerive).builder.code 0 2 = some [true] ∧ readyToRead.failed = false ∧
    tableGet readyToRead.decoder.dtree (0 : Byte).toNat = some (.internal (.leaf 0) (.leaf 2)) ∧
    streamIn readyToRead = [true] ++ [] :=
  ⟨rfl, by decide, rfl, by decide, rfl, by decide +kernel, rfl, rfl, by decide +kernel⟩

theorem witness_decoderAgrees_table : exec .heWriteTable buffered = .next (ran .heWriteTable buffered) ∧
    streamOut (ran .heWriteTable buffered) = streamOut buffered ++ tableBits buffered.builder.freq ∧
    (withSource [0x00, 0x80, 0x00, 0x40, 0xE0, 0x7F, 0xFC]).failed = false ∧
    (∀ k : Byte, tableGet (withSource [0x00, 0x80, 0x00, 0x40, 0xE0, 0x7F, 0xFC]).decoder.dtree k.toNat = none) ∧
    streamIn (withSource [0x00, 0x80, 0x00, 0x40, 0xE0, 0x7F, 0xFC]) =
      tableBits buffered.builder.freq ++ [true, true, false, false] :=
  ⟨rfl, by decide +kernel, rfl, fun _ => rfl, by decide +kernel⟩

/-! ### Pixels -/

theorem room_of_small {s : State} (hf : s.builder.freq = []) (hd : s.config.tokbufDepth = none) {n : Nat}
    (hn : n < 2 ^ 32) : Room s n :=
  ⟨by simp [hf], by simp [hd], fun k => by simpa [hf, classTotal, tableRow] using hn⟩

/-- P4 before command 17, with nothing buffered: the pending run is 1, (20,0,0,0) is at position 2. -/
def lastPixel : State :=
  ((State.reset.setImage ⟨3, 2, 5⟩).setEnc ⟨⟨20, 0, 0, 1⟩, 1, [(2, pxA)]⟩).setMtf [⟨20, 0, 0, 1⟩, pxA, pxB]

theorem witness_setDim : failedBlock.failed = true ∧ lastPixel.failed = false := by decide

theorem witness_encodeRunPixel : lastPixel.failed = false ∧
    lastPixel.image.i.toNat < lastPixel.image.w.toNat * lastPixel.image.h.toNat := by decide +kernel

theorem witness_encodeLookupPixel : lastPixel.failed = false ∧
    lastPixel.image.i.toNat < lastPixel.image.w.toNat * lastPixel.image.h.toNat ∧ pxB ≠ lastPixel.enc.prior ∧
    lastPixel.mtf = [⟨20, 0, 0, 1⟩, pxA] ++ pxB :: [] ∧ pxB ∉ [⟨20, 0, 0, 1⟩, pxA] ∧
    [(⟨20, 0, 0, 1⟩ : Pixel), pxA].length = 1 + 1 ∧
    Room lastPixel (pendingRun lastPixel.enc.run ++ lookupTokens 1).length :=
  ⟨rfl, by decide, by decide, rfl, by decide, rfl, room_of_small rfl rfl (by decide)⟩

theorem witness_encodeDeltaPixel : lastPixel.failed = false ∧
    lastPixel.image.i.toNat < lastPixel.image.w.toNat * lastPixel.image.h.toNat ∧ pxD ≠ lastPixel.enc.prior ∧
    pxD ∉ lastPixel.mtf ∧ lastPixel.mtfLen ≤ lastPixel.config.cacheCapacity ∧
    Room lastPixel ((pendingRun lastPixel.enc.run).length + 5) :=
  ⟨rfl, by decide, by decide, by decide, by decide, room_of_small rfl rfl (by decide)⟩

theorem witness_encodeEnd : lastPixel.failed = false ∧ Room lastPixel (pendingRun lastPixel.enc.run).length ∧
    Room State.reset (pendingRun State.reset.enc.run).length ∧ State.reset.enc.run = 0 :=
  ⟨rfl, room_of_small rfl rfl (by decide), room_of_small rfl rfl (by decide), rfl⟩

theorem witness_cacheHead : lastPixel.failed = false ∧ lastPixel.mtf.head? = some lastPixel.enc.prior ∧
    exec (.pxEncPixel pxB) lastPixel = .next (ran (.pxEncPixel pxB) lastPixel) ∧
    exec .pxEncEnd lastPixel = .next (ran .pxEncEnd lastPixel) := ⟨rfl, rfl, rfl, rfl⟩

/-- V-PX-3: the cache's head is not PRIOR. -/
theorem witness_cacheHead_state : (lastPixel.setMtf [pxB, pxA]).failed = false ∧ pxB ≠ (lastPixel.setMtf [pxB, pxA]).enc.prior ∧
    (lastPixel.setMtf [pxB, pxA]).mtf.head? = some pxB ∧
    Room (lastPixel.setMtf [pxB, pxA]) (pendingRun (lastPixel.setMtf [pxB, pxA]).enc.run).length :=
  ⟨rfl, by decide, rfl, room_of_small rfl rfl (by decide)⟩

/-- A block that decodes with trees of one leaf, so that the codes are empty: a RUN group with 4 bytes, all 255. -/
def runTrees : Table CodeTree := [(0, .leaf 0), (1, .leaf 4), (2, .leaf 255), (3, .leaf 255), (4, .leaf 255), (5, .leaf 255)]

/-- The block before its first pixel of a 1 by 1 image, with trees loaded. -/
def decoding (trees : Table CodeTree) : State := (State.reset.setImage ⟨1, 1, 0⟩).setDecoder ⟨trees, true⟩

theorem spells_leaf {d : Table CodeTree} {t : Token} {ts : List Token} (hk : t.k ≠ sentinelId)
    (h : tableGet d t.k.toNat = some (.leaf t.v)) (hs : Spells d ts []) : Spells d (t :: ts) [] :=
  ⟨[], [], .leaf t.v, rfl, hk, h, rfl, hs⟩

theorem witness_decodeRunPixel : (decoding runTrees).failed = false ∧
    (decoding runTrees).image.i.toNat < (decoding runTrees).image.w.toNat * (decoding runTrees).image.h.toNat ∧
    (decoding runTrees).dec.drun = 0 ∧ (0xFFFFFFFF#32).toNat < 256 ^ 4 ∧
    Spells (decoding runTrees).decoder.dtree (runGroup 4 0xFFFFFFFF) [] ∧ streamIn (decoding runTrees) = [] ++ [] :=
  ⟨rfl, by decide, rfl, by decide, by
    show Spells runTrees [⟨0, 0⟩, ⟨1, 4⟩, ⟨5, 255⟩, ⟨4, 255⟩, ⟨3, 255⟩, ⟨2, 255⟩] []
    iterate 6 refine spells_leaf (by decide) rfl ?_
    exact rfl, by decide +kernel⟩

theorem witness_decodeRunPixel_none : (decoding [(0, .leaf 0), (1, .leaf 0)]).dec.drun = 0 ∧ (0#32).toNat < 256 ^ 0 ∧
    Spells (decoding [(0, .leaf 0), (1, .leaf 0)]).decoder.dtree (runGroup 0 0) [] :=
  ⟨rfl, by decide, spells_leaf (by decide) rfl (spells_leaf (by decide) rfl rfl)⟩

theorem witness_decodeRunPixel_countdown : ((decoding []).setDec ⟨pxA, 1, []⟩).failed = false ∧
    ((decoding []).setDec ⟨pxA, 1, []⟩).dec.drun ≠ 0 ∧ (decoding []).image.i.toNat <
      (decoding []).image.w.toNat * (decoding []).image.h.toNat := by decide

/-- A LOOKUP group of the value 1. -/
def lookupTrees : Table CodeTree := [(0, .leaf 1), (6, .leaf 1)]

theorem witness_decodeLookupPixel : ((decoding lookupTrees).setMtf [pxA, pxB, pxC]).failed = false ∧
    (decoding lookupTrees).dec.drun = 0 ∧ Spells (decoding lookupTrees).decoder.dtree [token .tag 1, token .lookup 1] [] ∧
    streamIn ((decoding lookupTrees).setMtf [pxA, pxB, pxC]) = [] ++ [] ∧
    ((decoding lookupTrees).setMtf [pxA, pxB, pxC]).mtf = [pxA, pxB] ++ pxC :: [] ∧ [pxA, pxB].length = (1 : Byte).toNat + 1 :=
  ⟨rfl, rfl, spells_leaf (by decide) rfl (spells_leaf (by decide) rfl rfl), by decide +kernel, rfl, rfl⟩

/-- A DELTA group, or a DELTA_UP group for the tag value 3, of the deltas (1, 2, 3, 255). -/
def deltaTrees (tag : Byte) : Table CodeTree := [(0, .leaf tag), (7, .leaf 1), (8, .leaf 2), (9, .leaf 3), (10, .leaf 255)]

theorem witness_decodeDeltaPixel : (decoding (deltaTrees 2)).failed = false ∧ (decoding (deltaTrees 2)).dec.drun = 0 ∧
    (decoding (deltaTrees 2)).mtfLen ≤ (decoding (deltaTrees 2)).config.cacheCapacity ∧
    Spells (decoding (deltaTrees 2)).decoder.dtree (deltaTokens ⟨1, 2, 3, 255⟩ zeroPixel .delta) [] ∧
    Spells (decoding (deltaTrees 3)).decoder.dtree (deltaTokens ⟨1, 2, 3, 255⟩ zeroPixel .deltaUp) [] ∧
    streamIn (decoding (deltaTrees 2)) = [] ++ [] := by
  refine ⟨rfl, rfl, by decide, ?_, ?_, by decide +kernel⟩
  all_goals
    iterate 5 refine spells_leaf (by decide) (by decide) ?_
    exact rfl

theorem witness_decodeIllegalTokens :
    (4 ≤ (4 : Byte).toNat ∧ Spells (decoding [(0, .leaf 4)]).decoder.dtree [token .tag 4] []) ∧
    (5 ≤ (5 : Byte).toNat ∧ Spells (decoding [(0, .leaf 0), (1, .leaf 5)]).decoder.dtree [token .tag 0, token .byteCount 5] []) ∧
    (((decoding lookupTrees).setMtf [pxA, pxB]).mtfLen ≤ (1 : Byte).toNat + 1 ∧
      Spells ((decoding lookupTrees).setMtf [pxA, pxB]).decoder.dtree [token .tag 1, token .lookup 1] []) :=
  ⟨⟨by decide, spells_leaf (by decide) rfl rfl⟩,
    ⟨by decide, spells_leaf (by decide) rfl (spells_leaf (by decide) rfl rfl)⟩,
    ⟨by decide, spells_leaf (by decide) rfl (spells_leaf (by decide) rfl rfl)⟩⟩

/-! ### The top-level commands -/

/-- V-RT-3's pixel at the pixel source. -/
def onePixel : State := withPixels [⟨1, 2, 3, 4⟩]

theorem witness_heFinish_parts : exec .heFinish buffered = .next (ran .heFinish buffered) ∧
    (ran .heFinish buffered).host.responses = buffered.host.responses ++ [.ok 0] := ⟨rfl, by decide +kernel⟩

theorem witness_encodeImage : SinkReady onePixel ∧
    onePixel.agents.pixels = ([⟨1, 2, 3, 4⟩] : List Pixel).map .pixel ++ [] ∧
    ([⟨1, 2, 3, 4⟩] : List Pixel).length = (1 : Half).toNat * (1 : Half).toNat ∧
    (∀ d, onePixel.config.tokbufDepth = some d → 6 * ((1 : Half).toNat * (1 : Half).toNat) ≤ d) ∧
    exec (.encodeImage 1 1) onePixel = .next (ran (.encodeImage 1 1) onePixel) ∧
    (ran (.encodeImage 1 1) onePixel).host.responses = onePixel.host.responses ++ [.ok 0] :=
  ⟨by simp [SinkReady, onePixel, withPixels, State.reset], rfl, rfl, fun d h => (nomatch h), rfl, by decide +kernel⟩

theorem witness_encodeImage_depth : 6 * ((1 : Half).toNat * (1 : Half).toNat) ≤ 6 ∧
    ∀ d, (some 6 : Option Nat) = some d → 6 * ((1 : Half).toNat * (1 : Half).toNat) ≤ d := by
  refine ⟨by decide, fun d h => ?_⟩
  cases h
  decide

theorem witness_encodeFailures : exec (.encodeImage 1 1) State.reset = .next (ran (.encodeImage 1 1) State.reset) ∧
    (ran (.encodeImage 1 1) State.reset).host.responses = State.reset.host.responses ++ [.err .input .pixelMissing] ∧
    Cause.pixelMissing ≠ .sinkIo := ⟨rfl, by decide +kernel, by decide⟩

/-- The bytes of V-RT-3. -/
def oneImage : List Byte := [0x70, 0x69, 0x63, 0x63, 0x6F, 0x6D, 0x70, 0x00, 0x01, 0x00, 0x01, 0x00, 0x01, 0x03, 0x80, 0x42, 0x00,
  0x41, 0x20, 0x30, 0xA0, 0x27, 0xF8]

theorem witness_decodeImage : exec .decodeImage (withSource oneImage) = .next (ran .decodeImage (withSource oneImage)) ∧
    (ran .decodeImage (withSource oneImage)).host.responses = (withSource oneImage).host.responses ++ [.ok 0x00010001] :=
  ⟨rfl, by decide +kernel⟩

theorem witness_imageRoundTrip : (ran (.encodeImage 1 1) onePixel).agents.sink = onePixel.agents.sink ++ oneImage ∧
    (withSource oneImage).config.cacheCapacity = onePixel.config.cacheCapacity ∧
    (withSource oneImage).agents.source = oneImage.map .byte ++ [] :=
  ⟨by decide +kernel, rfl, rfl⟩

theorem witness_decodeHeader : (withSource (headerBytes 1 1)).agents.source = (headerBytes 1 1).map .byte ++ [] ∧
    [0x70, 0x69, 0x63, 0x63, 0x6F, 0x6D, 0x71].length = 7 ∧ ([0x70, 0x69, 0x63, 0x63, 0x6F, 0x6D, 0x71] : List Byte) ≠ magic ∧
    (sourceBytes (withSource [0x70, 0x69, 0x63, 0x63, 0x6F, 0x6D]).agents.source).length < 7 ∧
    (sourceBytes State.reset.agents.source).length < 7 := by decide +kernel

/-- V-RT-1. -/
theorem witness_decodeEmptyImage : (0 : Half).toNat * (0 : Half).toNat = 0 ∧
    (∀ x ∈ ([] : List (Byte × CodeTree)), classOk x.1 ∧ treeOk x.2) ∧
    bitsOf (sourceBytes (withSource (headerBytes 0 0 ++ [0xFF])).agents.source) = bitsOf (headerBytes 0 0) ++
      (([] : List (Byte × CodeTree)).flatMap (fun x => binByte x.1 ++ binTree x.2) ++ binByte 255 ++ []) := by decide +kernel

theorem witness_topLevelStartsFresh : clearsStatus .decodeImage = true ∧ failedBlock.config = State.reset.config ∧
    failedBlock.agents = State.reset.agents ∧ failedBlock.host = State.reset.host ∧ failedBlock.freeCount = State.reset.freeCount ∧
    failedBlock ≠ State.reset := ⟨rfl, rfl, rfl, rfl, rfl, by decide⟩

theorem witness_elementsComplete : State.reset.failed = false := rfl

end Sys2Proof.Tests
end

section
/-! The statements of 30_encoding.md: a word that is no command (R121), and the illegal tokens at PX_DEC_PIXEL (R113 to R115). -/

/-! ## A word that is no command (R121) -/

namespace Sys2Proof

/-- A byte whose bits 7:1 are 0 is its bit 0 (R119, the V field of BW_WRITE_BIT). -/
theorem setWidth_bit_of_high_zero {v : Byte} (h : v.extractLsb' 1 7 = 0) :
    (BitVec.ofBool (v.getLsbD 0)).setWidth 8 = v := by
  apply BitVec.eq_of_getLsbD_eq
  intro i hi
  cases i with
  | zero => simp
  | succ n =>
    have hn : (v.extractLsb' 1 7).getLsbD n = false := by rw [h]; simp
    have hv : v.getLsbD (n + 1) = false := by
      simpa [BitVec.getLsbD_extractLsb', show n < 7 by omega, Nat.add_comm] using hn
    rw [hv]
    simp

/-- Each row of R118 is one code: a command that the fields decode to has the word with these fields. The row of
BW_WRITE_BIT keeps one bit of V, the rows with a pixel or with dimensions keep D repacked; in all others a field is an
operand or is 0. -/
theorem encode_of_decodeFields {op a v : Byte} {d : Word} {i : Instr} (h : decodeFields op a v d = .ok i) :
    encode i = .command (commandWord op a v d) := by
  unfold decodeFields at h
  split at h
  case h_28 => cases h -- an opcode not in R118
  all_goals
    rename_i hop
    obtain ⟨-, rfl⟩ := BitVec.toNat_eq_nat.mp hop
    obtain ⟨hz, rfl⟩ := whenZero_ok.mp h
    simp only [Bool.and_eq_true, beq_iff_eq] at hz
  case h_1 => -- BW_WRITE_BIT
    obtain ⟨⟨ha, hv⟩, hd⟩ := hz
    rw [encode, setWidth_bit_of_high_zero hv, ha, hd]
    rfl
  all_goals simp [encode, hz]

theorem encode_of_decodeCommand {w : BitVec 64} {i : Instr} (h : decodeCommand w = .ok i) : encode i = .command w := by
  unfold decodeCommand at h
  split at h
  case isTrue hrsv => rw [encode_of_decodeFields h, word_fields w hrsv]
  case isFalse => cases h

/-- A word that encodes no instruction is rejected. -/
theorem decodeCommand_error_of_no_code {w : BitVec 64} (h : ∀ i, encode i ≠ .command w) :
    ∃ r, decodeCommand w = .error r := by
  cases hd : decodeCommand w with
  | ok i => exact absurd (encode_of_decodeCommand hd) (h i)
  | error r => exact ⟨r, rfl⟩

end Sys2Proof

namespace Sys2Proof.Machine

theorem step_rejected_command {s : State} {w : BitVec 64} {rest : List Issue} {r : Reject}
    (hi : s.host.issues = .command w :: rest) (hd : decodeCommand w = .error r) :
    step s = .next (failEntry .illegalCommand (takeIssue s rest)) := by
  simp only [step, fetch, hi, fetchCommand, hd]

/-- Failure entry as one update of STATUS and one of the command interface (60_exceptions.md R310). -/
theorem failEntry_takeIssue (c : Cause) (s : State) (rest : List Issue) :
    failEntry c (takeIssue s rest) =
      (s.setStatus (if s.failed then s.status else statusWord c)).setHost
        { s.host with issues := rest, responses := s.host.responses ++ [.err c.kind c] } := by
  have hf : (takeIssue s rest).failed = s.failed := rfl
  rw [failEntry_eq, hf]
  cases s.failed <;> rfl

/-- Settles O6: the decoder rejects a word that has no instruction (`encode_of_decodeCommand`), and the step then only
enters the failure, with `statusWord .illegalCommand` the literal of the statement. -/
theorem illegalCommand : Obligations.IllegalCommand := by
  intro s w rest hi hw
  obtain ⟨r, hd⟩ := decodeCommand_error_of_no_code hw
  rw [step_rejected_command hi hd, failEntry_takeIssue]
  rfl

/-! ## Illegal tokens at PX_DEC_PIXEL (R113, R114, R115) -/

theorem tagOf_none {v : Byte} (h : 4 ≤ v.toNat) : tagOf v = none := by
  have hne : ∀ u : Byte, u.toNat < 4 → v ≠ u := by
    rintro u hu rfl
    omega
  rw [tagOf, if_neg (hne 0 (by decide)), if_neg (hne 1 (by decide)), if_neg (hne 2 (by decide)),
    if_neg (hne 3 (by decide))]

section Tokens
variable {s : State} {v : Byte} {us : List Token} {rest : Bits}

/-- A tag above 3 (R113). -/
theorem decodeGroup_unknownTag (hv : 4 ≤ v.toNat) (h : Ahead s (token .tag v :: us) rest) :
    ∃ t, decodeGroup s = .error .unknownTag t ∧ Took s t ∧ Ahead t us rest := by
  obtain ⟨t, hread, htook, hahead⟩ := readClass_ahead h
  refine ⟨t, ?_, htook, hahead⟩
  rw [decodeGroup, steps_bind_ok hread, tagOf_none hv]
  rfl

/-- A byte count above 4: no run byte is read (R114). -/
theorem decodeRun_classNotFound (hv : 5 ≤ v.toNat) (h : Ahead s (token .byteCount v :: us) rest) :
    ∃ t, decodeRun s = .error .classNotFound t ∧ Took s t ∧ Ahead t us rest := by
  obtain ⟨t, hread, htook, hahead⟩ := readClass_ahead h
  refine ⟨t, ?_, htook, hahead⟩
  rw [decodeRun, steps_bind_ok hread, if_pos (show v.toNat > numRunByteClasses from hv), raise_eq]

/-- A LOOKUP value whose position is not occupied (R115). -/
theorem decodeLookup_lookupRange (hv : s.mtfLen ≤ v.toNat + 1) (h : Ahead s (token .lookup v :: us) rest) :
    ∃ t, decodeLookup s = .error .lookupRange t ∧ Took s t ∧ Ahead t us rest := by
  obtain ⟨t, hread, htook, hahead⟩ := readClass_ahead h
  have hlen : t.mtfLen = s.mtfLen := congrArg List.length htook.mtf
  refine ⟨t, ?_, htook, hahead⟩
  rw [decodeLookup, steps_bind_ok hread, steps_bind_ok (steps_get t), if_pos (hlen ▸ hv), raise_eq]

/-- A RUN group fails as its part after the tag does. -/
theorem decodeGroup_run_classNotFound (hv : 5 ≤ v.toNat) (h : Ahead s (token .tag 0 :: token .byteCount v :: us) rest) :
    ∃ t, decodeGroup s = .error .classNotFound t ∧ Took s t ∧ Ahead t us rest := by
  obtain ⟨u, htook, hahead, hgroup⟩ := decodeGroup_ahead (t := .run) h
  obtain ⟨t, hrun, htook', hahead'⟩ := decodeRun_classNotFound hv hahead
  exact ⟨t, hgroup.trans hrun, htook.trans htook', hahead'⟩

/-- A LOOKUP group fails as its part after the tag does; reading the tag leaves the cache. -/
theorem decodeGroup_lookup_lookupRange (hv : s.mtfLen ≤ v.toNat + 1)
    (h : Ahead s (token .tag 1 :: token .lookup v :: us) rest) :
    ∃ t, decodeGroup s = .error .lookupRange t ∧ Took s t ∧ Ahead t us rest := by
  obtain ⟨u, htook, hahead, hgroup⟩ := decodeGroup_ahead (t := .lookup) h
  have hlen : u.mtfLen = s.mtfLen := congrArg List.length htook.mtf
  obtain ⟨t, hlookup, htook', hahead'⟩ := decodeLookup_lookupRange (hlen ▸ hv) hahead
  exact ⟨t, hgroup.trans hlookup, htook.trans htook', hahead'⟩

end Tokens

/-- PX_DEC_PIXEL fails as its group does, before OUT and I are written (45_pixel_codec.md R260). -/
theorem exec_pxDecPixel_group_error {s t : State} {c : Cause} (hs : s.failed = false)
    (hi : s.image.i.toNat < s.image.pixels) (hd : s.dec.drun = 0) (h : decodeGroup s = .error c t) :
    exec .pxDecPixel s = .next (failEntry c t) :=
  runUnit_error hs (steps_bind_error (decodePixel_error hi ((decodeColour_group hd).trans h)))

/-- Settles O51, one clause for each illegal token: the group reads its tokens and fails, and what was only read leaves
OUT, C and I. -/
theorem decodeIllegalTokens : Obligations.DecodeIllegalTokens := by
  intro s bits rest hs hi hd hbits
  have fails : ∀ {c : Cause}, (∃ t, decodeGroup s = .error c t ∧ Took s t ∧ Ahead t [] rest) →
      ∃ t, exec .pxDecPixel s = .next (failEntry c t) ∧ OnlyRead s t ∧ streamIn t = rest := by
    rintro c ⟨t, hgroup, htook, hahead⟩
    exact ⟨t, exec_pxDecPixel_group_error hs hi hd hgroup, htook.frame, hahead.nil⟩
  refine ⟨fun v hv hsp => ?_, fun b hb hsp => ?_, fun v hv hsp => ?_⟩
  · exact fails (decodeGroup_unknownTag hv ⟨bits, hsp, hbits⟩)
  · exact fails (decodeGroup_run_classNotFound hb ⟨bits, hsp, hbits⟩)
  · exact fails (decodeGroup_lookup_lookupRange hv ⟨bits, hsp, hbits⟩)

end Sys2Proof.Machine
end

section
/-! The statements of 41_mtf_cache.md: a check and a fetch leave one cache (R163), and the capacity boundary (R165). -/

namespace Sys2Proof.Machine

/-! ## The commands of the cache -/

section Commands
variable {s t : State} {p : Pixel}

theorem exec_mtfCheckAndInsert_ok {j : Option Nat} (hs : s.failed = false) (h : mtfCheckAndInsert p s = .ok j t) :
    exec (.mtfCheckAndInsert p) s = .next (respond (.ok (positionWord j)) t) :=
  runUnit_ok hs (steps_bind_ok h)

theorem exec_mtfFetch_ok {index : Byte} (hs : s.failed = false) (h : mtfFetch index.toNat s = .ok p t) :
    exec (.mtfFetch index) s = .next (respond (.ok (packPixel p)) t) :=
  runUnit_ok hs (steps_bind_ok h)

/-- A miss as the model inserts it, whatever MTF_LEN is; `mtfCheckAndInsert_miss` is its form under R161's bound. -/
theorem mtfCheckAndInsert_insertFront (h : p ∉ s.mtf) :
    mtfCheckAndInsert p s = .ok none (s.setMtf (insertFront s.config.cacheCapacity s.mtf p)) := by
  rw [mtfCheckAndInsert, steps_bind_ok (steps_get s), mtfFind_miss h]
  rfl

/-- A position in the cache is not NOT_FOUND: it is below CACHE_CAPACITY, which is at most 256 (00_scope.md R7). -/
theorem positionWord_ne_notFound {c : Config} {j : Nat} (h : j < c.cacheCapacity) :
    positionWord (some j) ≠ 0xFFFFFFFF#32 := by
  have hj : j < 256 := lt_of_lt_of_le h c.capacity_le
  intro he
  have hn : j % 2 ^ 32 = 0xFFFFFFFF := congrArg BitVec.toNat he
  omega

/-- MTF_CHECK_AND_INSERT touches the cache, and answers NOT_FOUND only for a pixel that is not held (R160). -/
theorem exec_mtfCheckAndInsert_touch (p : Pixel) (hs : s.failed = false) (hl : s.mtf.length ≤ s.config.cacheCapacity) :
    ∃ r, exec (.mtfCheckAndInsert p) s =
        .next (respond (.ok r) (s.setMtf (cacheTouch s.config.cacheCapacity s.mtf p))) ∧
      (r = 0xFFFFFFFF#32 → p ∉ s.mtf) := by
  by_cases h : p ∈ s.mtf
  · obtain ⟨pre, post, he, hn⟩ := exists_split h
    have hj : pre.length < s.config.cacheCapacity := by
      rw [he, List.length_append, List.length_cons] at hl
      omega
    refine ⟨positionWord (some pre.length), ?_, fun hr => absurd hr (positionWord_ne_notFound hj)⟩
    rw [exec_mtfCheckAndInsert_ok hs (mtfCheckAndInsert_hit he hn), he, cacheTouch_split hn]
  · refine ⟨positionWord none, ?_, fun _ => h⟩
    rw [exec_mtfCheckAndInsert_ok hs (mtfCheckAndInsert_miss h hl), cacheTouch, if_neg h]

end Commands

/-! ## A check and a fetch of one value (R163) -/

/-- An occupied position splits distinct entries at the first, since only, occurrence of its pixel. -/
theorem split_of_getElem? {es : List Pixel} {j : Nat} {x : Pixel} (hn : es.Nodup) (h : es[j]? = some x) :
    ∃ pre post, es = pre ++ x :: post ∧ pre.length = j ∧ x ∉ pre := by
  obtain ⟨hj, hx⟩ := List.getElem?_eq_some_iff.mp h
  obtain ⟨q, pre, post, rfl, rfl⟩ := split_at hj
  obtain rfl : q = x := by simpa using hx
  have hq : q ∉ pre ++ post := (List.nodup_cons.mp (List.nodup_middle.mp hn)).1
  exact ⟨pre, post, rfl, rfl, fun hp => hq (List.mem_append_left post hp)⟩

/-- Settles O24: the check finds a held value at the position that is fetched, since the entries are distinct, and both
move it to the front; a check of a value not held depends on the cache and its capacity only. -/
theorem cachesAgree : Obligations.CachesAgree := by
  constructor
  · intro s x p hs hn hx
    obtain ⟨pre, post, he, hp, hpre⟩ := split_of_getElem? hn hx
    exact ⟨x :: (pre ++ post), _, _, exec_mtfCheckAndInsert_ok hs (mtfCheckAndInsert_hit he hpre),
      exec_mtfFetch_ok hs (hp ▸ mtfFetch_ok he)⟩
  · intro s s' x hs hs' hc hm hx
    have hcheck' := exec_mtfCheckAndInsert_ok hs' (mtfCheckAndInsert_insertFront (hm ▸ hx))
    rw [← hc, ← hm] at hcheck'
    exact ⟨_, _, _, exec_mtfCheckAndInsert_ok hs (mtfCheckAndInsert_insertFront hx), hcheck'⟩

/-! ## The capacity boundary (R165) -/

/-- Entries past the capacity may be dropped before or after others are put in front. -/
theorem take_append_take (n : Nat) (ys es : List Pixel) : (ys ++ es.take n).take n = (ys ++ es).take n := by
  rw [List.take_append, List.take_append, List.take_take, Nat.min_eq_left (Nat.sub_le n ys.length)]

/-- Checks one after the other all complete; if each of them answers NOT_FOUND, the pixels stand in front of the entries
there were, the last one first, cut at CACHE_CAPACITY. -/
theorem runAll_checks (ps : List Pixel) {s : State} (hs : s.failed = false)
    (hl : s.mtf.length ≤ s.config.cacheCapacity) :
    ∃ t rs, runAll (ps.map .mtfCheckAndInsert) s = some t ∧ t.config = s.config ∧ t.failed = false ∧
      t.host.responses = s.host.responses ++ rs ∧
      (rs = List.replicate ps.length (.ok 0xFFFFFFFF#32) →
        t.mtf = (ps.reverse ++ s.mtf).take s.config.cacheCapacity) := by
  induction ps generalizing s with
  | nil => exact ⟨s, [], rfl, rfl, hs, (List.append_nil _).symm, fun _ => (List.take_of_length_le hl).symm⟩
  | cons p ps ih =>
    obtain ⟨r, hexec, hmiss⟩ := exec_mtfCheckAndInsert_touch p hs hl
    obtain ⟨t, rs, hrun, hconfig, hfailed, hresp, hmtf⟩ :=
      ih (s := respond (.ok r) (s.setMtf (cacheTouch s.config.cacheCapacity s.mtf p))) hs (cacheTouch_length hl p)
    refine ⟨t, .ok r :: rs, (runAll_cons hexec).trans hrun, hconfig, hfailed, by simpa using hresp, fun hrs => ?_⟩
    obtain ⟨hr, hrs⟩ := List.cons.inj hrs
    have htouch : cacheTouch s.config.cacheCapacity s.mtf p = (p :: s.mtf).take s.config.cacheCapacity :=
      if_neg (hmiss (Response.ok.inj hr))
    calc t.mtf = (ps.reverse ++ cacheTouch s.config.cacheCapacity s.mtf p).take s.config.cacheCapacity := hmtf hrs
      _ = (ps.reverse ++ p :: s.mtf).take s.config.cacheCapacity := by rw [htouch, take_append_take]
      _ = ((p :: ps).reverse ++ s.mtf).take s.config.cacheCapacity := by simp

/-- The cache after a value is checked and all of `ys` after it are missed: `ys` in front, the last one first, and then
the value, cut at CACHE_CAPACITY. -/
theorem mtf_of_misses {s t : State} {x : Pixel} {ys : List Pixel} {r : Response} (hs : s.failed = false)
    (hl : s.mtf.length ≤ s.config.cacheCapacity) (hrun : runAll ((x :: ys).map .mtfCheckAndInsert) s = some t)
    (hresp : t.host.responses = s.host.responses ++ r :: List.replicate ys.length (.ok 0xFFFFFFFF#32)) :
    t.config = s.config ∧ t.failed = false ∧
      ∃ es, t.mtf = (ys.reverse ++ x :: es).take s.config.cacheCapacity := by
  obtain ⟨r', hexec, -⟩ := exec_mtfCheckAndInsert_touch x hs hl
  obtain ⟨u, rs, hrun', hconfig, hfailed, hresp', hmtf⟩ := runAll_checks ys
    (s := respond (.ok r') (s.setMtf (cacheTouch s.config.cacheCapacity s.mtf x))) hs (cacheTouch_length hl x)
  obtain rfl : u = t := Option.some.inj (hrun'.symm.trans ((runAll_cons hexec).symm.trans hrun))
  have hrs : .ok r' :: rs = r :: List.replicate ys.length (.ok 0xFFFFFFFF#32) :=
    List.append_cancel_left (as := s.host.responses) (by simpa using hresp'.symm.trans hresp)
  obtain ⟨es, hes⟩ := List.head?_eq_some_iff.mp (cacheTouch_head s.config.capacity_pos s.mtf x)
  exact ⟨hconfig, hfailed, es, hes ▸ hmtf (List.cons.inj hrs).2⟩

/-- Settles O25: N misses fill the cache with other values; N - 1 leave the checked value in its last place. -/
theorem cacheEviction : Obligations.CacheEviction := by
  rintro s t x ys hs - hl - hx hrun ⟨r, hresp⟩
  obtain ⟨hconfig, hfailed, es, hmtf⟩ := mtf_of_misses hs hl hrun hresp
  constructor
  · intro hlen
    have hevicted : t.mtf = ys.reverse := by rw [hmtf, List.take_left' (by simpa using hlen)]
    have hmiss : x ∉ t.mtf := by simpa [hevicted] using hx
    exact ⟨_, exec_mtfCheckAndInsert_ok hfailed (mtfCheckAndInsert_insertFront hmiss)⟩
  · intro hlen
    have hheld : t.mtf = ys.reverse ++ x :: [] := by
      rw [hmtf, List.append_cons, List.take_left' (by simpa using hlen)]
    have hcheck := exec_mtfCheckAndInsert_ok hfailed (mtfCheckAndInsert_hit hheld (by simpa using hx))
    rw [List.length_reverse] at hcheck
    exact ⟨_, hcheck⟩

end Sys2Proof.Machine
end

section
/-! The statement of 42_huffman_tree_builder.md about the codes of a class: no code begins another, each is as long as its
leaf is deep, and their Kraft sum is 1 (R187). -/

namespace Sys2Proof.Machine

/-! ## The codes in the order of their values -/

/-- Every value of a token, in ascending order. -/
def allBytes : List Byte := (List.range 256).map (BitVec.ofNat 8)

/-- Were every count 1, every value would be counted: what is known of counted values holds of all of them. -/
theorem countedValues_one : countedValues (fun _ => 1) = allBytes :=
  List.filter_eq_self.mpr fun _ _ => rfl

theorem mem_allBytes (v : Byte) : v ∈ allBytes := countedValues_one ▸ mem_countedValues.mpr (by decide)

theorem allBytes_nodup : allBytes.Nodup := countedValues_one ▸ countedValues_nodup _

/-- The values with a code, each with its code, in the order of the values. -/
def codeEntries (f : Byte → Option Bits) : List (Byte × Bits) := allBytes.filterMap fun v => (f v).map (v, ·)

theorem mem_codeEntries {f : Byte → Option Bits} {v : Byte} {c : Bits} : (v, c) ∈ codeEntries f ↔ f v = some c := by
  simp [codeEntries, mem_allBytes]

theorem codeEntries_nodup (f : Byte → Option Bits) : (codeEntries f).Nodup := by
  refine allBytes_nodup.filterMap fun v v' x hx hx' => ?_
  obtain ⟨c, -, rfl⟩ := Option.mem_map.mp hx
  obtain ⟨c', -, he⟩ := Option.mem_map.mp hx'
  exact (congrArg Prod.fst he).symm

theorem codeEntries_codes (f : Byte → Option Bits) : (codeEntries f).map (·.2) = allBytes.filterMap f := by
  simp [codeEntries, List.map_filterMap, Function.comp_def]

/-- Codes that are the paths of a tree of distinct values are, in some order, the tree's list of paths. -/
theorem codeEntries_perm_paths {f : Byte → Option Bits} {t : CodeTree} (hn : t.values.Nodup)
    (hf : ∀ v c, f v = some c ↔ t.follow c = some v) : (codeEntries f).Perm t.paths := by
  have hpaths : t.paths.Nodup := List.Nodup.of_map (·.1) (t.paths_values ▸ hn)
  refine (List.perm_ext_iff_of_nodup (codeEntries_nodup f) hpaths).mpr fun ⟨v, c⟩ => ?_
  rw [mem_codeEntries, hf, CodeTree.follow_iff]

/-- Codes that are the paths of a tree of distinct values have the Kraft sum of the tree, which is 1. -/
theorem kraft_of_follow {f : Byte → Option Bits} {t : CodeTree} (hn : t.values.Nodup)
    (hf : ∀ v c, f v = some c ↔ t.follow c = some v) :
    ((allBytes.filterMap f).map fun c => (1 / 2 : ℚ) ^ c.length).sum = 1 := by
  rw [← codeEntries_codes, List.map_map]
  exact ((codeEntries_perm_paths hn hf).map _).sum_eq.trans t.kraft

/-! ## The codes that HTB_DERIVE leaves -/

theorem exec_htbDerive_ok {s : State} {k : Byte} (hs : s.failed = false) (hk : classOk k) :
    exec (.htbDerive k) s = .next (respond (.ok 0) (s.setBuilder { s.builder with code := derivedCode s.builder k })) :=
  runUnit_ok hs (noResult_ok (htbDerive_ok hk))

/-- HTB_DERIVE leaves the paths to the leaves of the class's tree as its codes (R186). -/
theorem codeGet_exec_htbDerive {s u : State} {k : Byte} {t : CodeTree} (hs : s.failed = false) (hk : classOk k)
    (ht : tableGet s.builder.etree k.toNat = some t) (hn : t.values.Nodup) (hu : exec (.htbDerive k) s = .next u)
    (v : Byte) (c : Bits) : codeGet u.builder.code k v = some c ↔ t.follow c = some v := by
  rw [exec_htbDerive_ok hs hk] at hu
  cases hu
  have hspec := (derivedCode_spec (b := s.builder) (k := k) (by simpa [ht] using hn)).2 v c
  simpa [ht] using hspec

/-- Settles O30: the codes are the paths of the tree, no path goes on past a leaf, a path is as long as its leaf is deep,
and the Kraft sum of a tree is 1, a single leaf with its empty path included. -/
theorem derivedCodesArePrefixFree : Obligations.DerivedCodesArePrefixFree := by
  intro s u k t hs hk ht hn hu
  have hcode := codeGet_exec_htbDerive hs hk ht hn hu
  refine ⟨fun v v' c c' hc hc' hbegins => ?_, fun v c hc => ?_, fun _ => kraft_of_follow hn hcode⟩
  · obtain ⟨d, rfl⟩ := hbegins
    exact (CodeTree.follow_stops ((hcode v c).mp hc) ((hcode v' _).mp hc')).2
  · exact CodeTree.depthOf_follow hn ((hcode v c).mp hc)

end Sys2Proof.Machine
end

section
/-! The statement of 45_pixel_codec.md about the worked cases of the predictor and of the run flush (R247, R251). -/

namespace Sys2Proof.Machine

/-! ## The choice of the predictor (R245) -/

section Predict
variable {p prior up : Pixel} {cp mp cu mu : Nat}

/-- PRIOR is the base where `up` is not strictly better, a tie on count and magnitude included. -/
theorem predict_delta (hp : stats p prior = (cp, mp)) (hu : stats p up = (cu, mu))
    (h : cp < cu ∨ cp = cu ∧ mp ≤ mu) : predict p prior up = (prior, .delta) := by
  simp only [predict, hp, hu]
  exact if_neg (by omega)

/-- The pixel above is the base where it differs in fewer channels, or in as many with a smaller magnitude. -/
theorem predict_deltaUp (hp : stats p prior = (cp, mp)) (hu : stats p up = (cu, mu))
    (h : cu < cp ∨ cu = cp ∧ mu < mp) : predict p prior up = (up, .deltaUp) := by
  simp only [predict, hp, hu]
  exact if_pos h

end Predict

/-! ## The length of a run group (R250) -/

/-- A number from 256^b up to 256^(b + 1) takes b + 1 bytes and no fewer. -/
theorem isLeast_bytes_succ {n b : Nat} (hlow : 256 ^ b ≤ n) (hhigh : n < 256 ^ (b + 1)) :
    IsLeast {c | n < 256 ^ c} (b + 1) :=
  ⟨hhigh, fun _ hc => (Nat.pow_lt_pow_iff_right (by decide)).mp (hlow.trans_lt hc)⟩

/-- The byte count of a run value is the least that holds it. -/
theorem runByteCount_isLeast (r : Word) : IsLeast {b | r.toNat < 256 ^ b} (runByteCount r) := by
  have hr := r.isLt
  unfold runByteCount
  split_ifs
  · exact ⟨by simpa, fun _ _ => Nat.zero_le _⟩
  all_goals exact isLeast_bytes_succ (by omega) (by omega)

theorem pendingRun_one : pendingRun 1 = runGroup 0 0 := rfl

/-- The tokens of a run whose decremented value takes b + 1 bytes. -/
theorem pendingRun_eq_runGroup {run : Word} {b : Nat} (hrun : run ≠ 0) (hlow : 256 ^ b ≤ (run - 1).toNat)
    (hhigh : (run - 1).toNat < 256 ^ (b + 1)) : pendingRun run = runGroup (b + 1) (run - 1) := by
  have hbytes : runByteCount (run - 1) = b + 1 :=
    (runByteCount_isLeast (run - 1)).unique (isLeast_bytes_succ hlow hhigh)
  rw [pendingRun, if_neg hrun, hbytes]

/-- Settles O47: a worked case of the predictor is its two (count, magnitude) pairs compared, as R247 gives them; a worked
run flush is the number of bytes of the decremented run, and then the group of that many bytes. -/
theorem workedCases : Obligations.WorkedCases := by
  refine ⟨?_, ?_, ?_, ?_, ?_, ?_, ?_, ?_, ?_, ?_, ?_, ?_, ?_, ?_⟩
  · exact predict_delta (cp := 3) (mp := 10) (cu := 3) (mu := 10) rfl rfl (by decide)
  · exact predict_deltaUp (cp := 4) (mp := 5) (cu := 0) (mu := 0) rfl rfl (by decide)
  · exact predict_delta (cp := 1) (mp := 10) (cu := 2) (mu := 19) rfl rfl (by decide) -- G differs by -20, of magnitude 19 (R244)
  · exact predict_delta (cp := 1) (mp := 1) (cu := 1) (mu := 1) rfl rfl (by decide)
  · exact predict_delta (cp := 1) (mp := 0) (cu := 1) (mu := 2) rfl rfl (by decide)
  · exact predict_deltaUp (cp := 1) (mp := 2) (cu := 1) (mu := 0) rfl rfl (by decide)
  · exact predict_delta (cp := 1) (mp := 127) (cu := 1) (mu := 127) rfl rfl (by decide)
  · exact pendingRun_one
  · exact pendingRun_eq_runGroup (b := 0) (by decide) (by decide) (by decide)
  · exact pendingRun_eq_runGroup (b := 0) (by decide) (by decide) (by decide)
  · exact pendingRun_eq_runGroup (b := 1) (by decide) (by decide) (by decide)
  · exact pendingRun_eq_runGroup (b := 1) (by decide) (by decide) (by decide)
  · exact pendingRun_eq_runGroup (b := 2) (by decide) (by decide) (by decide)
  · exact pendingRun_eq_runGroup (b := 3) (by decide) (by decide) (by decide)

end Sys2Proof.Machine
end

section
/-! The statement of 60_exceptions.md about the response and STATUS (R310, R312; 30_encoding.md R120). `exec_answered` says what
a command leaves of both from the state that its steps after any `Init()` start in; here that state is related to the one
before the command. -/

namespace Sys2Proof.Machine

/-- The state from which `exec_answered` counts a command's steps: past `Init()` for the four commands that clear STATUS
(R312), the state before the command for all others. -/
def statusStart (i : Instr) (s : State) : State := if clearsStatus i then initState s else s

section
variable {i : Instr} {s : State}

theorem statusStart_of_clears (h : clearsStatus i = true) : statusStart i s = initState s := if_pos h

theorem statusStart_of_keeps (h : clearsStatus i = false) : statusStart i s = s := if_neg (by simp [h])

/-- `Init()` is no response. -/
theorem statusStart_host : (statusStart i s).host = s.host := by
  cases h : clearsStatus i with
  | true => rw [statusStart_of_clears h, initState_host]
  | false => rw [statusStart_of_keeps h]

theorem statusStart_status : (statusStart i s).status = if clearsStatus i then 0 else s.status := by
  cases h : clearsStatus i with
  | true => rw [statusStart_of_clears h]; rfl
  | false => rw [statusStart_of_keeps h]; rfl

/-- What a failure with cause `c` leaves in STATUS (R310): a failure recorded before the command is the first one only where
the command has not cleared it. -/
theorem statusStart_recorded (c : Cause) :
    (if (statusStart i s).failed then (statusStart i s).status else statusWord c) =
      if clearsStatus i = false ∧ s.failed = true then s.status else statusWord c := by
  cases h : clearsStatus i with
  | true => simp [statusStart_of_clears h, initState_failed]
  | false => simp [statusStart_of_keeps h]

end

/-- Settles O11: no step of a command but `Init()` touches STATUS or the responses (`exec_answered`), so the one response and
the STATUS it leaves are read off the state `statusStart`, where a failure counts as recorded only if no `Init()` cleared it. -/
theorem responseAndStatus : Obligations.ResponseAndStatus := by
  intro i s t hi ht
  obtain ⟨r, hhost, -, hstatus⟩ : ∃ r, Answered (statusStart i s) t r := exec_answered hi ht
  refine ⟨r, by rw [hhost, statusStart_host], ?_⟩
  cases r with
  | ok v => exact hstatus.trans statusStart_status
  | err k c =>
    obtain ⟨hkind, hrecord⟩ := hstatus
    exact ⟨hkind, hrecord.trans (statusStart_recorded c)⟩

end Sys2Proof.Machine
end

section
/-! The statement of 70_reset_and_hazards.md about power-up (R342, R57). The reset values are read off what `Init()` leaves of any
state; the power-up state is the one that `Init()` leaves as it is. -/

namespace Sys2Proof.Machine

@[simp] theorem tableGet_nil {α : Type} (k : Nat) : tableGet ([] : Table α) k = none := rfl
@[simp] theorem freqGet_nil (k v : Byte) : freqGet [] k v = 0 := rfl
@[simp] theorem codeGet_nil (k v : Byte) : codeGet [] k v = none := rfl
@[simp] theorem Memory.read_nil (x : Nat) : Memory.read [] x = none := rfl

/-- TOKCOUNT of an empty buffer fits its register, so it is no free value (R32). -/
theorem tokCount_of_tokbuf_nil {s : State} (h : s.tokbuf = []) : s.tokCount = 0 := by
  simp [State.tokCount, h]

/-- `Init()` gives every element its reset value, whatever it held before (R340). -/
theorem atReset_initState (s : State) : AtReset (initState s) where
  writer := rfl
  reader := rfl
  mtfLen := rfl
  freq := freqGet_nil
  etree := tableGet_nil
  code := codeGet_nil
  tokbuf := rfl
  tokCount := tokCount_of_tokbuf_nil rfl
  dtree := tableGet_nil
  loaded := rfl
  prior := rfl
  run := rfl
  c := rfl
  drun := rfl
  image := rfl
  linebuf := Memory.read_nil
  out := Memory.read_nil
  status := rfl

/-- RESET is `Init()` and the answer OK, whatever STATUS holds (R340). -/
theorem exec_reset (s : State) : exec .reset s = .next (respond (.ok 0) (initState s)) := runAlways_ok rfl

/-- Nothing is left for `Init()` to change at power-up (R342). -/
@[simp] theorem initState_reset : initState State.reset = State.reset := rfl

/-- Settles O1: both halves hold of what `Init()` leaves of any state, and the power-up state is what it leaves of itself. -/
theorem powerUpState : Obligations.PowerUpState := by
  constructor
  · have h : AtReset (initState State.reset) := atReset_initState State.reset
    rwa [initState_reset] at h
  · rw [exec_reset, initState_reset]

end Sys2Proof.Machine
end

section
/-! The statements of 30_encoding.md about the decoder and the encoder: each is the inverse of the other (R90, R93, R118, R119),
and words and bits of the spec decode to what they stand for. -/

namespace Sys2Proof

open Sys2Proof.Machine (isElement steps_bind_ok steps_bind_inv)

/-! ## Command words (R118, R119) -/

/-- Each row of R118 decodes to its own command: the fields that must be 0 are 0, and an operand is read back. -/
theorem decodeCommand_of_encode {i : Instr} {w : BitVec 64} (h : encode i = .command w) : decodeCommand w = .ok i := by
  cases i
  case streamHeader | tableRecord | treeInternal | treeLeaf | tableSentinel => cases h
  case bwWriteBit b =>
    cases h
    rw [decodeCommand_word]
    cases b <;> rfl
  all_goals
    cases h
    rw [decodeCommand_word]
    simp [decodeFields, whenZero]

/-- The commands are the instructions that have a word, and every operand of a command is an encoding (R119). -/
theorem command_of_encode {i : Instr} {w : BitVec 64} (h : encode i = .command w) :
    isElement i = false ∧ WellFormed i = true := by
  cases i
  case streamHeader | tableRecord | treeInternal | treeLeaf | tableSentinel => cases h
  all_goals exact ⟨rfl, rfl⟩

/-! ## Elements of the stream (R90, R93) -/

section Parse
variable {k v : Byte} {t l r : CodeTree} {w h : Half} (rest : Bits)

theorem decodeElement_of_parse {pos : StreamPos} {bits : Bits} {i : Instr}
    (hp : parseElement nextBit .treeTooLarge .badMagic pos bits = .ok i rest) :
    decodeElement pos bits = .ok (i, rest) := by
  rw [decodeElement, hp]

theorem decodeElement_header : decodeElement .header (magic.flatMap binByte ++ binHalf w ++ binHalf h ++ rest) =
    .ok (.streamHeader w h, rest) := by
  refine decodeElement_of_parse rest ?_
  rw [List.append_assoc, List.append_assoc, parseElement, steps_bind_ok (parseMagic_bin _ _),
    steps_bind_ok (parseHalf_bin w _), steps_bind_ok (parseHalf_bin h _)]
  rfl

theorem decodeElement_record (hk : classOk k) (ht : treeOk t) :
    decodeElement .table (binByte k ++ binTree t ++ rest) = .ok (.tableRecord k t, rest) := by
  refine decodeElement_of_parse rest ?_
  rw [List.append_assoc, parseElement, steps_bind_ok (parseItem_record _ hk ht _)]
  rfl

theorem decodeElement_sentinel : decodeElement .table (binByte sentinelId ++ rest) = .ok (.tableSentinel, rest) := by
  refine decodeElement_of_parse rest ?_
  rw [parseElement, steps_bind_ok (parseItem_sentinel _ _)]
  rfl

theorem decodeElement_internal (ht : treeOk (.internal l r)) :
    decodeElement .tree (binTree (.internal l r) ++ rest) = .ok (.treeInternal l r, rest) := by
  refine decodeElement_of_parse rest ?_
  rw [parseElement, steps_bind_ok (parseTree_bin _ ht _)]
  rfl

theorem decodeElement_leaf : decodeElement .tree (binTree (.leaf v) ++ rest) = .ok (.treeLeaf v, rest) := by
  refine decodeElement_of_parse rest ?_
  rw [parseElement, steps_bind_ok (parseTree_bin (t := .leaf v) _ (show 1 ≤ maxTreeNodes by decide) _)]
  rfl

/-- An element is read back from its bits, whatever follows them. -/
theorem decodeElement_of_encode {i : Instr} (hi : WellFormed i = true) {pos : StreamPos} {bits : Bits}
    (he : encode i = .element pos bits) : decodeElement pos (bits ++ rest) = .ok (i, rest) := by
  cases i
  case streamHeader w h => cases he; exact decodeElement_header rest
  case tableRecord k t =>
    cases he
    obtain ⟨hk, ht⟩ := of_decide_eq_true hi
    exact decodeElement_record rest hk ht
  case treeInternal l r => cases he; exact decodeElement_internal rest (of_decide_eq_true hi)
  case treeLeaf v => cases he; exact decodeElement_leaf rest
  case tableSentinel => cases he; exact decodeElement_sentinel rest
  all_goals cases he -- a command has a word

end Parse

/-- Settles O4: a command is read back from the fields of its word, an element from its bits whatever follows them. -/
theorem decodeOfEncode : Obligations.DecodeOfEncode := by
  intro i hi
  refine ⟨?_, fun pos bits rest he => decodeElement_of_encode rest hi he⟩
  cases he : encode i with
  | command w => simp [decode, decodeCommand_of_encode he, Except.map]
  | element pos bits => simpa [decode] using decodeElement_of_encode [] hi he

/-! ## What decodes is an encoding -/

section Inverse
variable {bits rest : Bits} {i : Instr}

/-- An instruction read at a position of the stream is a well-formed element, and its code is the bits that were taken. -/
def ReadAs (pos : StreamPos) (bits rest : Bits) (i : Instr) : Prop :=
  WellFormed i = true ∧ isElement i = true ∧ ∃ c, encode i = .element pos c ∧ bits = c ++ rest

theorem readAs_header (h : parseElement nextBit .treeTooLarge .badMagic .header bits = .ok i rest) :
    ReadAs .header bits rest i := by
  obtain ⟨u, b1, hmagic, h⟩ := steps_bind_inv h
  obtain ⟨w, b2, hw, h⟩ := steps_bind_inv h
  obtain ⟨h', b3, hh, h⟩ := steps_bind_inv h
  cases h
  refine ⟨rfl, rfl, _, rfl, ?_⟩
  rw [parseMagic_inv hmagic, parseHalf_inv hw, parseHalf_inv hh]
  simp

theorem readAs_table (h : parseElement nextBit .treeTooLarge .badMagic .table bits = .ok i rest) :
    ReadAs .table bits rest i := by
  obtain ⟨item, b, hitem, h⟩ := steps_bind_inv h
  have hinv := parseItem_inv hitem
  match item with
  | none =>
    cases h
    exact ⟨rfl, rfl, _, rfl, hinv⟩
  | some (k, t) =>
    cases h
    obtain ⟨hbits, hk, ht⟩ := hinv
    exact ⟨decide_eq_true ⟨hk, ht⟩, rfl, _, rfl, by rw [hbits, List.append_assoc]⟩

theorem readAs_tree (h : parseElement nextBit .treeTooLarge .badMagic .tree bits = .ok i rest) :
    ReadAs .tree bits rest i := by
  obtain ⟨t, b, htree, h⟩ := steps_bind_inv h
  obtain ⟨hbits, ht⟩ := parseTree_inv htree
  cases t with
  | leaf v =>
    cases h
    exact ⟨rfl, rfl, _, rfl, hbits⟩
  | internal l r =>
    cases h
    exact ⟨decide_eq_true ht, rfl, _, rfl, hbits⟩

theorem parse_of_decodeElement {pos : StreamPos} (h : decodeElement pos bits = .ok (i, rest)) :
    parseElement nextBit .treeTooLarge .badMagic pos bits = .ok i rest := by
  unfold decodeElement at h
  split at h
  case h_1 heq => cases h; exact heq
  case h_2 => cases h

end Inverse

/-- Settles O5: a word is the fields that it decodes by (`encode_of_decodeCommand`); the bits of an element are those that
each of its fields was read from. -/
theorem encodeOfDecoded : Obligations.EncodeOfDecoded := by
  refine ⟨fun w i h => ?_, fun pos bits i rest h => ?_⟩
  · have he := encode_of_decodeCommand h
    exact ⟨he, command_of_encode he⟩
  · have hp := parse_of_decodeElement h
    cases pos with
    | header => exact readAs_header hp
    | table => exact readAs_table hp
    | tree => exact readAs_tree hp

/-! ## Words and bits of the spec -/

/-- Settles O3: each word and bit string, as written out, is the code of its instruction, and a code is read back. -/
theorem sampleWordsDecode : Obligations.SampleWordsDecode := by
  refine ⟨?_, ?_, ?_, ?_, ?_, ?_, ?_, ?_, ?_, ?_, ?_, ?_, ?_, ?_⟩
  · exact decodeCommand_of_encode (i := .bwWriteBits 3 5) rfl
  · exact decodeCommand_of_encode (i := .brReadBits 3) rfl
  · exact decodeCommand_of_encode (i := .mtfCheckAndInsert ⟨10, 0, 0, 0⟩) rfl
  · exact decodeCommand_of_encode (i := .htbCount 0 2) rfl
  · exact decodeCommand_of_encode (i := .hePutToken 7 7) rfl
  · exact decodeCommand_of_encode (i := .hdRead 7) rfl
  · exact decodeCommand_of_encode (i := .pxSetDim 3 2) rfl
  · exact decodeCommand_of_encode (i := .pxEncPixel ⟨20, 0, 0, 1⟩) rfl
  · exact decodeCommand_of_encode (i := .encodeImage 3 2) rfl
  · exact decodeCommand_of_encode (i := .reset) rfl
  · exact decodeElement_sentinel []
  · exact decodeElement_record (t := .internal (.leaf 0) (.leaf 2)) [] (by decide) (by decide)
  · exact decodeElement_leaf []
  · exact decodeElement_header (w := 2) (h := 3) []

end Sys2Proof
end

section
/-! The statements about every command: what the steps of a unit command are and keep (60_exceptions.md R303, R311), the
invariant of a run (10_state.md R22 to R51), and the step itself (70_reset_and_hazards.md R340, R343, R350). -/

namespace Sys2Proof.Machine

/-! ## The steps of a unit command -/

/-- What is known of the steps of a unit command: they are all that the command runs, they leave STATUS and the interface,
they raise the causes of R303, and they keep the invariants of the units. -/
structure UnitSteps (i : Instr) (body : M Word) : Prop where
  runs : exec i = runUnit body
  quiet : Quiet body
  raises : Raises TokensNamed (causesOf i) body
  keeps : Keeps UnitInv body

/-- Causes raised whatever the token buffer holds. -/
theorem Raises.named {α : Type} {cs : List Cause} {m : M α} (h : Raises anyState cs m) : Raises TokensNamed cs m :=
  h.mono (fun _ _ => trivial) fun _ hc => hc

section
variable {α β : Type} {m : M α}

/-- A result made of what the steps answer: its computation touches nothing. -/
theorem Quiet.map (h : Quiet m) (f : α → β) : Quiet (do let a ← m; Pure.pure (f a)) := h.bind fun _ => Quiet.pure _

theorem Raises.map {cs : List Cause} (h : Raises anyState cs m) (f : α → β) :
    Raises anyState cs (do let a ← m; Pure.pure (f a)) := h.seq fun _ => Raises.pure _

theorem Keeps.map {P : State → Prop} (h : Keeps P m) (f : α → β) : Keeps P (do let a ← m; Pure.pure (f a)) :=
  h.bind fun _ => Keeps.pure _

end

/-- Every unit command (R311) runs steps of its own. -/
theorem exists_unitSteps {i : Instr} (hi : isElement i = false) (hr : runsFailed i = false) : ∃ body, UnitSteps i body := by
  cases i
  case encodeImage | decodeImage | decodeHeader | statusRead | reset => cases hr
  case streamHeader | tableRecord | treeInternal | treeLeaf | tableSentinel => cases hi
  case bwWriteBit b =>
    exact ⟨_, rfl, (putBit_quiet b).noResult, (putBit_raises b).named.noResult, (putBit_units b).noResult⟩
  case bwWriteBits w v =>
    exact ⟨_, rfl, (bwWriteBits_quiet w v).noResult, (bwWriteBits_raises w v).named.noResult, (bwWriteBits_units w v).noResult⟩
  case bwFlush => exact ⟨_, rfl, bwFlush_quiet.noResult, bwFlush_raises.named.noResult, bwFlush_units.noResult⟩
  case brReadBit =>
    exact ⟨_, rfl, getBit_quiet.map _, (getBit_raises.map _).named, (getBit_keeps unitInv_readClosed).map _⟩
  case brReadBits w => exact ⟨_, rfl, brReadBits_quiet w, (brReadBits_raises w).named, brReadBits_units w⟩
  case mtfCheckAndInsert p =>
    exact ⟨_, rfl, (mtfCheckAndInsert_quiet p).map _, ((mtfCheckAndInsert_raises p).map _).named,
      (mtfCheckAndInsert_units p).map _⟩
  case mtfFetch j =>
    exact ⟨_, rfl, (mtfFetch_quiet _).map _, ((mtfFetch_raises _).map _).named, (mtfFetch_units _).map _⟩
  case mtfClear => exact ⟨_, rfl, mtfClear_quiet.noResult, (Raises.modify _).noResult, mtfClear_units.noResult⟩
  case htbCount k v =>
    exact ⟨_, rfl, (htbCount_quiet k v).noResult, (htbCount_raises_any k v).named.noResult, (htbCount_units k v).noResult⟩
  case htbBuild k =>
    exact ⟨_, rfl, (htbBuild_quiet k).noResult, (htbBuild_raises k).named.noResult, (htbBuild_units k).noResult⟩
  case htbDerive k =>
    exact ⟨_, rfl, (htbDerive_quiet k).noResult, (htbDerive_raises k).named.noResult, (htbDerive_units k).noResult⟩
  case hePutToken k v =>
    exact ⟨_, rfl, (putToken_quiet k v).noResult, (putToken_raises_any k v).named.noResult, (putToken_units k v).noResult⟩
  case heEncodeToken k v =>
    exact ⟨_, rfl, (encodeToken_quiet k v).noResult, (encodeToken_raises_any k v).named.noResult,
      (encodeToken_units k v).noResult⟩
  case heWriteTable =>
    exact ⟨_, rfl, writeTable_quiet.noResult, writeTable_raises.named.noResult, writeTable_units.noResult⟩
  case heWritePayload =>
    exact ⟨_, rfl, writePayload_quiet.noResult, writePayload_raises.noResult, writePayload_units.noResult⟩
  case heFinish => exact ⟨_, rfl, finish_quiet.noResult, finish_raises.noResult, finish_units.noResult⟩
  case hdReadTable => exact ⟨_, rfl, readTable_quiet.noResult, readTable_raises.named.noResult, readTable_units.noResult⟩
  case hdRead k =>
    exact ⟨_, rfl, (hdRead_quiet k).map _, ((hdRead_raises k).map _).named, (hdRead_keeps unitInv_readClosed k).map _⟩
  case pxSetDim w h =>
    exact ⟨_, rfl, (setDim_quiet w h).noResult, (Raises.modify _).noResult, (Keeps.modify fun _ hs => hs.start w h).noResult⟩
  case pxEncPixel p =>
    exact ⟨_, rfl, (encodePixel_quiet p).noResult, (encodePixel_raises p).named.noResult, (encodePixel_units p).noResult⟩
  case pxEncEnd => exact ⟨_, rfl, flushRun_quiet.noResult, flushRun_raises.named.noResult, flushRun_units.noResult⟩
  case pxDecPixel =>
    exact ⟨_, rfl, decodePixel_quiet.map _, (decodePixel_raises.map _).named, decodePixel_units.map _⟩

/-- Settles O9: a unit command runs its steps through `runUnit`, which refuses them in the failed state. -/
theorem failedStateRefusesUnitCommands : Obligations.FailedStateRefusesUnitCommands := by
  intro i s hi hr hs
  obtain ⟨body, hbody⟩ := exists_unitSteps hi hr
  rw [hbody.runs, runUnit_failed body hs]

/-! ## The steps of the other commands -/

/-- STATUS_READ runs whatever STATUS is and writes nothing. -/
theorem exec_statusRead (s : State) : exec .statusRead s = .next (respond (.ok s.status) s) := runAlways_ok rfl

/-- Settles O10: STATUS_READ does not go through the check of the failed state. -/
theorem statusReadResult : Obligations.StatusReadResult := exec_statusRead

/-- Settles O2: RESET is `Init()`, which keeps what is not the block's (`initState`) and has nothing to change the second
time. -/
theorem resetResult : Obligations.ResetResult := by
  intro s
  exact ⟨initState s, exec_reset s, atReset_initState s, rfl, rfl, rfl, rfl, exec_reset _⟩

theorem runAlways_congr {body rest : M Word} {s u : State} (h : body s = rest u) : runAlways body s = runAlways rest u := by
  rw [runAlways, runAlways, h]

theorem noResult_encodeImage (w h : Half) (s : State) :
    noResult (encodeImage w h) s = noResult (encodeRest w h) (initState s) := by
  rw [noResult, noResult, steps_bind, steps_bind, encodeImage_eq]

/-- The four commands that clear STATUS look at nothing but what `Init()` leaves (R343). -/
theorem exec_of_initState {i : Instr} (hi : clearsStatus i = true) :
    ∃ f : State → Host.Outcome State Fault Refusal, ∀ s, exec i s = f (initState s) := by
  cases i
  case reset => exact ⟨fun u => .next (respond (.ok 0) u), exec_reset⟩
  case encodeImage w h => exact ⟨runAlways (noResult (encodeRest w h)), fun s => runAlways_congr (noResult_encodeImage w h s)⟩
  case decodeImage => exact ⟨runAlways decodeRest, fun s => runAlways_congr (decodeImage_eq s)⟩
  case decodeHeader => exact ⟨runAlways decodeHeaderRest, fun s => runAlways_congr (decodeHeader_eq s)⟩
  all_goals cases hi

/-- Settles O59: the outcome is a function of what `Init()` leaves, which is made of the four parts that the states share. -/
theorem topLevelStartsFresh : Obligations.TopLevelStartsFresh := by
  intro i s s' hi hconfig hagents hhost hfree
  obtain ⟨f, hf⟩ := exec_of_initState hi
  have hinit : initState s = initState s' := by simp only [initState, hconfig, hagents, hhost, hfree]
  rw [hf, hf, hinit]

/-! ## The causes (R303) -/

theorem decodeHeaderRest_raises : Raises anyState headerCauses decodeHeaderRest :=
  readHeader_raises.seq fun _ => Raises.get fun _ => Raises.pure _

theorem noResult_error_inv {body : M Unit} {s u : State} {c : Cause} (h : noResult body s = .error c u) :
    body s = .error c u := by
  rcases steps_bind_error_inv h with h | ⟨_, _, -, h⟩
  · exact h
  · cases h

section
variable {i : Instr} {s t : State} {k : Kind} {c : Cause}

/-- A response OK is no response ERR. -/
theorem respond_ok_ne_err {r : Word} (h : (respond (.ok r) s).host.responses = s.host.responses ++ [.err k c]) : False := by
  simp at h

theorem err_of_encodeImage {w h : Half} (ht : exec (.encodeImage w h) s = .next t)
    (hr : t.host.responses = s.host.responses ++ [.err k c]) :
    ∃ u, encodeRest w h (initState s) = .error c u ∧ t = failEntry c u := by
  obtain ⟨u, he, ht⟩ := runAlways_err_inv (noResult_encodeImage w h) (encodeRest_quiet w h).noResult ht hr
  exact ⟨u, noResult_error_inv he, ht⟩

/-- Why a command can answer ERR: with a cause of its line of R303, or as a unit command in the failed state (R311). The
token buffer matters only to the commands that run, and these only where the block is ready. -/
theorem cause_of_err (hi : isElement i = false) (hn : s.failed = false → TokensNamed s) (ht : exec i s = .next t)
    (hr : t.host.responses = s.host.responses ++ [.err k c]) :
    c ∈ causesOf i ∨ (c = .failedState ∧ s.failed = true ∧ runsFailed i = false) := by
  cases hf : runsFailed i with
  | false =>
    obtain ⟨body, hbody⟩ := exists_unitSteps hi hf
    rw [hbody.runs] at ht
    rcases runUnit_err_inv hbody.quiet ht hr with ⟨hs, hc⟩ | ⟨hs, u, hu, -⟩
    · exact .inr ⟨hc, hs, rfl⟩
    · exact .inl (hbody.raises s c u (hn hs) hu)
  | true =>
    left
    cases i
    case encodeImage w h =>
      obtain ⟨u, hu, -⟩ := err_of_encodeImage ht hr
      exact (encodeRest_error hu).1
    case decodeImage =>
      obtain ⟨u, hu, -⟩ := runAlways_err_inv decodeImage_eq decodeRest_quiet ht hr
      exact decodeRest_raises hu
    case decodeHeader =>
      obtain ⟨u, hu, -⟩ := runAlways_err_inv decodeHeader_eq decodeHeaderRest_quiet ht hr
      exact decodeHeaderRest_raises _ c u trivial hu
    case statusRead =>
      cases ht
      exact (respond_ok_ne_err hr).elim
    case reset =>
      cases ht
      exact (respond_ok_ne_err (s := initState s) hr).elim
    all_goals cases hf

end

/-- Settles O12: `cause_of_err`, in which only a unit command that runs asks for the token buffer. -/
theorem causesOfCommands : Obligations.CausesOfCommands :=
  fun _ _ _ _ _ hi _ hn ht hr => cause_of_err hi (fun _ => hn) ht hr

/-! ## What every step keeps -/

theorem failEntry_config (c : Cause) (s : State) : (failEntry c s).config = s.config :=
  (failEntry_answered (Fixed.refl s) c).config

/-- Settles O13: in each case of a step, neither the read of an element, nor the instruction, nor failure entry writes the
parameters. -/
theorem configurationIsFixed : Obligations.ConfigurationIsFixed := by
  intro s t ht
  rcases step_cases ht with ⟨-, rfl⟩ | ⟨w, rest, -, hw⟩ | ⟨pos, rest, -, he⟩
  · rfl
  · rcases hw with ⟨i, -, hexec⟩ | ⟨r, -, rfl⟩
    · exact (exec_config hexec).trans rfl
    · exact failEntry_config _ _
  · rcases he with ⟨-, rfl⟩ | ⟨i, u, -, hread, hexec⟩ | ⟨c, u, -, hread, rfl⟩
    · exact failEntry_config _ _
    · exact (exec_config hexec).trans ((parseElement_quiet pos _).1 i u hread).2.1
    · exact (failEntry_config c u).trans ((parseElement_quiet pos _).2 c u hread).2.1

/-- Settles O14: after reset nothing is issued, STATUS is 0, and the units are as `Init()` leaves them. -/
theorem invariantAtReset : Obligations.InvariantAtReset where
  commands := fun _ hx => absurd hx List.not_mem_nil
  status := .inl rfl
  units := fun _ => initState_reset ▸ initState_units State.reset

theorem failedState_notMem_causesOf (i : Instr) : .failedState ∉ causesOf i := by
  cases i <;> simp [causesOf]

theorem clearsStatus_of_unit {i : Instr} (h : runsFailed i = false) : clearsStatus i = false := by
  cases i
  case encodeImage | decodeImage | decodeHeader | reset => cases h
  all_goals rfl

section Keep
variable {i : Instr} {s t : State}

theorem UnitInv.named (h : UnitInv s) : TokensNamed s := fun x hx => (h.tokbuf_ok x hx).1

theorem UnitInv.respond (h : UnitInv s) (r : Response) : UnitInv (respond r s) :=
  h.of_eq rfl rfl rfl rfl rfl rfl rfl rfl rfl rfl

/-- A command leaves STATUS 0, or with the failure that was the first: one it records itself is not FAILED_STATE, which is
raised only where STATUS has a failure already (R310, R311). -/
theorem statusLegal_exec (hi : isElement i = false) (hs : Inv s) (ht : exec i s = .next t) : StatusLegal t := by
  obtain ⟨r, hhost, hstatus⟩ := responseAndStatus i s t hi ht
  cases r with
  | ok v =>
    change t.status = if clearsStatus i then 0 else s.status at hstatus
    rw [StatusLegal, hstatus]
    split
    · exact .inl rfl
    · exact hs.status
  | err k c =>
    obtain ⟨-, hstatus⟩ := hstatus
    rw [StatusLegal, hstatus]
    split
    case isTrue => exact hs.status
    case isFalse hnew =>
      refine .inr ⟨c, ?_, rfl⟩
      rintro rfl
      have hnamed : s.failed = false → TokensNamed s := fun h => (hs.units h).named
      rcases cause_of_err hi hnamed ht (congrArg HostPort.responses hhost) with hc | ⟨-, hfailed, hunit⟩
      · exact failedState_notMem_causesOf i hc
      · exact hnew ⟨clearsStatus_of_unit hunit, hfailed⟩

/-- A command that leaves the block ready leaves its units as the spec has them: a unit command by its steps, the others by
what they make of the state that `Init()` leaves. -/
theorem unitInv_exec (hi : isElement i = false) (hs : s.failed = false → UnitInv s) (ht : exec i s = .next t)
    (hf : t.failed = false) : UnitInv t := by
  cases hr : runsFailed i with
  | false =>
    obtain ⟨body, hbody⟩ := exists_unitSteps hi hr
    rw [hbody.runs] at ht
    exact runUnit_units hbody.keeps hs ht hf
  | true =>
    cases i
    case encodeImage w h =>
      refine runAlways_units (fun x u hu => ?_) ht hf
      obtain ⟨y, v, hv, hu⟩ := steps_bind_inv hu
      cases hu
      exact encodeRest_units w h (initState_before s) hv
    case decodeImage => exact runAlways_units (fun x u hu => decodeRest_units (initState_before s) hu) ht hf
    case decodeHeader => exact runAlways_units (fun x u hu => decodeHeaderRest_units (initState_before s) hu) ht hf
    case statusRead =>
      cases ht
      exact (hs hf).respond _
    case reset =>
      cases ht
      exact (initState_units s).respond _
    all_goals cases hr

theorem Inv.exec (hi : isElement i = false) (hs : Inv s) (ht : exec i s = .next t) : Inv t where
  commands := by
    obtain ⟨r, hhost, -⟩ := responseAndStatus i s t hi ht
    rw [hhost]
    exact hs.commands
  status := statusLegal_exec hi hs ht
  units := unitInv_exec hi hs.units ht

theorem Inv.takeIssue (hs : Inv s) {x : Issue} {rest : List Issue} (hx : s.host.issues = x :: rest) :
    Inv (takeIssue s rest) where
  commands := fun y hy => hs.commands y (hx ▸ List.mem_cons_of_mem x hy)
  status := hs.status
  units := fun h => (hs.units h).of_eq rfl rfl rfl rfl rfl rfl rfl rfl rfl rfl

theorem Inv.failEntry (hs : Inv s) {c : Cause} (hc : c ≠ .failedState) : Inv (failEntry c s) where
  commands := by
    rw [(failEntry_answered (Fixed.refl s) c).host]
    exact hs.commands
  status := by
    obtain ⟨-, hstatus⟩ := (failEntry_answered (Fixed.refl s) c).status
    rw [StatusLegal, hstatus]
    split
    · exact hs.status
    · exact .inr ⟨c, hc, rfl⟩
  units := fun h => by rw [failEntry_failed] at h; cases h

end Keep

/-- Settles O15: the host issues commands only, so a step is idle, runs a command (`Inv.exec`), or refuses an illegal
word. -/
theorem stepKeepsInvariant : Obligations.StepKeepsInvariant := by
  intro s t hs ht
  rcases step_cases ht with ⟨-, rfl⟩ | ⟨w, rest, hx, hw⟩ | ⟨pos, rest, hx, -⟩
  · exact hs
  · rcases hw with ⟨i, hi, hexec⟩ | ⟨r, -, rfl⟩
    · exact (hs.takeIssue hx).exec (command_of_encode (encode_of_decodeCommand hi)).1 hexec
    · exact (hs.takeIssue hx).failEntry (by decide)
  · obtain ⟨w, hw⟩ := hs.commands (.element pos) (by simp [hx])
    cases hw

/-! ## The step -/

/-- Settles O7: the fetch takes the word and decodes it; with no word it is idle. -/
theorem stepRunsDecodedCommand : Obligations.StepRunsDecodedCommand := by
  constructor
  · intro s w rest i hi hd
    simp only [step, fetch, hi, fetchCommand, hd, takeIssue]
  · intro s hi
    simp only [step, fetch, hi]

section Element
variable {s t : State} {pos : StreamPos} {rest : List Issue}

theorem step_element (hi : s.host.issues = .element pos :: rest) (hf : s.failed = false) {i : Instr}
    (h : parseElement getBit .treeTooLarge .badMagic pos (takeIssue s rest) = .ok i t) : step s = exec i t := by
  have hf' : (takeIssue s rest).failed = false := hf
  simp [step, fetch, hi, fetchElement, hf', h]

theorem step_element_error (hi : s.host.issues = .element pos :: rest) (hf : s.failed = false) {c : Cause}
    (h : parseElement getBit .treeTooLarge .badMagic pos (takeIssue s rest) = .error c t) :
    step s = .next (failEntry c t) := by
  have hf' : (takeIssue s rest).failed = false := hf
  simp [step, fetch, hi, fetchElement, hf', h]

theorem step_element_refused (hi : s.host.issues = .element pos :: rest) (hf : s.failed = true) :
    step s = .next (failEntry .failedState (takeIssue s rest)) := by
  have hf' : (takeIssue s rest).failed = true := hf
  simp [step, fetch, hi, fetchElement, hf']

end Element

theorem parse_of_decodeElement_error {pos : StreamPos} {bits : Bits} {r : Reject} (h : decodeElement pos bits = .error r) :
    ∃ bs, parseElement nextBit .treeTooLarge .badMagic pos bits = .error r bs := by
  unfold decodeElement at h
  split at h
  case h_1 => cases h
  case h_2 bs heq => cases h; exact ⟨bs, heq⟩

/-- Settles O8: the machine reads an element as the pure decoder does (`parseElement_tracks`), and taking the issue leaves
the stream as it is. -/
theorem stepRunsDecodedElement : Obligations.StepRunsDecodedElement := by
  intro s pos rest hi
  refine ⟨fun hf => ?_, fun hf i bits hd => ?_, fun hf r hd => ?_⟩
  · rw [step_element_refused hi hf, failEntry_of_failed (takeIssue s rest) _ hf]
    rfl
  · obtain ⟨t, ht, hin, htook⟩ := (parseElement_tracks pos).ok (s := takeIssue s rest) (parse_of_decodeElement hd)
    exact ⟨t, step_element hi hf ht, htook.frame, hin⟩
  · obtain ⟨bs, hp⟩ := parse_of_decodeElement_error hd
    obtain ⟨t, ht, hframe⟩ := (parseElement_tracks pos).error (s := takeIssue s rest) hp
    exact ⟨t, step_element_error hi hf ht, hframe⟩

theorem exec_element {i : Instr} {f : State → State} (hi : exec i = runElement f) {s : State} (hs : s.failed = false) :
    exec i s = .next (f s) := by
  simp [hi, runElement_eq, hs]

/-- Settles O60: an element run by itself is its effect (`runElement_eq`); that of a record is one write of DTREE. -/
theorem elementsComplete : Obligations.ElementsComplete := by
  intro s hs
  refine ⟨fun w h => exec_element (i := .streamHeader w h) rfl hs, fun k t => ?_, exec_element (i := .tableSentinel) rfl hs,
    fun l r => exec_element (i := .treeInternal l r) rfl hs, fun v => exec_element (i := .treeLeaf v) rfl hs⟩
  refine ⟨_, exec_element (i := .tableRecord k t) rfl hs, tableGet_set_same _ _ _, fun j hj => ?_⟩
  exact tableGet_set_other _ _ fun h => hj (BitVec.eq_of_toNat_eq h)

end Sys2Proof.Machine
end

section
/-! The statements of 40_bitstream.md: what the commands of the two bit streams do (R130 to R133, R140 to R142), and that the
reader gives back what the writer was given (R143). -/

namespace Sys2Proof.Machine

/-! ## The writer's commands -/

section Writer
variable {s t : State}

theorem bwWriteBits_eq {width : Byte} (hw : width.toNat ≤ 32) (v : Word) :
    bwWriteBits width v = putBits (bin width.toNat v) := by
  rw [bwWriteBits, if_neg (Nat.not_lt.mpr hw), writeBits]

theorem exec_bwWriteBit_ok {b : Bool} (hs : s.failed = false) (h : putBit b s = .ok () t) :
    exec (.bwWriteBit b) s = .next (respond (.ok 0) t) :=
  runUnit_ok hs (noResult_ok h)

theorem exec_bwWriteBits_ok {width : Byte} {v : Word} (hs : s.failed = false) (hw : width.toNat ≤ 32)
    (h : putBits (bin width.toNat v) s = .ok () t) : exec (.bwWriteBits width v) s = .next (respond (.ok 0) t) :=
  runUnit_ok hs (noResult_ok (bwWriteBits_eq hw v ▸ h))

theorem exec_bwFlush_ok (hs : s.failed = false) (h : bwFlush s = .ok () t) :
    exec .bwFlush s = .next (respond (.ok 0) t) :=
  runUnit_ok hs (noResult_ok h)

/-- With no pending bit BW_FLUSH makes no access (R133). -/
theorem exec_bwFlush_idle (hs : s.failed = false) (h : s.writer.n = 0) : exec .bwFlush s = .next (respond (.ok 0) s) :=
  exec_bwFlush_ok hs (bwFlush_idle h)

/-- A sink that refuses the padded byte: the pending bits stay (R133). -/
theorem bwFlush_refused (hn : 0 < s.writer.n) {rest : List SinkAnswer} (ha : s.agents.sinkAnswers = .ioerr :: rest) :
    bwFlush s = .error .sinkIo (s.setAgents { s.agents with sinkAnswers := rest }) := by
  have hput : ∀ b, sinkPut b s = .error .sinkIo (s.setAgents { s.agents with sinkAnswers := rest }) := fun b => by
    simp only [sinkPut, ha]
  rw [bwFlush, steps_bind_ok (steps_get s), if_pos hn, steps_bind_error (hput _)]

end Writer

/-- Settles O16: with a ready sink the steps append exactly the bits (`Wrote`) and keep the bits of BW_ACC above BW_N zero
(`WriterTidy`). -/
theorem writeBitsResult : Obligations.WriteBitsResult := by
  intro s hs hw hr hacc
  refine ⟨fun b => ?_, fun width v hwidth => ?_⟩
  · obtain ⟨t, ht, hwrote⟩ := putBit_wrote hw hr b
    exact ⟨t, exec_bwWriteBit_ok hs ht, hwrote.frame, hwrote.ready, hwrote.stream, hwrote.pending,
      (putBit_tidy b s () t ⟨hw, hacc⟩ ht).2⟩
  · obtain ⟨t, ht, hwrote⟩ := putBits_wrote (bin width.toNat v) hw hr
    have hpending := hwrote.pending
    rw [bin_length] at hpending
    exact ⟨t, exec_bwWriteBits_ok hs hwidth ht, hwrote.frame, hwrote.ready, hwrote.stream, hpending,
      (putBits_tidy _ s () t ⟨hw, hacc⟩ ht).2⟩

/-- Settles O17: the steps are the writes of the low bits, which fail at the byte refused (`putBits_sinkFails`). -/
theorem writeBitsSinkFailure : Obligations.WriteBitsSinkFailure := by
  intro s width v j rest hs hw hwidth ha hj
  obtain ⟨t, ht, hframe, hrest, hsink⟩ := putBits_sinkFails rest (bin width.toNat v) j hw ha (by rwa [bin_length])
  rw [← bwWriteBits_eq hwidth v] at ht
  exact ⟨t, runUnit_error hs (noResult_error ht), hframe, hrest, hsink⟩

/-- Settles O18: after a flush no bit is pending, so the second one is the first clause again. -/
theorem flushResult : Obligations.FlushResult := by
  intro s hs hw
  refine ⟨exec_bwFlush_idle hs, fun hr => ?_, fun hn rest ha => ?_⟩
  · obtain ⟨t, ht, hwrote, hzero⟩ := bwFlush_wrote hw hr
    have hagain : exec .bwFlush (respond (.ok 0) t) = .next (respond (.ok 0) (respond (.ok 0) t)) :=
      exec_bwFlush_idle (hwrote.frame.failed.trans hs) hzero
    exact ⟨t, exec_bwFlush_ok hs ht, hwrote.frame, hwrote.ready, hwrote.stream, hzero, hagain⟩
  · exact runUnit_error hs (noResult_error (bwFlush_refused hn ha))

/-! ## The reader's commands -/

section Reader
variable {s t : State}

theorem brReadBits_eq {width : Byte} (hw : width.toNat ≤ 32) : brReadBits width = parseBits getBit width.toNat 0 := by
  rw [brReadBits, if_neg (Nat.not_lt.mpr hw), readBits]

theorem exec_brReadBit_ok {b : Bool} (hs : s.failed = false) (h : getBit s = .ok b t) :
    exec .brReadBit s = .next (respond (.ok ((BitVec.ofBool b).setWidth 32)) t) :=
  runUnit_ok hs (steps_bind_ok h)

theorem exec_brReadBits_ok {width : Byte} {v : Word} (hs : s.failed = false) (hw : width.toNat ≤ 32)
    (h : parseBits getBit width.toNat 0 s = .ok v t) : exec (.brReadBits width) s = .next (respond (.ok v) t) :=
  runUnit_ok hs (brReadBits_eq hw ▸ h)

/-- A word that is read has the bits read at its low end and zeros above. -/
theorem bin_readWord_zero {bs : Bits} (h : bs.length ≤ 32) :
    bin 32 (readWord 0 bs) = List.replicate (32 - bs.length) false ++ bs := by
  rw [bin_readWord bs (32 - bs.length) 0 (by omega) (by simp), bin_zero_word]

end Reader

/-- Settles O19: the machine reads as the pure reader does (`Tracks`), which takes exactly the bits of the field. -/
theorem readBitsResult : Obligations.ReadBitsResult := by
  intro s hs h8
  refine ⟨fun b rest hin => ?_, fun width bs rest hwidth hlen hin => ?_⟩
  · obtain ⟨t, ht, hrest, htook⟩ := getBit_tracks.ok (by rw [hin, nextBit_cons])
    exact ⟨t, exec_brReadBit_ok hs ht, htook.frame, hrest, getBit_n h8 ht⟩
  · have hparse : parseBits nextBit width.toNat 0 (streamIn s) = .ok (readWord 0 bs) rest := by
      rw [hin, ← hlen, parseBits_append]
    obtain ⟨t, ht, hrest, htook⟩ := (parseBits_tracks _ _).ok hparse
    obtain ⟨hnone, hsome⟩ := parseBits_n _ _ h8 ht
    refine ⟨readWord 0 bs, t, exec_brReadBits_ok hs hwidth ht, ?_, htook.frame, hrest, fun h => hnone (by rw [h]; rfl),
      fun h => hsome fun h0 => h (BitVec.eq_of_toNat_eq h0)⟩
    rw [← hlen, bin_readWord_zero (by omega)]

/-- Settles O20: the pure reader's only failure is a bit string that ends too early, which the machine answers with the
source's own ending. -/
theorem readPastTheEnd : Obligations.ReadPastTheEnd := by
  intro s hs
  refine ⟨fun hin => ?_, fun width hwidth hlen => ?_⟩
  · obtain ⟨t, ht, hframe⟩ := getBit_tracks.error (s := s) (e := .truncated) (bs := []) (by rw [hin]; rfl)
    exact ⟨t, runUnit_error hs (steps_bind_error ht), hframe⟩
  · obtain ⟨t, ht, hframe⟩ := (parseBits_tracks width.toNat 0).error (parseBits_short _ _ _ hlen)
    rw [← brReadBits_eq hwidth] at ht
    exact ⟨t, runUnit_error hs ht, hframe⟩

/-! ## Fields written and read back (R143) -/

/-- The bits that the command of a field writes. -/
def BitField.streamBits : BitField → Bits
  | .bit b => [b]
  | .bits w v => bin w.toNat v

theorem BitField.streamBits_length (f : BitField) : f.streamBits.length = f.width := by
  cases f with
  | bit b => rfl
  | bits w v => exact bin_length _ _

/-- Bits were written by commands that all completed: as `Wrote`, but for the responses. -/
structure Appended (s t : State) (bs : Bits) : Prop where
  stream : streamOut t = streamOut s ++ bs
  pending : t.writer.n = (s.writer.n + bs.length) % 8
  ready : SinkReady t
  failed : t.failed = s.failed

theorem Wrote.appended {s t : State} {bs : Bits} (h : Wrote s t bs) (r : Response) : Appended s (respond r t) bs :=
  ⟨h.stream, h.pending, h.ready, h.frame.failed⟩

theorem Appended.trans {s t u : State} {bs cs : Bits} (h : Appended s t bs) (h' : Appended t u cs) :
    Appended s u (bs ++ cs) where
  stream := by rw [h'.stream, h.stream, List.append_assoc]
  pending := by rw [h'.pending, h.pending, List.length_append, Nat.mod_add_mod, Nat.add_assoc]
  ready := h'.ready
  failed := h'.failed.trans h.failed

theorem Appended.writerReady {s t : State} {bs : Bits} (h : Appended s t bs) : WriterReady t := by
  rw [WriterReady, h.pending]
  omega

/-- The command of a field appends the field's bits (R131, R132). -/
theorem exec_write_field {s : State} {f : BitField} (hf : f.width ≤ 32) (hs : s.failed = false) (hw : WriterReady s)
    (hr : SinkReady s) : ∃ t, exec f.write s = .next t ∧ Appended s t f.streamBits := by
  cases f with
  | bit b =>
    obtain ⟨t, ht, hwrote⟩ := putBit_wrote hw hr b
    exact ⟨_, exec_bwWriteBit_ok hs ht, hwrote.appended _⟩
  | bits w v =>
    obtain ⟨t, ht, hwrote⟩ := putBits_wrote (bin w.toNat v) hw hr
    exact ⟨_, exec_bwWriteBits_ok hs hf ht, hwrote.appended _⟩

theorem runAll_writes (fs : List BitField) {s : State} (hf : ∀ f ∈ fs, f.width ≤ 32) (hs : s.failed = false)
    (hw : WriterReady s) (hr : SinkReady s) :
    ∃ t, runAll (fs.map BitField.write) s = some t ∧ Appended s t (fs.flatMap BitField.streamBits) := by
  induction fs generalizing s with
  | nil =>
    refine ⟨s, rfl, (List.append_nil _).symm, ?_, hr, rfl⟩
    rw [WriterReady] at hw
    simp
    omega
  | cons f fs ih =>
    obtain ⟨t, ht, happ⟩ := exec_write_field (hf f List.mem_cons_self) hs hw hr
    obtain ⟨u, hu, happ'⟩ := ih (fun g hg => hf g (List.mem_cons_of_mem f hg)) (happ.failed.trans hs) happ.writerReady happ.ready
    exact ⟨u, (runAll_cons ht).trans hu, happ.trans happ'⟩

/-- The command that reads a field of the same width answers the value written (R141, R142). -/
theorem exec_read_field {u : State} {f : BitField} {rest : Bits} (hf : f.width ≤ 32) (hu : u.failed = false)
    (hin : streamIn u = f.streamBits ++ rest) :
    ∃ t, exec f.read u = .next (respond (.ok f.value) t) ∧ OnlyRead u t ∧ streamIn t = rest := by
  cases f with
  | bit b =>
    obtain ⟨t, ht, hrest, htook⟩ := getBit_tracks.ok (a := b) (bs := rest) (by rw [hin]; rfl)
    exact ⟨t, exec_brReadBit_ok hu ht, htook.frame, hrest⟩
  | bits w v =>
    change w.toNat ≤ 32 at hf
    have hvalue : readWord 0 (bin w.toNat v) = BitVec.ofNat 32 (v.toNat % 2 ^ w.toNat) := by
      apply BitVec.eq_of_toNat_eq
      have hlt : v.toNat % 2 ^ w.toNat < 2 ^ 32 := lt_of_le_of_lt (Nat.mod_le _ _) v.isLt
      rw [readWord_bin hf, BitVec.toNat_ofNat, Nat.mod_eq_of_lt hlt]
    have hparse : parseBits nextBit w.toNat 0 (streamIn u) = .ok (readWord 0 (bin w.toNat v)) rest := by
      rw [hin]
      exact parseBits_bin v 0 rest
    obtain ⟨t, ht, hrest, htook⟩ := (parseBits_tracks _ _).ok (hvalue ▸ hparse)
    exact ⟨t, exec_brReadBits_ok hu hf ht, htook.frame, hrest⟩

theorem OnlyRead.host {s t : State} (h : OnlyRead s t) : t.host = s.host := by
  rw [OnlyRead] at h
  rw [h]
  rfl

theorem runAll_reads (fs : List BitField) {u : State} {rest : Bits} (hf : ∀ f ∈ fs, f.width ≤ 32) (hu : u.failed = false)
    (hin : streamIn u = fs.flatMap BitField.streamBits ++ rest) :
    ∃ t, runAll (fs.map BitField.read) u = some t ∧
      t.host.responses = u.host.responses ++ fs.map (fun f => .ok f.value) ∧ streamIn t = rest := by
  induction fs generalizing u with
  | nil => exact ⟨u, rfl, (List.append_nil _).symm, hin⟩
  | cons f fs ih =>
    rw [List.flatMap_cons, List.append_assoc] at hin
    obtain ⟨t, ht, hframe, hrest⟩ := exec_read_field (hf f List.mem_cons_self) hu hin
    obtain ⟨v, hv, hresp, hlast⟩ := ih (u := respond (.ok f.value) t) (fun g hg => hf g (List.mem_cons_of_mem f hg))
      (hframe.failed.trans hu) hrest
    refine ⟨v, (runAll_cons ht).trans hv, ?_, hlast⟩
    rw [hresp, respond_host, hframe.host]
    simp

/-- The zero bits up to the next byte boundary are those after the bits past the last one. -/
theorem padding_mod (n : Nat) : padding (n % 8) = padding n := by
  rw [padding, padding, Nat.mod_mod]

theorem streamIn_of_bytes {u : State} {bytes : List Byte} (hn : u.reader.n = 0) (hs : u.agents.source = bytes.map .byte) :
    streamIn u = bitsOf bytes := by
  have hbytes : sourceBytes (bytes.map .byte) = bytes := by simpa [sourceBytes] using sourceBytes_map bytes []
  rw [streamIn, hn, hs, hbytes, bin_zero, List.nil_append]

/-- Settles O21: the writes append the fields' bits and the flush the padding, so the bytes delivered are these bits; the
reads take them field by field. -/
theorem bitRoundTrip : Obligations.BitRoundTrip := by
  intro fs s hf hs hr hn
  obtain ⟨t, ht, happ⟩ := runAll_writes fs hf hs (by rw [WriterReady, hn]; omega) hr
  have hpending : t.writer.n = (fs.map BitField.width).sum % 8 := by
    rw [happ.pending, hn, Nat.zero_add, List.length_flatMap]
    simp only [BitField.streamBits_length]
  obtain ⟨v, hv, hwrote, hzero⟩ := bwFlush_wrote happ.writerReady happ.ready
  rw [hpending, padding_mod] at hwrote
  obtain ⟨bytes, hsink, hbits⟩ := sink_of_stream (happ.trans (hwrote.appended (.ok 0))).stream hn hzero
  refine ⟨respond (.ok 0) v, bytes, ?_, hsink, fun u hu hun husrc => ?_⟩
  · rw [runAll_append, ht, Option.bind_some, runAll_cons (exec_bwFlush_ok (happ.failed.trans hs) hv)]
    rfl
  · exact runAll_reads fs hf hu ((streamIn_of_bytes hun husrc).trans hbits)

end Sys2Proof.Machine
end

section
/-! The statements of 41_mtf_cache.md about one command (R160, R162, R164), and those of 42_huffman_tree_builder.md about the
counts, the trees and the codes (R180 to R186). -/

namespace Sys2Proof.Machine

/-! ## The cache -/

/-- Settles O22: the position found is the length of what stands before the pixel. -/
theorem checkAndInsertResult : Obligations.CheckAndInsertResult := by
  intro s p hs
  exact ⟨fun pre post he hn => exec_mtfCheckAndInsert_ok hs (mtfCheckAndInsert_hit he hn),
    fun hn hl => exec_mtfCheckAndInsert_ok hs (mtfCheckAndInsert_miss hn hl)⟩

/-- Settles O23: the position fetched is the length of what stands before the pixel. -/
theorem fetchAndClearResult : Obligations.FetchAndClearResult := by
  intro s hs
  exact ⟨fun index p pre post he hj => exec_mtfFetch_ok hs (hj ▸ mtfFetch_ok he),
    [], runUnit_ok hs (noResult_ok (steps_modify _ s)), rfl⟩

/-! ## The tree builder -/

theorem freqGet_count (t : Table Word) (k v k' v' : Byte) :
    freqGet (tableSet t (entryKey k v) (freqGet t k v + 1)) k' v' = freqGet t k' v' + if k' = k ∧ v' = v then 1 else 0 := by
  rw [freqGet_set]
  split
  case isTrue h => rw [h.1, h.2]
  case isFalse h => exact (BitVec.add_zero _).symm

/-- Settles O26: the one entry written is the one read back with 1 more. -/
theorem countResult : Obligations.CountResult := by
  intro s k v hs hk ht
  exact ⟨_, runUnit_ok hs (noResult_ok (htbCount_ok v hk ht.ne)), freqGet_count _ k v⟩

/-- Settles O27: the tree is the one that `buildTree` answers for the counts of the class (`buildTree_row`). -/
theorem buildResult : Obligations.BuildResult := by
  intro s k hs hk hw
  obtain ⟨hbuilt, hnone⟩ := buildTree_row hw k
  refine ⟨_, _, runUnit_ok hs (noResult_ok (htbBuild_ok hk)), fun j hj => setEtree_other _ hj _, ?_, ?_,
    fun j v => codeGet_dropClass _ k j v⟩
  · simpa only [setEtree_same] using hbuilt
  · simpa only [setEtree_same] using hnone

/-- Settles O28: the leaves are the counted values, at most 256, and a tree in which every node has no or two children has
its size and its greatest depth by its leaves. -/
theorem builtTreeShape : Obligations.BuiltTreeShape := by
  intro f t ht
  have hleaves : t.leaves = (countedValues f).length := t.values_length ▸ ht.values.length_eq
  exact ⟨ht.values, ht.nodup, hleaves, t.size_eq, ht.ok, Nat.le_sub_one_of_lt t.height_lt⟩

/-- Settles O29: `derivedCode` gives the class the paths of its tree and leaves the other classes. -/
theorem deriveResult : Obligations.DeriveResult := by
  intro s k hs hk hn
  exact ⟨_, exec_htbDerive_ok hs hk, derivedCode_spec hn⟩

end Sys2Proof.Machine
end

section
/-! The statements of 43_huffman_encoder.md: token intake (R200), a token's code (R202), the codebook table (R204), the payload
(R206) and HE_FINISH (R207). -/

namespace Sys2Proof.Machine

/-! ## Tokens -/

/-- One more token is one more in TOKCOUNT, where the register holds the number (R32). -/
theorem tokCount_snoc {s : State} (t : Token) (h : s.tokbuf.length + 1 < 2 ^ 32) :
    (s.setTokbuf (s.tokbuf ++ [t])).tokCount = s.tokCount + 1 := by
  have hlen : (s.setTokbuf (s.tokbuf ++ [t])).tokbuf.length = s.tokbuf.length + 1 := by simp
  apply BitVec.eq_of_toNat_eq
  rw [tokCount_toNat (by omega), BitVec.toNat_add, tokCount_toNat (by omega), hlen]
  exact (Nat.mod_eq_of_lt h).symm

/-- Settles O31: the steps count the token and append it (`putOne`). -/
theorem putTokenResult : Obligations.PutTokenResult := by
  intro s k v hs hk hd ht
  exact ⟨_, runUnit_ok hs (noResult_ok (putToken_ok v hk hd ht.ne)), freqGet_count _ k v, tokCount_snoc ⟨k, v⟩⟩

/-- Settles O33: the steps are the writes of the code's bits, of which the empty code has none. -/
theorem encodeTokenResult : Obligations.EncodeTokenResult := by
  intro s k v c hs hk hc
  have hsteps : encodeToken k v s = putBits c s := encodeToken_ok hk hc
  refine ⟨?_, fun hw hr => ?_⟩
  · rintro rfl
    exact runUnit_ok hs (noResult_ok hsteps)
  · obtain ⟨t, ht, hwrote⟩ := putBits_wrote c hw hr
    exact ⟨t, runUnit_ok hs (noResult_ok (hsteps.trans ht)), hwrote.frame, hwrote.ready, hwrote.stream, hwrote.pending⟩

/-! ## The codebook table -/

section Table
variable {s t : State}

theorem exec_heWriteTable_ok (hs : s.failed = false) (h : writeTable s = .ok () t) :
    exec .heWriteTable s = .next (respond (.ok 0) t) :=
  runUnit_ok hs (noResult_ok h)

variable {b b' : TreeBuilder} {k : Byte}

/-- The sentinel's id and a class with no counted token have no record: their trees and codes stay. -/
theorem TableBuilt.skipped (h : TableBuilt 0 255 b b') (hk : k = 255 ∨ classTotal b.freq k = 0) : SameClass k b b' := by
  refine h.others k ?_
  rcases hk with rfl | hk
  · exact .inr (.inl (by decide))
  · exact .inr (.inr hk)

/-- A class with a counted token has a record. -/
theorem TableBuilt.recorded (h : TableBuilt 0 255 b b') (hk : classOk k) (ht : 0 < classTotal b.freq k) :
    ∃ x, ClassBuilt b.freq k b' x := by
  have hlt : k.toNat < 0 + 255 := by
    have hle := classOk_toNat hk
    omega
  exact h.built k (Nat.zero_le _) hlt ht

end Table

/-- Settles O34: with a ready sink the bits of the table are written (`writeTable_wrote`), and each class is skipped or built
(`TableBuilt`). -/
theorem writeTableResult : Obligations.WriteTableResult := by
  intro s hs hw hr hf
  obtain ⟨t, ht, hwrote, hbuilt⟩ := writeTable_wrote hw hr hf
  refine ⟨t, exec_heWriteTable_ok hs ht, hwrote.frame, hwrote.ready, hbuilt.freq, hwrote.stream, hwrote.pending,
    fun k => ⟨hbuilt.skipped, fun hk htotal => ?_⟩⟩
  obtain ⟨x, hx⟩ := hbuilt.recorded hk htotal
  exact ⟨x, hx.tree, hx.built, hx.record, hx.codes, fun v => hx.complete⟩

/-! ## The payload -/

theorem writePayload_eq (s : State) : writePayload s = encodeTokens s.tokbuf s := by
  rw [writePayload, steps_bind_ok (steps_get s)]

/-- Tokens up to one without a code: the codes before it are written (R206). -/
theorem encodeTokens_noCode {ts us : List Token} {x : Token} {s : State} {bits : Bits} (hw : WriterReady s)
    (hr : SinkReady s) (hk : ∀ y ∈ ts ++ x :: us, classOk y.k) (hts : payloadBits s.builder.code ts = some bits)
    (hx : codeGet s.builder.code x.k x.v = none) :
    ∃ t, encodeTokens (ts ++ x :: us) s = .error .noCode t ∧ Wrote s t bits := by
  obtain ⟨t, ht, hwrote⟩ := encodeTokens_wrote ts hw hr (fun y hy => hk y (List.mem_append_left _ hy)) hts
  have hx' : codeGet t.builder.code x.k x.v = none := by rw [hwrote.frame.builder, hx]
  refine ⟨t, ?_, hwrote⟩
  rw [encodeTokens_append, steps_bind_ok ht, encodeTokens, steps_bind_error (encodeToken_noCode (hk x (by simp)) hx')]

/-- Settles O35: tokens with codes are written in order, up to the first without one (`encodeTokens_noCode`). -/
theorem writePayloadResult : Obligations.WritePayloadResult := by
  intro s hs hw hr hk
  refine ⟨fun bits hbits => ?_, fun ts x us bits he hbits hx => ?_⟩
  · obtain ⟨t, ht, hwrote⟩ := encodeTokens_wrote s.tokbuf hw hr hk hbits
    rw [← writePayload_eq] at ht
    exact ⟨t, runUnit_ok hs (noResult_ok ht), hwrote.frame, hwrote.ready, hwrote.stream, hwrote.pending⟩
  · rw [he] at hk
    obtain ⟨t, ht, hwrote⟩ := encodeTokens_noCode hw hr hk hbits hx
    rw [← he, ← writePayload_eq] at ht
    exact ⟨t, runUnit_error hs (noResult_error ht), hwrote.frame, hwrote.stream⟩

/-- Settles O36: after the table every counted token has a code, so the payload is written too (`finish_wrote`). -/
theorem finishResult : Obligations.FinishResult := by
  intro s hs hw hr hf htok
  obtain ⟨t, bits, ht, hbits, hbuilt, hzero, hwrote⟩ := finish_wrote hw hr hf htok
  refine ⟨t, bits, runUnit_ok hs (noResult_ok ht), hwrote.frame, hwrote.ready, hbits, hbuilt.freq, hzero, ?_⟩
  rw [hwrote.stream, List.append_assoc, List.append_assoc, List.append_assoc]
  rfl

end Sys2Proof.Machine
end

section
/-! The statements of 44_huffman_decoder.md: reading the table (R220, R221) and a token (R224), and that the decoder reads what
the encoder wrote (R225). -/

namespace Sys2Proof.Machine

/-! ## The table -/

section Table
variable {s t : State}

theorem exec_hdReadTable_ok (hs : s.failed = false) (h : readTable s = .ok () t) :
    exec .hdReadTable s = .next (respond (.ok 0) t) :=
  runUnit_ok hs (noResult_ok h)

/-- A table in the form in which the statements write it. -/
theorem readTable_records {records : List (Byte × CodeTree)} {rest : Bits} (hok : ∀ x ∈ records, classOk x.1 ∧ treeOk x.2)
    (hs : streamIn s = records.flatMap (fun x => binByte x.1 ++ binTree x.2) ++ binByte 255 ++ rest) :
    ∃ t, readTable s = .ok () t ∧ streamIn t = rest ∧ Took (s.setDecoder ⟨loadAll records s.decoder.dtree, true⟩) t :=
  readTable_ok hok (by rw [hs, List.append_assoc]; rfl)

/-- A failing item ends HD_READ_TABLE (R220). -/
theorem readTable_item_error {c : Cause} (h : parseItem getBit .treeTooLarge s = .error c t) : readTable s = .error c t := by
  rw [readTable, steps_bind_ok (steps_get s), readRecords, steps_bind_error h]

end Table

/-- Settles O37: the records are loaded in order over the trees held before (`loadAll`), so the last of a class counts. -/
theorem readTableResult : Obligations.ReadTableResult := by
  intro s records rest hs hok hin
  obtain ⟨t, ht, hrest, htook⟩ := readTable_records hok hin
  have hdecoder : t.decoder = ⟨loadAll records s.decoder.dtree, true⟩ := htook.decoder
  refine ⟨t, exec_hdReadTable_ok hs ht, hdecoder ▸ htook.frame, hrest, by rw [hdecoder], fun k => ?_⟩
  rw [hdecoder]
  exact loadAll_get records s.decoder.dtree k

/-- Settles O38: the pure reader of the record fails at the node that is one too many (`parseItem_large`), and the machine as
it does. -/
theorem treeTooLarge : Obligations.TreeTooLarge := by
  intro s k t rest hs hk ht hin
  obtain ⟨bs, hparse⟩ := parseItem_large .treeTooLarge hk ht rest
  obtain ⟨u, hu, hframe⟩ := parseItem_tracks.error (hin ▸ hparse)
  exact ⟨u, runUnit_error hs (noResult_error (readTable_item_error hu)), hframe⟩

/-! ## A token -/

theorem exec_hdRead_ok {s u : State} {k v : Byte} (hs : s.failed = false) (h : hdRead k s = .ok v u) :
    exec (.hdRead k) s = .next (respond (.ok (v.setWidth 32)) u) :=
  runUnit_ok hs (steps_bind_ok h)

theorem leaf_of_follow_nil {t : CodeTree} {v : Byte} (h : t.follow [] = some v) : t = .leaf v := by
  cases t with
  | leaf w =>
    cases h
    rfl
  | internal l r => cases h

/-- Settles O39: the walk takes the path to the leaf and no more; from a root that is a leaf there is none. -/
theorem readTokenResult : Obligations.ReadTokenResult := by
  intro s k v t c rest hs hk ht hfollow hin
  obtain ⟨u, hu, hrest, htook⟩ := hdRead_took hk ht hfollow hin
  refine ⟨u, exec_hdRead_ok hs hu, htook.frame, hrest, ?_⟩
  rintro rfl
  obtain rfl := leaf_of_follow_nil hfollow
  rw [hdRead_eq hk ht] at hu
  cases hu
  rfl

/-! ## What the encoder wrote (R225) -/

/-- A class whose tree the written table loads has the tree that the encoder built for it. -/
theorem TableBuilt.loaded {b b' : TreeBuilder} (h : TableBuilt 0 255 b b') (hw : tableWf b.freq) (k : Byte) :
    (if classOk k then buildTree (tableRow b.freq k) else none) =
      if k ≠ 255 ∧ 0 < classTotal b.freq k then tableGet b'.etree k.toNat else none := by
  by_cases hk : classOk k
  · rw [if_pos hk]
    rcases Nat.eq_zero_or_pos (classTotal b.freq k) with h0 | hpos
    · rw [if_neg (fun hc => hc.2.ne' h0)]
      exact (buildTree_row hw k).2.mpr ((classTotal_zero hw k).mp h0)
    · obtain ⟨x, hx⟩ := h.recorded hk hpos
      rw [if_pos ⟨hk, hpos⟩, hx.tree, hx.buildTree hw]
  · rw [if_neg hk, if_neg fun hc => hk hc.1]

/-- Settles O40: HTB_DERIVE's codes are the paths of the tree that HD_READ walks; the bits of the table are its records, which
load the encoder's trees into a decoder that has none. -/
theorem decoderAgreesWithEncoder : Obligations.DecoderAgreesWithEncoder := by
  constructor
  · intro e e' s k v t c rest he hk ht hn hderive hcode hs htree hin
    have hfollow : t.follow c = some v := (codeGet_exec_htbDerive he hk ht hn hderive v c).mp hcode
    obtain ⟨u, hu, hrest, -⟩ := hdRead_took hk htree hfollow hin
    exact ⟨u, exec_hdRead_ok hs hu, hrest⟩
  · intro e e' s bits rest he hw hr hf hwrite hbits hs hnone hin
    obtain ⟨t, ht, hwrote, hbuilt⟩ := writeTable_wrote hw hr hf
    rw [exec_heWriteTable_ok he ht] at hwrite
    cases hwrite
    obtain rfl : bits = tableBits e.builder.freq := List.append_cancel_left (hbits.symm.trans hwrote.stream)
    rw [tableBits_eq, List.append_assoc] at hin
    obtain ⟨u, hu, hrest, htook⟩ := readTable_ok (tableRecords_ok hf) hin
    refine ⟨u, exec_hdReadTable_ok hs hu, hrest, fun k => ?_⟩
    rw [htook.decoder]
    exact (loadAll_tableRecords _ _ k).trans (by rw [hnone, Option.or_none, hbuilt.loaded hf]; rfl)

end Sys2Proof.Machine
end

section
/-! The statements of 45_pixel_codec.md about one command: the set-up of an image (R239), a pixel encoded (R240 to R252) and a
pixel decoded (R260 to R262); and the checks that commands make before any effect (60_exceptions.md R315). -/

namespace Sys2Proof.Machine

/-- Settles O41: the state after is the model's `startImage`. -/
theorem setDimResult : Obligations.SetDimResult := by
  intro s w h hs
  exact ⟨⟨zeroPixel, 0, []⟩, ⟨zeroPixel, 0, []⟩, [], runUnit_ok hs (noResult_ok (steps_modify (startImage w h) s)),
    rfl, rfl, Memory.read_nil, rfl, rfl, Memory.read_nil, rfl⟩

/-! ## A pixel encoded -/

section Encode
variable {s t : State} {p : Pixel}

theorem exec_pxEncPixel_ok (hs : s.failed = false) (h : encodePixel p s = .ok () t) :
    exec (.pxEncPixel p) s = .next (respond (.ok 0) t) :=
  runUnit_ok hs (noResult_ok h)

theorem exec_pxEncPixel_error {c : Cause} (hs : s.failed = false) (h : encodePixel p s = .error c t) :
    exec (.pxEncPixel p) s = .next (failEntry c t) :=
  runUnit_error hs (noResult_error h)

/-- The encode side's registers written after the pixel is taken: reading `up` did not touch them. -/
theorem pixelTaken_setEnc (e : PxEncoder) : (pixelTaken (encodeUpRead s).2 p).setEnc e =
    ((encodeUpRead s).2.setEnc e).setImage { s.image with i := s.image.i + 1 } := by
  rw [encodeUpRead_frame]
  rfl

/-- A pixel equal to PRIOR (R240 case 1). -/
theorem encodePixel_run (hi : s.image.i.toNat < s.image.pixels) : encodePixel s.enc.prior s =
    .ok () ((pixelTaken (encodeUpRead s).2 s.enc.prior).setEnc
      { s.enc with run := s.enc.run + 1, linebuf := s.enc.linebuf.write s.image.column s.enc.prior }) := by
  have hrun := encodeCase_run (s := pixelTaken (encodeUpRead s).2 s.enc.prior) (encodeUpRead s).1
  rw [pixelTaken_enc] at hrun
  exact (encodePixel_eq _ hi).trans hrun

/-- The state in which the group of a pixel is emitted: the pixel is taken and the pending run is flushed. -/
def flushedFor (s : State) (p : Pixel) : State :=
  putAll ((pixelTaken (encodeUpRead s).2 p).setEnc
    { s.enc with run := 0, linebuf := s.enc.linebuf.write s.image.column p }) (pendingRun s.enc.run)

theorem flushedFor_mtf : (flushedFor s p).mtf = s.mtf := by
  rw [flushedFor, putAll_mtf, State.setEnc_mtf, pixelTaken_mtf]

theorem flushedFor_config : (flushedFor s p).config = s.config := by
  rw [flushedFor, putAll_config, State.setEnc_config, pixelTaken_config]

theorem flushedFor_enc : (flushedFor s p).enc =
    { s.enc with run := 0, linebuf := s.enc.linebuf.write s.image.column p } := by
  rw [flushedFor, putAll_enc, State.setEnc_enc]

theorem Room.flushedFor {n : Nat} (h : Room s ((pendingRun s.enc.run).length + n)) : Room (flushedFor s p) n :=
  Room.putAll (h.pixelTaken p)

/-- A pixel that differs from PRIOR is its group after the flush (R240 step 2). -/
theorem encodePixel_other {n : Nat} (hi : s.image.i.toNat < s.image.pixels) (hp : p ≠ s.enc.prior)
    (h : Room s ((pendingRun s.enc.run).length + n)) :
    encodePixel p s = encodeGroup p (encodeUpRead s).1 (flushedFor s p) := by
  have hcase := encodeCase_other (s := pixelTaken (encodeUpRead s).2 p) (p := p) (n := n) (encodeUpRead s).1
    (by rwa [pixelTaken_enc]) (by rw [pixelTaken_enc]; exact h.pixelTaken p)
  rw [pixelTaken_enc] at hcase
  exact (encodePixel_eq p hi).trans hcase

/-- The group's cache, PRIOR and tokens, over those of the flush: all tokens are put in order on the state with the rest
written. -/
theorem putAll_flushedFor (m : List Pixel) (us : List Token) :
    putAll (((flushedFor s p).setMtf m).setEnc { (flushedFor s p).enc with prior := p }) us =
      putAll (((pixelTaken (encodeUpRead s).2 p).setMtf m).setEnc
        { prior := p, run := 0, linebuf := s.enc.linebuf.write s.image.column p }) (pendingRun s.enc.run ++ us) := by
  rw [flushedFor_enc, flushedFor, ← putAll_setMtf, ← putAll_setEnc, ← putAll_append]
  rfl

end Encode

/-- Settles O42: PRIOR is as it was when the pixel is taken, so the case split counts the pixel. -/
theorem encodeRunPixel : Obligations.EncodeRunPixel := by
  intro s hs hi
  rw [exec_pxEncPixel_ok hs (encodePixel_run hi), pixelTaken_setEnc]
  rfl

/-- Settles O43: the flush leaves the cache, so the group finds the pixel where it was. -/
theorem encodeLookupPixel : Obligations.EncodeLookupPixel := by
  intro s p pre post j hs hi hp he hn hj hroom
  rw [List.length_append] at hroom
  have hgroup := encodeGroup_hit (encodeUpRead s).1 (flushedFor_mtf.trans he) hn hj (hroom.flushedFor (p := p))
  rw [putAll_flushedFor] at hgroup
  exact exec_pxEncPixel_ok hs ((encodePixel_other hi hp hroom).trans hgroup)

/-- Settles O44: the flush leaves PRIOR, so the predictor chooses as it would before it. -/
theorem encodeDeltaPixel : Obligations.EncodeDeltaPixel := by
  intro s p hs hi hp hn hl hroom
  refine ⟨(predict p s.enc.prior (encodeUpRead s).1).1, (predict p s.enc.prior (encodeUpRead s).1).2, rfl, ?_⟩
  have hgroup := encodeGroup_miss (s := flushedFor s p) (encodeUpRead s).1 (flushedFor_mtf ▸ hn)
    (by rw [flushedFor_mtf, flushedFor_config]; exact hl) hroom.flushedFor
  have hprior : (flushedFor s p).enc.prior = s.enc.prior := by rw [flushedFor_enc]
  rw [putAll_flushedFor, flushedFor_mtf, flushedFor_config, hprior] at hgroup
  exact exec_pxEncPixel_ok hs ((encodePixel_other hi hp hroom).trans hgroup)

/-- Settles O45: without a pending run there is no token to put, and RUN is 0 already. -/
theorem encodeEndResult : Obligations.EncodeEndResult := by
  intro s hs hroom
  have hend : exec .pxEncEnd s =
      .next (respond (.ok 0) (putAll (s.setEnc { s.enc with run := 0 }) (pendingRun s.enc.run))) :=
    runUnit_ok hs (noResult_ok (flushRun_room (n := 0) hroom))
  refine ⟨hend, fun h0 => ?_⟩
  have hnone : pendingRun s.enc.run = [] := if_pos h0
  rw [hend, hnone, setEnc_run_zero h0]
  rfl

/-! ## The front of the cache (R243) -/

/-- What a ready unit command without a result does: its steps complete and it answers OK, or they fail and it answers
ERR. -/
theorem runUnit_cases {body : M Unit} (hq : Quiet body) {s t : State} (hs : s.failed = false)
    (ht : runUnit (noResult body) s = .next t) :
    (∃ u, body s = .ok () u ∧ t = respond (.ok 0) u ∧ t.host.responses = s.host.responses ++ [.ok 0]) ∨
      ∃ c u, body s = .error c u ∧ t.host.responses = s.host.responses ++ [.err c.kind c] := by
  cases hb : body s with
  | ok x u =>
    rw [runUnit_ok hs (noResult_ok hb)] at ht
    cases ht
    exact .inl ⟨u, rfl, rfl, by rw [respond_host, ((hq s).1 x u hb).2.2]⟩
  | error c u =>
    rw [runUnit_error hs (noResult_error hb)] at ht
    cases ht
    exact .inr ⟨c, u, rfl, by rw [(failEntry_answered ((hq s).2 c u hb) c).host]⟩

theorem cacheState_notMem_tokenCauses : Cause.cacheState ∉ tokenCauses := by decide

theorem flushRun_head {s t : State} (hs : HeadIsPrior s) (h : flushRun s = .ok () t) : HeadIsPrior t := by
  obtain ⟨hmtf, hprior⟩ := ((flushRun_flushed s).1 () t h).head
  rw [HeadIsPrior, hmtf, hprior]
  exact hs

/-- Steps that end with PRIOR at the front of the cache where they complete, and fail otherwise than with CACHE_STATE. -/
theorem headIsPrior_of_cases {body : M Unit} (hq : Quiet body) {s t : State} (hs : s.failed = false)
    (hok : ∀ u, body s = .ok () u → HeadIsPrior u) (herr : ∀ c u, body s = .error c u → c ≠ .cacheState)
    (ht : runUnit (noResult body) s = .next t) :
    (∃ r, t.host.responses = s.host.responses ++ [.ok r] ∧ (t.mtf = [] ∨ t.mtf.head? = some t.enc.prior)) ∨
      ∃ k c, t.host.responses = s.host.responses ++ [.err k c] ∧ c ≠ .cacheState := by
  rcases runUnit_cases hq hs ht with ⟨u, hu, rfl, hresp⟩ | ⟨c, u, hu, hresp⟩
  · exact .inl ⟨0, hresp, hok u hu⟩
  · exact .inr ⟨c.kind, c, hresp, herr c u hu⟩

/-- Settles O46: neither the flush nor a group leaves another pixel in front (`encodePixel_prior`, `flushRun_head`); a hit at
position 0 is met after the flush. -/
theorem cacheHeadIsPrior : Obligations.CacheHeadIsPrior := by
  refine ⟨fun s t p hs hhead hexec => ?_, fun s p hs hi hp hhead hroom => ?_⟩
  · rcases hexec with ht | ht
    · obtain ⟨hok, herr⟩ := encodePixel_prior p hhead
      refine headIsPrior_of_cases (encodePixel_quiet p) hs hok ?_ ht
      rintro c u hu rfl
      rcases herr _ u hu with hc | hc
      · cases hc
      · exact cacheState_notMem_tokenCauses hc
    · refine headIsPrior_of_cases flushRun_quiet hs (fun u => flushRun_head hhead) ?_ ht
      rintro c u hu rfl
      exact cacheState_notMem_tokenCauses (flushRun_raises s _ u trivial hu)
  · obtain ⟨post, he⟩ := List.head?_eq_some_iff.mp hhead
    have hgroup := encodeGroup_head (encodeUpRead s).1 (flushedFor_mtf (p := p).trans he)
    exact exec_pxEncPixel_error hs ((encodePixel_other (n := 0) hi hp hroom).trans hgroup)

/-! ## A pixel decoded -/

section Decode
variable {s t : State}

/-- PX_DEC_PIXEL answers C after the colour is decoded (R260). -/
theorem exec_pxDecPixel_ok {p : Pixel} (hs : s.failed = false) (hi : s.image.i.toNat < s.image.pixels)
    (h : decodeColour s = .ok () t) (hc : t.dec.c = p) :
    exec .pxDecPixel s = .next (respond (.ok (packPixel p)) (pixelGiven t)) :=
  runUnit_ok hs (steps_bind_ok (hc ▸ decodePixel_eq hi h))

theorem Ahead.of_spells {ts : List Token} {bits rest : Bits} (h : Spells s.decoder.dtree ts bits)
    (hin : streamIn s = bits ++ rest) : Ahead s (ts ++ []) rest :=
  ⟨bits, (List.append_nil ts).symm ▸ h, hin⟩

theorem deltaTokens_zero (d : Pixel) (tag : Tag) :
    deltaTokens d zeroPixel tag = token .tag (tagValue tag) :: channelTokens d := by
  simp [deltaTokens, channelTokens, zeroPixel]

end Decode

/-- Settles O48: C is untouched by a countdown and by a RUN group. -/
theorem decodeRunPixel : Obligations.DecodeRunPixel := by
  intro s hs hi
  refine ⟨fun hd => exec_pxDecPixel_ok hs hi (decodeColour_countdown hd) rfl, fun hd b r bits rest hb hr hsp hin => ?_⟩
  obtain ⟨t, ht, htook, hahead⟩ := decodeColour_run hd hb hr (Ahead.of_spells hsp hin)
  exact ⟨t, exec_pxDecPixel_ok hs hi ht (by rw [htook.dec]; rfl), htook.frame, hahead.nil⟩

/-- Settles O49: position v + 1 is fetched, and the pixel there is C (`decodeColour_lookup`). -/
theorem decodeLookupPixel : Obligations.DecodeLookupPixel := by
  intro s p pre post v bits rest hs hi hd hsp hin he hv
  obtain ⟨t, ht, htook, hahead⟩ := decodeColour_lookup hd (Ahead.of_spells hsp hin) he hv
  exact ⟨t, exec_pxDecPixel_ok hs hi ht (by rw [htook.dec]; rfl), htook.frame, hahead.nil⟩

/-- Settles O50: the two groups differ in the pixel that the deltas are added to. -/
theorem decodeDeltaPixel : Obligations.DecodeDeltaPixel := by
  intro s d tag bits rest hs hi hd hl htag hsp hin
  rw [deltaTokens_zero] at hsp
  rcases htag with rfl | rfl
  · obtain ⟨t, ht, htook, hahead⟩ := decodeColour_delta hd (Ahead.of_spells hsp hin) hl
    exact ⟨s.dec.c, s, t, rfl, exec_pxDecPixel_ok hs hi ht (by rw [htook.dec]; rfl), htook.frame, hahead.nil⟩
  · obtain ⟨t, ht, htook, hahead⟩ := decodeColour_deltaUp hd (Ahead.of_spells hsp hin) hl
    exact ⟨_, _, t, rfl, exec_pxDecPixel_ok hs hi ht (by rw [htook.dec]; rfl), htook.frame, hahead.nil⟩

/-! ## The checks before any effect (R315) -/

section Checks
variable {s : State}

theorem bwWriteBits_range {w : Byte} (v : Word) (h : 32 < w.toNat) : bwWriteBits w v s = .error .widthRange s := by
  rw [bwWriteBits, if_pos h, raise_eq]

theorem brReadBits_range {w : Byte} (h : 32 < w.toNat) : brReadBits w s = .error .widthRange s := by
  rw [brReadBits, if_pos h, raise_eq]

/-- Steps that begin with the check of their class operand. -/
theorem checkClass_first {α : Type} (f : Unit → M α) : (checkClass 255 >>= f) s = .error .classRange s :=
  steps_bind_error (checkClass_range rfl s)

theorem hdRead_absent {k : Byte} (h : k = sentinelId ∨ tableGet s.decoder.dtree k.toNat = none) :
    hdRead k s = .error .classNotFound s := by
  rw [hdRead, steps_bind_ok (steps_get s)]
  by_cases hk : k = sentinelId
  · rw [if_pos hk, raise_eq]
  · rw [if_neg hk, h.resolve_left hk]
    rfl

end Checks

/-- Settles O32: each check is the first of the command's steps that can fail, and nothing is written before it. -/
theorem checksChangeOnlyStatus : Obligations.ChecksChangeOnlyStatus := by
  intro s hs
  have fails : ∀ {body : M Unit} {c : Cause}, body s = .error c s → runUnit (noResult body) s = .next (failEntry c s) :=
    fun h => runUnit_error hs (noResult_error h)
  refine ⟨?width, ?readWidth, ?fetch, ?count, ?build, ?derive, ?put, ?code, ?overflow, ?full, ?putOverflow, ?noCode, ?read,
    ?absent, ?complete⟩
  case width => exact fun w v h => fails (bwWriteBits_range v h)
  case readWidth => exact fun w h => runUnit_error hs (brReadBits_range h)
  case fetch => exact fun index h => runUnit_error hs (steps_bind_error (mtfFetch_range h))
  case count => exact fun v => fails (checkClass_first _)
  case build => exact fails (checkClass_first _)
  case derive => exact fails (checkClass_first _)
  case put => exact fun v => fails (checkClass_first _)
  case code => exact fun v => fails (checkClass_first _)
  case overflow => exact fun k v hk ht => fails (htbCount_overflow v hk ht)
  case full => exact fun k v hk hd => fails (putToken_full v hk hd)
  case putOverflow => exact fun k v hk hd ht => fails (putToken_overflow v hk hd ht)
  case noCode => exact fun k v hk hc => fails (encodeToken_noCode hk hc)
  case read => exact runUnit_error hs (steps_bind_error (hdRead_absent (.inl rfl)))
  case absent => exact fun k hk => runUnit_error hs (steps_bind_error (hdRead_absent (.inr hk)))
  case complete =>
    intro h
    have hcheck : checkImage s = .error .imageComplete s := checkImage_full h
    exact ⟨fun p => fails (steps_bind_error hcheck), runUnit_error hs (steps_bind_error (steps_bind_error hcheck))⟩

end Sys2Proof.Machine
end

section
/-! The statements of 46_top_level.md: ENCODE and DECODE as their unit commands (R353), what they deliver, take and answer (R279
to R284), why ENCODE fails (R303), and that DECODE gives back what ENCODE was given (R288). -/

namespace Sys2Proof.Machine

/-! ## Commands that answered OK -/

theorem noResult_ok_inv {body : M Unit} {s u : State} {r : Word} (h : noResult body s = .ok r u) : body s = .ok () u := by
  obtain ⟨x, v, hv, h⟩ := steps_bind_inv h
  cases h
  exact hv

theorem exec_encodeImage_ok {s t : State} {w h : Half} (he : encodeRest w h (initState s) = .ok () t) :
    exec (.encodeImage w h) s = .next (respond (.ok 0) t) :=
  runAlways_ok (noResult_ok ((encodeImage_eq w h s).trans he))

theorem exec_decodeImage_ok {s t : State} {r : Word} (hd : decodeRest (initState s) = .ok r t) :
    exec .decodeImage s = .next (respond (.ok r) t) :=
  runAlways_ok ((decodeImage_eq s).trans hd)

theorem ok_of_encodeImage {s t : State} {w h : Half} {r : Word} (ht : exec (.encodeImage w h) s = .next t)
    (hr : t.host.responses = s.host.responses ++ [.ok r]) :
    ∃ u, encodeRest w h (initState s) = .ok () u ∧ t = respond (.ok r) u := by
  obtain ⟨u, hu, ht⟩ := runAlways_ok_inv (noResult_encodeImage w h) (encodeRest_quiet w h).noResult ht hr
  exact ⟨u, noResult_ok_inv hu, ht⟩

/-- A response leaves the block as another interface and pixel source do. -/
theorem respond_outside (r : Response) (u : State) : ∃ o ps, respond r u = u.outside o ps :=
  ⟨{ u.host with responses := u.host.responses ++ [r] }, u.agents.pixels, rfl⟩

/-- Settles O52: the steps of either command are those of its unit commands one after the other (`Runs`), which do not look at
the responses and the pixel source. -/
theorem encodeIsItsUnitCommands : Obligations.EncodeIsItsUnitCommands := by
  refine ⟨fun s t r ht hr => ?_, fun s t w h ps rest r hp hl ht hr => ?_⟩
  · obtain ⟨hs, u, hu, rfl⟩ := runUnit_ok_inv finish_quiet.noResult ht hr
    have hfinish := noResult_ok_inv hu
    have hissues : u.host.issues = s.host.issues := congrArg HostPort.issues ((finish_quiet s).1 () u hfinish).2.2
    exact (Runs.finish hs hfinish).sameBlock hissues (respond_outside _ u)
  · obtain ⟨u, hu, rfl⟩ := ok_of_encodeImage ht hr
    obtain ⟨hrest, hruns⟩ := Runs.encodeRest hp hl hu
    have hissues : u.host.issues = s.host.issues :=
      congrArg HostPort.issues ((encodeRest_quiet w h (initState s)).1 () u hu).2.2
    exact ⟨hrest, hruns.sameBlock hissues (respond_outside _ u)⟩

/-- Settles O53: as for ENCODE, with the answers of the reads of the header (`Answers`). -/
theorem decodeIsItsUnitCommands : Obligations.DecodeIsItsUnitCommands := by
  intro s t r ht hr
  obtain ⟨u, hu, rfl⟩ := runAlways_ok_inv decodeImage_eq decodeRest_quiet ht hr
  obtain ⟨hdim, hindex, rs, hanswers⟩ := Answers.decodeRest hu
  have hissues : u.host.issues = s.host.issues :=
    congrArg HostPort.issues ((decodeRest_quiet (initState s)).1 r u hu).2.2
  obtain ⟨v, hv, hsame, hresp⟩ := hanswers.sameBlock (v := respond (.ok r) u) hissues (respond_outside _ u)
  exact ⟨hdim, hindex, v, rs, hv, hsame, hresp⟩

/-! ## What ENCODE leaves (R280, R281) -/

theorem runFlushed_image (s : State) : (runFlushed s).image = s.image := putAll_image _ _

theorem runFlushed_run (s : State) : (runFlushed s).enc.run = 0 := by
  rw [runFlushed, putAll_enc, State.setEnc_enc]

section Done
variable {s t v : State} {w h : Half} {ps : List Pixel} {rest : List PixelAnswer} {bits : Bits} {bytes : List Byte}

/-- No pixel is encoded yet, and all fit the image. -/
theorem startImage_left (w h : Half) (v : State) (hl : ps.length = w.toNat * h.toNat) :
    (startImage w h v).image.i.toNat + ps.length ≤ (startImage w h v).image.pixels := by
  rw [hl]
  exact (Nat.zero_add _).le

theorem EncodeDone.start_inv (d : EncodeDone s w h ps rest t v bits bytes) : EncInv (startImage w h v) := by
  obtain ⟨-, -, -, hbuilder, htokbuf, -⟩ := onlyWrote_iff.mp d.start
  exact EncInv.start w h (by rw [hbuilder]; rfl) htokbuf

theorem EncodeDone.pixels_inv (d : EncodeDone s w h ps rest t v bits bytes) (hl : ps.length = w.toNat * h.toNat) :
    EncInv (pixelsEncoded (startImage w h v) ps) :=
  d.start_inv.pixels ps (startImage_left w h v hl)

/-- The pixels and the last flush leave the same parts of the state as they found them. -/
theorem imageEncoded_frame (w h : Half) (v : State) (ps : List Pixel) :
    EncFrame (startImage w h v) (runFlushed (pixelsEncoded (startImage w h v) ps)) :=
  (pixelsEncoded_frame ps _).trans (runFlushed_frame _)

theorem imageEncoded_index (v : State) (hl : ps.length = w.toNat * h.toNat) :
    (pixelsEncoded (startImage w h v) ps).image.i.toNat = w.toNat * h.toNat := by
  obtain ⟨-, -, hi⟩ := pixelsEncoded_image ps (startImage_left w h v hl)
  rw [hi, hl]
  exact Nat.zero_add _

/-- The state behind a write that ends with another builder, and began with another interface and pixel source. -/
theorem onlyWrote_outside {e : State} {o : HostPort} {b : TreeBuilder}
    (hw : OnlyWrote ((e.outside o rest).setBuilder b) t) :
    t.config = e.config ∧ t.reader = e.reader ∧ t.tokbuf = e.tokbuf ∧ t.decoder = e.decoder ∧ t.image = e.image ∧
      t.enc = e.enc ∧ t.dec = e.dec ∧ t.status = e.status ∧ t.agents.source = e.agents.source ∧ t.agents.pixels = rest ∧
      t.host = o := by
  obtain ⟨hconfig, hreader, -, -, htokbuf, hdecoder, himage, henc, hdec, hstatus, hsource, hpixels, hhost, -⟩ :=
    onlyWrote_iff.mp hw
  exact ⟨hconfig, hreader, htokbuf, hdecoder, himage, henc, hdec, hstatus, hsource, hpixels, hhost⟩

/-- What of the block ENCODE leaves as `Init()` and PX_SET_DIM made it. -/
theorem EncodeDone.kept (d : EncodeDone s w h ps rest t v bits bytes) :
    t.config = s.config ∧ t.reader = ⟨0, 0⟩ ∧ t.decoder = ⟨[], false⟩ ∧ t.dec = ⟨zeroPixel, 0, []⟩ ∧ t.status = 0 ∧
      t.host = s.host ∧ t.agents.source = s.agents.source ∧ t.agents.pixels = rest := by
  have hframe := imageEncoded_frame w h v ps
  obtain ⟨hconfig, hreader, -, hdecoder, -, -, hdec, hstatus, hsource, hpixels, hhost⟩ := onlyWrote_outside d.frame
  obtain ⟨hconfig', hreader', -, -, -, hdecoder', -, -, -, hstatus', hsource', -⟩ := onlyWrote_iff.mp d.start
  exact ⟨hconfig.trans (hframe.config.trans hconfig'), hreader.trans (hframe.reader.trans hreader'),
    hdecoder.trans (hframe.decoder.trans hdecoder'), hdec.trans hframe.dec, hstatus.trans (hframe.status.trans hstatus'),
    hhost, hsource.trans ((congrArg Agents.source hframe.agents).trans hsource'), hpixels⟩

/-- What ENCODE leaves as its pixels and the last flush made it. -/
theorem EncodeDone.encoded (d : EncodeDone s w h ps rest t v bits bytes) :
    t.tokbuf = (runFlushed (pixelsEncoded (startImage w h v) ps)).tokbuf ∧
      t.image = (pixelsEncoded (startImage w h v) ps).image ∧ t.enc.run = 0 := by
  obtain ⟨-, -, htokbuf, -, himage, henc, -⟩ := onlyWrote_outside d.frame
  exact ⟨htokbuf, himage.trans (runFlushed_image _), (congrArg PxEncoder.run henc).trans (runFlushed_run _)⟩

end Done

/-- Settles O54: the steps complete (`encodeRest_completes`), and what steps that complete have done is `EncodeDone`. -/
theorem encodeCompletes : Obligations.EncodeCompletes := by
  intro s w h ps rest hr hp hl hd
  obtain ⟨t, ht⟩ := encodeRest_completes hr hp hl hd
  obtain ⟨v, bits, bytes, d⟩ := encodeRest_done hp hl ht
  obtain ⟨hconfig, hreader, hdecoder, hdec, hstatus, hhost, hsource, hpixels⟩ := d.kept
  obtain ⟨htokbuf, himage, hrun⟩ := d.encoded
  obtain ⟨hwidth, hheight, -⟩ := pixelsEncoded_image ps (startImage_left w h v hl)
  have hindex := imageEncoded_index v hl
  obtain ⟨-, htokens, -⟩ := (d.pixels_inv hl).flushed
  rw [← htokbuf, hindex] at htokens
  rw [← himage] at hwidth hheight hindex
  exact ⟨t, bytes, exec_encodeImage_ok ht, hpixels, hsource, d.sink, hconfig, hhost, hstatus, d.writer, hreader,
    hwidth, hheight, hindex, hrun, hdecoder, hdec, htokens, bits, d.payload, d.bits⟩

theorem failEntry_agents (c : Cause) (s : State) : (failEntry c s).agents = s.agents := by
  rw [failEntry_eq]
  split <;> rfl

/-- Settles O55: `encodeRest_error`, in which a failure other than the sink's is of the pixels, after the header. -/
theorem encodeFailures : Obligations.EncodeFailures := by
  intro s t w h k c ht hr
  obtain ⟨u, hu, rfl⟩ := err_of_encodeImage ht hr
  rw [failEntry_agents]
  exact encodeRest_error hu

/-! ## The header (R279, R284) -/

section Header
variable {s t : State} {w h : Half}

/-- After `Init()` the bits ahead are those of the source's bytes. -/
theorem streamIn_initState (s : State) : streamIn (initState s) = bitsOf (sourceBytes s.agents.source) := rfl

theorem dimResult_eq (s : State) : dimResult s = .ok (packDim s.image.w s.image.h) s := rfl

/-- A header that cannot be read fails DECODE_HEADER and DECODE alike. -/
theorem exec_header_error {c : Cause} (h : readHeader (initState s) = .error c t) :
    exec .decodeHeader s = .next (failEntry c t) ∧ exec .decodeImage s = .next (failEntry c t) :=
  ⟨runAlways_error ((decodeHeader_eq s).trans (steps_bind_error h)),
    runAlways_error ((decodeImage_eq s).trans (steps_bind_error h))⟩

theorem exec_decodeHeader_ok {i : Word} (hh : readHeader (initState s) = .ok () t) (hi : t.image = ⟨w, h, i⟩) :
    exec .decodeHeader s = .next (respond (.ok (w ++ h)) t) := by
  refine runAlways_ok ((decodeHeader_eq s).trans ?_)
  rw [decodeHeaderRest, steps_bind_ok hh, dimResult_eq, hi]
  rfl

/-- A header ahead of `Init()`: its bytes are taken whole, and the reader holds no bit. -/
theorem readHeader_bytes {rest : List SourceAnswer} (hs : s.agents.source = (headerBytes w h).map .byte ++ rest) :
    ∃ cur, readHeader (initState s) = .ok () ((((initState s).setImage ⟨w, h, 0⟩).setReader ⟨cur, 0⟩).setAgents
      { s.agents with source := rest }) := by
  have hin : streamIn (initState s) = bitsOf (headerBytes w h) ++ bitsOf (sourceBytes rest) := by
    rw [streamIn_initState, hs, sourceBytes_map, bitsOf_append]
  obtain ⟨t, ht, hrest, htook⟩ := readHeader_ok w h hin
  have hin' : streamIn ((initState s).setImage ⟨w, h, 0⟩) = bitsOf (headerBytes w h) ++ streamIn t := hrest ▸ hin
  obtain ⟨hn, hsource⟩ := htook.aligned rfl hs (bitsOf_length _) hin'
  have hreader : t.reader = ⟨t.reader.cur, 0⟩ := by rw [← hn]
  have hframe : t = (((initState s).setImage ⟨w, h, 0⟩).setReader t.reader).setAgents
      { s.agents with source := t.agents.source } := htook.frame
  rw [hsource, hreader] at hframe
  exact ⟨t.reader.cur, hframe ▸ ht⟩

end Header

/-- Settles O56: each clause is what the read of the header does from the state that `Init()` leaves; DECODE_HEADER and DECODE
fail alike where it fails. -/
theorem decodeHeaderResult : Obligations.DecodeHeaderResult := by
  intro s
  refine ⟨fun w h rest hs => ?_, fun bytes rest hl hm hs => ?_, fun hshort => ?_⟩
  · obtain ⟨cur, hread⟩ := readHeader_bytes hs
    exact ⟨cur, exec_decodeHeader_ok hread rfl⟩
  · obtain ⟨t, ht, hframe, hrest⟩ := readHeader_badMagic (s := initState s) rfl hs hl hm
    obtain ⟨hheader, himage⟩ := exec_header_error ht
    exact ⟨t, hheader, himage, hframe, hrest⟩
  · have hbits : (streamIn (initState s)).length < 56 := by
      rw [streamIn_initState, bitsOf_length]
      omega
    obtain ⟨t, ht, hframe⟩ := readHeader_short hbits
    obtain ⟨hheader, himage⟩ := exec_header_error ht
    exact ⟨t, hheader, himage, hframe⟩

/-! ## DECODE up to its pixels (R282) -/

/-- After `Init()` and the header PX_SET_DIM's steps find everything as they would leave it. -/
theorem startImage_fresh {s t : State} {w h : Half} (hk : OnlyRead ((initState s).setImage ⟨w, h, 0⟩) t) :
    startImage w h t = t := by
  rw [OnlyRead] at hk
  rw [hk]
  rfl

/-- The header and the table are read, and the pixels are still to be decoded. -/
theorem decodeRest_pixels {s : State} {w h : Half} {records : List (Byte × CodeTree)} {rest : Bits}
    (hok : ∀ x ∈ records, classOk x.1 ∧ treeOk x.2)
    (hin : bitsOf (sourceBytes s.agents.source) =
      bitsOf (headerBytes w h) ++ (recordStream records ++ (binByte sentinelId ++ rest))) :
    ∃ t, decodeRest (initState s) = (decodePixels (w.toNat * h.toNat) >>= fun _ => dimResult) t ∧ streamIn t = rest ∧
      Took (((initState s).setImage ⟨w, h, 0⟩).setDecoder ⟨loadAll records [], true⟩) t := by
  obtain ⟨u, hu, hrest, htook⟩ := readHeader_ok w h ((streamIn_initState s).trans hin)
  have hdecoder : u.decoder = ⟨[], false⟩ := htook.decoder
  have himage : u.image = ⟨w, h, 0⟩ := htook.image
  obtain ⟨t, ht, hlast, htook'⟩ := readTable_ok hok hrest
  rw [hdecoder] at htook'
  refine ⟨t, ?_, hlast, (htook.setDecoder _).trans htook'⟩
  rw [decodeRest, steps_bind_ok hu, steps_bind_ok (steps_get u), setDim, steps_bind_ok (steps_modify _ u), himage,
    startImage_fresh htook.frame, steps_bind_ok ht]

/-- Settles O57: no pixel is left to decode. -/
theorem decodeEmptyImage : Obligations.DecodeEmptyImage := by
  intro s w h records rest hempty hok hin
  rw [List.append_assoc] at hin
  obtain ⟨t, ht, hrest, htook⟩ := decodeRest_pixels hok hin
  have himage : t.image = ⟨w, h, 0⟩ := htook.image
  have hdecoder : t.decoder = ⟨loadAll records [], true⟩ := htook.decoder
  rw [hempty, decodePixels, steps_bind_ok (steps_pure () t), dimResult_eq, himage] at ht
  exact ⟨t, exec_decodeImage_ok ht, hrest, hdecoder ▸ htook.frame, by rw [hdecoder]⟩

/-! ## What DECODE reads back (R288) -/

/-- The source stands after bytes of which less than a byte's bits are left unread. -/
theorem Ate.source {s t : State} (h : Ate s t) (hn : s.reader.n = 0) {bs : List Byte} {rest : List SourceAnswer}
    (hs : s.agents.source = bs.map .byte ++ rest) {pad : Bits} (hpad : pad.length ≤ 7)
    (hin : streamIn t = pad ++ bitsOf (sourceBytes rest)) : t.agents.source = rest := by
  obtain ⟨eaten, heaten⟩ := h.bytes
  have hpending : t.reader.n ≤ 7 := h.pending (by omega)
  have hbytes := congrArg (fun l => (sourceBytes l).length) (hs.symm.trans heaten)
  have hbits := congrArg List.length hin
  simp only [sourceBytes_map, List.length_append] at hbytes
  simp only [streamIn, bin_length, List.length_append, bitsOf_length] at hbits
  have hlen : bs.length = eaten.length := by omega
  exact (List.append_inj (hs.symm.trans heaten) (by simp [hlen])).2.symm

theorem padding_length_le (n : Nat) : (padding n).length ≤ 7 := by
  rw [padding, List.length_replicate]
  omega

section RoundTrip
variable {s t v : State} {w h : Half} {ps : List Pixel} {more : List PixelAnswer} {bits : Bits} {bytes : List Byte}

/-- Before the first pixel the encoder has seen none. -/
theorem encSeen_start (w h : Half) (v : State) : EncSeen (startImage w h v) [] where
  index := rfl
  line := fun j hj => absurd hj (Nat.not_lt_zero j)

/-- The tokens buffered by an encode, as a function of its pixels. -/
theorem EncodeDone.tokens (d : EncodeDone s w h ps more t v bits bytes) (hl : ps.length = w.toNat * h.toNat) :
    t.tokbuf = laterTokens w.toNat s.config.cacheCapacity ps [] zeroPixel 0 [] := by
  obtain ⟨hconfig, -, -, -, htokbuf, -⟩ := onlyWrote_iff.mp d.start
  have hnone : (startImage w h v).tokbuf = [] := htokbuf
  have hcapacity : (startImage w h v).config.cacheCapacity = s.config.cacheCapacity := congrArg Config.cacheCapacity hconfig
  rw [d.encoded.1, pixels_tokens ps (encSeen_start w h v) (startImage_left w h v hl), hnone, hcapacity]
  rfl

/-- The payload spells the tokens in the trees that the table loads (44_huffman_decoder.md R225). -/
theorem EncodeDone.spells (d : EncodeDone s w h ps more t v bits bytes) (hl : ps.length = w.toNat * h.toNat) :
    tableWf t.builder.freq ∧ Spells (loadAll (tableRecords t.builder.freq) []) t.tokbuf bits := by
  obtain ⟨hwf, -, hcounted⟩ := (d.pixels_inv hl).flushed
  rw [d.built.freq]
  refine ⟨hwf, spells_payload d.built hwf (fun k hk => ?_) t.tokbuf (d.encoded.1 ▸ hcounted) d.payload⟩
  rw [loadAll_tableRecords, if_pos hk, tableGet_nil, Option.or_none]

/-- The pixels of an image that was encoded are decoded from the payload. -/
theorem decodePixels_of_later {u : State} {rest : Bits} (hl : ps.length = w.toNat * h.toNat) {dtree : Table CodeTree}
    (htook : Took (((initState s).setImage ⟨w, h, 0⟩).setDecoder ⟨dtree, true⟩) u)
    (hsp : Spells dtree (laterTokens w.toNat s.config.cacheCapacity ps [] zeroPixel 0 []) bits)
    (hin : streamIn u = bits ++ rest) :
    ∃ u' c, decodePixels (w.toNat * h.toNat) u = .ok () u' ∧ streamIn u' = rest ∧ DecSeen u' ps c ∧ DecFrame u u' := by
  have himage : u.image = ⟨w, h, 0⟩ := htook.image
  have hdec : u.dec = ⟨zeroPixel, 0, []⟩ := htook.dec
  have hmtf : u.mtf = [] := htook.mtf
  have hconfig : u.config = s.config := htook.config
  have hdtree : u.decoder.dtree = dtree := congrArg HuffDecoder.dtree htook.decoder
  have hseen : DecSeen u [] zeroPixel :=
    ⟨by rw [himage]; rfl, fun j => by rw [hdec]; rfl, by rw [hdec]⟩
  have hleft : u.image.i.toNat + (0 : Word).toNat + ps.length ≤ u.image.pixels := by
    rw [himage, hl]
    simp [ImageState.pixels]
  have hahead : Ahead u (laterTokens u.image.w.toNat u.config.cacheCapacity ps ([] ++ List.replicate (0 : Word).toNat zeroPixel)
      zeroPixel 0 u.mtf) rest := by
    rw [himage, hmtf, hconfig]
    exact ⟨bits, hdtree.symm ▸ hsp, hin⟩
  obtain ⟨u', c, hpixels, hrest, hout, hframe⟩ := decode_later ps hseen (by rw [hdec]) (by simp [hmtf]) u.config.capacity_le
    (.inl hmtf) hleft hahead
  have hcount : (0 : Word).toNat + ps.length = w.toNat * h.toNat := by simpa using hl
  exact ⟨u', c, hcount ▸ hpixels, hrest, hout, hframe⟩

/-- The bits of the bytes that an encode delivers, and of those that follow, as DECODE reads them. -/
theorem EncodeDone.delivered (d : EncodeDone s w h ps more t v bits bytes) (rest : List SourceAnswer) :
    bitsOf (sourceBytes ((headerBytes w h ++ bytes).map .byte ++ rest)) =
      bitsOf (headerBytes w h) ++ (recordStream (tableRecords t.builder.freq) ++ (binByte sentinelId ++
        (bits ++ (padding ((tableBits t.builder.freq).length + bits.length) ++ bitsOf (sourceBytes rest))))) := by
  rw [sourceBytes_map, bitsOf_append, bitsOf_append, d.bits]
  simp only [tableBits_eq, List.append_assoc]

end RoundTrip

/-- Settles O58: the table loads the encoder's trees, in which the payload spells the tokens of the pixels; decoded in order
they give the pixels back (`decode_later`), and less than a byte of padding is left. -/
theorem imageRoundTrip : Obligations.ImageRoundTrip := by
  intro s t u w h ps more bytes rest r hl hp ht hr hsink hcapacity hsource
  obtain ⟨e, he, rfl⟩ := ok_of_encodeImage ht hr
  obtain ⟨v, bits, body, d⟩ := encodeRest_done hp hl he
  obtain rfl : bytes = headerBytes w h ++ body :=
    List.append_cancel_left (hsink.symm.trans (d.sink.trans (List.append_assoc _ _ _)))
  obtain ⟨hwf, hsp⟩ := d.spells hl
  rw [d.tokens hl, ← hcapacity] at hsp
  obtain ⟨u₁, hdecode, hbits, htook⟩ := decodeRest_pixels (s := u) (tableRecords_ok hwf) (hsource ▸ d.delivered rest)
  obtain ⟨u₂, c, hpixels, hrest, hseen, hframe⟩ := decodePixels_of_later hl htook hsp hbits
  have himage : u₁.image = ⟨w, h, 0⟩ := htook.image
  rw [steps_bind_ok hpixels, dimResult_eq, hframe.width, hframe.height, himage] at hdecode
  have hate : Ate (initState u) u₂ := Ate.trans ⟨htook.bytes, htook.pending⟩ hframe.ate
  exact ⟨u₂, exec_decodeImage_ok hdecode, hate.source rfl hsource (padding_length_le _) hrest, hseen.out⟩

end Sys2Proof.Machine
end
